-- ==== Sys2Proof/Word.lean ====
section
/-! DEFINITION. The word types of the DS4800 (R4, R9, R97): bit vectors of the widths the manual gives. -/
namespace Sys2Proof

/-- One byte (R4). -/
abbrev Byte := BitVec 8
/-- A scalar register or address, 64 bits (R97). -/
abbrev Word := BitVec 64
/-- A vector register, 2048 bits (R9, R97). -/
abbrev VWord := BitVec 2048
/-- A mask register, 256 bits (R97). -/
abbrev MWord := BitVec 256

/-- The all-ones value of m0 (R97). -/
def allOnes256 : MWord := ~~~ 0#256

end Sys2Proof
end

