-- ==== Sys2Proof/Syntax.lean ====
section
/-! DEFINITION. The instructions and events of the DS4800: ONE inductive, one constructor for every row of the
opcode table, with the operands that the field-use tables give (R72 to R85, R106, R170, R211, R249, R295, R329).
Real instructions carry operand records; the rows that are events of the device carry what names their occurrence. -/
namespace Sys2Proof

/-- A scalar register field: 0-31 is s0-s31, 32-47 is g0-g15 (R53, R76). -/
abbrev SField := Fin 48
/-- A vector register field v0-v15 (R76). -/
abbrev VField := Fin 16
/-- A mask register field m0-m7 (R76). -/
abbrev MField := Fin 8
/-- A cache policy: 0 normal, 1 evict-first, 2 evict-last, 3 no L1 allocate, 4 no L2 allocate (R82). -/
abbrev Policy := Fin 5

/-- Operand modifier: wait 00, consume 01, peek 10 (R72, R78). -/
inductive Md where
  | wait | consume | peek
  deriving DecidableEq, Repr, Inhabited

/-- Element types by their TY codes 0-14 (R8); code 15 is reserved and has no constructor. -/
inductive Ty where
  | i8 | i16 | i32 | i64 | n8 | n16 | n32 | n64 | f16 | bf16 | f32 | f64 | e4m3 | e5m2 | f4
  deriving DecidableEq, Repr, Inhabited

/-- Rounding modes RM 0-4 and 7 (R204). -/
inductive Rm where
  | rne | rtz | rup | rdn | rna | dyn
  deriving DecidableEq, Repr, Inhabited

/-- Ordering scopes 0-4 (R80, R150). -/
inductive Scope where
  | core | clu | die | pkg | sys
  deriving DecidableEq, Repr, Inhabited

/-- ORD codes 0-3 (R80). -/
inductive Ord where
  | relaxed | acq | rel | ar
  deriving DecidableEq, Repr, Inhabited

/-- The second source of a vector instruction that accepts a scalar B, chosen by H (R58, R212). -/
inductive VB where
  | v (r : VField)
  | s (r : SField)
  deriving DecidableEq, Repr

/-- The three lengths of NOP and of an unassigned word (R68, R75). -/
inductive Len where
  | k | w | x
  deriving DecidableEq, Repr, Inhabited

/-- BR: a branch offset in 4-byte units (R109). -/
structure BrO where
  off : BitVec 24
  deriving DecidableEq, Repr

/-- JAL (R109). -/
structure JalO where
  d : SField
  off : BitVec 24
  deriving DecidableEq, Repr

/-- JR: base and byte offset (R110). -/
structure JrO where
  a : SField
  am : Md
  imm : BitVec 24
  deriving DecidableEq, Repr

/-- JALR (R110). -/
structure JalrO where
  d : SField
  a : SField
  am : Md
  imm : BitVec 24
  deriving DecidableEq, Repr

/-- A conditional branch with its taken hint H (R111). -/
structure BranchO where
  a : SField
  am : Md
  b : SField
  bm : Md
  hint : Bool
  off : BitVec 24
  deriving DecidableEq, Repr

/-- LOOP: count and end target (R113). -/
structure LoopO where
  a : SField
  am : Md
  off : BitVec 24
  deriving DecidableEq, Repr

/-- TRAP code (R115). -/
structure TrapO where
  code : BitVec 24
  deriving DecidableEq, Repr

/-- CSRR (R117). -/
structure CsrRO where
  d : SField
  idx : BitVec 12
  deriving DecidableEq, Repr

/-- CSRW (R117). -/
structure CsrWO where
  idx : BitVec 12
  a : SField
  am : Md
  deriving DecidableEq, Repr

/-- CSRS, CSRC, CSRX (R117). -/
structure CsrDO where
  d : SField
  idx : BitVec 12
  a : SField
  am : Md
  deriving DecidableEq, Repr

/-- One scalar source A. -/
structure OneA where
  a : SField
  am : Md
  deriving DecidableEq, Repr

/-- One scalar destination D. -/
structure OneD where
  d : SField
  deriving DecidableEq, Repr

/-- Destination D and source A. -/
structure RRO where
  d : SField
  a : SField
  am : Md
  deriving DecidableEq, Repr

/-- Two scalar sources. -/
structure ABO where
  a : SField
  am : Md
  b : SField
  bm : Md
  deriving DecidableEq, Repr

/-- Destination D and sources A, B. -/
structure RRR where
  d : SField
  a : SField
  am : Md
  b : SField
  bm : Md
  deriving DecidableEq, Repr

/-- Destination D, source A and a signed 24-bit immediate (R127). -/
structure RRI where
  d : SField
  a : SField
  am : Md
  imm : BitVec 24
  deriving DecidableEq, Repr

/-- Destination D, source A and a shift immediate 0-63 (R127). -/
structure RRSh where
  d : SField
  a : SField
  am : Md
  sh : BitVec 6
  deriving DecidableEq, Repr

/-- SEXT, ZEXT: width 1-63 (R128). -/
structure RRW where
  d : SField
  a : SField
  am : Md
  w : BitVec 6
  deriving DecidableEq, Repr

/-- SEL, MADD (R129). -/
structure RRRR where
  d : SField
  a : SField
  am : Md
  b : SField
  bm : Md
  c : SField
  cm : Md
  deriving DecidableEq, Repr

/-- MOVI (R130). -/
structure MoviO where
  d : SField
  imm : BitVec 48
  deriving DecidableEq, Repr

/-- MOVL (R130). -/
structure MovlO where
  d : SField
  imm : BitVec 64
  deriving DecidableEq, Repr

/-- Scalar floating point with two sources; f64 is H (R131). -/
structure FP2 where
  d : SField
  a : SField
  am : Md
  b : SField
  bm : Md
  dbl : Bool
  rm : Rm
  deriving DecidableEq, Repr

/-- Scalar floating point with one source. -/
structure FP1 where
  d : SField
  a : SField
  am : Md
  dbl : Bool
  rm : Rm
  deriving DecidableEq, Repr

/-- FCVTI, FCVTF: u is the unsigned integer side (R133). -/
structure FPC where
  d : SField
  a : SField
  am : Md
  dbl : Bool
  rm : Rm
  u : Bool
  deriving DecidableEq, Repr

/-- FFMA (R132). -/
structure FP3 where
  d : SField
  a : SField
  am : Md
  b : SField
  bm : Md
  c : SField
  cm : Md
  dbl : Bool
  rm : Rm
  deriving DecidableEq, Repr

/-- Integer vector instruction with a vector or scalar B (R216). -/
structure VI2 where
  d : VField
  a : VField
  am : Md
  b : VB
  bm : Md
  mask : MField
  ty : Ty
  deriving DecidableEq, Repr

/-- Vector instruction with one vector source (VABS, VMOV, VCOMPRESS, VSCAN). -/
structure VI1 where
  d : VField
  a : VField
  am : Md
  mask : MField
  ty : Ty
  deriving DecidableEq, Repr

/-- VCMP and VFCMP (R217, R227). -/
structure VCmpO where
  d : MField
  a : VField
  am : Md
  b : VB
  bm : Md
  mask : MField
  ty : Ty
  deriving DecidableEq, Repr

/-- VSPLAT (R218). -/
structure VSplatO where
  d : VField
  a : SField
  am : Md
  mask : MField
  ty : Ty
  deriving DecidableEq, Repr

/-- VEXT (R219). -/
structure VExtO where
  d : SField
  a : VField
  am : Md
  b : SField
  bm : Md
  ty : Ty
  deriving DecidableEq, Repr

/-- VINS (R219). -/
structure VInsO where
  d : VField
  a : SField
  am : Md
  b : SField
  bm : Md
  ty : Ty
  deriving DecidableEq, Repr

/-- VIOTA (R221). -/
structure VIotaO where
  d : VField
  mask : MField
  ty : Ty
  deriving DecidableEq, Repr

/-- VSEL, VPERM. -/
structure VV3 where
  d : VField
  a : VField
  am : Md
  b : VField
  bm : Md
  mask : MField
  ty : Ty
  deriving DecidableEq, Repr

/-- VSLIDEUP, VSLIDEDN (R220). -/
structure VSlideO where
  d : VField
  a : VField
  am : Md
  b : SField
  bm : Md
  mask : MField
  ty : Ty
  deriving DecidableEq, Repr

/-- VREDADD, VREDMIN, VREDMAX (R222). -/
structure VRedO where
  d : SField
  a : VField
  am : Md
  mask : MField
  ty : Ty
  rm : Rm
  deriving DecidableEq, Repr

/-- MAND, MOR, MXOR, MANDN (R223). -/
structure M3 where
  d : MField
  a : MField
  b : MField
  deriving DecidableEq, Repr

/-- MNOT. -/
structure M2 where
  d : MField
  a : MField
  deriving DecidableEq, Repr

/-- MPOPC, MFIRST. -/
structure MSO where
  d : SField
  a : MField
  deriving DecidableEq, Repr

/-- MFROM. -/
structure MFromO where
  d : MField
  a : VField
  am : Md
  deriving DecidableEq, Repr

/-- MTO. -/
structure MToO where
  d : VField
  a : MField
  deriving DecidableEq, Repr

/-- Floating vector instruction with two sources (R224). -/
structure VF2 where
  d : VField
  a : VField
  am : Md
  b : VB
  bm : Md
  mask : MField
  ty : Ty
  rm : Rm
  deriving DecidableEq, Repr

/-- Floating vector instruction with one source. -/
structure VF1 where
  d : VField
  a : VField
  am : Md
  mask : MField
  ty : Ty
  rm : Rm
  deriving DecidableEq, Repr

/-- VFMA, VFMS, VFNMA (R226). -/
structure VF3 where
  d : VField
  a : VField
  am : Md
  b : VB
  bm : Md
  c : VField
  cm : Md
  mask : MField
  ty : Ty
  rm : Rm
  deriving DecidableEq, Repr

/-- VCVT: destination and source types (R228). -/
structure VCvtO where
  d : VField
  a : VField
  am : Md
  mask : MField
  dst : Ty
  src : Ty
  rm : Rm
  sat : Bool
  deriving DecidableEq, Repr

/-- VPACKB, VUNPACKB (R229). -/
structure VPkO where
  d : VField
  a : VField
  am : Md
  deriving DecidableEq, Repr

/-- LD: base plus signed byte offset (R174). -/
structure LdO where
  d : SField
  a : SField
  am : Md
  imm : BitVec 24
  pol : Policy
  deriving DecidableEq, Repr

/-- ST (R175). -/
structure StO where
  a : SField
  am : Md
  b : SField
  bm : Md
  imm : BitVec 24
  pol : Policy
  deriving DecidableEq, Repr

/-- VLD (R176). -/
structure VLdO where
  d : VField
  a : SField
  am : Md
  imm : BitVec 24
  pol : Policy
  deriving DecidableEq, Repr

/-- VST (R176). -/
structure VStO where
  a : SField
  am : Md
  b : VField
  bm : Md
  imm : BitVec 24
  pol : Policy
  deriving DecidableEq, Repr

/-- VLDF: ty is the lane type named by FN, f16, bf16 or f32 (R177). -/
structure VLdfO where
  d : VField
  a : SField
  am : Md
  imm : BitVec 24
  pol : Policy
  ty : Ty
  deriving DecidableEq, Repr

/-- VLDS, VSTS: D is the vector, B the stride (R178). -/
structure VLdsO where
  d : VField
  a : SField
  am : Md
  b : SField
  bm : Md
  pol : Policy
  ty : Ty
  deriving DecidableEq, Repr

/-- VGATH, VSCAT: D is the vector, B the index vector (R178). -/
structure VGathO where
  d : VField
  a : SField
  am : Md
  b : VField
  bm : Md
  pol : Policy
  ty : Ty
  deriving DecidableEq, Repr

/-- LDSY, LDPK, LDFE (R179). -/
structure SyLdO where
  d : SField
  a : SField
  am : Md
  imm : BitVec 24
  deriving DecidableEq, Repr

/-- STSY, STFL (R179). -/
structure SyStO where
  a : SField
  am : Md
  b : SField
  bm : Md
  imm : BitVec 24
  deriving DecidableEq, Repr

/-- STEM (R179), FLUSH, INVL (R189). -/
structure SyEmO where
  a : SField
  am : Md
  imm : BitVec 24
  deriving DecidableEq, Repr

/-- COPY (R83, R184). -/
structure CopyO where
  d : SField
  a : SField
  am : Md
  b : SField
  bm : Md
  c : SField
  cm : Md
  cp : Policy
  scope : Scope
  fillfe : Bool
  stamp : Bool
  deriving DecidableEq, Repr

/-- COPY2 (R83, R185). -/
structure Copy2O where
  d : SField
  a : SField
  am : Md
  b : SField
  bm : Md
  c : SField
  cm : Md
  cp : Policy
  scope : Scope
  fillfe : Bool
  stamp : Bool
  rowbytes : BitVec 16
  sstride : BitVec 24
  dstride : BitVec 24
  deriving DecidableEq, Repr

/-- KVGATH (R83, R186). -/
structure KvO where
  d : SField
  a : SField
  am : Md
  b : SField
  bm : Md
  c : SField
  cm : Md
  mask : MField
  scope : Scope
  fillfe : Bool
  stamp : Bool
  blk : BitVec 24
  idx : VField
  deriving DecidableEq, Repr

/-- PREF (R189). -/
structure PrefO where
  a : SField
  am : Md
  imm : BitVec 24
  pol : Policy
  deriving DecidableEq, Repr

/-- PIN (R190). -/
structure PinO where
  n : BitVec 2
  a : SField
  am : Md
  b : SField
  bm : Md
  deriving DecidableEq, Repr

/-- UNPIN (R190). -/
structure UnpinO where
  n : BitVec 2
  deriving DecidableEq, Repr

/-- AMO (R192). -/
structure AmoO where
  d : SField
  a : SField
  am : Md
  b : SField
  bm : Md
  w32 : Bool
  scope : Scope
  ord : Ord
  deriving DecidableEq, Repr

/-- CAS (R193). -/
structure CasO where
  d : SField
  a : SField
  am : Md
  b : SField
  bm : Md
  c : SField
  cm : Md
  w32 : Bool
  scope : Scope
  ord : Ord
  deriving DecidableEq, Repr

/-- RED (R194). -/
structure RedO where
  a : SField
  am : Md
  b : SField
  bm : Md
  w32 : Bool
  scope : Scope
  ord : Ord
  deriving DecidableEq, Repr

/-- Fences (R160, R195). -/
structure FenceO where
  scope : Scope
  deriving DecidableEq, Repr

/-- LDACQ (R196). -/
structure LdacqO where
  d : SField
  a : SField
  am : Md
  w32 : Bool
  scope : Scope
  deriving DecidableEq, Repr

/-- STREL (R196). -/
structure StrelO where
  a : SField
  am : Md
  b : SField
  bm : Md
  w32 : Bool
  scope : Scope
  deriving DecidableEq, Repr

/-- FINC, FDEC, JOIN, GBAR (R253, R254, R258, R260). -/
structure FirnO where
  d : SField
  a : SField
  am : Md
  w32 : Bool
  scope : Scope
  ord : Ord
  deriving DecidableEq, Repr

/-- FCAN, FPEEK, LEAVE (R255, R256, R259). -/
structure FirnBO where
  d : SField
  a : SField
  am : Md
  b : SField
  bm : Md
  w32 : Bool
  scope : Scope
  ord : Ord
  deriving DecidableEq, Repr

/-- FCFG (R85, R257). -/
structure FcfgO where
  a : SField
  am : Md
  b : SField
  bm : Md
  c : SField
  cm : Md
  wcode : BitVec 3
  wire : BitVec 6
  spread : Bool
  clear : Bool
  deriving DecidableEq, Repr

/-- MMA (R84, R296). E of s0 means no band scales. -/
structure MmaO where
  d : SField
  a : SField
  am : Md
  b : SField
  bm : Md
  c : SField
  cm : Md
  msz : BitVec 2
  nsz : BitVec 2
  ksz : BitVec 12
  acc : Bool
  drain : Bool
  epi : Bool
  gath : Bool
  pert : Bool
  anti : Bool
  aset : BitVec 2
  dfmt : Ty
  epislot : BitVec 4
  scope : Scope
  e : SField
  f : SField
  g : SField
  i : VField
  deriving DecidableEq, Repr

/-- SPDZ (R302). -/
structure SpdzO where
  d : VField
  a : SField
  am : Md
  b : SField
  bm : Md
  anti : Bool
  alongk : Bool
  deriving DecidableEq, Repr


/-- A slot, by packed core number and slot number (R99, R122). -/
structure SlotRef where
  core : Nat
  slot : Nat
  deriving DecidableEq, Repr, Inhabited

/-- One outstanding operation of a slot, by its delivery number. -/
structure OpRef where
  core : Nat
  slot : Nat
  id : Nat
  deriving DecidableEq, Repr, Inhabited

/-- A message addressed to a queue (R26): the transport job identifier and the bytes. -/
structure QMsg where
  queue : Nat
  job : Nat
  data : List Byte
  deriving DecidableEq, Repr, Inhabited

/-- Where PACKET_CHECK takes its packet from (R23). -/
inductive PkSource where
  | queue (q : Nat)
  | spawn (op : OpRef)
  deriving DecidableEq, Repr, Inhabited

/-- PACKET_CHECK: the source, and the group numbers the Cirque proposes (R20 leaves them open). -/
structure PkCheck where
  src : PkSource
  groups : List Nat
  deriving DecidableEq, Repr, Inhabited

/-- An RMA access by a peer that holds a transport job identifier, at a port of the package (R349, R351). -/
structure RmaReq where
  port : Nat
  job : Nat
  addr : Nat
  data : List Byte
  len : Nat
  deriving DecidableEq, Repr, Inhabited

/-- A side-band request as the Serac has parsed it (R357): whether its signature verified, and its fields; `reserved` are bits
[95:48] of its header and `arglen` is its ARGLEN. -/
structure SbReq where
  sigOk : Bool
  keyid : Nat
  magic : Nat
  ver : Nat
  seq : Nat
  cmd : Nat
  target : Nat
  reserved : Nat
  arglen : Nat
  args : List Byte
  deriving DecidableEq, Repr, Inhabited

/-- How a completion lands: `fill` delivers the result to its register (a load whose `fill` is false only fixes
its value); `refetch` says that the die had not kept its clean copy of a remote-homed line (R163). -/
structure DelivO where
  op : OpRef
  fill : Bool
  refetch : Bool
  deriving DecidableEq, Repr, Inhabited

/-- A CSR value written by a slot (the CSR event rows). -/
structure CsrEv where
  ref : SlotRef
  idx : BitVec 12
  val : Word
  deriving DecidableEq, Repr, Inhabited

/-- A Calving request's start (R330, R333, R334): the target core, and the operation that arrives there, or none for one
that waits there already. -/
structure CalvO where
  core : Nat
  op : Option OpRef
  deriving DecidableEq, Repr, Inhabited

/-- Where an uncorrectable error strikes (R326, R327). -/
inductive ErrLoc where
  | memSector (sector : Nat)
  | cacheSector (die sector tag home : Nat)
  | l1Sector (core sector tag home : Nat)
  | cachedShr (sector : Nat) (hbmBad : Bool)
  | padSector (core part sector : Nat)
  | sreg (ref : SlotRef) (r : Nat)
  | vreg (ref : SlotRef) (r : Nat)
  | mreg (ref : SlotRef) (r : Nat)
  deriving DecidableEq, Repr, Inhabited

/-- A unit whose shared state failed (R328). -/
inductive StateUnit where
  | firn | rime | scope | group
  deriving DecidableEq, Repr, Inhabited

/-- One constructor per row of the opcode table, in the table's order. -/
inductive Instr where
  /-- NOP8 (R108). -/
  | nop8
  /-- NOP12 (R108). -/
  | nop12
  /-- NOP16 (R108). -/
  | nop16
  /-- BR (R109). -/
  | br (o : BrO)
  /-- JAL (R109). -/
  | jal (o : JalO)
  /-- JR (R110). -/
  | jr (o : JrO)
  /-- JALR (R110). -/
  | jalr (o : JalrO)
  /-- BEQ (R111). -/
  | beq (o : BranchO)
  /-- BNE (R111). -/
  | bne (o : BranchO)
  /-- BLT (R111). -/
  | blt (o : BranchO)
  /-- BGE (R111). -/
  | bge (o : BranchO)
  /-- BLTN (R111). -/
  | bltn (o : BranchO)
  /-- BGEN (R111). -/
  | bgen (o : BranchO)
  /-- LOOP (R113). -/
  | loop (o : LoopO)
  /-- LBRK (R114). -/
  | lbrk
  /-- TRAP (R115). -/
  | trap (o : TrapO)
  /-- BRK (R115). -/
  | brk
  /-- CPOINT (R116). -/
  | cpoint
  /-- CSRR (R117). -/
  | csrr (o : CsrRO)
  /-- CSRW (R117). -/
  | csrw (o : CsrWO)
  /-- CSRS (R117). -/
  | csrs (o : CsrDO)
  /-- CSRC (R117). -/
  | csrc (o : CsrDO)
  /-- CSRX (R117). -/
  | csrx (o : CsrDO)
  /-- WFE (R121). -/
  | wfe
  /-- SEV (R122). -/
  | sev (o : OneA)
  /-- WFET (R123). -/
  | wfet (o : RRO)
  /-- EXIT (R124). -/
  | exit
  /-- EXITC (R124). -/
  | exitc (o : OneA)
  /-- ADD (R125). -/
  | add (o : RRR)
  /-- SUB (R125). -/
  | sub (o : RRR)
  /-- AND (R125). -/
  | and (o : RRR)
  /-- OR (R125). -/
  | or (o : RRR)
  /-- XOR (R125). -/
  | xor (o : RRR)
  /-- SHL (R125). -/
  | shl (o : RRR)
  /-- SHR (R125). -/
  | shr (o : RRR)
  /-- SRA (R125). -/
  | sra (o : RRR)
  /-- MUL (R125). -/
  | mul (o : RRR)
  /-- MULH (R125). -/
  | mulh (o : RRR)
  /-- MULHN (R125). -/
  | mulhn (o : RRR)
  /-- DIV (R126). -/
  | div (o : RRR)
  /-- DIVN (R126). -/
  | divn (o : RRR)
  /-- REM (R126). -/
  | rem (o : RRR)
  /-- REMN (R126). -/
  | remn (o : RRR)
  /-- ANDN (R125). -/
  | andn (o : RRR)
  /-- ADDI (R127). -/
  | addi (o : RRI)
  /-- ANDI (R127). -/
  | andi (o : RRI)
  /-- ORI (R127). -/
  | ori (o : RRI)
  /-- XORI (R127). -/
  | xori (o : RRI)
  /-- SHLI (R127). -/
  | shli (o : RRSh)
  /-- SHRI (R127). -/
  | shri (o : RRSh)
  /-- SRAI (R127). -/
  | srai (o : RRSh)
  /-- MULI (R127). -/
  | muli (o : RRI)
  /-- SLT (R128). -/
  | slt (o : RRR)
  /-- SLTN (R128). -/
  | sltn (o : RRR)
  /-- SEQ (R128). -/
  | seq (o : RRR)
  /-- SNE (R128). -/
  | sne (o : RRR)
  /-- MIN (R128). -/
  | min (o : RRR)
  /-- MAX (R128). -/
  | max (o : RRR)
  /-- MINN (R128). -/
  | minn (o : RRR)
  /-- MAXN (R128). -/
  | maxn (o : RRR)
  /-- CLZ (R128). -/
  | clz (o : RRO)
  /-- CTZ (R128). -/
  | ctz (o : RRO)
  /-- POPC (R128). -/
  | popc (o : RRO)
  /-- SEXT (R128). -/
  | sext (o : RRW)
  /-- ZEXT (R128). -/
  | zext (o : RRW)
  /-- SEL (R129). -/
  | sel (o : RRRR)
  /-- MADD (R129). -/
  | madd (o : RRRR)
  /-- MOVI (R130). -/
  | movi (o : MoviO)
  /-- MOVL (R130). -/
  | movl (o : MovlO)
  /-- FADD (R132). -/
  | fadd (o : FP2)
  /-- FSUB (R132). -/
  | fsub (o : FP2)
  /-- FMUL (R132). -/
  | fmul (o : FP2)
  /-- FDIV (R132). -/
  | fdiv (o : FP2)
  /-- FSQRT (R132). -/
  | fsqrt (o : FP1)
  /-- FMIN (R132). -/
  | fmin (o : FP2)
  /-- FMAX (R132). -/
  | fmax (o : FP2)
  /-- FEQ (R132). -/
  | feq (o : FP2)
  /-- FLT (R132). -/
  | flt (o : FP2)
  /-- FLE (R132). -/
  | fle (o : FP2)
  /-- FCVTI (R133). -/
  | fcvti (o : FPC)
  /-- FCVTF (R132). -/
  | fcvtf (o : FPC)
  /-- FCVTW (R132). -/
  | fcvtw (o : FP1)
  /-- FFMA (R132). -/
  | ffma (o : FP3)
  /-- VADD (R216). -/
  | vadd (o : VI2)
  /-- VSUB (R216). -/
  | vsub (o : VI2)
  /-- VMUL (R216). -/
  | vmul (o : VI2)
  /-- VMULH (R216). -/
  | vmulh (o : VI2)
  /-- VAND (R216). -/
  | vand (o : VI2)
  /-- VOR (R216). -/
  | vor (o : VI2)
  /-- VXOR (R216). -/
  | vxor (o : VI2)
  /-- VSHL (R216). -/
  | vshl (o : VI2)
  /-- VSHR (R216). -/
  | vshr (o : VI2)
  /-- VSRA (R216). -/
  | vsra (o : VI2)
  /-- VMIN (R216). -/
  | vmin (o : VI2)
  /-- VMAX (R216). -/
  | vmax (o : VI2)
  /-- VABS (R216). -/
  | vabs (o : VI1)
  /-- VADDS (R216). -/
  | vadds (o : VI2)
  /-- VSUBS (R216). -/
  | vsubs (o : VI2)
  /-- VAVG (R216). -/
  | vavg (o : VI2)
  /-- VCMP_EQ (R217). -/
  | vcmpEq (o : VCmpO)
  /-- VCMP_NE (R217). -/
  | vcmpNe (o : VCmpO)
  /-- VCMP_LT (R217). -/
  | vcmpLt (o : VCmpO)
  /-- VCMP_LE (R217). -/
  | vcmpLe (o : VCmpO)
  /-- VCMP_GT (R217). -/
  | vcmpGt (o : VCmpO)
  /-- VCMP_GE (R217). -/
  | vcmpGe (o : VCmpO)
  /-- VMOV (R218). -/
  | vmov (o : VI1)
  /-- VSPLAT (R218). -/
  | vsplat (o : VSplatO)
  /-- VEXT (R219). -/
  | vext (o : VExtO)
  /-- VINS (R219). -/
  | vins (o : VInsO)
  /-- VIOTA (R221). -/
  | viota (o : VIotaO)
  /-- VSEL (R218). -/
  | vsel (o : VV3)
  /-- VPERM (R220). -/
  | vperm (o : VV3)
  /-- VSLIDEUP (R220). -/
  | vslideup (o : VSlideO)
  /-- VSLIDEDN (R220). -/
  | vslidedn (o : VSlideO)
  /-- VREDADD (R222). -/
  | vredadd (o : VRedO)
  /-- VREDMIN (R222). -/
  | vredmin (o : VRedO)
  /-- VREDMAX (R222). -/
  | vredmax (o : VRedO)
  /-- VCOMPRESS (R221). -/
  | vcompress (o : VI1)
  /-- VSCAN (R221). -/
  | vscan (o : VI1)
  /-- MAND (R223). -/
  | mand (o : M3)
  /-- MOR (R223). -/
  | mor (o : M3)
  /-- MXOR (R223). -/
  | mxor (o : M3)
  /-- MANDN (R223). -/
  | mandn (o : M3)
  /-- MNOT (R223). -/
  | mnot (o : M2)
  /-- MPOPC (R223). -/
  | mpopc (o : MSO)
  /-- MFIRST (R223). -/
  | mfirst (o : MSO)
  /-- MFROM (R223). -/
  | mfrom (o : MFromO)
  /-- MTO (R223). -/
  | mto (o : MToO)
  /-- VFADD (R224). -/
  | vfadd (o : VF2)
  /-- VFSUB (R224). -/
  | vfsub (o : VF2)
  /-- VFMUL (R224). -/
  | vfmul (o : VF2)
  /-- VFDIV (R224). -/
  | vfdiv (o : VF2)
  /-- VFSQRT (R224). -/
  | vfsqrt (o : VF1)
  /-- VFMIN (R224). -/
  | vfmin (o : VF2)
  /-- VFMAX (R224). -/
  | vfmax (o : VF2)
  /-- VFEXP2 (R225). -/
  | vfexp2 (o : VF1)
  /-- VFLOG2 (R225). -/
  | vflog2 (o : VF1)
  /-- VFRCP (R225). -/
  | vfrcp (o : VF1)
  /-- VFRSQ (R225). -/
  | vfrsq (o : VF1)
  /-- VFABS (R224). -/
  | vfabs (o : VF1)
  /-- VFNEG (R224). -/
  | vfneg (o : VF1)
  /-- VFMA (R226). -/
  | vfma (o : VF3)
  /-- VFMS (R226). -/
  | vfms (o : VF3)
  /-- VFNMA (R226). -/
  | vfnma (o : VF3)
  /-- VFCMP_EQ (R227). -/
  | vfcmpEq (o : VCmpO)
  /-- VFCMP_NE (R227). -/
  | vfcmpNe (o : VCmpO)
  /-- VFCMP_LT (R227). -/
  | vfcmpLt (o : VCmpO)
  /-- VFCMP_LE (R227). -/
  | vfcmpLe (o : VCmpO)
  /-- VFCMP_UNO (R227). -/
  | vfcmpUno (o : VCmpO)
  /-- VCVT (R228). -/
  | vcvt (o : VCvtO)
  /-- VPACKB (R229). -/
  | vpackb (o : VPkO)
  /-- VUNPACKB (R229). -/
  | vunpackb (o : VPkO)
  /-- LD_I8 (R174). -/
  | ldI8 (o : LdO)
  /-- LD_N8 (R174). -/
  | ldN8 (o : LdO)
  /-- LD_I16 (R174). -/
  | ldI16 (o : LdO)
  /-- LD_N16 (R174). -/
  | ldN16 (o : LdO)
  /-- LD_I32 (R174). -/
  | ldI32 (o : LdO)
  /-- LD_N32 (R174). -/
  | ldN32 (o : LdO)
  /-- LD_I64 (R174). -/
  | ldI64 (o : LdO)
  /-- ST_8 (R175). -/
  | st8 (o : StO)
  /-- ST_16 (R175). -/
  | st16 (o : StO)
  /-- ST_32 (R175). -/
  | st32 (o : StO)
  /-- ST_64 (R175). -/
  | st64 (o : StO)
  /-- VLD (R176). -/
  | vld (o : VLdO)
  /-- VST (R176). -/
  | vst (o : VStO)
  /-- VLDF (R177). -/
  | vldf (o : VLdfO)
  /-- VLDS (R178). -/
  | vlds (o : VLdsO)
  /-- VSTS (R178). -/
  | vsts (o : VLdsO)
  /-- VGATH (R178). -/
  | vgath (o : VGathO)
  /-- VSCAT (R178). -/
  | vscat (o : VGathO)
  /-- LDSY (R179). -/
  | ldsy (o : SyLdO)
  /-- LDPK (R179). -/
  | ldpk (o : SyLdO)
  /-- STSY (R179). -/
  | stsy (o : SyStO)
  /-- STFL (R179). -/
  | stfl (o : SyStO)
  /-- STEM (R179). -/
  | stem (o : SyEmO)
  /-- LDFE (R179). -/
  | ldfe (o : SyLdO)
  /-- COPY (R184). -/
  | copy (o : CopyO)
  /-- COPY2 (R185). -/
  | copy2 (o : Copy2O)
  /-- KVGATH (R186). -/
  | kvgath (o : KvO)
  /-- PREF (R189). -/
  | pref (o : PrefO)
  /-- FLUSH (R189). -/
  | flush (o : SyEmO)
  /-- INVL (R189). -/
  | invl (o : SyEmO)
  /-- PIN (R190). -/
  | pin (o : PinO)
  /-- UNPIN (R190). -/
  | unpin (o : UnpinO)
  /-- AMO_ADD (R192). -/
  | amoAdd (o : AmoO)
  /-- AMO_AND (R192). -/
  | amoAnd (o : AmoO)
  /-- AMO_OR (R192). -/
  | amoOr (o : AmoO)
  /-- AMO_XOR (R192). -/
  | amoXor (o : AmoO)
  /-- AMO_MIN (R192). -/
  | amoMin (o : AmoO)
  /-- AMO_MAX (R192). -/
  | amoMax (o : AmoO)
  /-- AMO_MINN (R192). -/
  | amoMinn (o : AmoO)
  /-- AMO_MAXN (R192). -/
  | amoMaxn (o : AmoO)
  /-- AMO_SWAP (R192). -/
  | amoSwap (o : AmoO)
  /-- AMO_FADD (R192). -/
  | amoFadd (o : AmoO)
  /-- CAS (R193). -/
  | cas (o : CasO)
  /-- RED_ADD (R194). -/
  | redAdd (o : RedO)
  /-- RED_FADD (R194). -/
  | redFadd (o : RedO)
  /-- RED_MIN (R194). -/
  | redMin (o : RedO)
  /-- RED_MAX (R194). -/
  | redMax (o : RedO)
  /-- RED_OR (R194). -/
  | redOr (o : RedO)
  /-- FENCE (R160). -/
  | fence (o : FenceO)
  /-- FENCE_ACQ (R160). -/
  | fenceAcq (o : FenceO)
  /-- FENCE_REL (R160). -/
  | fenceRel (o : FenceO)
  /-- FENCE_SC (R164). -/
  | fenceSc (o : FenceO)
  /-- LDACQ (R196). -/
  | ldacq (o : LdacqO)
  /-- STREL (R196). -/
  | strel (o : StrelO)
  /-- FINC (R253). -/
  | finc (o : FirnO)
  /-- FDEC (R254). -/
  | fdec (o : FirnO)
  /-- FCAN (R255). -/
  | fcan (o : FirnBO)
  /-- FPEEK (R256). -/
  | fpeek (o : FirnBO)
  /-- FCFG (R257). -/
  | fcfg (o : FcfgO)
  /-- JOIN (R258). -/
  | join (o : FirnO)
  /-- LEAVE (R259). -/
  | leave (o : FirnBO)
  /-- GBAR (R260). -/
  | gbar (o : FirnO)
  /-- BARW (R262). -/
  | barw (o : RRO)
  /-- TAGPUB (R264). -/
  | tagpub (o : RRR)
  /-- TAGWAIT (R265). -/
  | tagwait (o : RRR)
  /-- TAGQRY (R266). -/
  | tagqry (o : RRO)
  /-- TAGRET (R267). -/
  | tagret (o : ABO)
  /-- SPAWN (R271). -/
  | spawn (o : RRO)
  /-- FSOPEN (R269). -/
  | fsopen (o : ABO)
  /-- FSCLOSE (R269). -/
  | fsclose (o : OneA)
  /-- FSWAIT (R270). -/
  | fswait (o : RRO)
  /-- GPOST (R273). -/
  | gpost (o : RRO)
  /-- GSTAT (R273). -/
  | gstat (o : OneD)
  /-- MMA (R296). -/
  | mma (o : MmaO)
  /-- EPIW (R299). -/
  | epiw (o : OneD)
  /-- EPID (R300). -/
  | epid
  /-- SPDZ (R302). -/
  | spdz (o : SpdzO)
  /-- ERET (R332). -/
  | eret
  /-- SPILL (R333). -/
  | spill (o : ABO)
  /-- REFILL (R334). -/
  | refill (o : ABO)
  /-- SLOTKILL (R335). -/
  | slotkill (o : OneA)
  /-- TLBINV (R336). -/
  | tlbinv (o : RRR)
  /-- QUEUE_MESSAGE (R26). -/
  | queueMessage (m : QMsg)
  /-- PACKET_CHECK (R24). -/
  | packetCheck (p : PkCheck)
  /-- COMPLETION_RECORD_WRITE (R346). -/
  | completionRecordWrite (part : Nat)
  /-- RECORD_TRANSPORT_FAILURE (R346). -/
  | recordTransportFailure (part : Nat)
  /-- RMA_WRITE (R351). -/
  | rmaWrite (r : RmaReq)
  /-- RMA_READ (R351). -/
  | rmaRead (r : RmaReq)
  /-- QSET (R375). -/
  | qset (part : Nat)
  /-- FRING (R375). -/
  | fring (part : Nat)
  /-- FOFFER (R354). -/
  | foffer (part : Nat)
  /-- FACCEPT (R354). -/
  | faccept (part : Nat)
  /-- SRESUME (R353). -/
  | sresume (part : Nat)
  /-- SLAUNCH (R353). -/
  | slaunch (part : Nat)
  /-- SLAUNCH_REPLY (R353). -/
  | slaunchReply (part : Nat)
  /-- RELEASE_TIME_REACHED (R29). -/
  | releaseTimeReached (die launch : Nat)
  /-- TIME_STEP (R30). -/
  | timeStep (delta : Int)
  /-- PTP_HOLDOVER (R356). -/
  | ptpHoldover
  /-- NUNATAK_PLACEMENT (R37). -/
  | nunatakPlacement (die : Nat)
  /-- DISPATCH (R39). -/
  | dispatch (die entry : Nat)
  /-- CLEAR_COMPLETE (R43). -/
  | clearComplete (r : SlotRef)
  /-- ICACHE_FILL (R71). -/
  | icacheFill (r : SlotRef)
  /-- ISSUE_INTERVAL_END (R90). -/
  | issueIntervalEnd (r : SlotRef)
  /-- BRANCH_PENALTY_END (R104). -/
  | branchPenaltyEnd (r : SlotRef)
  /-- COMPLETION_DELIVERY (R94). -/
  | completionDelivery (d : DelivO)
  /-- STORE_ACCEPTED (R175). -/
  | storeAccepted (o : OpRef)
  /-- PAGE_WALK (R139). -/
  | pageWalk (r : SlotRef)
  /-- PUSH_APPLY (R162). -/
  | pushApply (idx : Nat)
  /-- ATOMIC_AT_HOME (R191). -/
  | atomicAtHome (o : OpRef)
  /-- RED_APPLY (R194). -/
  | redApply (o : OpRef)
  /-- BANK_SYNC_REQUEST (R179). -/
  | bankSyncRequest (o : OpRef)
  /-- CANCELLATION_DELIVERY (R321). -/
  | cancellationDelivery (group member : Nat)
  /-- CANCELLATION_TAKEN (R323). -/
  | cancellationTaken (r : SlotRef)
  /-- SEV_DELIVERY (R122). -/
  | sevDelivery (o : OpRef)
  /-- WFET_TIMEOUT (R123). -/
  | wfetTimeout (r : SlotRef)
  /-- SLOT_FREE (R124). -/
  | slotFree (r : SlotRef)
  /-- COPY_JOB_START (R373). -/
  | copyJobStart (cluster : Nat)
  /-- COPY_SECTOR_MOVE (R182). -/
  | copySectorMove (cluster sector : Nat)
  /-- COPY_TOKEN_FILL (R183). -/
  | copyTokenFill (cluster : Nat)
  /-- MMA_JOB_START (R288). -/
  | mmaJobStart (cluster : Nat)
  /-- MMA_COMPUTE_END (R292). -/
  | mmaComputeEnd (cluster : Nat)
  /-- DRAIN_ROW (R291). -/
  | drainRow (cluster : Nat)
  /-- EPILOGUE_TIMEOUT (R291). -/
  | epilogueTimeout (cluster : Nat)
  /-- MMA_TOKEN_FILL (R292). -/
  | mmaTokenFill (cluster : Nat)
  /-- FIRN_PLANE_ADMISSION (R247). -/
  | firnPlaneAdmission (o : OpRef)
  /-- BALANCER_STEP (R231). -/
  | balancerStep (die id : Nat)
  /-- FIRN_EXIT_STAGE (R236). -/
  | firnExitStage (die id : Nat)
  /-- FCFG_APPLY (R235). -/
  | fcfgApply (die id : Nat)
  /-- BARW_ARRIVAL_COUNTED (R262). -/
  | barwArrivalCounted (o : OpRef)
  /-- BARW_TIMEOUT (R262). -/
  | barwTimeout (o : OpRef)
  /-- TAG_HOME_REQUEST (R263). -/
  | tagHomeRequest (o : OpRef)
  /-- SCOPE_UNIT_CHANGE (R345). -/
  | scopeUnitChange (idx : Nat)
  /-- CIRQUE_POST (R273). -/
  | cirquePost (o : OpRef)
  /-- CIRQUE_MEMBER_END (R348). -/
  | cirqueMemberEnd (idx : Nat)
  /-- SPILL_START (R333). -/
  | spillStart (c : CalvO)
  /-- SPILL_COMPLETE (R316). -/
  | spillComplete (core : Nat)
  /-- REFILL_START (R334). -/
  | refillStart (c : CalvO)
  /-- REFILL_COMPLETE (R320). -/
  | refillComplete (core : Nat)
  /-- SLOTKILL_ARRIVAL (R335). -/
  | slotkillArrival (o : OpRef)
  /-- CALVING_COMPLETION_LATCH (R331). -/
  | calvingCompletionLatch (idx : Nat)
  /-- BJOIN_WRITE (R262). -/
  | bjoinWrite (e : CsrEv)
  /-- EVT_WRITE (R119). -/
  | evtWrite (e : CsrEv)
  /-- LC_WRITE (R118). -/
  | lcWrite (e : CsrEv)
  /-- LS_LE_WRITE (R118). -/
  | lsLeWrite (e : CsrEv)
  /-- FRM_WRITE (R99). -/
  | frmWrite (e : CsrEv)
  /-- SFMT_WRITE (R119). -/
  | sfmtWrite (e : CsrEv)
  /-- CSR_REGISTER_WRITE (R117). -/
  | csrRegisterWrite (e : CsrEv)
  /-- PARTITION_CSR_PROPAGATION (R120). -/
  | partitionCsrPropagation (part : Nat)
  /-- SCRUB (R325). -/
  | scrub (die : Nat)
  /-- UNCORRECTABLE_ERROR (R326). -/
  | uncorrectableError (loc : ErrLoc)
  /-- STATE_ERROR_PARTITION_STOP (R328). -/
  | stateErrorPartitionStop (unit : StateUnit) (part : Nat)
  /-- HEALTH (R358). -/
  | health (q : SbReq)
  /-- WDOG (R362). -/
  | wdog (q : SbReq)
  /-- FREEZE (R359). -/
  | freeze (q : SbReq)
  /-- READOUT (R358). -/
  | readout (q : SbReq)
  /-- RESUME (R359). -/
  | resume (q : SbReq)
  /-- SIDEBAND_SLOTKILL (R335). -/
  | sidebandSlotkill (q : SbReq)
  /-- PARTRESET (R360). -/
  | partreset (q : SbReq)
  /-- DIERESET (R360). -/
  | diereset (q : SbReq)
  /-- PKGRESET (R360). -/
  | pkgreset (q : SbReq)
  /-- FWLOAD (R363). -/
  | fwload (q : SbReq)
  /-- NUNRESTART (R361). -/
  | nunrestart (q : SbReq)
  /-- PARTCFG_CONFIGURE (R374). -/
  | partcfgConfigure (q : SbReq)
  /-- PARTCFG_REMOVE (R40). -/
  | partcfgRemove (q : SbReq)
  /-- PARTCFG_SRAM_SPLIT (R374). -/
  | partcfgSramSplit (q : SbReq)
  /-- ATTEST (R364). -/
  | attest (q : SbReq)
  /-- POWER_UP_BOOT (R363). -/
  | powerUpBoot (flashOk : Bool)
  /-- NUNATAK_HEARTBEAT_WATCHDOG (R362). -/
  | nunatakHeartbeatWatchdog (die : Nat)
  /-- DIE_PROGRESS_WATCHDOG (R362). -/
  | dieProgressWatchdog (die : Nat)
  /-- SERAC_CORE_WATCHDOG (R362). -/
  | seracCoreWatchdog (core : Nat)
  /-- THERMAL_THROTTLE (R365). -/
  | thermalThrottle
  /-- UNDERVOLTAGE_POWER_OFF (R365). -/
  | undervoltagePowerOff
  /-- OVERVOLTAGE_DISCONNECT (R365). -/
  | overvoltageDisconnect
  /-- LIMITS_RESTORED (R365). -/
  | limitsRestored
  /-- ILLEGAL_ENCODING (R87). -/
  | illegalEncoding (word : Word)
  /-- FETCH_FAULT (R71). -/
  | fetchFault (cause : Nat)
  /-- PTP_LOCK (R356). -/
  | ptpLock (offset : Int)
  /-- TRANSPORT_PACKET_DROP (R350). -/
  | transportPacketDrop
  /-- CONTROL_UNKNOWN_CMD (R352). -/
  | controlUnknownCmd (part : Nat)
  /-- SIDEBAND_UNKNOWN_CMD (R358). -/
  | sidebandUnknownCmd (q : SbReq)
  /-- ARITHMETIC_CLOCK_RAISE (R365). -/
  | arithmeticClockRaise
  deriving DecidableEq, Repr

end Sys2Proof
end

