-- ==== Sys2Proof/Config.lean ====
section
/-! DEFINITION. What the manual leaves to the implementation or to the outside world: constants without a body, so
that nothing can be proved of their values (notes/assumptions). -/
namespace Sys2Proof

/-- What happens next (the scheduling of this one deterministic machine, DESIGN CHOICE, log 1): a cycle of the
unfrozen dies, TIME moving on, a core's issue turn (R90), an event row of the opcode table, an L2 line leaving a die
(R162), an entry of a core's or a cluster's TLB or of a die's walker cache being replaced (R148), a g write landing within its
interval (R94), a slot fetching a word of code ahead (R70), a matrix engine reading an operand sector (R293) or writing a piece of
a drained row (R291), a Nunatak writing its heartbeat (R362). -/
inductive Move where
  | tick
  | nanos (n : Nat)
  | turn (core : Nat)
  | event (i : Instr)
  | evict (die key : Nat)
  | tlbDrop (core page : Nat)
  | clusterTlbDrop (cluster page : Nat)
  | walkDrop (die level path : Nat)
  | landG (core part reg : Nat)
  | fetchAhead (core slot va : Nat)
  | mmaRead (cluster sector : Nat)
  | mmaWrite (cluster : Nat)
  | beat (die : Nat)
  deriving DecidableEq, Repr, Inhabited

/-- FREE: a choice that the manual leaves open, by its own number: which of several pieces, updates or entries comes next
(log 82). -/
opaque Config.pick : Nat → Nat
/-- FREE: whether the core of the second number sees a write to a per-partition register at the draw of the first (R120; log
29). -/
opaque Config.coin : Nat → Nat → Bool
/-- FREE: the set, within its slice, of an L2 line (R146 gives the slice alone; log 84). -/
opaque Config.l2Set : Nat → Nat
/-- FREE: the next move when the agenda is empty, by the count of moves so drawn (log 1). -/
opaque Config.freeMove : Nat → Move
/-- FREE: a readout of sensors or scan state that R358 does not state (temperatures, rails, scan bytes; log 2). -/
opaque Config.readByte : Nat → Nat → Byte
/-- FREE: whether an operator key number is listed in the configuration record (R357; log 3). -/
opaque Config.keyListed : Nat → Bool
/-- FREE: the SRAM split of the configuration record; true is the 512 KiB scratchpad (R40, R374; log 3). -/
opaque Config.bootSplit512 : Bool
/-- FREE: FWLOAD's arguments as the Serac reads them: offset, final flag, chunk (R358 gives no layout; log 3). -/
opaque Config.fwChunk : List Byte → Nat × Bool × List Byte
/-- FREE: the configuration record in the flash (R363; log 3). -/
opaque Config.bootRecord : List Byte
/-- FREE: whether an image or a configuration record verifies under the root key (R363; log 3). -/
opaque Config.imageVerifies : List Byte → Bool
/-- FREE: WDOG's arguments: watchdog 0 heartbeat, 1 progress; period in ms; action DIERESET (no layout; log 3). -/
opaque Config.wdogArgs : List Byte → Nat × Nat × Bool
/-- FREE: READOUT's offset (R358 gives no layout; log 3). -/
opaque Config.readoutOffset : List Byte → Nat
/-- FREE: the identity public key, derived by an SRAM PUF (R363; log 3). -/
opaque Config.identityKey : List Byte
/-- FREE: SHAKE256 digest of bytes (R357, R364; log 3). -/
opaque Config.digest : List Byte → List Byte
/-- FREE: a signature by the identity key of a digest or of a report (R357, R364; log 3). -/
opaque Config.sign : List Byte → List Byte
/-- FREE: HEALTH's reply, by a number that differs from reply to reply (sensor readings) and the counters and states that
R358 names, for which it gives no layout (log 2). -/
opaque Config.healthReport : Nat → List Nat → List Byte
/-- FREE: the body of an attestation report, of nonce, identity key, the digests of every active image and of the configuration
record, the partitions' configuration and the PTP state (R364 gives no layout; log 3). -/
opaque Config.attestBody : List Byte → List Byte → List (List Byte) → List Byte → List Nat → Nat → List Byte
/-- FREE: how many single-bit errors the n-th scrub or access corrects (R325; log 2). -/
opaque Config.scrubFound : Nat → Nat
/-- FREE: the boot firmware image of the flash (R363; log 3). -/
opaque Config.bootImage : List Byte
/-- FREE: the other firmware images that the dies run at boot (R363, R364; log 3). -/
opaque Config.otherImages : List (List Byte)
/-- FREE: words of a spill image whose coding R317 does not give: wait descriptors and register-and-state words, by
the number of the spill and the word's index (log 4). -/
opaque Config.imageWord : Nat → Nat → BitVec 64

end Sys2Proof
end

