-- ==== Sys2Proof/Machine/Sparse.lean ====
section
/-! DEFINITION. Maps from numbers to values as lists with strictly rising keys: the form in which State holds
everything that is indexed (registers, slots, tables). -/
namespace Sys2Proof.Machine

/-- A finite map from Nat, keys strictly rising. -/
abbrev Sparse (β : Type) := List (Nat × β)

namespace Sparse
variable {β : Type}

/-- The value at a key, `d` where the map lists none. -/
def get (d : β) : Sparse β → Nat → β
  | [], _ => d
  | (k', v) :: t, k => if k' = k then v else get d t k

/-- The value at a key, if listed. -/
def get? : Sparse β → Nat → Option β
  | [], _ => none
  | (k', v) :: t, k => if k' = k then some v else get? t k

/-- The map with `v` at `k`. -/
def set (k : Nat) (v : β) : Sparse β → Sparse β
  | [] => [(k, v)]
  | (k', v') :: t => if k' = k then (k, v) :: t else if k < k' then (k, v) :: (k', v') :: t else (k', v') :: set k v t

/-- The map without `k`. -/
def erase (k : Nat) (m : Sparse β) : Sparse β := m.filter fun p => p.1 != k

/-- Change the value at `k`. -/
def modify (d : β) (k : Nat) (f : β → β) (m : Sparse β) : Sparse β := set k (f (get d m k)) m

/-- Apply `f` to every listed value. -/
def mapVal (f : Nat → β → β) (m : Sparse β) : Sparse β := m.map fun p => (p.1, f p.1 p.2)

/-- The keys are strictly rising. -/
def wf : Sparse β → Bool
  | [] => true
  | [_] => true
  | a :: b :: t => decide (a.1 < b.1) && wf (b :: t)

end Sparse
end Sys2Proof.Machine
end

