-- ==== Sys2Proof/Machine/State.lean ====
section
/-! DEFINITION. The state of the DS4800 package as plain data: everything the manual gives the machine, the two
reason types of a step, memory's canonical form, and the state right after package reset. -/
namespace Sys2Proof.Machine

/-- Why a step can stop with a fault. The manual gives every case an effect (a trap, a status, a rejection), so no
meaning of this model ends here; the constructor stands for states outside the manual. -/
inductive Fault where
  /-- Raised by nothing: kept so that the type is not empty. Safe: it claims nothing of the hardware. -/
  | outsideManual
  deriving DecidableEq, Repr

/-- Why a step can be refused. -/
inductive Refusal where
  /-- Raised by an arm of `exec` whose instruction has no meaning yet. Safe: the machine stops. -/
  | notModelled (mnemonic : String)
  deriving DecidableEq, Repr

/-! ## Registers and slots -/

/-- The delivery mark of a register (R311, R317). -/
inductive Mark where
  | none | faulted | poisoned
  deriving DecidableEq, Repr, Inhabited

/-- A register with its full/empty bit, its mark, and the number of the delivery that may still fill it: the last
long-latency issue that named it, if nothing has written it since (R94). `parity` says that its parity fails (R326). -/
structure Reg (w : Nat) where
  val : BitVec w
  full : Bool
  mark : Mark
  await : Option Nat
  parity : Bool
  deriving DecidableEq, Repr

/-- A register right after dispatch: zero and full (R44). -/
def Reg.zero (w : Nat) : Reg w := ⟨0#w, true, .none, Option.none, false⟩

/-- MODE (0x100), field by field (R309). -/
structure ModeBits where
  cpend : Bool
  ctaken : Bool
  nest : Bool
  priv : Bool
  pp : Bool
  trapAsync : Bool
  deriving DecidableEq, Repr, Inhabited

/-- The register a delivery fills: none, a scalar field 0-47, or a vector register. -/
inductive Dest where
  | none
  | s (f : Nat)
  | v (f : Nat)
  deriving DecidableEq, Repr, Inhabited

/-- What a parked slot waits for (R92); the operation number is that of the wait's delivery. A slot parked on empty registers
waits until all the sources that its instruction waits for are full (R79). -/
inductive Wait where
  | operand (on : List Dest)
  | wfe
  | wfet (id endCycle : Nat)
  | ldsy (id : Nat)
  | gbar (id : Nat)
  | barw (id : Nat)
  | tagwait (id : Nat)
  | fswait (id : Nat)
  | epiw (id : Nat)
  deriving DecidableEq, Repr, Inhabited

/-- Kinds of translated access: read, write or atomic, fetch, and the reads that ignore FMT (R137). -/
inductive Acc where
  | read | write | fetch | plane
  deriving DecidableEq, Repr, Inhabited

/-- Why a slot is stalled (R92, R95, R171). -/
inductive Stall where
  | icache
  | missQueue
  | walk (va : Nat) (acc : Acc)
  | engineQueue
  deriving DecidableEq, Repr, Inhabited

/-- How a task ends (R342). -/
inductive EndHow where
  | exit
  | exitc (code : BitVec 16) (pc : Word)
  | kill
  | doubleTrap
  deriving DecidableEq, Repr, Inhabited

/-- The states of a slot (R92). `clearing` carries the wait a refill is to resume and
`saving` the wait the slot was parked in (R316, R320); `spilling` is a slot that has issued a SPILL of itself which has not
started yet (R333); `ending` is a slot that has stopped issuing under R124 or R335 and is not yet Free;
`cancelDue` is an Active slot that takes its cancellation before its next instruction (R322). -/
inductive Run where
  | free
  | clearing (w : Option Wait)
  | active
  | parked (w : Wait)
  | stalled (c : Stall)
  | spilling
  | saving (w : Option Wait)
  | ending (how : EndHow)
  | cancelDue (epc : Word)
  deriving DecidableEq, Repr, Inhabited

/-- The task identity of R318. Member 255 is none. -/
structure Task where
  lseq : Nat
  sibgrp : Nat
  member : Nat
  part : Nat
  scope : Nat
  ldie : Nat
  launch : Nat
  taskN : Nat
  taskIdx : Nat
  entry : Word
  handler : BitVec 32
  deriving DecidableEq, Repr, Inhabited

/-- Where a byte lives: paged memory with its L2 home die (R146) and the tag its cached lines carry, which is the number of
their partition, or 4 on SHR pages (R144); or a core's scratchpad of the partition (R141). -/
inductive Loc where
  | paged (pa home tag : Nat)
  | pad (core off : Nat)
  deriving DecidableEq, Repr, Inhabited

/-- A run of consecutive bytes in one place. -/
structure Seg where
  loc : Loc
  len : Nat
  deriving DecidableEq, Repr, Inhabited

/-- Storage formats: FMT and SFMT codes 0-7 (R138). -/
inductive Fmt where
  | raw | f4b8 | e4m3 | e5m2 | bf16 | f16 | f32 | mls
  deriving DecidableEq, Repr, Inhabited

/-- How a load makes its register value of the bytes read (R174, R176, R177). -/
inductive LoadFin where
  | scalar (signed : Bool) (n : Nat)
  | vec
  | vldf (fmt : Fmt) (paged : Bool) (lane : Ty)
  deriving DecidableEq, Repr

/-- The operations of AMO and RED (R192, R194). -/
inductive AmoOp where
  | add | and | or | xor | min | max | minn | maxn | swap | fadd
  deriving DecidableEq, Repr, Inhabited

/-- The synchronising scratchpad accesses (R179). -/
inductive BankOp where
  | ldsy | ldpk | ldfe | stsy | stfl | stem
  deriving DecidableEq, Repr, Inhabited

/-- The requests that reach a Firn plane (R253 to R260). -/
inductive FirnOp where
  | finc | fdec | fcan | fpeek | join | leave | gbar
  deriving DecidableEq, Repr, Inhabited

/-- The tag requests (R264 to R267). -/
inductive TagOp where
  | pub | wait | qry | ret
  deriving DecidableEq, Repr, Inhabited

/-- What FCFG carries (R257). -/
structure FcfgReq where
  base : Word
  memb : BitVec 32
  wcode : Nat
  wire : Nat
  spread : Bool
  clear : Bool
  deriving DecidableEq, Repr, Inhabited

/-- What a request at a Calving engine asks (R316, R333 to R335): a spill, a spill that found no task, a refill. -/
inductive CalvCmd where
  | spill | spillNone | refill | kill
  deriving DecidableEq, Repr, Inhabited

/-- What a thread had done when it issued a SPILL, REFILL or SLOTKILL: its die, and its earlier operations that were not yet
performed then (R331). Die 4 stands for nobody. -/
structure Prior where
  die : Nat
  ids : List Nat
  deriving DecidableEq, Repr, Inhabited

/-- Who is told that a SPILL, REFILL or SLOTKILL is complete: the issuing task in its slot (R331), or the operator whose
side-band request it was (R358). -/
inductive Waker where
  | slot (r : SlotRef) (t : Task)
  | serac (seq : Nat)
  deriving DecidableEq, Repr, Inhabited

/-- An outstanding operation of a slot, as issued. -/
inductive OpKind where
  | load (segs : List Seg) (fin : LoadFin)
  | store (segs : List (Loc × List Byte))
  | amo (loc : Loc) (w32 : Bool) (op : AmoOp) (b : Word)
  | cas (loc : Loc) (w32 : Bool) (expd new : Word)
  | red (loc : Loc) (w32 : Bool) (op : AmoOp) (b : Word)
  | bank (core off : Nat) (op : BankOp) (data : Word)
  | firn (die ctx : Nat) (op : FirnOp) (arg : Word) (w32 : Bool)
  | fcfg (die ctx : Nat) (q : FcfgReq)
  | barw (wire : Nat) (bto : Nat)
  | tag (key : Nat) (op : TagOp) (arg : Word)
  | spawn (addr : Word) (user : Bool)
  | fsopen (scope parent : Nat)
  | fsclose (scope : Nat)
  | fswait (scope : Nat)
  | gpost (hash : Word)
  | gstat
  | spdz
  | tlbinv (va : Word) (sel : Nat)
  | sev (core slot : Nat)
  | fence (kind : Nat)
  | calving (cmd : CalvCmd) (core slot pa : Nat)
  | wfet
  | epiw
  deriving DecidableEq, Repr

/-- One outstanding operation. `rel` and `acq` are its ordering annotations with their scopes (R157, R158), `mq` its
miss-queue entry (R95), `arrived` that its unit has it, `res` the value it will deliver with the mark of R311, `pol` its
cache policy (R82). `got` are the pieces of a load read so far, by number, `bad` that one of them was poisoned (R154, R326),
and `early` the count of the writes in its cluster, or in its core where the first part is false, when a piece was first read
ahead of an acquire of that scope (R152). -/
structure Pend where
  id : Nat
  kind : OpKind
  dest : Dest
  rel : Option Scope
  acq : Option Scope
  mq : Bool
  arrived : Bool
  res : Option (Nat × Mark)
  va : Word
  pol : Nat
  got : Sparse (List Byte)
  bad : Bool
  early : Option (Bool × Nat)
  deriving DecidableEq, Repr

/-- A held translation: the 64 KiB page of a partition, its frame's physical address, the leaf entry, and whether that is the
leaf of a 512 MiB page (R136, R137, R148). -/
structure TlbEntry where
  part : Nat
  page : Nat
  pa : Nat
  pte : Word
  big : Bool
  deriving DecidableEq, Repr, Inhabited

/-- An 8-byte word of code fetched for a slot, ahead of its issue or of the block it is in (R69, R70). -/
structure CodeWord where
  addr : Nat
  bytes : List Byte
  deriving DecidableEq, Repr, Inhabited

/-- A drained row in an epilogue buffer or held by a slot (R291, R299). -/
structure EpiRow where
  jobId : Nat
  slot : Nat
  row : Nat
  cols : Nat
  jobNo : Nat
  last : Bool
  bytes : List Byte
  deriving DecidableEq, Repr, Inhabited

/-- One hardware thread slot (R92, R97, R98, R99). `mparity` lists the mask registers whose parity fails (R325, R326). `cwait` is the cycle in which a cancellation reached it while it was parked
in GBAR, BARW, TAGWAIT or FSWAIT, until the cancellation or the wait's condition ends the wait (R276). `loose` are its operations
that a later or earlier one has passed because no other agent was in their scope (R152), `walked` the translations made for the
instruction at its PC (R190), and `olds` the dies on which its task ran before (R342). -/
structure Slot where
  run : Run
  task : Option Task
  sregs : Sparse (Reg 64)
  vregs : Sparse (Reg 2048)
  mregs : Sparse MWord
  mparity : List Nat
  pc : Word
  mode : ModeBits
  epc : Word
  cause : BitVec 8
  tval : Word
  sscratch : Word
  lc : Word
  ls : Word
  le : Word
  frm : BitVec 3
  fflags : BitVec 5
  seed : Word
  spdAnti : Bool
  bto : BitVec 32
  evt : Bool
  turns : Word
  loopMode : Bool
  ahead : List CodeWord
  pend : List Pend
  interval : Option Nat
  penalty : Option Nat
  walkFault : Option (Nat × BitVec 8)
  held : Option EpiRow
  killers : List (Waker × Prior)
  cwait : Option Nat
  loose : List Nat
  walked : List TlbEntry
  olds : List Nat
  deriving DecidableEq, Repr

/-- A slot with no task: the clear engine's state (R43, R44). -/
def Slot.init : Slot where
  run := .free
  task := none
  sregs := []
  vregs := []
  mregs := []
  mparity := []
  pc := 0
  mode := ⟨false, false, false, false, false, false⟩
  epc := 0
  cause := 0
  tval := 0
  sscratch := 0
  lc := 0
  ls := 0
  le := 0
  frm := 0
  fflags := 0
  seed := 0
  spdAnti := false
  bto := 0
  evt := false
  turns := 0
  loopMode := false
  ahead := []
  pend := []
  interval := none
  penalty := none
  walkFault := none
  held := none
  killers := []
  cwait := none
  loose := []
  walked := []
  olds := []

/-! ## Cores -/

/-- One scratchpad word and its full/empty bit (R141); `far` says that an agent of another die filled it (R168). -/
structure PadWord where
  val : Word
  full : Bool
  far : Bool
  deriving DecidableEq, Repr, Inhabited

/-- A scratchpad row of 64 words: its Varve generation, its words, its poisoned 128-byte sectors (R144, R326). -/
structure PadRow where
  gen : BitVec 12
  words : Sparse PadWord
  poison : List Nat
  deriving DecidableEq, Repr, Inhabited

/-- A request waiting at a word of a bank (R180). -/
structure BankReq where
  ref : SlotRef
  id : Nat
  off : Nat
  op : BankOp
  data : Word
  deriving DecidableEq, Repr, Inhabited

/-- A write of a g register that has issued from a slot and not yet landed (R91, R94). -/
structure GWrite where
  reg : Nat
  slot : Nat
  val : Reg 64
  deriving DecidableEq, Repr

/-- The per-partition special registers (R99). -/
inductive PCsr where
  | tvec | ptbase | spbase
  deriving DecidableEq, Repr, Inhabited

/-- The special registers that more slots than the writer's see (R120): an SFMT register, BJOIN, or one of a partition. -/
inductive SharedCsr where
  | sfmt (i : Nat)
  | bjoin
  | part (r : PCsr)
  deriving DecidableEq, Repr, Inhabited

/-- A write of such a register that has issued from a slot and reaches the slots that see the register at the end of that slot's
interval (R120). -/
structure CsrLand where
  csr : SharedCsr
  slot : Nat
  val : Word
  deriving DecidableEq, Repr, Inhabited

/-- What a partition has on one core: g bank and the writes on their way to it in issue order, such writes of special registers, SFMT registers and one more
than the cycle of the last stamp of each, BJOIN, scratchpad, requests waiting at its banks, one more than the cycle of the last
request that reached each word with the key of its slot (R180), epilogue buffer (R97, R119, R141, R142, R261, R299). -/
structure CorePart where
  gregs : Sparse (Reg 64)
  gwrites : List GWrite
  cwrites : List CsrLand
  sfmt : Sparse (BitVec 4)
  stamps : Sparse Nat
  bjoin : BitVec 3
  pad : Sparse PadRow
  bankQ : List BankReq
  lastReq : Sparse (Nat × Nat)
  epi : List EpiRow
  deriving DecidableEq, Repr

/-- A core's share of a partition right after partition reset. -/
def CorePart.init : CorePart := ⟨[], [], [], [], [], 0, [], [], [], []⟩

/-- A 512-byte line that a cache holds (R144 to R147): the partition in whose ways it stands, its Varve generation, the
128-byte sectors held and, in an L1, those that are dirty and those whose clean copy there is poisoned (R326); that it is next to be replaced, or protected from one round of
replacement (R145), in an L2 that it is retained (R147) and that it takes half a way (R146). What its bytes are stands in
`State.l2`, `Die.dirty` and `Die.copies`: within a die every agent sees them alike (R161). -/
structure CLine where
  part : Nat
  gen : BitVec 12
  secs : List Nat
  dirty : List Nat
  bad : List Nat
  first : Bool
  last : Bool
  kept : Bool
  half : Bool
  deriving DecidableEq, Repr, Inhabited

/-- A request at a core's Calving engine (R316, R330): the image's physical and virtual address, and the issuer. -/
structure CalvReq where
  cmd : CalvCmd
  slot : Nat
  part : Nat
  pa : Nat
  va : Word
  by_ : Waker
  prior : Prior
  deriving DecidableEq, Repr, Inhabited

/-- One core: its TLB, newest entry first, the lines of its L1 data cache and of its instruction cache by (line, tag, home)
(R70, R145), its Calving engine's running and waiting requests, one more than the last cycle whose turn it used (R90), and how many
writes and counting requests its slots have performed (R152). -/
structure Core where
  tlb : List TlbEntry
  l1 : Sparse CLine
  icache : Sparse CLine
  calving : Option CalvReq
  calvQ : List CalvReq
  lastTurn : Nat
  wrote : Nat
  deriving DecidableEq, Repr

/-- A core right after die reset. -/
def Core.init : Core := ⟨[], [], [], none, [], 0, 0⟩

/-! ## Clusters: copy and matrix engines -/

/-- The three copy jobs (R184 to R186). -/
inductive CopyKind where
  | copy
  | copy2 (rowbytes sstride dstride : Nat)
  | kvgath (blk : Nat) (idx : List Nat) (mask : MWord)
  deriving DecidableEq, Repr, Inhabited

/-- A copy job with what it latched at issue (R182): `core` is the issuing core, `sfmt` the SFMT code of a source region
(R119); `pol` the cache policy; `ref` and `dest` say where its token goes. -/
structure CopyJob where
  id : Nat
  ref : SlotRef
  core : Nat
  part : Nat
  user : Bool
  kind : CopyKind
  dst : Nat
  src : Nat
  cnt : Nat
  sfmt : Nat
  scope : Scope
  fillfe : Bool
  stamp : Bool
  pol : Nat
  dest : Dest
  deriving DecidableEq, Repr

/-- How a copy job moves bytes: as they are, from an f4b8 page into the scratchpad, or back (R184). -/
inductive CopyMode where
  | bytes | interleave | deinterleave
  deriving DecidableEq, Repr, Inhabited

/-- A 128-byte sector as an engine has read it, once and for all of one job: where it is, its bytes, whether it was poisoned
(R165, R182, R293). -/
structure SecRead where
  loc : Loc
  bytes : List Byte
  bad : Bool
  deriving DecidableEq, Repr, Inhabited

/-- The running copy job: the destination sectors it has written, by virtual address, a fault found as (cause, offset) (R183),
and the source sectors it has read. -/
structure CopyRun where
  job : CopyJob
  mode : CopyMode
  moved : List Nat
  fault : Option (Nat × Nat)
  read : List SecRead
  deriving DecidableEq, Repr

/-- A matrix job with what it latched at issue (R296): `core` is the issuing core, `fa` and `fb` the SFMT codes of the
regions of A and B (R119, R286). -/
structure MmaJob where
  id : Nat
  ref : SlotRef
  core : Nat
  part : Nat
  user : Bool
  jobNo : Nat
  a : Nat
  b : Nat
  c : Nat
  bands : Option Nat
  fa : Nat
  fb : Nat
  org : Nat
  mem : Nat
  idx : List Nat
  seed : Word
  m : Nat
  n : Nat
  k : Nat
  acc : Bool
  drain : Bool
  epi : Bool
  gath : Bool
  pert : Bool
  anti : Bool
  aset : Nat
  dfmt : Ty
  epislot : Nat
  scope : Scope
  dest : Dest
  deriving DecidableEq, Repr

/-- The running matrix job: whether compute has ended, the rows that have entered the drain and those that have left it, a
fault found (R288, R291), the cycle since which its epilogue buffer has been full, the places of C and of its band scales
that the start checks found, the scales read at the start, that a reset has made it unseen (R294), the operand sectors read so
far (R293), the pieces of drained rows that are still to be written (R291), and that its token is filled while it still computes
(R292). -/
structure MmaRun where
  job : MmaJob
  computed : Bool
  nextRow : Nat
  left : Nat
  fault : Option Nat
  fullSince : Option Nat
  cseg : List Seg
  bseg : List Seg
  bands : List Nat
  unseen : Bool
  read : List SecRead
  cout : List (Loc × List Byte)
  told : Bool
  deriving DecidableEq, Repr

/-- A job that has been discarded before it started: its token fills with FAULT and cause 15 once its release is met (R157, R183,
R292). -/
structure GoneJob where
  id : Nat
  ref : SlotRef
  dest : Dest
  part : Nat
  scope : Scope
  copy : Bool
  deriving DecidableEq, Repr

/-- One cluster: its TLB, newest entry first, its copy engine and its matrix engine (R148, R182, R283 to R285), how many
writes its engines have performed (R152), and its discarded jobs whose tokens are still to fill (R157, R187, R292). Keys of `acc` are
((partition * 4 + set) * 256 + row) * 256 + column. -/
structure Cluster where
  tlb : List TlbEntry
  copyQ : List CopyJob
  copyRun : Option CopyRun
  copyCredit : Sparse Int
  copyLast : Nat
  mmaQ : List MmaJob
  mmaRun : Option MmaRun
  mmaDone : List MmaRun
  mmaCredit : Sparse Int
  mmaLast : Nat
  jobNo : Sparse Nat
  acc : Sparse (BitVec 32)
  wrote : Nat
  gone : List GoneJob
  deriving DecidableEq, Repr

/-- A cluster right after die reset. -/
def Cluster.init : Cluster := ⟨[], [], none, [], 3, [], none, [], [], 3, [], [], 0, []⟩

/-! ## Dies: L2, Firn plane, Rime table, Nunatak -/

/-- A byte held in an L2, with the Varve generation of its partition (R144). At a home, `pdie` and `pnum` name the
push that wrote it (0 for none), and `vec` is the causality vector that its writer's die held then; in a die that holds it for
another home, `pnum` is the push that carries it (R162). `eng` says that an engine wrote it (R154). -/
structure L2Byte where
  val : Byte
  gen : BitVec 12
  pdie : Nat
  pnum : Nat
  vec : List Nat
  eng : Bool
  deriving DecidableEq, Repr, Inhabited

/-- A 128-byte sector that its home's L2 holds because it has been written there: a generation and 128 bytes (R144, R146). -/
structure L2Sector where
  gen : BitVec 12
  bytes : List L2Byte
  deriving DecidableEq, Repr, Inhabited

/-- A counter context (R234). Exit counts and TARGET are kept as signed numbers of 40 bits; the queue holds the
differences v - BASE. -/
structure FirnCtx where
  cfg : Bool
  wcode : Nat
  wire : Nat
  spread : Bool
  base : Word
  toggles : List (Nat × Nat)
  cnt : Sparse (BitVec 40)
  queue : List Nat
  memb : BitVec 32
  phase : BitVec 32
  target : BitVec 40
  deriving DecidableEq, Repr

/-- A context right after reset (R234). -/
def FirnCtx.init : FirnCtx := ⟨false, 0, 0, false, 0, [], [], [], 0, 0, BitVec.allOnes 40⟩

/-- A request in flight in a plane: the context it moves through, the wire it is on, the layers it has passed, the phase
tag it carries (R236, R243). A request served at the exit stage alone is no token: it is served as it is admitted. -/
structure FirnTok where
  id : Nat
  ref : SlotRef
  ctx : Nat
  op : FirnOp
  w32 : Bool
  wire : Nat
  layer : Nat
  tag : BitVec 32
  part : Nat
  deriving DecidableEq, Repr, Inhabited

/-- A request that has reached a plane and waits for its entry wire or behind an FCFG, or an FCFG that has entered and waits until its
context is idle (R235, R247). -/
structure FirnHeld where
  id : Nat
  ref : SlotRef
  ctx : Nat
  fcfg : Option FcfgReq
  op : FirnOp
  arg : Word
  w32 : Bool
  part : Nat
  deriving DecidableEq, Repr, Inhabited

/-- A group's parked GBAR (R243): the slot's operation and its tag. -/
structure GbarWait where
  id : Nat
  ref : SlotRef
  ctx : Nat
  tag : BitVec 32
  deriving DecidableEq, Repr, Inhabited

/-- A BARW wire: its phase and its pending arrivals as (core, operation) (R262). -/
structure Wire where
  phase : BitVec 32
  arrivals : List (Nat × OpRef)
  deriving DecidableEq, Repr, Inhabited

/-- An input of a tag section (R15). -/
structure TagInput where
  tile : Nat
  buf : Nat
  gen : Nat
  stride : Nat
  deriving DecidableEq, Repr, Inhabited

/-- What has become of a task of a launch: waiting at the Rime filter with the inputs diverted so far (R36), tag-ready
but not yet at its release time (R29, R34), eligible (R10), bound or running, ended. -/
inductive TaskSt where
  | waiting (diverted : List Nat)
  | ready
  | eligible
  | bound
  | ended
  deriving DecidableEq, Repr, Inhabited

/-- A parsed packet (R11 to R18). -/
structure Packet where
  prio : Nat
  flags : Nat
  scope : Nat
  entry : Word
  taskN : Nat
  cluhint : Nat
  arg : Word
  release : Nat
  fbscope : Nat
  inputs : List TagInput
  grprec : Nat
  handler : BitVec 32
  quorum : Nat
  sibn : Nat
  payload : List Byte
  deriving DecidableEq, Repr, Inhabited

/-- A packet that has passed its checks but waits for sibling groups or a launch entry, read once and for all (R20, R23):
its fields and the places of its group records by group. -/
structure Checked where
  packet : Packet
  recs : List (Nat × Nat)
  deriving DecidableEq, Repr, Inhabited

/-- Who sent a launch's packet (R23, R353). -/
inductive Origin where
  | queue (q seq : Nat)
  | spawn
  | slaunch (q seq : Nat)
  deriving DecidableEq, Repr, Inhabited

/-- An accepted launch in a die's launch table (R10, R27). `order` is its place in the order of acceptance over all dies
(R37); `fired` says that its release time, if any, has come, and stays with an untagged launch, whose tasks are then all
eligible (R30); `divAll` are the inputs diverted for every task that has not yet come to the window (R36). -/
structure Launch where
  lseq : Nat
  order : Nat
  part : Nat
  prio : Nat
  scope : Nat
  entry : Word
  arg : Word
  taskN : Nat
  cluhint : Nat
  det : Bool
  release : Option Nat
  fired : Bool
  inputs : List TagInput
  fbscope : Nat
  payload : Option (List Byte)
  sibn : Nat
  quorum : Nat
  handler : BitVec 32
  groups : List Nat
  super : Bool
  divAll : List Nat
  low : Nat
  tasks : Sparse TaskSt
  ended : Nat
  deriving DecidableEq, Repr

/-- A bind record of the slot table (R39). -/
structure BindRec where
  bstat : Nat
  valid : Bool
  ldie : Nat
  launch : Nat
  part : Nat
  sibgrp : Nat
  member : Nat
  scope : Nat
  taskN : Nat
  taskIdx : Nat
  argv : Word
  pc : Word
  cpend : Bool
  deriving DecidableEq, Repr, Inhabited

/-- A push of dirty remote-homed bytes on its way to their homes, with the causality vector its die held when it left:
how many pushes of each die that die had observed (R162), those of its sectors that are poisoned, those that one store had
written whole (R326), those that an engine wrote (R154), and whether its home's L2 allocates lines for it (R145). -/
structure Push where
  die : Nat
  num : Nat
  part : Nat
  gen : BitVec 12
  home : Nat
  bytes : List (Nat × Byte)
  vec : List Nat
  bad : List Nat
  whole : List Nat
  eng : List Nat
  alloc : Bool
  deriving DecidableEq, Repr, Inhabited

/-- What the bytes of a push were at their home before it: a die that has not observed the push may still read them so (R162;
log 85). -/
structure Shadow where
  die : Nat
  num : Nat
  tag : Nat
  home : Nat
  bytes : List (Nat × L2Byte)
  deriving DecidableEq, Repr, Inhabited

/-- A RED that its die's L2 has accepted and its remote home has not applied yet: the line's sector is in state U (R161,
R194). -/
structure RedReq where
  by_ : OpRef
  part : Nat
  loc : Loc
  w32 : Bool
  op : AmoOp
  b : Word
  deriving DecidableEq, Repr, Inhabited

/-- One compute die (R2): cycle count and freeze; page-walk cache as (partition, level, index path, table);
the lines its L2 slices hold; its dirty bytes of remote-homed lines and its clean copies of remote-homed sectors, keyed by
(address, tag, home) and (sector, tag, home); the poisoned ones among the copies, the sectors whose dirty bytes are poisoned, those
that one store wrote whole and whose push is not yet applied (R326); the REDs it has accepted for other homes, in order; its causality vector, what the releases whose values it has read bring to it at its next acquire, and its push count; its
Firn plane; its Rime table keyed by
(partition * 2^48 + key); its BARW wires; its launch table, the checked packets of SPAWNs that wait, by operation, and its slot table; its Nunatak (round robin, SPREAD counts by die * 4 + partition), the queue
its queue engine last served in each class, and its watchdogs. -/
structure Die where
  cycle : Nat
  frozen : Bool
  walkCache : List (Nat × Nat × Nat × Nat)
  l2lines : Sparse CLine
  dirty : Sparse L2Byte
  copies : Sparse (List Byte)
  badCopies : List Nat
  badDirty : List Nat
  whole : List Nat
  reds : List RedReq
  vec : List Nat
  relVec : List Nat
  pushes : Nat
  firn : Sparse FirnCtx
  tokens : List FirnTok
  port : List FirnHeld
  held : List FirnHeld
  gbars : List GbarWait
  wiresUsed : List Nat
  wiresCycle : Nat
  balUsed : List (Nat × Nat × Nat)
  balCycle : Nat
  rime : Sparse (BitVec 16)
  wires : Sparse Wire
  launches : Sparse Launch
  spawned : List (Nat × Checked)
  lseq : Nat
  slotTable : Sparse BindRec
  rrPart : Nat
  rrServed : Nat
  spread : Sparse Nat
  lastQ : Sparse Nat
  heartbeatMs : Nat
  progressMs : Nat
  progressReset : Bool
  lastBeat : Nat
  lastIssue : Nat
  deriving DecidableEq, Repr

/-- A die right after reset. -/
def Die.init : Die where
  cycle := 0
  frozen := false
  walkCache := []
  l2lines := []
  dirty := []
  copies := []
  badCopies := []
  badDirty := []
  whole := []
  reds := []
  vec := [0, 0, 0, 0]
  relVec := [0, 0, 0, 0]
  pushes := 0
  firn := []
  tokens := []
  port := []
  held := []
  gbars := []
  wiresUsed := []
  wiresCycle := 0
  balUsed := []
  balCycle := 0
  rime := []
  wires := []
  launches := []
  spawned := []
  lseq := 0
  slotTable := []
  rrPart := 3
  rrServed := 16
  spread := []
  lastQ := []
  heartbeatMs := 100
  progressMs := 1000
  progressReset := false
  lastBeat := 0
  lastIssue := 0

/-! ## Partitions -/

/-- A memory window (R351). -/
structure Window where
  base : Nat
  len : Nat
  read : Bool
  write : Bool
  physical : Bool
  deriving DecidableEq, Repr, Inhabited

/-- A partition's configuration, the fields of PARTCFG (R374). -/
structure PartCfg where
  slotMask : BitVec 16
  spMask : BitVec 64
  l1Ways : BitVec 16
  l2Ways : BitVec 16
  hbmShare : List Nat
  asets : Nat
  weight : Nat
  det : Bool
  rimeQ : List Nat
  firn : List (Nat × Nat)
  ptbase : Word
  cq : Nat
  cqClass : Nat
  cqJ : Nat
  cqBase : Nat
  cqTarget : List Byte
  cqBuf : Word
  jobs : List Nat
  wins : List Window
  qranges : List (Nat × Nat)
  deriving DecidableEq, Repr, Inhabited

/-- A write to a per-partition register that not every core sees yet: register, value, writing core, and the draws of the
cores that see it already (R120). -/
structure PCsrUpd where
  reg : PCsr
  val : Word
  core : Nat
  seen : List Nat
  deriving DecidableEq, Repr, Inhabited

/-- A partition's fault ring: base, size exponent, the frames FRING found (R314, R375). -/
structure FaultRing where
  base : Nat
  j : Nat
  frames : List Nat
  deriving DecidableEq, Repr, Inhabited

/-- A pending-record entry of the scope unit (R346): the launch by its die and sequence number, its queue and SEQ, its
scope and task count, how many tasks have left the scope, NFAULT, LATE, whether an SLAUNCH reply is owed (R353). -/
structure PendRec where
  die : Nat
  lseq : Nat
  queue : Nat
  seq : Nat
  scope : Nat
  taskN : Nat
  left : Nat
  nfault : Nat
  late : Bool
  slaunch : Bool
  deriving DecidableEq, Repr, Inhabited

/-- A completion record of R28 or a control reply waiting to be written. -/
structure RecOut where
  queue : Nat
  seq : Nat
  taskN : Nat
  nfault : Nat
  status : Nat
  late : Bool
  ctime : Nat
  slaunch : Bool
  deriving DecidableEq, Repr, Inhabited

/-- A partition: its configuration, Varve generation, per-partition registers and their updates under way, accepted
features, fault ring, retention ranges as lists of frames with the bytes they cover, pending-record entries, records
to be written, whether an SLAUNCH's reply is still owed, whether its resources may not change: from its creation to a
partition reset, and from a launch's acceptance to the next reset (R40,
R144, R314, R346, R353, R354). -/
structure Partition where
  cfg : PartCfg
  varve : BitVec 12
  tvec : Word
  ptbase : Word
  spbase : Word
  upds : List PCsrUpd
  features : BitVec 6
  ring : Option FaultRing
  pins : Sparse (Nat × Nat × List Nat)
  pendRecs : List PendRec
  recs : List RecOut
  slaunch : Bool
  fixed : Bool
  deriving DecidableEq, Repr

/-! ## Package units -/

/-- A message held in a work queue's ring: the length R26 records, and the SEQ of R28. -/
structure QEntry where
  len : Nat
  seq : Nat
  deriving DecidableEq, Repr, Inhabited

/-- A work queue (R25), whose owner is the partition that has it in its ranges: whether a ring is set, its frames (physical addresses of its 64 KiB pages and the
offset of its base in the first), class, target, buffer, the ring's contents from its head on, and the packet at its head
once it has been checked and waits for sibling groups (R20). -/
structure Queue where
  isSet : Bool
  base : Nat
  frames : List Nat
  j : Nat
  cls : Nat
  target : List Byte
  buf : Word
  head : Nat
  entries : List QEntry
  nextSeq : Nat
  waits : Option Checked
  deriving DecidableEq, Repr

/-- A queue whose ring nobody has set. -/
def Queue.init : Queue := ⟨false, 0, [], 0, 0, [], 0, 0, [], 0, none⟩

/-- A finish scope (R268). -/
structure Fscope where
  members : Nat
  holds : Nat
  parent : Option Nat
  err : Bool
  deriving DecidableEq, Repr, Inhabited

/-- A scope right after partition reset (R268). -/
def Fscope.init : Fscope := ⟨0, 0, none, false⟩

/-- The departure of a task from its scope (R124, R335, R345): where it stands among the changes of one cycle, its launch, its
error mark, its count in NFAULT, the dies it ran on, the last one first, the engine jobs that its release covers, and who waits for it. -/
structure Depart where
  key : Nat
  part : Nat
  scope : Nat
  die : Nat
  lseq : Nat
  err : Bool
  fault : Bool
  from_ : List Nat
  jobs : List Nat
  wake : List Waker
  prior : List Prior
  deriving DecidableEq, Repr, Inhabited

/-- A change sent to the scope unit and not yet applied (R345): an instruction's, or a departure. -/
inductive ScopeChange where
  | op (o : OpRef)
  | depart (x : Depart)
  deriving DecidableEq, Repr, Inhabited

/-- A member of a sibling group: MSTAT, its first post's hash, whether it is placed, whether a cancellation is under way
to it, TURNS when it took one, whether it has ended without starting, the end being perhaps still under way (R272, R273,
R274, R323, R348). -/
structure MemberSt where
  stat : Nat
  hash : Option Word
  placed : Bool
  due : Bool
  cturns : Option Word
  gone : Bool
  deriving DecidableEq, Repr, Inhabited

/-- A sibling group of the Cirque (R272); `recPa` is the physical address of its record. -/
structure Group where
  part : Nat
  die : Nat
  launch : Nat
  first : Nat
  recPa : Nat
  quorum : Nat
  members : List MemberSt
  hashes : List (Word × Nat)
  posts : Nat
  cancelled : Nat
  ended : Nat
  decided : Bool
  byQuorum : Bool
  noAnswer : Bool
  winner : Word
  totTurns : Word
  cancTurns : Word
  handTurns : Word
  deriving DecidableEq, Repr

/-- The end of a sibling member on its way to the Cirque (R348), with the departure that follows it. -/
structure MemberEnd where
  group : Nat
  member : Nat
  turns : Word
  started : Bool
  depart : Depart
  deriving DecidableEq, Repr, Inhabited

/-- What a spill has put beside its image (R317, R319): where the image is, the task, the number that the image's words for
its wait and its pending deliveries carry, what these words stand for, the task's engine jobs, a cancellation recorded against
the task, the core it was on, the dies it ran on before that one's, and whether the task still stands in its image alone: the record outlives the refill, since an
image may be refilled again (R334). -/
structure Spilled where
  pa : Nat
  task : Task
  num : Nat
  wait : Option Wait
  entries : List (Nat × Dest)
  ops : List Pend
  jobs : List Nat
  cancel : Bool
  core : Nat
  olds : List Nat
  live : Bool
  deriving DecidableEq, Repr

/-- What leaves the device (R28, R352, R357). -/
inductive OutMsg where
  | nack (queue code : Nat)
  | record (target : List Byte) (buf : Word) (bytes : List Byte)
  | reply (target : List Byte) (buf : Word) (cmd status : Nat) (result : List Byte)
  | rmaAck (job : Nat) (ok : Bool) (data : List Byte)
  | sideband (seq cmd status : Nat) (args sign : List Byte)
  | report (code : Nat)
  deriving DecidableEq, Repr, Inhabited

/-- A write of the device to a partition's memory that waits for a frozen die: a fault record, which finds its place in the ring when
it is written, or bytes at an address (R314, R359). -/
inductive DevOut where
  | fault (part : Nat) (bytes : List Byte)
  | put (part pa : Nat) (bytes : List Byte)
  deriving DecidableEq, Repr, Inhabited

/-- PTP state (R356). -/
inductive Ptp where
  | unlocked | locked | holdover
  deriving DecidableEq, Repr, Inhabited

/-- Power of the compute dies (R363, R365). -/
inductive Power where
  | bootFailed | on | off | disconnected
  deriving DecidableEq, Repr, Inhabited

/-- A side-band command that has passed its checks and is not complete: a slot kill (command 6) or a die reset (command 8), by its
target (R358, R360). -/
structure SbWait where
  seq : Nat
  cmd : Nat
  target : Nat
  deriving DecidableEq, Repr, Inhabited

/-- A reset that no command asked for and that waits for RESUME: of the partition whose state failed in a unit (R328), or of a
die by its progress watchdog (R360, R362). -/
inductive OwedReset where
  | state (unit : StateUnit) (part : Nat)
  | progress (die : Nat)
  deriving DecidableEq, Repr, Inhabited

/-- The Serac die (R2, R357 to R365): the operator keys its configuration record lists, last SEQ of each key, drop and error counters, PTP state, power, arithmetic
clock, flash staging, the active image and the other firmware images, watchdog firings, the commands under way and the other resets that
wait (R360). -/
structure Serac where
  keys : List Nat
  keySeq : Sparse Nat
  drops : Nat
  recDrops : Nat
  ringDrops : Nat
  corrected : Nat
  poisoned : Nat
  ptp : Ptp
  power : Power
  clockMhz : Nat
  staging : Sparse Byte
  image : List Byte
  others : List (List Byte)
  wdogFirings : Nat
  split512 : Bool
  waiting : List SbWait
  owed : List OwedReset
  deriving DecidableEq, Repr

/-! ## Memory -/

/-- Memory: (address, byte) pairs, addresses strictly rising, no byte equal to what an unlisted address reads as. -/
abbrev Memory := List Host.Cell

/-- What an unlisted address reads as: zero (DESIGN CHOICE: the manual gives HBM no contents at reset; log 5). -/
def Memory.fill : Byte := 0

/-- The canonical form of memory. -/
def Memory.wf : Memory → Bool
  | [] => true
  | [a] => a.2 != Memory.fill
  | a :: b :: t => (a.2 != Memory.fill) && decide (a.1 < b.1) && Memory.wf (b :: t)

/-! ## The machine -/

/-- The state of the package. Keys: slots core * 16 + slot; cores by packed core number; core parts core * 4 +
partition; clusters die * 32 + cluster; finish scopes partition * 256 + scope; sectors of the homes' L2 by (sector, tag, home). `poison` are the poisoned sectors of HBM and `l2bad` those of the homes' L2 by (sector,
tag, home) (R326); `hbmBy` says of a byte that has left its home's L2 which push wrote it, `relOf` is, for each unit's state
that a release can pass through, the causality vector that releases at package scope have brought to it, and `shadows` are the
pushes that not every die sees yet (R162). `ticks`
counts the package's cycles, and `scopeLast` holds for each partition one more than the cycle of the last change that its
scopes took, with the change's place in the order of R345. -/
structure State where
  cur : SlotRef
  agenda : List Move
  draws : Nat
  nextId : Nat
  ticks : Nat
  accepts : Nat
  slots : Sparse Slot
  cores : Sparse Core
  coreParts : Sparse CorePart
  clusters : Sparse Cluster
  dies : Sparse Die
  parts : Sparse Partition
  hbm : Memory
  l2 : Sparse L2Sector
  poison : List Nat
  l2bad : List Nat
  hbmBy : Sparse L2Byte
  relOf : Sparse (List Nat)
  shadows : List Shadow
  inflight : List Push
  overflow : List Nat
  queues : Sparse Queue
  scopes : Sparse Fscope
  scopeQ : List ScopeChange
  scopeLast : Sparse (Nat × Nat)
  groups : Sparse Group
  memberQ : List MemberEnd
  spilled : List Spilled
  latchQ : List (SlotRef × Task)
  devOut : List DevOut
  time : Nat
  serac : Serac
  outbox : List OutMsg
  deriving DecidableEq, Repr

/-- The Serac right after package reset with the dies powered (R356, R362, R363). -/
def Serac.init : Serac where
  keys := (List.range 4).filter Config.keyListed
  keySeq := []
  drops := 0
  recDrops := 0
  ringDrops := 0
  corrected := 0
  poisoned := 0
  ptp := .unlocked
  power := .on
  clockMhz := 1800
  staging := []
  image := Config.bootImage
  others := Config.otherImages
  wdogFirings := 0
  split512 := Config.bootSplit512
  waiting := []
  owed := []

/-- The machine right after a package reset whose boot has passed its checks, so that the dies are powered (R360, R363; log 62): no
partition exists, every slot is Free, memory lists nothing, TIME counts from 0 (R356). `cur`, `agenda`, `draws` and `nextId` are the model's own (log 1). -/
def State.reset : State where
  cur := ⟨0, 0⟩
  agenda := []
  draws := 0
  nextId := 0
  ticks := 0
  accepts := 0
  slots := []
  cores := []
  coreParts := []
  clusters := []
  dies := []
  parts := []
  hbm := []
  l2 := []
  poison := []
  l2bad := []
  hbmBy := []
  relOf := []
  shadows := []
  inflight := []
  overflow := []
  queues := []
  scopes := []
  scopeQ := []
  scopeLast := []
  groups := []
  memberQ := []
  spilled := []
  latchQ := []
  devOut := []
  time := 0
  serac := Serac.init
  outbox := []

end Sys2Proof.Machine
end

