-- ==== Sys2Proof/Machine/Bits.lean ====
section
/-! DEFINITION. Bit-field, sign-extension and byte-order helpers (R4, R7), and the numbering of cores, clusters and
dies (R12, R99, R149). -/
namespace Sys2Proof.Machine

/-- Little-endian value of bytes (R4). -/
def natOfBytes : List Byte → Nat
  | [] => 0
  | b :: t => b.toNat + 256 * natOfBytes t

/-- The n low bytes of a number, lowest first (R4). -/
def bytesOfNat : Nat → Nat → List Byte
  | 0, _ => []
  | n + 1, v => BitVec.ofNat 8 v :: bytesOfNat n (v / 256)

/-- Bits [lo+n-1:lo] of a number. -/
def field (v lo n : Nat) : Nat := (v >>> lo) % 2 ^ n

/-- The signed value of the low n bits of x. -/
def signedVal (n x : Nat) : Int := let m := x % 2 ^ n; if m < 2 ^ (n - 1) then m else (m : Int) - 2 ^ n

/-- SignExt(x, n) to 64 bits (R7). -/
def sext64 (n x : Nat) : Word := BitVec.ofInt 64 (signedVal n x)

/-- A signed 24-bit immediate as 64 bits. -/
def imm24s (i : BitVec 24) : Word := i.signExtend 64

/-- 0 or 1. -/
def b2w (b : Bool) : Word := if b then 1 else 0

/-- All k with f k, k below n. -/
def countTo (n : Nat) (f : Nat → Bool) : Nat := ((List.range n).filter f).length

/-- Number of set bits. -/
def popcount (w : Nat) (v : BitVec w) : Nat := countTo w fun i => v.getLsbD i

/-- Die of a packed core number: bits [9:8] (R99). -/
def coreDie (c : Nat) : Nat := c / 256
/-- y of a packed core number: bits [7:4] (R99). -/
def coreY (c : Nat) : Nat := c / 16 % 16
/-- x of a packed core number: bits [3:0] (R99). -/
def coreX (c : Nat) : Nat := c % 16
/-- Cluster of a core: die * 32 + y * 2 + x[3] (R12). -/
def clusterOf (c : Nat) : Nat := c / 8

/-- Home die of a physical address when the page is not HOMED: pa[10:9] (R146). -/
def homeOf (pa : Nat) : Nat := field pa 9 2

/-- Home die of a tag key (R31). -/
def tagHome (key : Nat) : Nat := (key % 4 + key / 2 ^ 32 % 4) % 4
/-- Buffer id of a tag key (R16). -/
def tagBuf (key : Nat) : Nat := key / 2 ^ 32 % 65536
/-- The buffer-wide tile index (R17, R263). -/
def tagWide (key : Nat) : Bool := key % 2 ^ 32 == 0xFFFFFFFF

/-- Replace the n bits at lo. -/
def setField (v lo n x : Nat) : Nat := v - ((v >>> lo) % 2 ^ n) * 2 ^ lo + (x % 2 ^ n) * 2 ^ lo

/-- A list with its i-th element replaced. -/
def listSet {α : Type} (l : List α) (i : Nat) (v : α) : List α := l.mapIdx fun j x => if j = i then v else x

/-- Bit width of a lane (R8). -/
def tyBits : Ty → Nat
  | .i8 | .n8 | .e4m3 | .e5m2 => 8
  | .i16 | .n16 | .f16 | .bf16 => 16
  | .i32 | .n32 | .f32 => 32
  | .i64 | .n64 | .f64 => 64
  | .f4 => 4

/-- Lanes of a vector register (R9). -/
def tyLanes (t : Ty) : Nat := 2048 / tyBits t

/-- Lane i of width w. -/
def lane {n : Nat} (w : Nat) (v : BitVec n) (i : Nat) : Nat := (v.toNat >>> (i * w)) % 2 ^ w

/-- Assemble lanes of width w, lane 0 lowest. -/
def packLanes (w : Nat) : List Nat → Nat
  | [] => 0
  | x :: t => x % 2 ^ w + 2 ^ w * packLanes w t

end Sys2Proof.Machine
end

