-- ==== Sys2Proof/Machine/Float.lean ====
section
/-! DEFINITION. Number formats and rounding: floating values as exact dyadic numbers, rounding to a format in a mode with
the flags of R205, the arithmetic, the four function instructions, block scales and the Spindrift generator (R197 to
R209, R225, R229). -/
namespace Sys2Proof.Machine

/-- A floating format (R197). `f4b8`-nibbles are `f4`. -/
structure FpFmt where
  ebits : Nat
  fbits : Nat
  bias : Int
  ieee : Bool
  deriving DecidableEq, Repr

def fmtF64 : FpFmt := ⟨11, 52, 1023, true⟩
def fmtF32 : FpFmt := ⟨8, 23, 127, true⟩
def fmtF16 : FpFmt := ⟨5, 10, 15, true⟩
def fmtBf16 : FpFmt := ⟨8, 7, 127, true⟩
def fmtE4m3 : FpFmt := ⟨4, 3, 7, false⟩
def fmtE5m2 : FpFmt := ⟨5, 2, 15, true⟩
def fmtF4 : FpFmt := ⟨2, 1, 1, false⟩

/-- The format of a floating lane type; f32 for the others. -/
def tyFp : Ty → FpFmt
  | .f64 => fmtF64
  | .f16 => fmtF16
  | .bf16 => fmtBf16
  | .e4m3 => fmtE4m3
  | .e5m2 => fmtE5m2
  | .f4 => fmtF4
  | _ => fmtF32

/-- A datum: a NaN, an infinity by its sign, or (-1)^neg * m * 2^e. -/
inductive Num where
  | nan (signalling : Bool)
  | inf (neg : Bool)
  | fin (neg : Bool) (m : Nat) (e : Int)
  deriving DecidableEq, Repr, Inhabited

/-- Flags as FFLAGS bits: NV 16, DZ 8, OF 4, UF 2, NX 1 (R99). -/
abbrev Fl := BitVec 5
def NV : Fl := 16
def DZ : Fl := 8
def OF : Fl := 4
def UF : Fl := 2
def NX : Fl := 1

/-- Width of a format. -/
def FpFmt.width (f : FpFmt) : Nat := 1 + f.ebits + f.fbits
/-- The canonical NaN (R199). -/
def FpFmt.qnan (f : FpFmt) : Nat :=
  if f.ieee then (2 ^ f.ebits - 1) * 2 ^ f.fbits + 2 ^ (f.fbits - 1) else 2 ^ (f.ebits + f.fbits) - 1
/-- Sign bit in place. -/
def FpFmt.sgn (f : FpFmt) (neg : Bool) : Nat := if neg then 2 ^ (f.ebits + f.fbits) else 0
/-- Infinity of a sign, for the formats that have one. -/
def FpFmt.infBits (f : FpFmt) (neg : Bool) : Nat := f.sgn neg + (2 ^ f.ebits - 1) * 2 ^ f.fbits
/-- Largest finite magnitude as a code: 0x7E for e4m3, all ones for f4 (R198). -/
def FpFmt.maxBits (f : FpFmt) : Nat :=
  if f.ieee then (2 ^ f.ebits - 1) * 2 ^ f.fbits - 1 else if f.ebits = 4 then 0x7E else 2 ^ (f.ebits + f.fbits) - 1

/-- The datum of a code (R197, R198). -/
def FpFmt.decode (f : FpFmt) (b : Nat) : Num :=
  let neg := field b (f.ebits + f.fbits) 1 = 1
  let x := field b f.fbits f.ebits
  let m := field b 0 f.fbits
  if f.ieee ∧ x = 2 ^ f.ebits - 1 then
    if m = 0 then .inf neg else .nan (m < 2 ^ (f.fbits - 1))
  else if f.ebits = 4 ∧ x = 15 ∧ m = 7 then .nan false
  else if x = 0 then .fin neg m (1 - f.bias - f.fbits)
  else .fin neg (2 ^ f.fbits + m) (x - f.bias - f.fbits)

/-- Round m * 2^e to a multiple of 2^q in a mode; answers the multiple and whether it is inexact (R204). -/
def roundAt (rm : Rm) (neg : Bool) (m : Nat) (e q : Int) : Nat × Bool :=
  if q ≤ e then (m * 2 ^ (e - q).toNat, false)
  else
    let sh := (q - e).toNat
    let k := m >>> sh
    let r := m % 2 ^ sh
    let half := 2 ^ (sh - 1)
    let up := match rm with
      | .rtz => false
      | .rup => !neg && r != 0
      | .rdn => neg && r != 0
      | .rna => decide (half ≤ r)
      | _ => decide (half < r) || (r == half && k % 2 == 1)
    (if up then k + 1 else k, r != 0)

/-- The code that stands in place of an infinite result (R204): e4m3 has none. Answers the code and NV when a NaN
comes of it. -/
def FpFmt.infResult (f : FpFmt) (sat neg : Bool) : Nat × Fl :=
  if f.ieee then
    if sat && f.fbits == 2 then (f.sgn neg + f.maxBits, 0) else (f.infBits neg, 0)
  else if f.ebits = 4 then (if sat then (f.sgn neg + f.maxBits, 0) else (f.qnan, NV))
  else (f.sgn neg + f.maxBits, 0)

/-- Rounding of the finite exact value (-1)^neg * m * 2^e, with `sticky` for a nonzero rest below the last bit of m, to
a format, with the flags OF, UF and NX (R204, R205). -/
def FpFmt.round (f : FpFmt) (rm : Rm) (sat neg : Bool) (m : Nat) (e : Int) (sticky : Bool) : Nat × Fl :=
  let m := if sticky then 4 * m + 1 else m
  let e := if sticky then e - 2 else e
  if m = 0 then (f.sgn neg, 0)
  else
    let top : Int := m.log2 + e
    let emin : Int := 1 - f.bias
    let q := max (top - f.fbits) (emin - f.fbits)
    let (k, inexact) := roundAt rm neg m e q
    let (k, q) := if k = 2 ^ (f.fbits + 1) then (2 ^ f.fbits, q + 1) else (k, q)
    let (ku, _) := roundAt rm neg m e (top - f.fbits)
    let tiny := decide (top < emin) && !(top + 1 == emin && ku == 2 ^ (f.fbits + 1))
    let code := if k < 2 ^ f.fbits then k else ((q + f.fbits + f.bias).toNat) * 2 ^ f.fbits + (k - 2 ^ f.fbits)
    if f.maxBits < code then
      let toInf := match rm with
        | .rtz => false
        | .rup => !neg
        | .rdn => neg
        | _ => true
      if toInf then
        let (b, fl) := f.infResult sat neg
        (b, fl ||| OF ||| NX)
      else (f.sgn neg + f.maxBits, OF ||| NX)
    else (f.sgn neg + code, (if inexact then NX else 0) ||| (if tiny && inexact then UF else 0))

/-- Deliver a datum in a format: a NaN becomes canonical, an infinity follows R204 without OF, a finite value rounds. -/
def FpFmt.deliver (f : FpFmt) (rm : Rm) (sat : Bool) : Num → Nat × Fl
  | .nan _ => (f.qnan, 0)
  | .inf neg =>
    let (b, fl) := f.infResult sat neg
    (b, if b = f.infBits neg && f.ieee then 0 else if fl = 0 then NX else fl)
  | .fin neg m e => f.round rm sat neg m e false

/-- A signalling NaN raises NV. -/
def snanFl : Num → Fl
  | .nan true => NV
  | _ => 0
/-- A datum is a NaN. -/
def Num.isNan : Num → Bool
  | .nan _ => true
  | _ => false
/-- The datum with its sign changed. -/
def Num.flip : Num → Num
  | .nan q => .nan q
  | .inf n => .inf (!n)
  | .fin n m e => .fin (!n) m e
/-- Signed mantissa at exponent q ≤ e. -/
def Num.at (q : Int) : Num → Int
  | .fin n m e => let v : Int := m * 2 ^ (e - q).toNat; if n then -v else v
  | _ => 0

/-- Exact sum; an exact zero sum has the IEEE sign of the mode (R131, R226). -/
def numAdd (rm : Rm) (a b : Num) : Num × Fl :=
  match a, b with
  | .nan _, _ => (.nan false, snanFl a ||| snanFl b)
  | _, .nan _ => (.nan false, snanFl a ||| snanFl b)
  | .inf x, .inf y => if x = y then (.inf x, 0) else (.nan false, NV)
  | .inf x, _ => (.inf x, 0)
  | _, .inf y => (.inf y, 0)
  | .fin x m e, .fin y n g =>
    let q := min e g
    let v := Num.at q a + Num.at q b
    if v = 0 then
      (.fin (if m = 0 ∧ n = 0 ∧ x = y then x else rm = .rdn) 0 q, 0)
    else (.fin (v < 0) v.natAbs q, 0)

/-- Exact product. -/
def numMul (a b : Num) : Num × Fl :=
  match a, b with
  | .nan _, _ => (.nan false, snanFl a ||| snanFl b)
  | _, .nan _ => (.nan false, snanFl a ||| snanFl b)
  | .inf x, .inf y => (.inf (x != y), 0)
  | .inf x, .fin y n _ => if n = 0 then (.nan false, NV) else (.inf (x != y), 0)
  | .fin x m _, .inf y => if m = 0 then (.nan false, NV) else (.inf (x != y), 0)
  | .fin x m e, .fin y n g => (.fin (x != y) (m * n) (e + g), 0)

/-- Fused a * b + c with one rounding to come; 0 × ∞ is NV whatever c is (R132). -/
def numFma (rm : Rm) (a b c : Num) : Num × Fl :=
  let (p, f) := numMul a b
  let (r, g) := numAdd rm p c
  (r, f ||| g ||| snanFl c)

/-- Round(a + b) in a format. -/
def fpAdd (f : FpFmt) (rm : Rm) (a b : Nat) : Nat × Fl :=
  let (r, g) := numAdd rm (f.decode a) (f.decode b)
  let (v, h) := f.deliver rm false r
  (v, g ||| h)
/-- Change the sign bit of a code. -/
def FpFmt.negate (f : FpFmt) (a : Nat) : Nat := setField a (f.ebits + f.fbits) 1 (1 - field a (f.ebits + f.fbits) 1)
/-- Round(a - b) in a format. -/
def fpSub (f : FpFmt) (rm : Rm) (a b : Nat) : Nat × Fl := fpAdd f rm a (f.negate b)
/-- Round(a * b) in a format. -/
def fpMul (f : FpFmt) (rm : Rm) (a b : Nat) : Nat × Fl :=
  let (r, g) := numMul (f.decode a) (f.decode b)
  let (v, h) := f.deliver rm false r
  (v, g ||| h)
/-- Round(±(a * b) ± c) in a format with one rounding. -/
def fpFma (f : FpFmt) (rm : Rm) (negProd negC : Bool) (a b c : Nat) : Nat × Fl :=
  let x := f.decode a
  let z := f.decode c
  let (r, g) := numFma rm (if negProd then x.flip else x) (f.decode b) (if negC then z.flip else z)
  let (v, h) := f.deliver rm false r
  (v, g ||| h)

/-- Bits of quotients and roots kept beyond the widest format. -/
def qBits : Nat := 160

/-- Round(a / b) in a format (R132). -/
def fpDiv (f : FpFmt) (rm : Rm) (a b : Nat) : Nat × Fl :=
  match f.decode a, f.decode b with
  | .nan q, y => (f.qnan, snanFl (.nan q) ||| snanFl y)
  | x, .nan q => (f.qnan, snanFl (.nan q) ||| snanFl x)
  | .inf _, .inf _ => (f.qnan, NV)
  | .inf x, .fin y _ _ => (f.infBits (x != y), 0)
  | .fin x _ _, .inf y => (f.sgn (x != y), 0)
  | .fin x m e, .fin y n g =>
    if n = 0 then (if m = 0 then (f.qnan, NV) else (f.infBits (x != y), DZ))
    else if m = 0 then (f.sgn (x != y), 0)
    else
      let k := qBits + n.log2
      let t := m * 2 ^ k
      f.round rm false (x != y) (t / n) (e - g - k) (t % n != 0)

/-- Integer square root, bit by bit from bit i - 1. -/
def isqrtFrom (n : Nat) : Nat → Nat → Nat
  | 0, r => r
  | i + 1, r => let c := r + 2 ^ i; isqrtFrom n i (if c * c ≤ n then c else r)
/-- floor(sqrt n). -/
def isqrt (n : Nat) : Nat := isqrtFrom n (n.log2 / 2 + 1) 0

/-- Round(sqrt a) in a format (R132). -/
def fpSqrt (f : FpFmt) (rm : Rm) (a : Nat) : Nat × Fl :=
  match f.decode a with
  | .nan q => (f.qnan, snanFl (.nan q))
  | .inf neg => if neg then (f.qnan, NV) else (f.infBits false, 0)
  | .fin neg m e =>
    if m = 0 then (f.sgn neg, 0)
    else if neg then (f.qnan, NV)
    else
      let (m, e) := if e % 2 = 0 then (m, e) else (2 * m, e - 1)
      let t := m * 2 ^ (2 * qBits)
      let r := isqrt t
      f.round rm false false r (e / 2 - qBits) (r * r != t)

/-- a < b, for data that are no NaN; zeros are equal. -/
def numLt (a b : Num) : Bool :=
  match a, b with
  | .inf x, .inf y => x && !y
  | .inf x, _ => x
  | _, .inf y => !y
  | .fin _ _ e, .fin _ _ g => decide (Num.at (min e g) a < Num.at (min e g) b)
  | _, _ => false
/-- a = b, for data that are no NaN. -/
def numEq (a b : Num) : Bool :=
  match a, b with
  | .inf x, .inf y => x == y
  | .fin _ _ e, .fin _ _ g => decide (Num.at (min e g) a = Num.at (min e g) b)
  | _, _ => false

/-- minimumNumber (or maximumNumber): -0 below +0, a NaN gives way to a number (R132). -/
def fpMinMax (f : FpFmt) (isMax : Bool) (a b : Nat) : Nat × Fl :=
  let x := f.decode a
  let y := f.decode b
  let fl := snanFl x ||| snanFl y
  match x, y with
  | .nan _, .nan _ => (f.qnan, fl)
  | .nan _, _ => (b, fl)
  | _, .nan _ => (a, fl)
  | _, _ =>
    let less := numLt x y || (numEq x y && decide (field b (f.ebits + f.fbits) 1 < field a (f.ebits + f.fbits) 1))
    (if less != isMax then a else b, 0)

/-- a == b; a signalling NaN raises NV. -/
def fpEq (f : FpFmt) (a b : Nat) : Bool × Fl :=
  let x := f.decode a
  let y := f.decode b
  (!x.isNan && !y.isNan && numEq x y, snanFl x ||| snanFl y)
/-- a < b; any NaN raises NV. -/
def fpLt (f : FpFmt) (a b : Nat) : Bool × Fl :=
  let x := f.decode a
  let y := f.decode b
  if x.isNan || y.isNan then (false, NV) else (numLt x y, 0)
/-- a <= b; any NaN raises NV. -/
def fpLe (f : FpFmt) (a b : Nat) : Bool × Fl :=
  let x := f.decode a
  let y := f.decode b
  if x.isNan || y.isNan then (false, NV) else (numLt x y || numEq x y, 0)
/-- a or b is a NaN; a signalling one raises NV. -/
def fpUno (f : FpFmt) (a b : Nat) : Bool × Fl :=
  let x := f.decode a
  let y := f.decode b
  (x.isNan || y.isNan, snanFl x ||| snanFl y)

/-- Float to a w-bit integer, signed or not, with clamping (R133). -/
def fpToInt (f : FpFmt) (rm : Rm) (w : Nat) (signed : Bool) (a : Nat) : Nat × Fl :=
  let hi : Int := if signed then 2 ^ (w - 1) - 1 else 2 ^ w - 1
  let lo : Int := if signed then -(2 ^ (w - 1)) else 0
  let enc := fun i : Int => (i % 2 ^ w).toNat
  match f.decode a with
  | .nan _ => (enc hi, NV)
  | .inf neg => (enc (if neg then lo else hi), NV)
  | .fin neg m e =>
    let (k, inexact) := roundAt rm neg m e 0
    let v : Int := if neg then -(k : Int) else k
    if hi < v then (enc hi, NV)
    else if v < lo then (enc lo, NV)
    else (enc v, if inexact then NX else 0)

/-- A w-bit integer, signed or not, to a float (R132, R228). -/
def intToFp (f : FpFmt) (rm : Rm) (sat : Bool) (w : Nat) (signed : Bool) (a : Nat) : Nat × Fl :=
  let v : Int := if signed then signedVal w a else a % 2 ^ w
  f.round rm sat (v < 0) v.natAbs 0 false

/-- A float in one format to another (R132, R228). -/
def fpConv (src dst : FpFmt) (rm : Rm) (sat : Bool) (a : Nat) : Nat × Fl :=
  let x := src.decode a
  let (v, fl) := dst.deliver rm sat x
  (v, fl ||| snanFl x)

/-! ## The function instructions (R225) -/

/-- Product over the fraction bits of x of 2^(2^-i), in fixed point with p bits: `c` is 2^(2^-(i-1)), `x` holds the
fraction as a number below 2^n. -/
def exp2Frac (p : Nat) (x : Nat) : Nat → Nat → Nat → Nat
  | 0, _, acc => acc
  | n + 1, c, acc =>
    let c := isqrt (c * 2 ^ p)
    exp2Frac p x n c (if x.testBit n then acc * c / 2 ^ p else acc)

/-- RNE(2^a) (R224, R225). -/
def fpExp2 (f : FpFmt) (a : Nat) : Nat × Fl :=
  match f.decode a with
  | .nan q => (f.qnan, snanFl (.nan q))
  | .inf neg => (if neg then 0 else f.infBits false, 0)
  | .fin neg m e =>
    if m = 0 then f.round .rne false false 1 0 false
    else if (20 : Int) ≤ m.log2 + e then f.round .rne false false 1 (if neg then -1000000 else 1000000) true
    else if (m.log2 : Int) + e < -140 then
      if neg then f.round .rne false false (2 ^ 200 - 1) (-200) true else f.round .rne false false (2 ^ 200) (-200) true
    else
      -- x = i + r / 2^n with n bits of fraction
      let n := (-e).toNat
      let v : Int := if neg then -((m * 2 ^ e.toNat : Nat) : Int) else ((m * 2 ^ e.toNat : Nat) : Int)
      let i := v / 2 ^ n
      let r := (v % 2 ^ n).toNat
      if r = 0 then f.round .rne false false 1 i false
      else
        let p := 320
        f.round .rne false false (exp2Frac p r n (2 * 2 ^ p) (2 ^ p)) (i - p) true

/-- n further bits of log2 of x / 2^p, for 1 ≤ x / 2^p < 2, by squaring. -/
def log2Frac (p : Nat) : Nat → Nat → Nat → Nat
  | 0, _, acc => acc
  | n + 1, x, acc =>
    let y := x * x / 2 ^ p
    if 2 ^ (p + 1) ≤ y then log2Frac p n (y / 2) (2 * acc + 1) else log2Frac p n y (2 * acc)

/-- RNE(log2 a) (R224, R225). -/
def fpLog2 (f : FpFmt) (a : Nat) : Nat × Fl :=
  match f.decode a with
  | .nan q => (f.qnan, snanFl (.nan q))
  | .inf neg => if neg then (f.qnan, NV) else (f.infBits false, 0)
  | .fin neg m e =>
    if m = 0 then (f.infBits true, DZ)
    else if neg then (f.qnan, NV)
    else
      let i : Int := m.log2 + e
      if m = 2 ^ m.log2 then f.round .rne false (i < 0) i.natAbs 0 false
      else
        let p := 460
        let n := 220
        let b := log2Frac p n (m * 2 ^ (p - m.log2)) 0
        let v : Int := i * 2 ^ n + b
        if v < 0 then f.round .rne false true (v.natAbs - 1) (-(n : Int)) true
        else f.round .rne false false v.natAbs (-(n : Int)) true

/-- RNE(1/a) (R225). -/
def fpRcp (f : FpFmt) (a : Nat) : Nat × Fl := fpDiv f .rne (f.round .rne false false 1 0 false).1 a

/-- RNE(1/sqrt a) (R225). -/
def fpRsq (f : FpFmt) (a : Nat) : Nat × Fl :=
  match f.decode a with
  | .nan q => (f.qnan, snanFl (.nan q))
  | .inf neg => if neg then (f.qnan, NV) else (0, 0)
  | .fin neg m e =>
    if m = 0 then (f.infBits neg, DZ)
    else if neg then (f.qnan, NV)
    else
      let (m, e) := if e % 2 = 0 then (m, e) else (2 * m, e - 1)
      let k := qBits + m.log2
      let r := isqrt (2 ^ (2 * k) / m)
      f.round .rne false false r (-(e / 2) - k) (r * r * m != 2 ^ (2 * k))

/-! ## f4b8 blocks (R200, R201, R229) -/

/-- An E3M5 scale in units of 2^-7 (R200). -/
def e3m5 (b : Nat) : Nat := if b / 32 % 8 = 0 then b % 32 else (32 + b % 32) * 2 ^ (b / 32 % 8 - 1)
/-- Twice the magnitude of an E2M1 code's low three bits (R199). -/
def e2m1x2 (c : Nat) : Nat := [0, 1, 2, 3, 4, 6, 8, 12].getD (c % 8) 0
/-- The exact value of an f4b8 element (R201). -/
def f4b8Num (nib scale : Nat) : Num := .fin (decide (8 ≤ nib % 16)) (e2m1x2 nib * e3m5 scale) (-8)

/-- Magnitude of a finite f32 datum in units of 2^-150; none for an infinity. -/
def magUnits : Num → Option Nat
  | .fin _ m e => some (m * 2 ^ (e + 150).toNat)
  | _ => none

/-- VPACKB on one block of 8 f32 codes: nibbles, scale byte, flags (R229). -/
def packBlock (xs : List Nat) : List Nat × Nat × Fl :=
  let ns := xs.map fmtF32.decode
  let finite := ns.filterMap fun x => magUnits x
  let amax := finite.foldl max 0
  let anyInf := ns.any fun x => match x with
    | .inf _ => true
    | _ => false
  let sb := if anyInf then 255
    else if amax = 0 then 0
    else ((List.range 256).find? fun b => decide (amax ≤ 6 * e3m5 b * 2 ^ 143)).getD 255
  let sc := e3m5 sb * 2 ^ 143
  let one := fun x : Num => match x with
    | .nan _ => (0, NV)
    | .inf n => ((if n then 8 else 0) + 7, NX)
    | .fin n _ _ =>
      let v := (magUnits x).getD 0
      let q := if sb = 0 then 0
        else ((List.range 7).filter fun i =>
          let d := (e2m1x2 i + e2m1x2 (i + 1)) * sc
          decide (d < 4 * v) || (decide (d = 4 * v) && decide (i % 2 = 1))).length
      ((if n then 8 else 0) + q, if e2m1x2 q * sc = 2 * v then 0 else NX)
  let qs := ns.map one
  (qs.map fun x => x.1, sb, qs.foldl (fun f x => f ||| x.2) 0)

/-! ## The Spindrift generator (R208, R209) -/

/-- z(k, r, c) as an f32 code (R208). -/
def spindrift (seed : Word) (k r c : Nat) : Nat :=
  let key : Word := BitVec.ofNat 64 ((k % 2 ^ 16) * 2 ^ 48) ^^^ BitVec.ofNat 64 ((r % 2 ^ 24) * 2 ^ 24)
    ^^^ BitVec.ofNat 64 (c % 2 ^ 24)
  let x := key ^^^ seed
  let x := (x ^^^ (x >>> 31)) * 0xC6BC27965A1D3E4B
  let x := (x ^^^ (x >>> 27)) * 0x8EB3F10A2D5C6497
  let x := x ^^^ (x >>> 33)
  let n := x.toNat
  let t : Int := (field n 0 16 : Int) + field n 16 16 + field n 32 16 + field n 48 16 - 131070
  let p := match fmtF32.decode 0x3FDDB3D7 with
    | .fin _ m e => (m, e)
    | _ => (0, 0)
  (fmtF32.round .rne false (t < 0) (t.natAbs * p.1) (p.2 - 16) false).1

/-- z with the antithetic rule (R209). -/
def spindriftAnti (anti : Bool) (seed : Word) (k r c : Nat) : Nat :=
  if anti && k % 2 == 1 then fmtF32.negate (spindrift seed (k - 1) r c) else spindrift seed k r c

/-- The perturbed weight of an mls element as a bf16 code (R203, R209). -/
def mlsWeight (anti : Bool) (seed : Word) (k r c e : Nat) : Nat :=
  let mu := field e 16 16
  let l := signedVal 8 (field e 8 8)
  let sigma : Num := .fin false (16 + (l % 16).toNat) (l / 16 - 4)
  match fmtBf16.decode mu with
  | .nan _ => fmtBf16.qnan
  | .inf n => fmtBf16.infBits n
  | x =>
    let z := fmtF32.decode (spindriftAnti anti seed k r c)
    let w32 := (fmtF32.deliver .rne false (numFma .rne sigma z x).1).1
    (fpConv fmtF32 fmtBf16 .rne false w32).1

/-! ## The matrix path (R206, R207) -/

/-- floor(log2 |t|) of a nonzero finite term. -/
def termTop : Num → Option Int
  | .fin _ m e => if m = 0 then none else some (m.log2 + e)
  | _ => none
/-- Flush a subnormal f32 code to zero with its sign (R206, R207). -/
def flushF32 (b : Nat) : Nat := if field b 23 8 = 0 then field b 31 1 * 2 ^ 31 else b

/-- One group of R206: the products and the accumulator code give the new accumulator code. -/
def accGroup (prods : List (Num × Num)) (acc : Nat) : Nat :=
  let ps := prods.map fun p => numMul p.1 p.2
  let terms := fmtF32.decode acc :: ps.map fun p => p.1
  let pinf := terms.contains (.inf false)
  let ninf := terms.contains (.inf true)
  if terms.any Num.isNan || (pinf && ninf) then fmtF32.qnan
  else if pinf then fmtF32.infBits false
  else if ninf then fmtF32.infBits true
  else match (terms.filterMap termTop) with
    | [] => 0
    | t :: ts =>
      let u := ts.foldl max t - 27
      let sum := terms.foldl (fun (s : Int) x => match x with
        | .fin n m e =>
          let v : Int := if u ≤ e then m * 2 ^ (e - u).toNat else ((m >>> (u - e).toNat : Nat) : Int)
          if n then s - v else s + v
        | _ => s) 0
      if sum = 0 then 0 else flushF32 (fmtF32.round .rne false (sum < 0) sum.natAbs u false).1

/-- The drained value of R207 in a drain format. -/
def drainElem (acc bandA bandB : Nat) (d : Ty) : Nat :=
  let scale := fun a b : Nat =>
    let r := numMul (fmtF32.decode a) (fmtBf16.decode b)
    flushF32 (fmtF32.deliver .rne false r.1).1
  let t := scale (scale acc bandA) bandB
  match d with
  | .f32 => t
  | d =>
    let f := tyFp d
    match fmtF32.decode t with
    | .nan _ => f.qnan
    | .inf n => if f.ebits = 4 then 0x7F else f.infBits n
    | .fin _ _ _ =>
      let (v, fl) := fpConv fmtF32 f .rne false t
      if (d = .e4m3 ∨ d = .e5m2) ∧ fl &&& OF ≠ 0 then f.sgn (t.testBit 31) + f.maxBits else v

end Sys2Proof.Machine
end

