-- ==== Sys2Proof/WellFormed.lean ====
section
/-! DEFINITION. Well-formed instructions: what decode checks 4 and 5 of R88 leave to a term of `Instr` beyond its
operand types: accepted TY, RM, SAT and ORD values, widths, special-register indices and option rules. -/
namespace Sys2Proof

/-- The special registers of R99. -/
inductive Csr where
  | spbase | ptbase | bjoin | sscratch | tvec | tval | cause | epc | mode
  | sfmt (i : Fin 16)
  | evt | bto | spdctl | seed | fflags | frm | le | ls | lc | time | turns | cycle | part | core | slot
  deriving DecidableEq, Repr

/-- The special register an index names (R99); `none` when it names none. -/
def csrOfIndex (i : BitVec 12) : Option Csr :=
  match i.toNat with
  | 0x121 => some .spbase
  | 0x120 => some .ptbase
  | 0x110 => some .bjoin
  | 0x105 => some .sscratch
  | 0x104 => some .tvec
  | 0x103 => some .tval
  | 0x102 => some .cause
  | 0x101 => some .epc
  | 0x100 => some .mode
  | 0x050 => some .evt
  | 0x040 => some .bto
  | 0x031 => some .spdctl
  | 0x030 => some .seed
  | 0x021 => some .fflags
  | 0x020 => some .frm
  | 0x012 => some .le
  | 0x011 => some .ls
  | 0x010 => some .lc
  | 0x006 => some .time
  | 0x005 => some .turns
  | 0x004 => some .cycle
  | 0x002 => some .part
  | 0x001 => some .core
  | 0x000 => some .slot
  | n => if 0x060 ≤ n ∧ n ≤ 0x06F then some (.sfmt (Fin.ofNat 16 (n % 16))) else none

/-- Read-only special registers: a CSR write to one is an illegal encoding (R118). -/
def Csr.readOnly : Csr → Bool
  | .slot | .core | .part | .cycle | .turns | .time => true
  | _ => false

/-- A CSRW, CSRS, CSRC or CSRX may name this index (R118). -/
def csrWritable (i : BitVec 12) : Bool :=
  match csrOfIndex i with
  | some r => !r.readOnly
  | none => false

/-- i and n types, TY 0-7 (R8). -/
def Ty.isInt : Ty → Bool
  | .i8 | .i16 | .i32 | .i64 | .n8 | .n16 | .n32 | .n64 => true
  | _ => false
/-- i types, TY 0-3. -/
def Ty.isSignedInt : Ty → Bool
  | .i8 | .i16 | .i32 | .i64 => true
  | _ => false
/-- The lane types of the vector floating-point instructions, TY 8-11 (R214). -/
def Ty.isFloat : Ty → Bool
  | .f16 | .bf16 | .f32 | .f64 => true
  | _ => false
/-- TY 0-13, the types that set a lane width (R217 to R221). -/
def Ty.isLane : Ty → Bool
  | .f4 => false
  | _ => true
/-- TY 0-11 (R222). -/
def Ty.isReduce (t : Ty) : Bool := t.isInt || t.isFloat
/-- TY 2, 3, 6, 7, 10, 11 (R178). -/
def Ty.isGather : Ty → Bool
  | .i32 | .i64 | .n32 | .n64 | .f32 | .f64 => true
  | _ => false
/-- The narrow floats for which VCVT accepts SAT (R228). -/
def Ty.isNarrow : Ty → Bool
  | .e4m3 | .e5m2 => true
  | _ => false

/-- VCVT accepts this pair of types with this RM and SAT (R228). -/
def vcvtOk (dst src : Ty) (rm : Rm) (sat : Bool) : Bool :=
  dst.isLane && src.isLane && dst != src &&
  (if src.isInt && dst.isInt then rm == .rne
   else if dst.isInt then !sat
   else !sat || dst.isNarrow)

/-- The option rules of MMA (R84, R297). -/
def mmaOk (o : MmaO) : Bool :=
  (o.pert || (o.f == 0 && o.g == 0 && !o.anti)) &&
  (if o.gath then decide (o.i.val ≤ 12) else o.i == 0) &&
  (o.epi || o.epislot == 0) &&
  (o.drain || (o.c == 0 && o.cm == .wait)) &&
  (o.dfmt == .f32 || o.dfmt == .bf16 || o.dfmt == .f16 || o.dfmt == .e4m3 || o.dfmt == .e5m2)

/-- The well-formedness check, instruction by instruction. Events carry no encoding and are always well formed. -/
def Instr.wf : Instr → Bool
  | .nop8 => true
  | .nop12 => true
  | .nop16 => true
  | .br _ => true
  | .jal _ => true
  | .jr _ => true
  | .jalr _ => true
  | .beq _ => true
  | .bne _ => true
  | .blt _ => true
  | .bge _ => true
  | .bltn _ => true
  | .bgen _ => true
  | .loop _ => true
  | .lbrk => true
  | .trap _ => true
  | .brk => true
  | .cpoint => true
  | .csrr o => (csrOfIndex o.idx).isSome
  | .csrw o => csrWritable o.idx
  | .csrs o => csrWritable o.idx
  | .csrc o => csrWritable o.idx
  | .csrx o => csrWritable o.idx
  | .wfe => true
  | .sev _ => true
  | .wfet _ => true
  | .exit => true
  | .exitc _ => true
  | .add _ => true
  | .sub _ => true
  | .and _ => true
  | .or _ => true
  | .xor _ => true
  | .shl _ => true
  | .shr _ => true
  | .sra _ => true
  | .mul _ => true
  | .mulh _ => true
  | .mulhn _ => true
  | .div _ => true
  | .divn _ => true
  | .rem _ => true
  | .remn _ => true
  | .andn _ => true
  | .addi _ => true
  | .andi _ => true
  | .ori _ => true
  | .xori _ => true
  | .shli _ => true
  | .shri _ => true
  | .srai _ => true
  | .muli _ => true
  | .slt _ => true
  | .sltn _ => true
  | .seq _ => true
  | .sne _ => true
  | .min _ => true
  | .max _ => true
  | .minn _ => true
  | .maxn _ => true
  | .clz _ => true
  | .ctz _ => true
  | .popc _ => true
  | .sext o => o.w != 0
  | .zext o => o.w != 0
  | .sel _ => true
  | .madd _ => true
  | .movi _ => true
  | .movl _ => true
  | .fadd _ => true
  | .fsub _ => true
  | .fmul _ => true
  | .fdiv _ => true
  | .fsqrt _ => true
  | .fmin o => o.rm == .rne
  | .fmax o => o.rm == .rne
  | .feq o => o.rm == .rne
  | .flt o => o.rm == .rne
  | .fle o => o.rm == .rne
  | .fcvti _ => true
  | .fcvtf _ => true
  | .fcvtw o => !o.dbl || o.rm == .rne
  | .ffma _ => true
  | .vadd o => o.ty.isInt
  | .vsub o => o.ty.isInt
  | .vmul o => o.ty.isInt
  | .vmulh o => o.ty.isInt
  | .vand o => o.ty.isInt
  | .vor o => o.ty.isInt
  | .vxor o => o.ty.isInt
  | .vshl o => o.ty.isInt
  | .vshr o => o.ty.isInt
  | .vsra o => o.ty.isInt
  | .vmin o => o.ty.isInt
  | .vmax o => o.ty.isInt
  | .vabs o => o.ty.isSignedInt
  | .vadds o => o.ty.isInt
  | .vsubs o => o.ty.isInt
  | .vavg o => o.ty.isInt
  | .vcmpEq o => o.ty.isInt
  | .vcmpNe o => o.ty.isInt
  | .vcmpLt o => o.ty.isInt
  | .vcmpLe o => o.ty.isInt
  | .vcmpGt o => o.ty.isInt
  | .vcmpGe o => o.ty.isInt
  | .vmov o => o.ty.isLane
  | .vsplat o => o.ty.isLane
  | .vext o => o.ty.isLane
  | .vins o => o.ty.isLane
  | .viota o => o.ty.isInt
  | .vsel o => o.ty.isLane
  | .vperm o => o.ty.isLane
  | .vslideup o => o.ty.isLane
  | .vslidedn o => o.ty.isLane
  | .vredadd o => o.ty.isReduce && (!o.ty.isInt || o.rm == .rne)
  | .vredmin o => o.ty.isReduce && o.rm == .rne
  | .vredmax o => o.ty.isReduce && o.rm == .rne
  | .vcompress o => o.ty.isLane
  | .vscan o => o.ty.isInt
  | .mand _ => true
  | .mor _ => true
  | .mxor _ => true
  | .mandn _ => true
  | .mnot _ => true
  | .mpopc _ => true
  | .mfirst _ => true
  | .mfrom _ => true
  | .mto _ => true
  | .vfadd o => o.ty.isFloat
  | .vfsub o => o.ty.isFloat
  | .vfmul o => o.ty.isFloat
  | .vfdiv o => o.ty.isFloat
  | .vfsqrt o => o.ty.isFloat
  | .vfmin o => o.ty.isFloat && o.rm == .rne
  | .vfmax o => o.ty.isFloat && o.rm == .rne
  | .vfexp2 o => o.ty.isFloat && o.rm == .rne
  | .vflog2 o => o.ty.isFloat && o.rm == .rne
  | .vfrcp o => o.ty.isFloat && o.rm == .rne
  | .vfrsq o => o.ty.isFloat && o.rm == .rne
  | .vfabs o => o.ty.isFloat && o.rm == .rne
  | .vfneg o => o.ty.isFloat && o.rm == .rne
  | .vfma o => o.ty.isFloat
  | .vfms o => o.ty.isFloat
  | .vfnma o => o.ty.isFloat
  | .vfcmpEq o => o.ty.isFloat
  | .vfcmpNe o => o.ty.isFloat
  | .vfcmpLt o => o.ty.isFloat
  | .vfcmpLe o => o.ty.isFloat
  | .vfcmpUno o => o.ty.isFloat
  | .vcvt o => vcvtOk o.dst o.src o.rm o.sat
  | .vpackb _ => true
  | .vunpackb _ => true
  | .ldI8 _ => true
  | .ldN8 _ => true
  | .ldI16 _ => true
  | .ldN16 _ => true
  | .ldI32 _ => true
  | .ldN32 _ => true
  | .ldI64 _ => true
  | .st8 _ => true
  | .st16 _ => true
  | .st32 _ => true
  | .st64 _ => true
  | .vld _ => true
  | .vst _ => true
  | .vldf o => o.ty == .f16 || o.ty == .bf16 || o.ty == .f32
  | .vlds o => o.ty.isLane
  | .vsts o => o.ty.isLane
  | .vgath o => o.ty.isGather
  | .vscat o => o.ty.isGather
  | .ldsy _ => true
  | .ldpk _ => true
  | .stsy _ => true
  | .stfl _ => true
  | .stem _ => true
  | .ldfe _ => true
  | .copy _ => true
  | .copy2 o => o.rowbytes != 0
  | .kvgath o => o.blk != 0 && o.blk.toNat % 128 == 0
  | .pref _ => true
  | .flush _ => true
  | .invl _ => true
  | .pin _ => true
  | .unpin _ => true
  | .amoAdd _ => true
  | .amoAnd _ => true
  | .amoOr _ => true
  | .amoXor _ => true
  | .amoMin _ => true
  | .amoMax _ => true
  | .amoMinn _ => true
  | .amoMaxn _ => true
  | .amoSwap _ => true
  | .amoFadd _ => true
  | .cas _ => true
  | .redAdd o => o.ord == .relaxed || o.ord == .rel
  | .redFadd o => o.ord == .relaxed || o.ord == .rel
  | .redMin o => o.ord == .relaxed || o.ord == .rel
  | .redMax o => o.ord == .relaxed || o.ord == .rel
  | .redOr o => o.ord == .relaxed || o.ord == .rel
  | .fence _ => true
  | .fenceAcq _ => true
  | .fenceRel _ => true
  | .fenceSc _ => true
  | .ldacq _ => true
  | .strel _ => true
  | .finc _ => true
  | .fdec _ => true
  | .fcan _ => true
  | .fpeek _ => true
  | .fcfg o => o.wcode != 0 && o.wcode != 7 && o.wire.toNat % 2 ^ o.wcode.toNat == 0
  | .join o => !o.w32
  | .leave o => !o.w32
  | .gbar o => !o.w32 && o.ord == .relaxed
  | .barw _ => true
  | .tagpub _ => true
  | .tagwait _ => true
  | .tagqry _ => true
  | .tagret _ => true
  | .spawn _ => true
  | .fsopen _ => true
  | .fsclose _ => true
  | .fswait _ => true
  | .gpost _ => true
  | .gstat _ => true
  | .mma o => mmaOk o
  | .epiw _ => true
  | .epid => true
  | .spdz _ => true
  | .eret => true
  | .spill _ => true
  | .refill _ => true
  | .slotkill _ => true
  | .tlbinv _ => true
  | .queueMessage _ => true
  | .packetCheck _ => true
  | .completionRecordWrite _ => true
  | .recordTransportFailure _ => true
  | .rmaWrite _ => true
  | .rmaRead _ => true
  | .qset _ => true
  | .fring _ => true
  | .foffer _ => true
  | .faccept _ => true
  | .sresume _ => true
  | .slaunch _ => true
  | .slaunchReply _ => true
  | .releaseTimeReached _ _ => true
  | .timeStep _ => true
  | .ptpHoldover => true
  | .nunatakPlacement _ => true
  | .dispatch _ _ => true
  | .clearComplete _ => true
  | .icacheFill _ => true
  | .issueIntervalEnd _ => true
  | .branchPenaltyEnd _ => true
  | .completionDelivery _ => true
  | .storeAccepted _ => true
  | .pageWalk _ => true
  | .pushApply _ => true
  | .atomicAtHome _ => true
  | .redApply _ => true
  | .bankSyncRequest _ => true
  | .cancellationDelivery _ _ => true
  | .cancellationTaken _ => true
  | .sevDelivery _ => true
  | .wfetTimeout _ => true
  | .slotFree _ => true
  | .copyJobStart _ => true
  | .copySectorMove _ _ => true
  | .copyTokenFill _ => true
  | .mmaJobStart _ => true
  | .mmaComputeEnd _ => true
  | .drainRow _ => true
  | .epilogueTimeout _ => true
  | .mmaTokenFill _ => true
  | .firnPlaneAdmission _ => true
  | .balancerStep _ _ => true
  | .firnExitStage _ _ => true
  | .fcfgApply _ _ => true
  | .barwArrivalCounted _ => true
  | .barwTimeout _ => true
  | .tagHomeRequest _ => true
  | .scopeUnitChange _ => true
  | .cirquePost _ => true
  | .cirqueMemberEnd _ => true
  | .spillStart _ => true
  | .spillComplete _ => true
  | .refillStart _ => true
  | .refillComplete _ => true
  | .slotkillArrival _ => true
  | .calvingCompletionLatch _ => true
  | .bjoinWrite _ => true
  | .evtWrite _ => true
  | .lcWrite _ => true
  | .lsLeWrite _ => true
  | .frmWrite _ => true
  | .sfmtWrite _ => true
  | .csrRegisterWrite _ => true
  | .partitionCsrPropagation _ => true
  | .scrub _ => true
  | .uncorrectableError _ => true
  | .stateErrorPartitionStop _ _ => true
  | .health _ => true
  | .wdog _ => true
  | .freeze _ => true
  | .readout _ => true
  | .resume _ => true
  | .sidebandSlotkill _ => true
  | .partreset _ => true
  | .diereset _ => true
  | .pkgreset _ => true
  | .fwload _ => true
  | .nunrestart _ => true
  | .partcfgConfigure _ => true
  | .partcfgRemove _ => true
  | .partcfgSramSplit _ => true
  | .attest _ => true
  | .powerUpBoot _ => true
  | .nunatakHeartbeatWatchdog _ => true
  | .dieProgressWatchdog _ => true
  | .seracCoreWatchdog _ => true
  | .thermalThrottle => true
  | .undervoltagePowerOff => true
  | .overvoltageDisconnect => true
  | .limitsRestored => true
  | .illegalEncoding _ => true
  | .fetchFault _ => true
  | .ptpLock _ => true
  | .transportPacketDrop => true
  | .controlUnknownCmd _ => true
  | .sidebandUnknownCmd _ => true
  | .arithmeticClockRaise => true

end Sys2Proof
end

