-- ==== Sys2Proof/Decode.lean ====
section
/-! DEFINITION. Fetch words to instructions (R68 to R88), and back. Field values are plain numbers cut from the
little-endian word; each operand shape is decoded by one function and encoded by one, from the field-use tables.
`DecRes.illegal` is decode check 4 (cause 1), `DecRes.badReg` check 5 (cause 2), in that order of report. -/
namespace Sys2Proof

/-- A little-endian list of bytes as a number (R4). -/
def leNat : List Byte → Nat
  | [] => 0
  | b :: bs => b.toNat + 256 * leNat bs

/-- The `n` bytes of a number, lowest first (R4). -/
def leBytes : Nat → Nat → List Byte
  | 0, _ => []
  | n + 1, v => BitVec.ofNat 8 v :: leBytes n (v / 256)

/-- What decode finds (R88 checks 4 and 5). -/
inductive DecRes where
  | ok (i : Instr)
  | illegal
  | badReg
  deriving DecidableEq, Repr

/-- Bits [39:2], the same in all three formats (R72, R73). -/
structure Hdr where
  op : Nat
  fn : Nat
  d : Nat
  a : Nat
  b : Nat
  am : Nat
  bm : Nat
  mask : Nat
  h : Nat
  deriving DecidableEq, Repr

/-- An instruction word cut into the fields of its format: K with IMM24 (R72), W with C, CM and IMM48 (R73), X with
C, CM and bits [127:48] (R74). -/
inductive Enc where
  | k (h : Hdr) (imm : Nat)
  | w (h : Hdr) (c cm imm : Nat)
  | x (h : Hdr) (c cm x : Nat)
  deriving DecidableEq, Repr

/-- Bits [39:0] from LEN and the header fields. -/
def Hdr.bits (len : Nat) (h : Hdr) : Nat :=
  len + 2 ^ 2 * h.op + 2 ^ 10 * h.fn + 2 ^ 14 * h.d + 2 ^ 20 * h.a + 2 ^ 26 * h.b + 2 ^ 32 * h.am + 2 ^ 34 * h.bm +
    2 ^ 36 * h.mask + 2 ^ 39 * h.h

/-- The header fields of a word. -/
def hdrOf (w : Nat) : Hdr :=
  ⟨w / 2 ^ 2 % 256, w / 2 ^ 10 % 16, w / 2 ^ 14 % 64, w / 2 ^ 20 % 64, w / 2 ^ 26 % 64, w / 2 ^ 32 % 4, w / 2 ^ 34 % 4,
    w / 2 ^ 36 % 8, w / 2 ^ 39 % 2⟩

/-- The word of separated fields. -/
def pack : Enc → Nat
  | .k h imm => h.bits 0 + 2 ^ 40 * imm
  | .w h c cm imm => h.bits 1 + 2 ^ 40 * c + 2 ^ 46 * cm + 2 ^ 48 * imm
  | .x h c cm x => h.bits 2 + 2 ^ 40 * c + 2 ^ 46 * cm + 2 ^ 48 * x

/-- The fields of a word, by its LEN (R68); `none` for LEN 11. -/
def unpack (w : Nat) : Option Enc :=
  match w % 4 with
  | 0 => some (.k (hdrOf w) (w / 2 ^ 40 % 2 ^ 24))
  | 1 => some (.w (hdrOf w) (w / 2 ^ 40 % 64) (w / 2 ^ 46 % 4) (w / 2 ^ 48 % 2 ^ 48))
  | 2 => some (.x (hdrOf w) (w / 2 ^ 40 % 64) (w / 2 ^ 46 % 4) (w / 2 ^ 48 % 2 ^ 80))
  | _ => none

/-- Operand modifier codes (R72); 11 is illegal (R78). -/
def mdOf : Nat → Option Md
  | 0 => some .wait
  | 1 => some .consume
  | 2 => some .peek
  | _ => none
def Md.code : Md → Nat
  | .wait => 0
  | .consume => 1
  | .peek => 2

/-- TY codes (R8); 15 is reserved. -/
def tyOf : Nat → Option Ty
  | 0 => some .i8
  | 1 => some .i16
  | 2 => some .i32
  | 3 => some .i64
  | 4 => some .n8
  | 5 => some .n16
  | 6 => some .n32
  | 7 => some .n64
  | 8 => some .f16
  | 9 => some .bf16
  | 10 => some .f32
  | 11 => some .f64
  | 12 => some .e4m3
  | 13 => some .e5m2
  | 14 => some .f4
  | _ => none
def Ty.code : Ty → Nat
  | .i8 => 0
  | .i16 => 1
  | .i32 => 2
  | .i64 => 3
  | .n8 => 4
  | .n16 => 5
  | .n32 => 6
  | .n64 => 7
  | .f16 => 8
  | .bf16 => 9
  | .f32 => 10
  | .f64 => 11
  | .e4m3 => 12
  | .e5m2 => 13
  | .f4 => 14

/-- RM codes; 5 and 6 are illegal (R80, R204). -/
def rmOf : Nat → Option Rm
  | 0 => some .rne
  | 1 => some .rtz
  | 2 => some .rup
  | 3 => some .rdn
  | 4 => some .rna
  | 7 => some .dyn
  | _ => none
def Rm.code : Rm → Nat
  | .rne => 0
  | .rtz => 1
  | .rup => 2
  | .rdn => 3
  | .rna => 4
  | .dyn => 7

/-- SCOPE codes; 5-7 are illegal (R80). -/
def scopeOf : Nat → Option Scope
  | 0 => some .core
  | 1 => some .clu
  | 2 => some .die
  | 3 => some .pkg
  | 4 => some .sys
  | _ => none
def Scope.code : Scope → Nat
  | .core => 0
  | .clu => 1
  | .die => 2
  | .pkg => 3
  | .sys => 4

/-- ORD codes (R80). -/
def ordOf : Nat → Option Ord
  | 0 => some .relaxed
  | 1 => some .acq
  | 2 => some .rel
  | 3 => some .ar
  | _ => none
def Ord.code : Ord → Nat
  | .relaxed => 0
  | .acq => 1
  | .rel => 2
  | .ar => 3

/-- Cache policy codes; 5-7 are illegal (R82). -/
def polOf : Nat → Option Policy
  | 0 => some 0
  | 1 => some 1
  | 2 => some 2
  | 3 => some 3
  | 4 => some 4
  | _ => none

/-- The field value and the H flag of a second source that may be scalar (R58). -/
def VB.code : VB → Nat
  | .v r => r.val
  | .s r => r.val
def VB.flag : VB → Nat
  | .v _ => 0
  | .s _ => 1

/-- A register field's number as a register of its class; check 5 says separately whether the number is legal. -/
def sr (n : Nat) : SField := Fin.ofNat 48 n
def vr (n : Nat) : VField := Fin.ofNat 16 n
def mr (n : Nat) : MField := Fin.ofNat 8 n

/-- Checks 4 and 5 of R88, in that order, once the reserved fields are known to be zero. -/
def finish (regsOk : Bool) (i : Instr) : DecRes :=
  if i.wf then (if regsOk then .ok i else .badReg) else .illegal


/-- Decodes the fields of shape None. -/
def decNone (h : Hdr) (imm : Nat) (mk : Instr) : DecRes :=
  if h.d == 0 && h.a == 0 && h.b == 0 && h.am == 0 && h.bm == 0 && h.mask == 0 && h.h == 0 && imm == 0 then
    finish (true) mk
  else .illegal

/-- Encodes shape None under an opcode and a function. -/
def encNone (op fn : Nat) : Enc :=
  .k ⟨op, fn, 0, 0, 0, 0, 0, 0, 0⟩ 0

/-- Decodes the fields of shape Br. -/
def decBr (h : Hdr) (imm : Nat) (mk : BrO → Instr) : DecRes :=
  if h.d == 0 && h.a == 0 && h.b == 0 && h.am == 0 && h.bm == 0 && h.mask == 0 && h.h == 0 then
    finish (true) (mk ⟨BitVec.ofNat 24 imm⟩)
  else .illegal

/-- Encodes shape Br under an opcode and a function. -/
def encBr (op fn : Nat) (o : BrO) : Enc :=
  .k ⟨op, fn, 0, 0, 0, 0, 0, 0, 0⟩ o.off.toNat

/-- Decodes the fields of shape Jal. -/
def decJal (h : Hdr) (imm : Nat) (mk : JalO → Instr) : DecRes :=
  if h.a == 0 && h.b == 0 && h.am == 0 && h.bm == 0 && h.mask == 0 && h.h == 0 then
    finish (decide (h.d < 48)) (mk ⟨sr h.d, BitVec.ofNat 24 imm⟩)
  else .illegal

/-- Encodes shape Jal under an opcode and a function. -/
def encJal (op fn : Nat) (o : JalO) : Enc :=
  .k ⟨op, fn, o.d.val, 0, 0, 0, 0, 0, 0⟩ o.off.toNat

/-- Decodes the fields of shape Jr. -/
def decJr (h : Hdr) (imm : Nat) (mk : JrO → Instr) : DecRes :=
  if h.d == 0 && h.b == 0 && h.bm == 0 && h.mask == 0 && h.h == 0 then
    match mdOf h.am with
    | some am => finish (decide (h.a < 48)) (mk ⟨sr h.a, am, BitVec.ofNat 24 imm⟩)
    | _ => .illegal
  else .illegal

/-- Encodes shape Jr under an opcode and a function. -/
def encJr (op fn : Nat) (o : JrO) : Enc :=
  .k ⟨op, fn, 0, o.a.val, 0, o.am.code, 0, 0, 0⟩ o.imm.toNat

/-- Decodes the fields of shape Jalr. -/
def decJalr (h : Hdr) (imm : Nat) (mk : JalrO → Instr) : DecRes :=
  if h.b == 0 && h.bm == 0 && h.mask == 0 && h.h == 0 then
    match mdOf h.am with
    | some am => finish (decide (h.d < 48) && decide (h.a < 48)) (mk ⟨sr h.d, sr h.a, am, BitVec.ofNat 24 imm⟩)
    | _ => .illegal
  else .illegal

/-- Encodes shape Jalr under an opcode and a function. -/
def encJalr (op fn : Nat) (o : JalrO) : Enc :=
  .k ⟨op, fn, o.d.val, o.a.val, 0, o.am.code, 0, 0, 0⟩ o.imm.toNat

/-- Decodes the fields of shape Branch. -/
def decBranch (h : Hdr) (imm : Nat) (mk : BranchO → Instr) : DecRes :=
  if h.d == 0 && h.mask == 0 then
    match mdOf h.am, mdOf h.bm with
    | some am, some bm => finish (decide (h.a < 48) && decide (h.b < 48)) (mk ⟨sr h.a, am, sr h.b, bm, decide (h.h = 1), BitVec.ofNat 24 imm⟩)
    | _, _ => .illegal
  else .illegal

/-- Encodes shape Branch under an opcode and a function. -/
def encBranch (op fn : Nat) (o : BranchO) : Enc :=
  .k ⟨op, fn, 0, o.a.val, o.b.val, o.am.code, o.bm.code, 0, o.hint.toNat⟩ o.off.toNat

/-- Decodes the fields of shape Loop. -/
def decLoop (h : Hdr) (imm : Nat) (mk : LoopO → Instr) : DecRes :=
  if h.d == 0 && h.b == 0 && h.bm == 0 && h.mask == 0 && h.h == 0 then
    match mdOf h.am with
    | some am => finish (decide (h.a < 48)) (mk ⟨sr h.a, am, BitVec.ofNat 24 imm⟩)
    | _ => .illegal
  else .illegal

/-- Encodes shape Loop under an opcode and a function. -/
def encLoop (op fn : Nat) (o : LoopO) : Enc :=
  .k ⟨op, fn, 0, o.a.val, 0, o.am.code, 0, 0, 0⟩ o.off.toNat

/-- Decodes the fields of shape Trap. -/
def decTrap (h : Hdr) (imm : Nat) (mk : TrapO → Instr) : DecRes :=
  if h.d == 0 && h.a == 0 && h.b == 0 && h.am == 0 && h.bm == 0 && h.mask == 0 && h.h == 0 then
    finish (true) (mk ⟨BitVec.ofNat 24 imm⟩)
  else .illegal

/-- Encodes shape Trap under an opcode and a function. -/
def encTrap (op fn : Nat) (o : TrapO) : Enc :=
  .k ⟨op, fn, 0, 0, 0, 0, 0, 0, 0⟩ o.code.toNat

/-- Decodes the fields of shape CsrR. -/
def decCsrR (h : Hdr) (imm : Nat) (mk : CsrRO → Instr) : DecRes :=
  if h.a == 0 && h.b == 0 && h.am == 0 && h.bm == 0 && h.mask == 0 && h.h == 0 && decide (imm < 4096) then
    finish (decide (h.d < 48)) (mk ⟨sr h.d, BitVec.ofNat 12 imm⟩)
  else .illegal

/-- Encodes shape CsrR under an opcode and a function. -/
def encCsrR (op fn : Nat) (o : CsrRO) : Enc :=
  .k ⟨op, fn, o.d.val, 0, 0, 0, 0, 0, 0⟩ o.idx.toNat

/-- Decodes the fields of shape CsrW. -/
def decCsrW (h : Hdr) (imm : Nat) (mk : CsrWO → Instr) : DecRes :=
  if h.d == 0 && h.b == 0 && h.bm == 0 && h.mask == 0 && h.h == 0 && decide (imm < 4096) then
    match mdOf h.am with
    | some am => finish (decide (h.a < 48)) (mk ⟨BitVec.ofNat 12 imm, sr h.a, am⟩)
    | _ => .illegal
  else .illegal

/-- Encodes shape CsrW under an opcode and a function. -/
def encCsrW (op fn : Nat) (o : CsrWO) : Enc :=
  .k ⟨op, fn, 0, o.a.val, 0, o.am.code, 0, 0, 0⟩ o.idx.toNat

/-- Decodes the fields of shape CsrD. -/
def decCsrD (h : Hdr) (imm : Nat) (mk : CsrDO → Instr) : DecRes :=
  if h.b == 0 && h.bm == 0 && h.mask == 0 && h.h == 0 && decide (imm < 4096) then
    match mdOf h.am with
    | some am => finish (decide (h.d < 48) && decide (h.a < 48)) (mk ⟨sr h.d, BitVec.ofNat 12 imm, sr h.a, am⟩)
    | _ => .illegal
  else .illegal

/-- Encodes shape CsrD under an opcode and a function. -/
def encCsrD (op fn : Nat) (o : CsrDO) : Enc :=
  .k ⟨op, fn, o.d.val, o.a.val, 0, o.am.code, 0, 0, 0⟩ o.idx.toNat

/-- Decodes the fields of shape OneA. -/
def decOneA (h : Hdr) (imm : Nat) (mk : OneA → Instr) : DecRes :=
  if h.d == 0 && h.b == 0 && h.bm == 0 && h.mask == 0 && h.h == 0 && imm == 0 then
    match mdOf h.am with
    | some am => finish (decide (h.a < 48)) (mk ⟨sr h.a, am⟩)
    | _ => .illegal
  else .illegal

/-- Encodes shape OneA under an opcode and a function. -/
def encOneA (op fn : Nat) (o : OneA) : Enc :=
  .k ⟨op, fn, 0, o.a.val, 0, o.am.code, 0, 0, 0⟩ 0

/-- Decodes the fields of shape OneD. -/
def decOneD (h : Hdr) (imm : Nat) (mk : OneD → Instr) : DecRes :=
  if h.a == 0 && h.b == 0 && h.am == 0 && h.bm == 0 && h.mask == 0 && h.h == 0 && imm == 0 then
    finish (decide (h.d < 48)) (mk ⟨sr h.d⟩)
  else .illegal

/-- Encodes shape OneD under an opcode and a function. -/
def encOneD (op fn : Nat) (o : OneD) : Enc :=
  .k ⟨op, fn, o.d.val, 0, 0, 0, 0, 0, 0⟩ 0

/-- Decodes the fields of shape RR. -/
def decRR (h : Hdr) (imm : Nat) (mk : RRO → Instr) : DecRes :=
  if h.b == 0 && h.bm == 0 && h.mask == 0 && h.h == 0 && imm == 0 then
    match mdOf h.am with
    | some am => finish (decide (h.d < 48) && decide (h.a < 48)) (mk ⟨sr h.d, sr h.a, am⟩)
    | _ => .illegal
  else .illegal

/-- Encodes shape RR under an opcode and a function. -/
def encRR (op fn : Nat) (o : RRO) : Enc :=
  .k ⟨op, fn, o.d.val, o.a.val, 0, o.am.code, 0, 0, 0⟩ 0

/-- Decodes the fields of shape AB. -/
def decAB (h : Hdr) (imm : Nat) (mk : ABO → Instr) : DecRes :=
  if h.d == 0 && h.mask == 0 && h.h == 0 && imm == 0 then
    match mdOf h.am, mdOf h.bm with
    | some am, some bm => finish (decide (h.a < 48) && decide (h.b < 48)) (mk ⟨sr h.a, am, sr h.b, bm⟩)
    | _, _ => .illegal
  else .illegal

/-- Encodes shape AB under an opcode and a function. -/
def encAB (op fn : Nat) (o : ABO) : Enc :=
  .k ⟨op, fn, 0, o.a.val, o.b.val, o.am.code, o.bm.code, 0, 0⟩ 0

/-- Decodes the fields of shape RRR. -/
def decRRR (h : Hdr) (imm : Nat) (mk : RRR → Instr) : DecRes :=
  if h.mask == 0 && h.h == 0 && imm == 0 then
    match mdOf h.am, mdOf h.bm with
    | some am, some bm => finish (decide (h.d < 48) && decide (h.a < 48) && decide (h.b < 48)) (mk ⟨sr h.d, sr h.a, am, sr h.b, bm⟩)
    | _, _ => .illegal
  else .illegal

/-- Encodes shape RRR under an opcode and a function. -/
def encRRR (op fn : Nat) (o : RRR) : Enc :=
  .k ⟨op, fn, o.d.val, o.a.val, o.b.val, o.am.code, o.bm.code, 0, 0⟩ 0

/-- Decodes the fields of shape RRI. -/
def decRRI (h : Hdr) (imm : Nat) (mk : RRI → Instr) : DecRes :=
  if h.b == 0 && h.bm == 0 && h.mask == 0 && h.h == 0 then
    match mdOf h.am with
    | some am => finish (decide (h.d < 48) && decide (h.a < 48)) (mk ⟨sr h.d, sr h.a, am, BitVec.ofNat 24 imm⟩)
    | _ => .illegal
  else .illegal

/-- Encodes shape RRI under an opcode and a function. -/
def encRRI (op fn : Nat) (o : RRI) : Enc :=
  .k ⟨op, fn, o.d.val, o.a.val, 0, o.am.code, 0, 0, 0⟩ o.imm.toNat

/-- Decodes the fields of shape RRSh. -/
def decRRSh (h : Hdr) (imm : Nat) (mk : RRSh → Instr) : DecRes :=
  if h.b == 0 && h.bm == 0 && h.mask == 0 && h.h == 0 && decide (imm < 64) then
    match mdOf h.am with
    | some am => finish (decide (h.d < 48) && decide (h.a < 48)) (mk ⟨sr h.d, sr h.a, am, BitVec.ofNat 6 imm⟩)
    | _ => .illegal
  else .illegal

/-- Encodes shape RRSh under an opcode and a function. -/
def encRRSh (op fn : Nat) (o : RRSh) : Enc :=
  .k ⟨op, fn, o.d.val, o.a.val, 0, o.am.code, 0, 0, 0⟩ o.sh.toNat

/-- Decodes the fields of shape RRW. -/
def decRRW (h : Hdr) (imm : Nat) (mk : RRW → Instr) : DecRes :=
  if h.b == 0 && h.bm == 0 && h.mask == 0 && h.h == 0 && decide (imm < 64) then
    match mdOf h.am with
    | some am => finish (decide (h.d < 48) && decide (h.a < 48)) (mk ⟨sr h.d, sr h.a, am, BitVec.ofNat 6 imm⟩)
    | _ => .illegal
  else .illegal

/-- Encodes shape RRW under an opcode and a function. -/
def encRRW (op fn : Nat) (o : RRW) : Enc :=
  .k ⟨op, fn, o.d.val, o.a.val, 0, o.am.code, 0, 0, 0⟩ o.w.toNat

/-- Decodes the fields of shape FP2. -/
def decFP2 (h : Hdr) (imm : Nat) (mk : FP2 → Instr) : DecRes :=
  if h.mask == 0 && imm % 16 == 0 && decide (imm < 128) then
    match mdOf h.am, mdOf h.bm, rmOf (imm / 16 % 8) with
    | some am, some bm, some rm => finish (decide (h.d < 48) && decide (h.a < 48) && decide (h.b < 48)) (mk ⟨sr h.d, sr h.a, am, sr h.b, bm, decide (h.h = 1), rm⟩)
    | _, _, _ => .illegal
  else .illegal

/-- Encodes shape FP2 under an opcode and a function. -/
def encFP2 (op fn : Nat) (o : FP2) : Enc :=
  .k ⟨op, fn, o.d.val, o.a.val, o.b.val, o.am.code, o.bm.code, 0, o.dbl.toNat⟩ (16 * o.rm.code)

/-- Decodes the fields of shape FP1. -/
def decFP1 (h : Hdr) (imm : Nat) (mk : FP1 → Instr) : DecRes :=
  if h.b == 0 && h.bm == 0 && h.mask == 0 && imm % 16 == 0 && decide (imm < 128) then
    match mdOf h.am, rmOf (imm / 16 % 8) with
    | some am, some rm => finish (decide (h.d < 48) && decide (h.a < 48)) (mk ⟨sr h.d, sr h.a, am, decide (h.h = 1), rm⟩)
    | _, _ => .illegal
  else .illegal

/-- Encodes shape FP1 under an opcode and a function. -/
def encFP1 (op fn : Nat) (o : FP1) : Enc :=
  .k ⟨op, fn, o.d.val, o.a.val, 0, o.am.code, 0, 0, o.dbl.toNat⟩ (16 * o.rm.code)

/-- Decodes the fields of shape FPC. -/
def decFPC (h : Hdr) (imm : Nat) (mk : FPC → Instr) : DecRes :=
  if h.b == 0 && h.bm == 0 && h.mask == 0 && imm % 16 == 0 && decide (imm < 256) then
    match mdOf h.am, rmOf (imm / 16 % 8) with
    | some am, some rm => finish (decide (h.d < 48) && decide (h.a < 48)) (mk ⟨sr h.d, sr h.a, am, decide (h.h = 1), rm, decide (imm / 128 = 1)⟩)
    | _, _ => .illegal
  else .illegal

/-- Encodes shape FPC under an opcode and a function. -/
def encFPC (op fn : Nat) (o : FPC) : Enc :=
  .k ⟨op, fn, o.d.val, o.a.val, 0, o.am.code, 0, 0, o.dbl.toNat⟩ (16 * o.rm.code + 128 * o.u.toNat)

/-- Decodes the fields of shape VI2. -/
def decVI2 (h : Hdr) (imm : Nat) (mk : VI2 → Instr) : DecRes :=
  if decide (imm < 16) then
    match mdOf h.am, mdOf h.bm, tyOf (imm % 16) with
    | some am, some bm, some ty => finish (decide (h.d < 16) && decide (h.a < 16) && (if h.h = 1 then decide (h.b < 48) else decide (h.b < 16))) (mk ⟨vr h.d, vr h.a, am, (if h.h = 1 then VB.s (sr h.b) else VB.v (vr h.b)), bm, mr h.mask, ty⟩)
    | _, _, _ => .illegal
  else .illegal

/-- Encodes shape VI2 under an opcode and a function. -/
def encVI2 (op fn : Nat) (o : VI2) : Enc :=
  .k ⟨op, fn, o.d.val, o.a.val, o.b.code, o.am.code, o.bm.code, o.mask.val, o.b.flag⟩ o.ty.code

/-- Decodes the fields of shape VI1. -/
def decVI1 (h : Hdr) (imm : Nat) (mk : VI1 → Instr) : DecRes :=
  if h.b == 0 && h.bm == 0 && h.h == 0 && decide (imm < 16) then
    match mdOf h.am, tyOf (imm % 16) with
    | some am, some ty => finish (decide (h.d < 16) && decide (h.a < 16)) (mk ⟨vr h.d, vr h.a, am, mr h.mask, ty⟩)
    | _, _ => .illegal
  else .illegal

/-- Encodes shape VI1 under an opcode and a function. -/
def encVI1 (op fn : Nat) (o : VI1) : Enc :=
  .k ⟨op, fn, o.d.val, o.a.val, 0, o.am.code, 0, o.mask.val, 0⟩ o.ty.code

/-- Decodes the fields of shape VCmp. -/
def decVCmp (h : Hdr) (imm : Nat) (mk : VCmpO → Instr) : DecRes :=
  if decide (imm < 16) then
    match mdOf h.am, mdOf h.bm, tyOf (imm % 16) with
    | some am, some bm, some ty => finish (decide (h.d < 8) && decide (h.a < 16) && (if h.h = 1 then decide (h.b < 48) else decide (h.b < 16))) (mk ⟨mr h.d, vr h.a, am, (if h.h = 1 then VB.s (sr h.b) else VB.v (vr h.b)), bm, mr h.mask, ty⟩)
    | _, _, _ => .illegal
  else .illegal

/-- Encodes shape VCmp under an opcode and a function. -/
def encVCmp (op fn : Nat) (o : VCmpO) : Enc :=
  .k ⟨op, fn, o.d.val, o.a.val, o.b.code, o.am.code, o.bm.code, o.mask.val, o.b.flag⟩ o.ty.code

/-- Decodes the fields of shape VSplat. -/
def decVSplat (h : Hdr) (imm : Nat) (mk : VSplatO → Instr) : DecRes :=
  if h.b == 0 && h.bm == 0 && h.h == 0 && decide (imm < 16) then
    match mdOf h.am, tyOf (imm % 16) with
    | some am, some ty => finish (decide (h.d < 16) && decide (h.a < 48)) (mk ⟨vr h.d, sr h.a, am, mr h.mask, ty⟩)
    | _, _ => .illegal
  else .illegal

/-- Encodes shape VSplat under an opcode and a function. -/
def encVSplat (op fn : Nat) (o : VSplatO) : Enc :=
  .k ⟨op, fn, o.d.val, o.a.val, 0, o.am.code, 0, o.mask.val, 0⟩ o.ty.code

/-- Decodes the fields of shape VExt. -/
def decVExt (h : Hdr) (imm : Nat) (mk : VExtO → Instr) : DecRes :=
  if h.mask == 0 && h.h == 0 && decide (imm < 16) then
    match mdOf h.am, mdOf h.bm, tyOf (imm % 16) with
    | some am, some bm, some ty => finish (decide (h.d < 48) && decide (h.a < 16) && decide (h.b < 48)) (mk ⟨sr h.d, vr h.a, am, sr h.b, bm, ty⟩)
    | _, _, _ => .illegal
  else .illegal

/-- Encodes shape VExt under an opcode and a function. -/
def encVExt (op fn : Nat) (o : VExtO) : Enc :=
  .k ⟨op, fn, o.d.val, o.a.val, o.b.val, o.am.code, o.bm.code, 0, 0⟩ o.ty.code

/-- Decodes the fields of shape VIns. -/
def decVIns (h : Hdr) (imm : Nat) (mk : VInsO → Instr) : DecRes :=
  if h.mask == 0 && h.h == 0 && decide (imm < 16) then
    match mdOf h.am, mdOf h.bm, tyOf (imm % 16) with
    | some am, some bm, some ty => finish (decide (h.d < 16) && decide (h.a < 48) && decide (h.b < 48)) (mk ⟨vr h.d, sr h.a, am, sr h.b, bm, ty⟩)
    | _, _, _ => .illegal
  else .illegal

/-- Encodes shape VIns under an opcode and a function. -/
def encVIns (op fn : Nat) (o : VInsO) : Enc :=
  .k ⟨op, fn, o.d.val, o.a.val, o.b.val, o.am.code, o.bm.code, 0, 0⟩ o.ty.code

/-- Decodes the fields of shape VIota. -/
def decVIota (h : Hdr) (imm : Nat) (mk : VIotaO → Instr) : DecRes :=
  if h.a == 0 && h.b == 0 && h.am == 0 && h.bm == 0 && h.h == 0 && decide (imm < 16) then
    match tyOf (imm % 16) with
    | some ty => finish (decide (h.d < 16)) (mk ⟨vr h.d, mr h.mask, ty⟩)
    | _ => .illegal
  else .illegal

/-- Encodes shape VIota under an opcode and a function. -/
def encVIota (op fn : Nat) (o : VIotaO) : Enc :=
  .k ⟨op, fn, o.d.val, 0, 0, 0, 0, o.mask.val, 0⟩ o.ty.code

/-- Decodes the fields of shape VV3. -/
def decVV3 (h : Hdr) (imm : Nat) (mk : VV3 → Instr) : DecRes :=
  if h.h == 0 && decide (imm < 16) then
    match mdOf h.am, mdOf h.bm, tyOf (imm % 16) with
    | some am, some bm, some ty => finish (decide (h.d < 16) && decide (h.a < 16) && decide (h.b < 16)) (mk ⟨vr h.d, vr h.a, am, vr h.b, bm, mr h.mask, ty⟩)
    | _, _, _ => .illegal
  else .illegal

/-- Encodes shape VV3 under an opcode and a function. -/
def encVV3 (op fn : Nat) (o : VV3) : Enc :=
  .k ⟨op, fn, o.d.val, o.a.val, o.b.val, o.am.code, o.bm.code, o.mask.val, 0⟩ o.ty.code

/-- Decodes the fields of shape VSlide. -/
def decVSlide (h : Hdr) (imm : Nat) (mk : VSlideO → Instr) : DecRes :=
  if h.h == 0 && decide (imm < 16) then
    match mdOf h.am, mdOf h.bm, tyOf (imm % 16) with
    | some am, some bm, some ty => finish (decide (h.d < 16) && decide (h.a < 16) && decide (h.b < 48)) (mk ⟨vr h.d, vr h.a, am, sr h.b, bm, mr h.mask, ty⟩)
    | _, _, _ => .illegal
  else .illegal

/-- Encodes shape VSlide under an opcode and a function. -/
def encVSlide (op fn : Nat) (o : VSlideO) : Enc :=
  .k ⟨op, fn, o.d.val, o.a.val, o.b.val, o.am.code, o.bm.code, o.mask.val, 0⟩ o.ty.code

/-- Decodes the fields of shape VRed. -/
def decVRed (h : Hdr) (imm : Nat) (mk : VRedO → Instr) : DecRes :=
  if h.b == 0 && h.bm == 0 && h.h == 0 && decide (imm < 128) then
    match mdOf h.am, tyOf (imm % 16), rmOf (imm / 16 % 8) with
    | some am, some ty, some rm => finish (decide (h.d < 48) && decide (h.a < 16)) (mk ⟨sr h.d, vr h.a, am, mr h.mask, ty, rm⟩)
    | _, _, _ => .illegal
  else .illegal

/-- Encodes shape VRed under an opcode and a function. -/
def encVRed (op fn : Nat) (o : VRedO) : Enc :=
  .k ⟨op, fn, o.d.val, o.a.val, 0, o.am.code, 0, o.mask.val, 0⟩ (o.ty.code + 16 * o.rm.code)

/-- Decodes the fields of shape M3. -/
def decM3 (h : Hdr) (imm : Nat) (mk : M3 → Instr) : DecRes :=
  if h.am == 0 && h.bm == 0 && h.mask == 0 && h.h == 0 && imm == 0 then
    finish (decide (h.d < 8) && decide (h.a < 8) && decide (h.b < 8)) (mk ⟨mr h.d, mr h.a, mr h.b⟩)
  else .illegal

/-- Encodes shape M3 under an opcode and a function. -/
def encM3 (op fn : Nat) (o : M3) : Enc :=
  .k ⟨op, fn, o.d.val, o.a.val, o.b.val, 0, 0, 0, 0⟩ 0

/-- Decodes the fields of shape M2. -/
def decM2 (h : Hdr) (imm : Nat) (mk : M2 → Instr) : DecRes :=
  if h.b == 0 && h.am == 0 && h.bm == 0 && h.mask == 0 && h.h == 0 && imm == 0 then
    finish (decide (h.d < 8) && decide (h.a < 8)) (mk ⟨mr h.d, mr h.a⟩)
  else .illegal

/-- Encodes shape M2 under an opcode and a function. -/
def encM2 (op fn : Nat) (o : M2) : Enc :=
  .k ⟨op, fn, o.d.val, o.a.val, 0, 0, 0, 0, 0⟩ 0

/-- Decodes the fields of shape MS. -/
def decMS (h : Hdr) (imm : Nat) (mk : MSO → Instr) : DecRes :=
  if h.b == 0 && h.am == 0 && h.bm == 0 && h.mask == 0 && h.h == 0 && imm == 0 then
    finish (decide (h.d < 48) && decide (h.a < 8)) (mk ⟨sr h.d, mr h.a⟩)
  else .illegal

/-- Encodes shape MS under an opcode and a function. -/
def encMS (op fn : Nat) (o : MSO) : Enc :=
  .k ⟨op, fn, o.d.val, o.a.val, 0, 0, 0, 0, 0⟩ 0

/-- Decodes the fields of shape MFrom. -/
def decMFrom (h : Hdr) (imm : Nat) (mk : MFromO → Instr) : DecRes :=
  if h.b == 0 && h.bm == 0 && h.mask == 0 && h.h == 0 && imm == 0 then
    match mdOf h.am with
    | some am => finish (decide (h.d < 8) && decide (h.a < 16)) (mk ⟨mr h.d, vr h.a, am⟩)
    | _ => .illegal
  else .illegal

/-- Encodes shape MFrom under an opcode and a function. -/
def encMFrom (op fn : Nat) (o : MFromO) : Enc :=
  .k ⟨op, fn, o.d.val, o.a.val, 0, o.am.code, 0, 0, 0⟩ 0

/-- Decodes the fields of shape MTo. -/
def decMTo (h : Hdr) (imm : Nat) (mk : MToO → Instr) : DecRes :=
  if h.b == 0 && h.am == 0 && h.bm == 0 && h.mask == 0 && h.h == 0 && imm == 0 then
    finish (decide (h.d < 16) && decide (h.a < 8)) (mk ⟨vr h.d, mr h.a⟩)
  else .illegal

/-- Encodes shape MTo under an opcode and a function. -/
def encMTo (op fn : Nat) (o : MToO) : Enc :=
  .k ⟨op, fn, o.d.val, o.a.val, 0, 0, 0, 0, 0⟩ 0

/-- Decodes the fields of shape VF2. -/
def decVF2 (h : Hdr) (imm : Nat) (mk : VF2 → Instr) : DecRes :=
  if decide (imm < 128) then
    match mdOf h.am, mdOf h.bm, tyOf (imm % 16), rmOf (imm / 16 % 8) with
    | some am, some bm, some ty, some rm => finish (decide (h.d < 16) && decide (h.a < 16) && (if h.h = 1 then decide (h.b < 48) else decide (h.b < 16))) (mk ⟨vr h.d, vr h.a, am, (if h.h = 1 then VB.s (sr h.b) else VB.v (vr h.b)), bm, mr h.mask, ty, rm⟩)
    | _, _, _, _ => .illegal
  else .illegal

/-- Encodes shape VF2 under an opcode and a function. -/
def encVF2 (op fn : Nat) (o : VF2) : Enc :=
  .k ⟨op, fn, o.d.val, o.a.val, o.b.code, o.am.code, o.bm.code, o.mask.val, o.b.flag⟩ (o.ty.code + 16 * o.rm.code)

/-- Decodes the fields of shape VF1. -/
def decVF1 (h : Hdr) (imm : Nat) (mk : VF1 → Instr) : DecRes :=
  if h.b == 0 && h.bm == 0 && h.h == 0 && decide (imm < 128) then
    match mdOf h.am, tyOf (imm % 16), rmOf (imm / 16 % 8) with
    | some am, some ty, some rm => finish (decide (h.d < 16) && decide (h.a < 16)) (mk ⟨vr h.d, vr h.a, am, mr h.mask, ty, rm⟩)
    | _, _, _ => .illegal
  else .illegal

/-- Encodes shape VF1 under an opcode and a function. -/
def encVF1 (op fn : Nat) (o : VF1) : Enc :=
  .k ⟨op, fn, o.d.val, o.a.val, 0, o.am.code, 0, o.mask.val, 0⟩ (o.ty.code + 16 * o.rm.code)

/-- Decodes the fields of shape VCvt. -/
def decVCvt (h : Hdr) (imm : Nat) (mk : VCvtO → Instr) : DecRes :=
  if h.b == 0 && h.bm == 0 && h.h == 0 && decide (imm < 4096) then
    match mdOf h.am, tyOf (imm % 16), tyOf (imm / 256), rmOf (imm / 16 % 8) with
    | some am, some ty, some src, some rm => finish (decide (h.d < 16) && decide (h.a < 16)) (mk ⟨vr h.d, vr h.a, am, mr h.mask, ty, src, rm, decide (imm / 128 % 2 = 1)⟩)
    | _, _, _, _ => .illegal
  else .illegal

/-- Encodes shape VCvt under an opcode and a function. -/
def encVCvt (op fn : Nat) (o : VCvtO) : Enc :=
  .k ⟨op, fn, o.d.val, o.a.val, 0, o.am.code, 0, o.mask.val, 0⟩ (o.dst.code + 16 * o.rm.code + 128 * o.sat.toNat + 256 * o.src.code)

/-- Decodes the fields of shape VPk. -/
def decVPk (h : Hdr) (imm : Nat) (mk : VPkO → Instr) : DecRes :=
  if h.b == 0 && h.bm == 0 && h.mask == 0 && h.h == 0 && imm == 10 then
    match mdOf h.am with
    | some am => finish (decide (h.d < 16) && decide (h.a < 16)) (mk ⟨vr h.d, vr h.a, am⟩)
    | _ => .illegal
  else .illegal

/-- Encodes shape VPk under an opcode and a function. -/
def encVPk (op fn : Nat) (o : VPkO) : Enc :=
  .k ⟨op, fn, o.d.val, o.a.val, 0, o.am.code, 0, 0, 0⟩ 10

/-- Decodes the fields of shape Ld. -/
def decLd (h : Hdr) (imm : Nat) (mk : LdO → Instr) : DecRes :=
  if h.b == 0 && h.bm == 0 && h.h == 0 then
    match mdOf h.am, polOf h.mask with
    | some am, some pol => finish (decide (h.d < 48) && decide (h.a < 48)) (mk ⟨sr h.d, sr h.a, am, BitVec.ofNat 24 imm, pol⟩)
    | _, _ => .illegal
  else .illegal

/-- Encodes shape Ld under an opcode and a function. -/
def encLd (op fn : Nat) (o : LdO) : Enc :=
  .k ⟨op, fn, o.d.val, o.a.val, 0, o.am.code, 0, o.pol.val, 0⟩ o.imm.toNat

/-- Decodes the fields of shape St. -/
def decSt (h : Hdr) (imm : Nat) (mk : StO → Instr) : DecRes :=
  if h.d == 0 && h.h == 0 then
    match mdOf h.am, mdOf h.bm, polOf h.mask with
    | some am, some bm, some pol => finish (decide (h.a < 48) && decide (h.b < 48)) (mk ⟨sr h.a, am, sr h.b, bm, BitVec.ofNat 24 imm, pol⟩)
    | _, _, _ => .illegal
  else .illegal

/-- Encodes shape St under an opcode and a function. -/
def encSt (op fn : Nat) (o : StO) : Enc :=
  .k ⟨op, fn, 0, o.a.val, o.b.val, o.am.code, o.bm.code, o.pol.val, 0⟩ o.imm.toNat

/-- Decodes the fields of shape VLd. -/
def decVLd (h : Hdr) (imm : Nat) (mk : VLdO → Instr) : DecRes :=
  if h.b == 0 && h.bm == 0 && h.h == 0 then
    match mdOf h.am, polOf h.mask with
    | some am, some pol => finish (decide (h.d < 16) && decide (h.a < 48)) (mk ⟨vr h.d, sr h.a, am, BitVec.ofNat 24 imm, pol⟩)
    | _, _ => .illegal
  else .illegal

/-- Encodes shape VLd under an opcode and a function. -/
def encVLd (op fn : Nat) (o : VLdO) : Enc :=
  .k ⟨op, fn, o.d.val, o.a.val, 0, o.am.code, 0, o.pol.val, 0⟩ o.imm.toNat

/-- Decodes the fields of shape VSt. -/
def decVSt (h : Hdr) (imm : Nat) (mk : VStO → Instr) : DecRes :=
  if h.d == 0 && h.h == 0 then
    match mdOf h.am, mdOf h.bm, polOf h.mask with
    | some am, some bm, some pol => finish (decide (h.a < 48) && decide (h.b < 16)) (mk ⟨sr h.a, am, vr h.b, bm, BitVec.ofNat 24 imm, pol⟩)
    | _, _, _ => .illegal
  else .illegal

/-- Encodes shape VSt under an opcode and a function. -/
def encVSt (op fn : Nat) (o : VStO) : Enc :=
  .k ⟨op, fn, 0, o.a.val, o.b.val, o.am.code, o.bm.code, o.pol.val, 0⟩ o.imm.toNat

/-- Decodes the fields of shape VLdf. -/
def decVLdf (h : Hdr) (imm : Nat) (mk : VLdfO → Instr) : DecRes :=
  if h.b == 0 && h.bm == 0 && h.h == 0 then
    match mdOf h.am, polOf h.mask, tyOf h.fn with
    | some am, some pol, some ty => finish (decide (h.d < 16) && decide (h.a < 48)) (mk ⟨vr h.d, sr h.a, am, BitVec.ofNat 24 imm, pol, ty⟩)
    | _, _, _ => .illegal
  else .illegal

/-- Encodes shape VLdf under an opcode and a function. -/
def encVLdf (op fn : Nat) (o : VLdfO) : Enc :=
  .k ⟨op, fn, o.d.val, o.a.val, 0, o.am.code, 0, o.pol.val, 0⟩ o.imm.toNat

/-- Decodes the fields of shape VLds. -/
def decVLds (h : Hdr) (imm : Nat) (mk : VLdsO → Instr) : DecRes :=
  if h.h == 0 && decide (imm < 16) then
    match mdOf h.am, mdOf h.bm, polOf h.mask, tyOf (imm % 16) with
    | some am, some bm, some pol, some ty => finish (decide (h.d < 16) && decide (h.a < 48) && decide (h.b < 48)) (mk ⟨vr h.d, sr h.a, am, sr h.b, bm, pol, ty⟩)
    | _, _, _, _ => .illegal
  else .illegal

/-- Encodes shape VLds under an opcode and a function. -/
def encVLds (op fn : Nat) (o : VLdsO) : Enc :=
  .k ⟨op, fn, o.d.val, o.a.val, o.b.val, o.am.code, o.bm.code, o.pol.val, 0⟩ o.ty.code

/-- Decodes the fields of shape VGath. -/
def decVGath (h : Hdr) (imm : Nat) (mk : VGathO → Instr) : DecRes :=
  if h.h == 0 && decide (imm < 16) then
    match mdOf h.am, mdOf h.bm, polOf h.mask, tyOf (imm % 16) with
    | some am, some bm, some pol, some ty => finish (decide (h.d < 16) && decide (h.a < 48) && decide (h.b < 16)) (mk ⟨vr h.d, sr h.a, am, vr h.b, bm, pol, ty⟩)
    | _, _, _, _ => .illegal
  else .illegal

/-- Encodes shape VGath under an opcode and a function. -/
def encVGath (op fn : Nat) (o : VGathO) : Enc :=
  .k ⟨op, fn, o.d.val, o.a.val, o.b.val, o.am.code, o.bm.code, o.pol.val, 0⟩ o.ty.code

/-- Decodes the fields of shape SyLd. -/
def decSyLd (h : Hdr) (imm : Nat) (mk : SyLdO → Instr) : DecRes :=
  if h.b == 0 && h.bm == 0 && h.mask == 0 && h.h == 0 then
    match mdOf h.am with
    | some am => finish (decide (h.d < 48) && decide (h.a < 48)) (mk ⟨sr h.d, sr h.a, am, BitVec.ofNat 24 imm⟩)
    | _ => .illegal
  else .illegal

/-- Encodes shape SyLd under an opcode and a function. -/
def encSyLd (op fn : Nat) (o : SyLdO) : Enc :=
  .k ⟨op, fn, o.d.val, o.a.val, 0, o.am.code, 0, 0, 0⟩ o.imm.toNat

/-- Decodes the fields of shape SySt. -/
def decSySt (h : Hdr) (imm : Nat) (mk : SyStO → Instr) : DecRes :=
  if h.d == 0 && h.mask == 0 && h.h == 0 then
    match mdOf h.am, mdOf h.bm with
    | some am, some bm => finish (decide (h.a < 48) && decide (h.b < 48)) (mk ⟨sr h.a, am, sr h.b, bm, BitVec.ofNat 24 imm⟩)
    | _, _ => .illegal
  else .illegal

/-- Encodes shape SySt under an opcode and a function. -/
def encSySt (op fn : Nat) (o : SyStO) : Enc :=
  .k ⟨op, fn, 0, o.a.val, o.b.val, o.am.code, o.bm.code, 0, 0⟩ o.imm.toNat

/-- Decodes the fields of shape SyEm. -/
def decSyEm (h : Hdr) (imm : Nat) (mk : SyEmO → Instr) : DecRes :=
  if h.d == 0 && h.b == 0 && h.bm == 0 && h.mask == 0 && h.h == 0 then
    match mdOf h.am with
    | some am => finish (decide (h.a < 48)) (mk ⟨sr h.a, am, BitVec.ofNat 24 imm⟩)
    | _ => .illegal
  else .illegal

/-- Encodes shape SyEm under an opcode and a function. -/
def encSyEm (op fn : Nat) (o : SyEmO) : Enc :=
  .k ⟨op, fn, 0, o.a.val, 0, o.am.code, 0, 0, 0⟩ o.imm.toNat

/-- Decodes the fields of shape Pref. -/
def decPref (h : Hdr) (imm : Nat) (mk : PrefO → Instr) : DecRes :=
  if h.d == 0 && h.b == 0 && h.bm == 0 && h.h == 0 then
    match mdOf h.am, polOf h.mask with
    | some am, some pol => finish (decide (h.a < 48)) (mk ⟨sr h.a, am, BitVec.ofNat 24 imm, pol⟩)
    | _, _ => .illegal
  else .illegal

/-- Encodes shape Pref under an opcode and a function. -/
def encPref (op fn : Nat) (o : PrefO) : Enc :=
  .k ⟨op, fn, 0, o.a.val, 0, o.am.code, 0, o.pol.val, 0⟩ o.imm.toNat

/-- Decodes the fields of shape Pin. -/
def decPin (h : Hdr) (imm : Nat) (mk : PinO → Instr) : DecRes :=
  if h.d == 0 && h.mask == 0 && h.h == 0 && decide (imm < 4) then
    match mdOf h.am, mdOf h.bm with
    | some am, some bm => finish (decide (h.a < 48) && decide (h.b < 48)) (mk ⟨BitVec.ofNat 2 imm, sr h.a, am, sr h.b, bm⟩)
    | _, _ => .illegal
  else .illegal

/-- Encodes shape Pin under an opcode and a function. -/
def encPin (op fn : Nat) (o : PinO) : Enc :=
  .k ⟨op, fn, 0, o.a.val, o.b.val, o.am.code, o.bm.code, 0, 0⟩ o.n.toNat

/-- Decodes the fields of shape Unpin. -/
def decUnpin (h : Hdr) (imm : Nat) (mk : UnpinO → Instr) : DecRes :=
  if h.d == 0 && h.a == 0 && h.b == 0 && h.am == 0 && h.bm == 0 && h.mask == 0 && h.h == 0 && decide (imm < 4) then
    finish (true) (mk ⟨BitVec.ofNat 2 imm⟩)
  else .illegal

/-- Encodes shape Unpin under an opcode and a function. -/
def encUnpin (op fn : Nat) (o : UnpinO) : Enc :=
  .k ⟨op, fn, 0, 0, 0, 0, 0, 0, 0⟩ o.n.toNat

/-- Decodes the fields of shape Amo. -/
def decAmo (h : Hdr) (imm : Nat) (mk : AmoO → Instr) : DecRes :=
  if h.mask == 0 && h.h == 0 && decide (imm < 64) then
    match mdOf h.am, mdOf h.bm, scopeOf (imm / 4 % 8), ordOf (imm % 4) with
    | some am, some bm, some scope, some ord => finish (decide (h.d < 48) && decide (h.a < 48) && decide (h.b < 48)) (mk ⟨sr h.d, sr h.a, am, sr h.b, bm, decide (imm / 32 = 1), scope, ord⟩)
    | _, _, _, _ => .illegal
  else .illegal

/-- Encodes shape Amo under an opcode and a function. -/
def encAmo (op fn : Nat) (o : AmoO) : Enc :=
  .k ⟨op, fn, o.d.val, o.a.val, o.b.val, o.am.code, o.bm.code, 0, 0⟩ (o.ord.code + 4 * o.scope.code + 32 * o.w32.toNat)

/-- Decodes the fields of shape Red. -/
def decRed (h : Hdr) (imm : Nat) (mk : RedO → Instr) : DecRes :=
  if h.d == 0 && h.mask == 0 && h.h == 0 && decide (imm < 64) then
    match mdOf h.am, mdOf h.bm, scopeOf (imm / 4 % 8), ordOf (imm % 4) with
    | some am, some bm, some scope, some ord => finish (decide (h.a < 48) && decide (h.b < 48)) (mk ⟨sr h.a, am, sr h.b, bm, decide (imm / 32 = 1), scope, ord⟩)
    | _, _, _, _ => .illegal
  else .illegal

/-- Encodes shape Red under an opcode and a function. -/
def encRed (op fn : Nat) (o : RedO) : Enc :=
  .k ⟨op, fn, 0, o.a.val, o.b.val, o.am.code, o.bm.code, 0, 0⟩ (o.ord.code + 4 * o.scope.code + 32 * o.w32.toNat)

/-- Decodes the fields of shape Fence. -/
def decFence (h : Hdr) (imm : Nat) (mk : FenceO → Instr) : DecRes :=
  if h.d == 0 && h.a == 0 && h.b == 0 && h.am == 0 && h.bm == 0 && h.mask == 0 && h.h == 0 && decide (imm < 32) && imm % 4 == 0 then
    match scopeOf (imm / 4 % 8) with
    | some scope => finish (true) (mk ⟨scope⟩)
    | _ => .illegal
  else .illegal

/-- Encodes shape Fence under an opcode and a function. -/
def encFence (op fn : Nat) (o : FenceO) : Enc :=
  .k ⟨op, fn, 0, 0, 0, 0, 0, 0, 0⟩ (4 * o.scope.code)

/-- Decodes the fields of shape Ldacq. -/
def decLdacq (h : Hdr) (imm : Nat) (mk : LdacqO → Instr) : DecRes :=
  if h.b == 0 && h.bm == 0 && h.mask == 0 && h.h == 0 && decide (imm < 64) && imm % 4 == 0 then
    match mdOf h.am, scopeOf (imm / 4 % 8) with
    | some am, some scope => finish (decide (h.d < 48) && decide (h.a < 48)) (mk ⟨sr h.d, sr h.a, am, decide (imm / 32 = 1), scope⟩)
    | _, _ => .illegal
  else .illegal

/-- Encodes shape Ldacq under an opcode and a function. -/
def encLdacq (op fn : Nat) (o : LdacqO) : Enc :=
  .k ⟨op, fn, o.d.val, o.a.val, 0, o.am.code, 0, 0, 0⟩ (4 * o.scope.code + 32 * o.w32.toNat)

/-- Decodes the fields of shape Strel. -/
def decStrel (h : Hdr) (imm : Nat) (mk : StrelO → Instr) : DecRes :=
  if h.d == 0 && h.mask == 0 && h.h == 0 && decide (imm < 64) && imm % 4 == 0 then
    match mdOf h.am, mdOf h.bm, scopeOf (imm / 4 % 8) with
    | some am, some bm, some scope => finish (decide (h.a < 48) && decide (h.b < 48)) (mk ⟨sr h.a, am, sr h.b, bm, decide (imm / 32 = 1), scope⟩)
    | _, _, _ => .illegal
  else .illegal

/-- Encodes shape Strel under an opcode and a function. -/
def encStrel (op fn : Nat) (o : StrelO) : Enc :=
  .k ⟨op, fn, 0, o.a.val, o.b.val, o.am.code, o.bm.code, 0, 0⟩ (4 * o.scope.code + 32 * o.w32.toNat)

/-- Decodes the fields of shape Firn. -/
def decFirn (h : Hdr) (imm : Nat) (mk : FirnO → Instr) : DecRes :=
  if h.b == 0 && h.bm == 0 && h.mask == 0 && h.h == 0 && decide (imm < 64) then
    match mdOf h.am, scopeOf (imm / 4 % 8), ordOf (imm % 4) with
    | some am, some scope, some ord => finish (decide (h.d < 48) && decide (h.a < 48)) (mk ⟨sr h.d, sr h.a, am, decide (imm / 32 = 1), scope, ord⟩)
    | _, _, _ => .illegal
  else .illegal

/-- Encodes shape Firn under an opcode and a function. -/
def encFirn (op fn : Nat) (o : FirnO) : Enc :=
  .k ⟨op, fn, o.d.val, o.a.val, 0, o.am.code, 0, 0, 0⟩ (o.ord.code + 4 * o.scope.code + 32 * o.w32.toNat)

/-- Decodes the fields of shape FirnB. -/
def decFirnB (h : Hdr) (imm : Nat) (mk : FirnBO → Instr) : DecRes :=
  if h.mask == 0 && h.h == 0 && decide (imm < 64) then
    match mdOf h.am, mdOf h.bm, scopeOf (imm / 4 % 8), ordOf (imm % 4) with
    | some am, some bm, some scope, some ord => finish (decide (h.d < 48) && decide (h.a < 48) && decide (h.b < 48)) (mk ⟨sr h.d, sr h.a, am, sr h.b, bm, decide (imm / 32 = 1), scope, ord⟩)
    | _, _, _, _ => .illegal
  else .illegal

/-- Encodes shape FirnB under an opcode and a function. -/
def encFirnB (op fn : Nat) (o : FirnBO) : Enc :=
  .k ⟨op, fn, o.d.val, o.a.val, o.b.val, o.am.code, o.bm.code, 0, 0⟩ (o.ord.code + 4 * o.scope.code + 32 * o.w32.toNat)

/-- Decodes the fields of shape Nop12. -/
def decNop12 (h : Hdr) (c cm imm : Nat) (mk : Instr) : DecRes :=
  if h.d == 0 && h.a == 0 && h.b == 0 && h.am == 0 && h.bm == 0 && h.mask == 0 && h.h == 0 && c == 0 && cm == 0 && imm == 0 then
    finish (true) mk
  else .illegal

/-- Encodes shape Nop12 under an opcode and a function. -/
def encNop12 (op fn : Nat) : Enc :=
  .w ⟨op, fn, 0, 0, 0, 0, 0, 0, 0⟩ 0 0 0

/-- Decodes the fields of shape RRRR. -/
def decRRRR (h : Hdr) (c cm imm : Nat) (mk : RRRR → Instr) : DecRes :=
  if h.mask == 0 && h.h == 0 && imm == 0 then
    match mdOf h.am, mdOf h.bm, mdOf cm with
    | some am, some bm, some cm => finish (decide (h.d < 48) && decide (h.a < 48) && decide (h.b < 48) && decide (c < 48)) (mk ⟨sr h.d, sr h.a, am, sr h.b, bm, sr c, cm⟩)
    | _, _, _ => .illegal
  else .illegal

/-- Encodes shape RRRR under an opcode and a function. -/
def encRRRR (op fn : Nat) (o : RRRR) : Enc :=
  .w ⟨op, fn, o.d.val, o.a.val, o.b.val, o.am.code, o.bm.code, 0, 0⟩ o.c.val o.cm.code 0

/-- Decodes the fields of shape Movi. -/
def decMovi (h : Hdr) (c cm imm : Nat) (mk : MoviO → Instr) : DecRes :=
  if h.a == 0 && h.b == 0 && h.am == 0 && h.bm == 0 && h.mask == 0 && h.h == 0 && c == 0 && cm == 0 then
    finish (decide (h.d < 48)) (mk ⟨sr h.d, BitVec.ofNat 48 imm⟩)
  else .illegal

/-- Encodes shape Movi under an opcode and a function. -/
def encMovi (op fn : Nat) (o : MoviO) : Enc :=
  .w ⟨op, fn, o.d.val, 0, 0, 0, 0, 0, 0⟩ 0 0 o.imm.toNat

/-- Decodes the fields of shape FP3. -/
def decFP3 (h : Hdr) (c cm imm : Nat) (mk : FP3 → Instr) : DecRes :=
  if h.mask == 0 && imm % 16 == 0 && decide (imm < 128) then
    match mdOf h.am, mdOf h.bm, mdOf cm, rmOf (imm / 16 % 8) with
    | some am, some bm, some cm, some rm => finish (decide (h.d < 48) && decide (h.a < 48) && decide (h.b < 48) && decide (c < 48)) (mk ⟨sr h.d, sr h.a, am, sr h.b, bm, sr c, cm, decide (h.h = 1), rm⟩)
    | _, _, _, _ => .illegal
  else .illegal

/-- Encodes shape FP3 under an opcode and a function. -/
def encFP3 (op fn : Nat) (o : FP3) : Enc :=
  .w ⟨op, fn, o.d.val, o.a.val, o.b.val, o.am.code, o.bm.code, 0, o.dbl.toNat⟩ o.c.val o.cm.code (16 * o.rm.code)

/-- Decodes the fields of shape VF3. -/
def decVF3 (h : Hdr) (c cm imm : Nat) (mk : VF3 → Instr) : DecRes :=
  if decide (imm < 128) then
    match mdOf h.am, mdOf h.bm, mdOf cm, tyOf (imm % 16), rmOf (imm / 16 % 8) with
    | some am, some bm, some cm, some ty, some rm => finish (decide (h.d < 16) && decide (h.a < 16) && (if h.h = 1 then decide (h.b < 48) else decide (h.b < 16)) && decide (c < 16)) (mk ⟨vr h.d, vr h.a, am, (if h.h = 1 then VB.s (sr h.b) else VB.v (vr h.b)), bm, vr c, cm, mr h.mask, ty, rm⟩)
    | _, _, _, _, _ => .illegal
  else .illegal

/-- Encodes shape VF3 under an opcode and a function. -/
def encVF3 (op fn : Nat) (o : VF3) : Enc :=
  .w ⟨op, fn, o.d.val, o.a.val, o.b.code, o.am.code, o.bm.code, o.mask.val, o.b.flag⟩ o.c.val o.cm.code (o.ty.code + 16 * o.rm.code)

/-- Decodes the fields of shape Cas. -/
def decCas (h : Hdr) (c cm imm : Nat) (mk : CasO → Instr) : DecRes :=
  if h.mask == 0 && h.h == 0 && decide (imm < 64) then
    match mdOf h.am, mdOf h.bm, mdOf cm, scopeOf (imm / 4 % 8), ordOf (imm % 4) with
    | some am, some bm, some cm, some scope, some ord => finish (decide (h.d < 48) && decide (h.a < 48) && decide (h.b < 48) && decide (c < 48)) (mk ⟨sr h.d, sr h.a, am, sr h.b, bm, sr c, cm, decide (imm / 32 = 1), scope, ord⟩)
    | _, _, _, _, _ => .illegal
  else .illegal

/-- Encodes shape Cas under an opcode and a function. -/
def encCas (op fn : Nat) (o : CasO) : Enc :=
  .w ⟨op, fn, o.d.val, o.a.val, o.b.val, o.am.code, o.bm.code, 0, 0⟩ o.c.val o.cm.code (o.ord.code + 4 * o.scope.code + 32 * o.w32.toNat)

/-- Decodes the fields of shape Spdz. -/
def decSpdz (h : Hdr) (c cm imm : Nat) (mk : SpdzO → Instr) : DecRes :=
  if h.mask == 0 && h.h == 0 && c == 0 && cm == 0 && decide (imm < 4) then
    match mdOf h.am, mdOf h.bm with
    | some am, some bm => finish (decide (h.d < 16) && decide (h.a < 48) && decide (h.b < 48)) (mk ⟨vr h.d, sr h.a, am, sr h.b, bm, decide (imm % 2 = 1), decide (imm / 2 = 1)⟩)
    | _, _ => .illegal
  else .illegal

/-- Encodes shape Spdz under an opcode and a function. -/
def encSpdz (op fn : Nat) (o : SpdzO) : Enc :=
  .w ⟨op, fn, o.d.val, o.a.val, o.b.val, o.am.code, o.bm.code, 0, 0⟩ 0 0 (o.anti.toNat + 2 * o.alongk.toNat)

/-- Decodes the fields of shape Nop16. -/
def decNop16 (h : Hdr) (c cm x : Nat) (mk : Instr) : DecRes :=
  if h.d == 0 && h.a == 0 && h.b == 0 && h.am == 0 && h.bm == 0 && h.mask == 0 && h.h == 0 && c == 0 && cm == 0 && x == 0 then
    finish (true) mk
  else .illegal

/-- Encodes shape Nop16 under an opcode and a function. -/
def encNop16 (op fn : Nat) : Enc :=
  .x ⟨op, fn, 0, 0, 0, 0, 0, 0, 0⟩ 0 0 0

/-- Decodes the fields of shape Movl. -/
def decMovl (h : Hdr) (c cm x : Nat) (mk : MovlO → Instr) : DecRes :=
  if h.a == 0 && h.b == 0 && h.am == 0 && h.bm == 0 && h.mask == 0 && h.h == 0 && c == 0 && cm == 0 && x % 2 ^ 16 == 0 then
    finish (decide (h.d < 48)) (mk ⟨sr h.d, BitVec.ofNat 64 (x / 2 ^ 16)⟩)
  else .illegal

/-- Encodes shape Movl under an opcode and a function. -/
def encMovl (op fn : Nat) (o : MovlO) : Enc :=
  .x ⟨op, fn, o.d.val, 0, 0, 0, 0, 0, 0⟩ 0 0 (2 ^ 16 * o.imm.toNat)

/-- Decodes the fields of shape Copy. -/
def decCopy (h : Hdr) (c cm x : Nat) (mk : CopyO → Instr) : DecRes :=
  if h.h == 0 && decide (x < 32) then
    match mdOf h.am, mdOf h.bm, mdOf cm, polOf h.mask, scopeOf (x % 8) with
    | some am, some bm, some cm, some pol, some scope => finish (decide (h.d < 48) && decide (h.a < 48) && decide (h.b < 48) && decide (c < 48)) (mk ⟨sr h.d, sr h.a, am, sr h.b, bm, sr c, cm, pol, scope, decide (x / 8 % 2 = 1), decide (x / 16 % 2 = 1)⟩)
    | _, _, _, _, _ => .illegal
  else .illegal

/-- Encodes shape Copy under an opcode and a function. -/
def encCopy (op fn : Nat) (o : CopyO) : Enc :=
  .x ⟨op, fn, o.d.val, o.a.val, o.b.val, o.am.code, o.bm.code, o.cp.val, 0⟩ o.c.val o.cm.code (o.scope.code + 8 * o.fillfe.toNat + 16 * o.stamp.toNat)

/-- Decodes the fields of shape Copy2. -/
def decCopy2 (h : Hdr) (c cm x : Nat) (mk : Copy2O → Instr) : DecRes :=
  if h.h == 0 && x / 32 % 2 ^ 11 == 0 then
    match mdOf h.am, mdOf h.bm, mdOf cm, polOf h.mask, scopeOf (x % 8) with
    | some am, some bm, some cm, some pol, some scope => finish (decide (h.d < 48) && decide (h.a < 48) && decide (h.b < 48) && decide (c < 48)) (mk ⟨sr h.d, sr h.a, am, sr h.b, bm, sr c, cm, pol, scope, decide (x / 8 % 2 = 1), decide (x / 16 % 2 = 1), BitVec.ofNat 16 (x / 2 ^ 16), BitVec.ofNat 24 (x / 2 ^ 32), BitVec.ofNat 24 (x / 2 ^ 56)⟩)
    | _, _, _, _, _ => .illegal
  else .illegal

/-- Encodes shape Copy2 under an opcode and a function. -/
def encCopy2 (op fn : Nat) (o : Copy2O) : Enc :=
  .x ⟨op, fn, o.d.val, o.a.val, o.b.val, o.am.code, o.bm.code, o.cp.val, 0⟩ o.c.val o.cm.code (o.scope.code + 8 * o.fillfe.toNat + 16 * o.stamp.toNat + 2 ^ 16 * o.rowbytes.toNat + 2 ^ 32 * o.sstride.toNat + 2 ^ 56 * o.dstride.toNat)

/-- Decodes the fields of shape Kv. -/
def decKv (h : Hdr) (c cm x : Nat) (mk : KvO → Instr) : DecRes :=
  if h.h == 0 && x / 32 % 2 ^ 11 == 0 && x / 2 ^ 46 == 0 then
    match mdOf h.am, mdOf h.bm, mdOf cm, scopeOf (x % 8) with
    | some am, some bm, some cm, some scope => finish (decide (h.d < 48) && decide (h.a < 48) && decide (h.b < 48) && decide (c < 48) && decide (x / 2 ^ 40 % 64 < 16)) (mk ⟨sr h.d, sr h.a, am, sr h.b, bm, sr c, cm, mr h.mask, scope, decide (x / 8 % 2 = 1), decide (x / 16 % 2 = 1), BitVec.ofNat 24 (x / 2 ^ 16), vr (x / 2 ^ 40 % 64)⟩)
    | _, _, _, _ => .illegal
  else .illegal

/-- Encodes shape Kv under an opcode and a function. -/
def encKv (op fn : Nat) (o : KvO) : Enc :=
  .x ⟨op, fn, o.d.val, o.a.val, o.b.val, o.am.code, o.bm.code, o.mask.val, 0⟩ o.c.val o.cm.code (o.scope.code + 8 * o.fillfe.toNat + 16 * o.stamp.toNat + 2 ^ 16 * o.blk.toNat + 2 ^ 40 * o.idx.val)

/-- Decodes the fields of shape Fcfg. -/
def decFcfg (h : Hdr) (c cm x : Nat) (mk : FcfgO → Instr) : DecRes :=
  if h.d == 0 && h.mask == 0 && h.h == 0 && x / 2048 == 0 then
    match mdOf h.am, mdOf h.bm, mdOf cm with
    | some am, some bm, some cm => finish (decide (h.a < 48) && decide (h.b < 48) && decide (c < 48)) (mk ⟨sr h.a, am, sr h.b, bm, sr c, cm, BitVec.ofNat 3 x, BitVec.ofNat 6 (x / 8), decide (x / 512 % 2 = 1), decide (x / 1024 % 2 = 1)⟩)
    | _, _, _ => .illegal
  else .illegal

/-- Encodes shape Fcfg under an opcode and a function. -/
def encFcfg (op fn : Nat) (o : FcfgO) : Enc :=
  .x ⟨op, fn, 0, o.a.val, o.b.val, o.am.code, o.bm.code, 0, 0⟩ o.c.val o.cm.code (o.wcode.toNat + 8 * o.wire.toNat + 512 * o.spread.toNat + 1024 * o.clear.toNat)

/-- Decodes the fields of shape Mma. -/
def decMma (h : Hdr) (c cm x : Nat) (mk : MmaO → Instr) : DecRes :=
  if h.mask == 0 && h.h == 0 && x / 2 ^ 35 % 2 ^ 13 == 0 && x / 2 ^ 72 == 0 && (x / 2 ^ 20 % 2 == 1 || (x / 2 ^ 54 % 64 == 0 && x / 2 ^ 60 % 64 == 0)) && (x / 2 ^ 19 % 2 == 1 || x / 2 ^ 66 % 64 == 0) && (x / 2 ^ 17 % 2 == 1 || (c == 0 && cm == 0)) then
    match mdOf h.am, mdOf h.bm, mdOf cm, tyOf (x / 2 ^ 24 % 16), scopeOf (x / 2 ^ 32 % 8) with
    | some am, some bm, some cm, some dfmt, some scope => finish (decide (h.d < 48) && decide (h.a < 48) && decide (h.b < 48) && decide (c < 48) && decide (x / 2 ^ 48 % 64 < 48) && decide (x / 2 ^ 54 % 64 < 48) && decide (x / 2 ^ 60 % 64 < 48) && decide (x / 2 ^ 66 % 64 < 13)) (mk ⟨sr h.d, sr h.a, am, sr h.b, bm, sr c, cm, BitVec.ofNat 2 x, BitVec.ofNat 2 (x / 4), BitVec.ofNat 12 (x / 16), decide (x / 2 ^ 16 % 2 = 1), decide (x / 2 ^ 17 % 2 = 1), decide (x / 2 ^ 18 % 2 = 1), decide (x / 2 ^ 19 % 2 = 1), decide (x / 2 ^ 20 % 2 = 1), decide (x / 2 ^ 21 % 2 = 1), BitVec.ofNat 2 (x / 2 ^ 22), dfmt, BitVec.ofNat 4 (x / 2 ^ 28), scope, sr (x / 2 ^ 48 % 64), sr (x / 2 ^ 54 % 64), sr (x / 2 ^ 60 % 64), (if decide (x / 2 ^ 66 % 64 < 13) then vr (x / 2 ^ 66 % 64) else 0)⟩)
    | _, _, _, _, _ => .illegal
  else .illegal

/-- Encodes shape Mma under an opcode and a function. -/
def encMma (op fn : Nat) (o : MmaO) : Enc :=
  .x ⟨op, fn, o.d.val, o.a.val, o.b.val, o.am.code, o.bm.code, 0, 0⟩ o.c.val o.cm.code (o.msz.toNat + 4 * o.nsz.toNat + 16 * o.ksz.toNat + 2 ^ 16 * (o.acc.toNat + 2 * o.drain.toNat + 4 * o.epi.toNat + 8 * o.gath.toNat + 16 * o.pert.toNat + 32 * o.anti.toNat + 64 * o.aset.toNat + 256 * o.dfmt.code + 4096 * o.epislot.toNat + 2 ^ 16 * o.scope.code + 2 ^ 32 * o.e.val + 2 ^ 38 * o.f.val + 2 ^ 44 * o.g.val + 2 ^ 50 * o.i.val))

/-- The K rows of the opcode map (R86); every other OP and FN is illegal (R87). -/
def decodeK (h : Hdr) (imm : Nat) : DecRes :=
  match h.op, h.fn with
  | 0x00, 0 => decNone h imm .nop8
  | 0x01, 0 => decBr h imm .br
  | 0x01, 1 => decJal h imm .jal
  | 0x01, 2 => decJr h imm .jr
  | 0x01, 3 => decJalr h imm .jalr
  | 0x02, 0 => decBranch h imm .beq
  | 0x02, 1 => decBranch h imm .bne
  | 0x02, 2 => decBranch h imm .blt
  | 0x02, 3 => decBranch h imm .bge
  | 0x02, 4 => decBranch h imm .bltn
  | 0x02, 5 => decBranch h imm .bgen
  | 0x03, 0 => decLoop h imm .loop
  | 0x03, 1 => decNone h imm .lbrk
  | 0x04, 0 => decTrap h imm .trap
  | 0x04, 1 => decNone h imm .brk
  | 0x04, 2 => decNone h imm .cpoint
  | 0x05, 0 => decCsrR h imm .csrr
  | 0x05, 1 => decCsrW h imm .csrw
  | 0x05, 2 => decCsrD h imm .csrs
  | 0x05, 3 => decCsrD h imm .csrc
  | 0x05, 4 => decCsrD h imm .csrx
  | 0x06, 0 => decNone h imm .wfe
  | 0x06, 1 => decOneA h imm .sev
  | 0x06, 2 => decRR h imm .wfet
  | 0x07, 0 => decNone h imm .exit
  | 0x07, 1 => decOneA h imm .exitc
  | 0x10, 0 => decRRR h imm .add
  | 0x10, 1 => decRRR h imm .sub
  | 0x10, 2 => decRRR h imm .and
  | 0x10, 3 => decRRR h imm .or
  | 0x10, 4 => decRRR h imm .xor
  | 0x10, 5 => decRRR h imm .shl
  | 0x10, 6 => decRRR h imm .shr
  | 0x10, 7 => decRRR h imm .sra
  | 0x10, 8 => decRRR h imm .mul
  | 0x10, 9 => decRRR h imm .mulh
  | 0x10, 10 => decRRR h imm .mulhn
  | 0x10, 11 => decRRR h imm .div
  | 0x10, 12 => decRRR h imm .divn
  | 0x10, 13 => decRRR h imm .rem
  | 0x10, 14 => decRRR h imm .remn
  | 0x10, 15 => decRRR h imm .andn
  | 0x11, 0 => decRRI h imm .addi
  | 0x11, 1 => decRRI h imm .andi
  | 0x11, 2 => decRRI h imm .ori
  | 0x11, 3 => decRRI h imm .xori
  | 0x11, 4 => decRRSh h imm .shli
  | 0x11, 5 => decRRSh h imm .shri
  | 0x11, 6 => decRRSh h imm .srai
  | 0x11, 7 => decRRI h imm .muli
  | 0x12, 0 => decRRR h imm .slt
  | 0x12, 1 => decRRR h imm .sltn
  | 0x12, 2 => decRRR h imm .seq
  | 0x12, 3 => decRRR h imm .sne
  | 0x12, 4 => decRRR h imm .min
  | 0x12, 5 => decRRR h imm .max
  | 0x12, 6 => decRRR h imm .minn
  | 0x12, 7 => decRRR h imm .maxn
  | 0x12, 8 => decRR h imm .clz
  | 0x12, 9 => decRR h imm .ctz
  | 0x12, 10 => decRR h imm .popc
  | 0x12, 11 => decRRW h imm .sext
  | 0x12, 12 => decRRW h imm .zext
  | 0x18, 0 => decFP2 h imm .fadd
  | 0x18, 1 => decFP2 h imm .fsub
  | 0x18, 2 => decFP2 h imm .fmul
  | 0x18, 3 => decFP2 h imm .fdiv
  | 0x18, 4 => decFP1 h imm .fsqrt
  | 0x18, 5 => decFP2 h imm .fmin
  | 0x18, 6 => decFP2 h imm .fmax
  | 0x18, 7 => decFP2 h imm .feq
  | 0x18, 8 => decFP2 h imm .flt
  | 0x18, 9 => decFP2 h imm .fle
  | 0x18, 10 => decFPC h imm .fcvti
  | 0x18, 11 => decFPC h imm .fcvtf
  | 0x18, 12 => decFP1 h imm .fcvtw
  | 0x40, 0 => decVI2 h imm .vadd
  | 0x40, 1 => decVI2 h imm .vsub
  | 0x40, 2 => decVI2 h imm .vmul
  | 0x40, 3 => decVI2 h imm .vmulh
  | 0x40, 4 => decVI2 h imm .vand
  | 0x40, 5 => decVI2 h imm .vor
  | 0x40, 6 => decVI2 h imm .vxor
  | 0x40, 7 => decVI2 h imm .vshl
  | 0x40, 8 => decVI2 h imm .vshr
  | 0x40, 9 => decVI2 h imm .vsra
  | 0x40, 10 => decVI2 h imm .vmin
  | 0x40, 11 => decVI2 h imm .vmax
  | 0x40, 12 => decVI1 h imm .vabs
  | 0x40, 13 => decVI2 h imm .vadds
  | 0x40, 14 => decVI2 h imm .vsubs
  | 0x40, 15 => decVI2 h imm .vavg
  | 0x42, 0 => decVCmp h imm .vcmpEq
  | 0x42, 1 => decVCmp h imm .vcmpNe
  | 0x42, 2 => decVCmp h imm .vcmpLt
  | 0x42, 3 => decVCmp h imm .vcmpLe
  | 0x42, 4 => decVCmp h imm .vcmpGt
  | 0x42, 5 => decVCmp h imm .vcmpGe
  | 0x43, 0 => decVI1 h imm .vmov
  | 0x43, 1 => decVSplat h imm .vsplat
  | 0x43, 2 => decVExt h imm .vext
  | 0x43, 3 => decVIns h imm .vins
  | 0x43, 4 => decVIota h imm .viota
  | 0x43, 5 => decVV3 h imm .vsel
  | 0x43, 6 => decVV3 h imm .vperm
  | 0x43, 7 => decVSlide h imm .vslideup
  | 0x43, 8 => decVSlide h imm .vslidedn
  | 0x43, 9 => decVRed h imm .vredadd
  | 0x43, 10 => decVRed h imm .vredmin
  | 0x43, 11 => decVRed h imm .vredmax
  | 0x43, 12 => decVI1 h imm .vcompress
  | 0x43, 13 => decVI1 h imm .vscan
  | 0x44, 0 => decM3 h imm .mand
  | 0x44, 1 => decM3 h imm .mor
  | 0x44, 2 => decM3 h imm .mxor
  | 0x44, 3 => decM3 h imm .mandn
  | 0x44, 4 => decM2 h imm .mnot
  | 0x44, 5 => decMS h imm .mpopc
  | 0x44, 6 => decMS h imm .mfirst
  | 0x44, 7 => decMFrom h imm .mfrom
  | 0x44, 8 => decMTo h imm .mto
  | 0x48, 0 => decVF2 h imm .vfadd
  | 0x48, 1 => decVF2 h imm .vfsub
  | 0x48, 2 => decVF2 h imm .vfmul
  | 0x48, 3 => decVF2 h imm .vfdiv
  | 0x48, 4 => decVF1 h imm .vfsqrt
  | 0x48, 5 => decVF2 h imm .vfmin
  | 0x48, 6 => decVF2 h imm .vfmax
  | 0x48, 7 => decVF1 h imm .vfexp2
  | 0x48, 8 => decVF1 h imm .vflog2
  | 0x48, 9 => decVF1 h imm .vfrcp
  | 0x48, 10 => decVF1 h imm .vfrsq
  | 0x48, 11 => decVF1 h imm .vfabs
  | 0x48, 12 => decVF1 h imm .vfneg
  | 0x4A, 0 => decVCmp h imm .vfcmpEq
  | 0x4A, 1 => decVCmp h imm .vfcmpNe
  | 0x4A, 2 => decVCmp h imm .vfcmpLt
  | 0x4A, 3 => decVCmp h imm .vfcmpLe
  | 0x4A, 4 => decVCmp h imm .vfcmpUno
  | 0x4B, 0 => decVCvt h imm .vcvt
  | 0x4B, 1 => decVPk h imm .vpackb
  | 0x4B, 2 => decVPk h imm .vunpackb
  | 0x80, 0 => decLd h imm .ldI8
  | 0x80, 1 => decLd h imm .ldN8
  | 0x80, 2 => decLd h imm .ldI16
  | 0x80, 3 => decLd h imm .ldN16
  | 0x80, 4 => decLd h imm .ldI32
  | 0x80, 5 => decLd h imm .ldN32
  | 0x80, 6 => decLd h imm .ldI64
  | 0x81, 0 => decSt h imm .st8
  | 0x81, 1 => decSt h imm .st16
  | 0x81, 2 => decSt h imm .st32
  | 0x81, 3 => decSt h imm .st64
  | 0x82, 0 => decVLd h imm .vld
  | 0x82, 1 => decVSt h imm .vst
  | 0x83, _ => decVLdf h imm .vldf
  | 0x84, 0 => decVLds h imm .vlds
  | 0x84, 1 => decVLds h imm .vsts
  | 0x84, 2 => decVGath h imm .vgath
  | 0x84, 3 => decVGath h imm .vscat
  | 0x85, 0 => decSyLd h imm .ldsy
  | 0x85, 1 => decSyLd h imm .ldpk
  | 0x85, 2 => decSySt h imm .stsy
  | 0x85, 3 => decSySt h imm .stfl
  | 0x85, 4 => decSyEm h imm .stem
  | 0x85, 5 => decSyLd h imm .ldfe
  | 0x87, 0 => decPref h imm .pref
  | 0x87, 1 => decSyEm h imm .flush
  | 0x87, 2 => decSyEm h imm .invl
  | 0x87, 3 => decPin h imm .pin
  | 0x87, 4 => decUnpin h imm .unpin
  | 0xA0, 0 => decAmo h imm .amoAdd
  | 0xA0, 1 => decAmo h imm .amoAnd
  | 0xA0, 2 => decAmo h imm .amoOr
  | 0xA0, 3 => decAmo h imm .amoXor
  | 0xA0, 4 => decAmo h imm .amoMin
  | 0xA0, 5 => decAmo h imm .amoMax
  | 0xA0, 6 => decAmo h imm .amoMinn
  | 0xA0, 7 => decAmo h imm .amoMaxn
  | 0xA0, 8 => decAmo h imm .amoSwap
  | 0xA0, 9 => decAmo h imm .amoFadd
  | 0xA2, 0 => decRed h imm .redAdd
  | 0xA2, 1 => decRed h imm .redFadd
  | 0xA2, 2 => decRed h imm .redMin
  | 0xA2, 3 => decRed h imm .redMax
  | 0xA2, 4 => decRed h imm .redOr
  | 0xA3, 0 => decFence h imm .fence
  | 0xA3, 1 => decFence h imm .fenceAcq
  | 0xA3, 2 => decFence h imm .fenceRel
  | 0xA3, 3 => decFence h imm .fenceSc
  | 0xA4, 0 => decLdacq h imm .ldacq
  | 0xA4, 1 => decStrel h imm .strel
  | 0xB0, 0 => decFirn h imm .finc
  | 0xB0, 1 => decFirn h imm .fdec
  | 0xB0, 2 => decFirnB h imm .fcan
  | 0xB0, 3 => decFirnB h imm .fpeek
  | 0xB2, 0 => decFirn h imm .join
  | 0xB2, 1 => decFirnB h imm .leave
  | 0xB2, 2 => decFirn h imm .gbar
  | 0xB3, 0 => decRR h imm .barw
  | 0xB8, 0 => decRRR h imm .tagpub
  | 0xB8, 1 => decRRR h imm .tagwait
  | 0xB8, 2 => decRR h imm .tagqry
  | 0xB8, 3 => decAB h imm .tagret
  | 0xB9, 0 => decRR h imm .spawn
  | 0xB9, 1 => decAB h imm .fsopen
  | 0xB9, 2 => decOneA h imm .fsclose
  | 0xB9, 3 => decRR h imm .fswait
  | 0xBA, 0 => decRR h imm .gpost
  | 0xBA, 1 => decOneD h imm .gstat
  | 0xC1, 0 => decOneD h imm .epiw
  | 0xC1, 1 => decNone h imm .epid
  | 0xE0, 0 => decNone h imm .eret
  | 0xE0, 1 => decAB h imm .spill
  | 0xE0, 2 => decAB h imm .refill
  | 0xE0, 3 => decOneA h imm .slotkill
  | 0xE0, 4 => decRRR h imm .tlbinv
  | _, _ => .illegal

/-- The W rows of the opcode map (R86); every other OP and FN is illegal (R87). -/
def decodeW (h : Hdr) (c cm imm : Nat) : DecRes :=
  match h.op, h.fn with
  | 0x00, 0 => decNop12 h c cm imm .nop12
  | 0x13, 0 => decRRRR h c cm imm .sel
  | 0x13, 1 => decRRRR h c cm imm .madd
  | 0x14, 0 => decMovi h c cm imm .movi
  | 0x19, 0 => decFP3 h c cm imm .ffma
  | 0x49, 0 => decVF3 h c cm imm .vfma
  | 0x49, 1 => decVF3 h c cm imm .vfms
  | 0x49, 2 => decVF3 h c cm imm .vfnma
  | 0xA1, 0 => decCas h c cm imm .cas
  | 0xC2, 0 => decSpdz h c cm imm .spdz
  | _, _ => .illegal

/-- The X rows of the opcode map (R86); every other OP and FN is illegal (R87). -/
def decodeX (h : Hdr) (c cm x : Nat) : DecRes :=
  match h.op, h.fn with
  | 0x00, 0 => decNop16 h c cm x .nop16
  | 0x14, 1 => decMovl h c cm x .movl
  | 0x86, 0 => decCopy h c cm x .copy
  | 0x86, 1 => decCopy2 h c cm x .copy2
  | 0x86, 2 => decKv h c cm x .kvgath
  | 0xB1, 0 => decFcfg h c cm x .fcfg
  | 0xC0, 0 => decMma h c cm x .mma
  | _, _ => .illegal

/-- Decode checks 4 and 5 of R88 on the separated fields. -/
def decodeEnc : Enc → DecRes
  | .k h imm => decodeK h imm
  | .w h c cm imm => decodeW h c cm imm
  | .x h c cm x => decodeX h c cm x

/-- The instruction that the bytes at a PC hold: LEN first (R68), then the fields (R72 to R87). -/
def decodeNat (w : Nat) : DecRes :=
  match unpack w with
  | some e => decodeEnc e
  | none => .illegal

/-- Decodes any list of bytes, lowest address first; bytes past the list read as zero. -/
def decode (bs : List Byte) : DecRes := decodeNat (leNat (bs.take 16))

/-- The fields of a real instruction; an event has no encoding. -/
def encodeEnc : Instr → Option Enc
  | .nop8 => some (encNone 0x00 0)
  | .nop12 => some (encNop12 0x00 0)
  | .nop16 => some (encNop16 0x00 0)
  | .br o => some (encBr 0x01 0 o)
  | .jal o => some (encJal 0x01 1 o)
  | .jr o => some (encJr 0x01 2 o)
  | .jalr o => some (encJalr 0x01 3 o)
  | .beq o => some (encBranch 0x02 0 o)
  | .bne o => some (encBranch 0x02 1 o)
  | .blt o => some (encBranch 0x02 2 o)
  | .bge o => some (encBranch 0x02 3 o)
  | .bltn o => some (encBranch 0x02 4 o)
  | .bgen o => some (encBranch 0x02 5 o)
  | .loop o => some (encLoop 0x03 0 o)
  | .lbrk => some (encNone 0x03 1)
  | .trap o => some (encTrap 0x04 0 o)
  | .brk => some (encNone 0x04 1)
  | .cpoint => some (encNone 0x04 2)
  | .csrr o => some (encCsrR 0x05 0 o)
  | .csrw o => some (encCsrW 0x05 1 o)
  | .csrs o => some (encCsrD 0x05 2 o)
  | .csrc o => some (encCsrD 0x05 3 o)
  | .csrx o => some (encCsrD 0x05 4 o)
  | .wfe => some (encNone 0x06 0)
  | .sev o => some (encOneA 0x06 1 o)
  | .wfet o => some (encRR 0x06 2 o)
  | .exit => some (encNone 0x07 0)
  | .exitc o => some (encOneA 0x07 1 o)
  | .add o => some (encRRR 0x10 0 o)
  | .sub o => some (encRRR 0x10 1 o)
  | .and o => some (encRRR 0x10 2 o)
  | .or o => some (encRRR 0x10 3 o)
  | .xor o => some (encRRR 0x10 4 o)
  | .shl o => some (encRRR 0x10 5 o)
  | .shr o => some (encRRR 0x10 6 o)
  | .sra o => some (encRRR 0x10 7 o)
  | .mul o => some (encRRR 0x10 8 o)
  | .mulh o => some (encRRR 0x10 9 o)
  | .mulhn o => some (encRRR 0x10 10 o)
  | .div o => some (encRRR 0x10 11 o)
  | .divn o => some (encRRR 0x10 12 o)
  | .rem o => some (encRRR 0x10 13 o)
  | .remn o => some (encRRR 0x10 14 o)
  | .andn o => some (encRRR 0x10 15 o)
  | .addi o => some (encRRI 0x11 0 o)
  | .andi o => some (encRRI 0x11 1 o)
  | .ori o => some (encRRI 0x11 2 o)
  | .xori o => some (encRRI 0x11 3 o)
  | .shli o => some (encRRSh 0x11 4 o)
  | .shri o => some (encRRSh 0x11 5 o)
  | .srai o => some (encRRSh 0x11 6 o)
  | .muli o => some (encRRI 0x11 7 o)
  | .slt o => some (encRRR 0x12 0 o)
  | .sltn o => some (encRRR 0x12 1 o)
  | .seq o => some (encRRR 0x12 2 o)
  | .sne o => some (encRRR 0x12 3 o)
  | .min o => some (encRRR 0x12 4 o)
  | .max o => some (encRRR 0x12 5 o)
  | .minn o => some (encRRR 0x12 6 o)
  | .maxn o => some (encRRR 0x12 7 o)
  | .clz o => some (encRR 0x12 8 o)
  | .ctz o => some (encRR 0x12 9 o)
  | .popc o => some (encRR 0x12 10 o)
  | .sext o => some (encRRW 0x12 11 o)
  | .zext o => some (encRRW 0x12 12 o)
  | .sel o => some (encRRRR 0x13 0 o)
  | .madd o => some (encRRRR 0x13 1 o)
  | .movi o => some (encMovi 0x14 0 o)
  | .movl o => some (encMovl 0x14 1 o)
  | .fadd o => some (encFP2 0x18 0 o)
  | .fsub o => some (encFP2 0x18 1 o)
  | .fmul o => some (encFP2 0x18 2 o)
  | .fdiv o => some (encFP2 0x18 3 o)
  | .fsqrt o => some (encFP1 0x18 4 o)
  | .fmin o => some (encFP2 0x18 5 o)
  | .fmax o => some (encFP2 0x18 6 o)
  | .feq o => some (encFP2 0x18 7 o)
  | .flt o => some (encFP2 0x18 8 o)
  | .fle o => some (encFP2 0x18 9 o)
  | .fcvti o => some (encFPC 0x18 10 o)
  | .fcvtf o => some (encFPC 0x18 11 o)
  | .fcvtw o => some (encFP1 0x18 12 o)
  | .ffma o => some (encFP3 0x19 0 o)
  | .vadd o => some (encVI2 0x40 0 o)
  | .vsub o => some (encVI2 0x40 1 o)
  | .vmul o => some (encVI2 0x40 2 o)
  | .vmulh o => some (encVI2 0x40 3 o)
  | .vand o => some (encVI2 0x40 4 o)
  | .vor o => some (encVI2 0x40 5 o)
  | .vxor o => some (encVI2 0x40 6 o)
  | .vshl o => some (encVI2 0x40 7 o)
  | .vshr o => some (encVI2 0x40 8 o)
  | .vsra o => some (encVI2 0x40 9 o)
  | .vmin o => some (encVI2 0x40 10 o)
  | .vmax o => some (encVI2 0x40 11 o)
  | .vabs o => some (encVI1 0x40 12 o)
  | .vadds o => some (encVI2 0x40 13 o)
  | .vsubs o => some (encVI2 0x40 14 o)
  | .vavg o => some (encVI2 0x40 15 o)
  | .vcmpEq o => some (encVCmp 0x42 0 o)
  | .vcmpNe o => some (encVCmp 0x42 1 o)
  | .vcmpLt o => some (encVCmp 0x42 2 o)
  | .vcmpLe o => some (encVCmp 0x42 3 o)
  | .vcmpGt o => some (encVCmp 0x42 4 o)
  | .vcmpGe o => some (encVCmp 0x42 5 o)
  | .vmov o => some (encVI1 0x43 0 o)
  | .vsplat o => some (encVSplat 0x43 1 o)
  | .vext o => some (encVExt 0x43 2 o)
  | .vins o => some (encVIns 0x43 3 o)
  | .viota o => some (encVIota 0x43 4 o)
  | .vsel o => some (encVV3 0x43 5 o)
  | .vperm o => some (encVV3 0x43 6 o)
  | .vslideup o => some (encVSlide 0x43 7 o)
  | .vslidedn o => some (encVSlide 0x43 8 o)
  | .vredadd o => some (encVRed 0x43 9 o)
  | .vredmin o => some (encVRed 0x43 10 o)
  | .vredmax o => some (encVRed 0x43 11 o)
  | .vcompress o => some (encVI1 0x43 12 o)
  | .vscan o => some (encVI1 0x43 13 o)
  | .mand o => some (encM3 0x44 0 o)
  | .mor o => some (encM3 0x44 1 o)
  | .mxor o => some (encM3 0x44 2 o)
  | .mandn o => some (encM3 0x44 3 o)
  | .mnot o => some (encM2 0x44 4 o)
  | .mpopc o => some (encMS 0x44 5 o)
  | .mfirst o => some (encMS 0x44 6 o)
  | .mfrom o => some (encMFrom 0x44 7 o)
  | .mto o => some (encMTo 0x44 8 o)
  | .vfadd o => some (encVF2 0x48 0 o)
  | .vfsub o => some (encVF2 0x48 1 o)
  | .vfmul o => some (encVF2 0x48 2 o)
  | .vfdiv o => some (encVF2 0x48 3 o)
  | .vfsqrt o => some (encVF1 0x48 4 o)
  | .vfmin o => some (encVF2 0x48 5 o)
  | .vfmax o => some (encVF2 0x48 6 o)
  | .vfexp2 o => some (encVF1 0x48 7 o)
  | .vflog2 o => some (encVF1 0x48 8 o)
  | .vfrcp o => some (encVF1 0x48 9 o)
  | .vfrsq o => some (encVF1 0x48 10 o)
  | .vfabs o => some (encVF1 0x48 11 o)
  | .vfneg o => some (encVF1 0x48 12 o)
  | .vfma o => some (encVF3 0x49 0 o)
  | .vfms o => some (encVF3 0x49 1 o)
  | .vfnma o => some (encVF3 0x49 2 o)
  | .vfcmpEq o => some (encVCmp 0x4A 0 o)
  | .vfcmpNe o => some (encVCmp 0x4A 1 o)
  | .vfcmpLt o => some (encVCmp 0x4A 2 o)
  | .vfcmpLe o => some (encVCmp 0x4A 3 o)
  | .vfcmpUno o => some (encVCmp 0x4A 4 o)
  | .vcvt o => some (encVCvt 0x4B 0 o)
  | .vpackb o => some (encVPk 0x4B 1 o)
  | .vunpackb o => some (encVPk 0x4B 2 o)
  | .ldI8 o => some (encLd 0x80 0 o)
  | .ldN8 o => some (encLd 0x80 1 o)
  | .ldI16 o => some (encLd 0x80 2 o)
  | .ldN16 o => some (encLd 0x80 3 o)
  | .ldI32 o => some (encLd 0x80 4 o)
  | .ldN32 o => some (encLd 0x80 5 o)
  | .ldI64 o => some (encLd 0x80 6 o)
  | .st8 o => some (encSt 0x81 0 o)
  | .st16 o => some (encSt 0x81 1 o)
  | .st32 o => some (encSt 0x81 2 o)
  | .st64 o => some (encSt 0x81 3 o)
  | .vld o => some (encVLd 0x82 0 o)
  | .vst o => some (encVSt 0x82 1 o)
  | .vldf o => some (encVLdf 0x83 o.ty.code o)
  | .vlds o => some (encVLds 0x84 0 o)
  | .vsts o => some (encVLds 0x84 1 o)
  | .vgath o => some (encVGath 0x84 2 o)
  | .vscat o => some (encVGath 0x84 3 o)
  | .ldsy o => some (encSyLd 0x85 0 o)
  | .ldpk o => some (encSyLd 0x85 1 o)
  | .stsy o => some (encSySt 0x85 2 o)
  | .stfl o => some (encSySt 0x85 3 o)
  | .stem o => some (encSyEm 0x85 4 o)
  | .ldfe o => some (encSyLd 0x85 5 o)
  | .copy o => some (encCopy 0x86 0 o)
  | .copy2 o => some (encCopy2 0x86 1 o)
  | .kvgath o => some (encKv 0x86 2 o)
  | .pref o => some (encPref 0x87 0 o)
  | .flush o => some (encSyEm 0x87 1 o)
  | .invl o => some (encSyEm 0x87 2 o)
  | .pin o => some (encPin 0x87 3 o)
  | .unpin o => some (encUnpin 0x87 4 o)
  | .amoAdd o => some (encAmo 0xA0 0 o)
  | .amoAnd o => some (encAmo 0xA0 1 o)
  | .amoOr o => some (encAmo 0xA0 2 o)
  | .amoXor o => some (encAmo 0xA0 3 o)
  | .amoMin o => some (encAmo 0xA0 4 o)
  | .amoMax o => some (encAmo 0xA0 5 o)
  | .amoMinn o => some (encAmo 0xA0 6 o)
  | .amoMaxn o => some (encAmo 0xA0 7 o)
  | .amoSwap o => some (encAmo 0xA0 8 o)
  | .amoFadd o => some (encAmo 0xA0 9 o)
  | .cas o => some (encCas 0xA1 0 o)
  | .redAdd o => some (encRed 0xA2 0 o)
  | .redFadd o => some (encRed 0xA2 1 o)
  | .redMin o => some (encRed 0xA2 2 o)
  | .redMax o => some (encRed 0xA2 3 o)
  | .redOr o => some (encRed 0xA2 4 o)
  | .fence o => some (encFence 0xA3 0 o)
  | .fenceAcq o => some (encFence 0xA3 1 o)
  | .fenceRel o => some (encFence 0xA3 2 o)
  | .fenceSc o => some (encFence 0xA3 3 o)
  | .ldacq o => some (encLdacq 0xA4 0 o)
  | .strel o => some (encStrel 0xA4 1 o)
  | .finc o => some (encFirn 0xB0 0 o)
  | .fdec o => some (encFirn 0xB0 1 o)
  | .fcan o => some (encFirnB 0xB0 2 o)
  | .fpeek o => some (encFirnB 0xB0 3 o)
  | .fcfg o => some (encFcfg 0xB1 0 o)
  | .join o => some (encFirn 0xB2 0 o)
  | .leave o => some (encFirnB 0xB2 1 o)
  | .gbar o => some (encFirn 0xB2 2 o)
  | .barw o => some (encRR 0xB3 0 o)
  | .tagpub o => some (encRRR 0xB8 0 o)
  | .tagwait o => some (encRRR 0xB8 1 o)
  | .tagqry o => some (encRR 0xB8 2 o)
  | .tagret o => some (encAB 0xB8 3 o)
  | .spawn o => some (encRR 0xB9 0 o)
  | .fsopen o => some (encAB 0xB9 1 o)
  | .fsclose o => some (encOneA 0xB9 2 o)
  | .fswait o => some (encRR 0xB9 3 o)
  | .gpost o => some (encRR 0xBA 0 o)
  | .gstat o => some (encOneD 0xBA 1 o)
  | .mma o => some (encMma 0xC0 0 o)
  | .epiw o => some (encOneD 0xC1 0 o)
  | .epid => some (encNone 0xC1 1)
  | .spdz o => some (encSpdz 0xC2 0 o)
  | .eret => some (encNone 0xE0 0)
  | .spill o => some (encAB 0xE0 1 o)
  | .refill o => some (encAB 0xE0 2 o)
  | .slotkill o => some (encOneA 0xE0 3 o)
  | .tlbinv o => some (encRRR 0xE0 4 o)
  | .queueMessage _ => none
  | .packetCheck _ => none
  | .completionRecordWrite _ => none
  | .recordTransportFailure _ => none
  | .rmaWrite _ => none
  | .rmaRead _ => none
  | .qset _ => none
  | .fring _ => none
  | .foffer _ => none
  | .faccept _ => none
  | .sresume _ => none
  | .slaunch _ => none
  | .slaunchReply _ => none
  | .releaseTimeReached _ _ => none
  | .timeStep _ => none
  | .ptpHoldover => none
  | .nunatakPlacement _ => none
  | .dispatch _ _ => none
  | .clearComplete _ => none
  | .icacheFill _ => none
  | .issueIntervalEnd _ => none
  | .branchPenaltyEnd _ => none
  | .completionDelivery _ => none
  | .storeAccepted _ => none
  | .pageWalk _ => none
  | .pushApply _ => none
  | .atomicAtHome _ => none
  | .redApply _ => none
  | .bankSyncRequest _ => none
  | .cancellationDelivery _ _ => none
  | .cancellationTaken _ => none
  | .sevDelivery _ => none
  | .wfetTimeout _ => none
  | .slotFree _ => none
  | .copyJobStart _ => none
  | .copySectorMove _ _ => none
  | .copyTokenFill _ => none
  | .mmaJobStart _ => none
  | .mmaComputeEnd _ => none
  | .drainRow _ => none
  | .epilogueTimeout _ => none
  | .mmaTokenFill _ => none
  | .firnPlaneAdmission _ => none
  | .balancerStep _ _ => none
  | .firnExitStage _ _ => none
  | .fcfgApply _ _ => none
  | .barwArrivalCounted _ => none
  | .barwTimeout _ => none
  | .tagHomeRequest _ => none
  | .scopeUnitChange _ => none
  | .cirquePost _ => none
  | .cirqueMemberEnd _ => none
  | .spillStart _ => none
  | .spillComplete _ => none
  | .refillStart _ => none
  | .refillComplete _ => none
  | .slotkillArrival _ => none
  | .calvingCompletionLatch _ => none
  | .bjoinWrite _ => none
  | .evtWrite _ => none
  | .lcWrite _ => none
  | .lsLeWrite _ => none
  | .frmWrite _ => none
  | .sfmtWrite _ => none
  | .csrRegisterWrite _ => none
  | .partitionCsrPropagation _ => none
  | .scrub _ => none
  | .uncorrectableError _ => none
  | .stateErrorPartitionStop _ _ => none
  | .health _ => none
  | .wdog _ => none
  | .freeze _ => none
  | .readout _ => none
  | .resume _ => none
  | .sidebandSlotkill _ => none
  | .partreset _ => none
  | .diereset _ => none
  | .pkgreset _ => none
  | .fwload _ => none
  | .nunrestart _ => none
  | .partcfgConfigure _ => none
  | .partcfgRemove _ => none
  | .partcfgSramSplit _ => none
  | .attest _ => none
  | .powerUpBoot _ => none
  | .nunatakHeartbeatWatchdog _ => none
  | .dieProgressWatchdog _ => none
  | .seracCoreWatchdog _ => none
  | .thermalThrottle => none
  | .undervoltagePowerOff => none
  | .overvoltageDisconnect => none
  | .limitsRestored => none
  | .illegalEncoding _ => none
  | .fetchFault _ => none
  | .ptpLock _ => none
  | .transportPacketDrop => none
  | .controlUnknownCmd _ => none
  | .sidebandUnknownCmd _ => none
  | .arithmeticClockRaise => none


/-- The instruction's words as one little-endian number (R68). -/
def encode (i : Instr) : Option Nat := (encodeEnc i).map pack

/-- Length in bytes of a real instruction (R68); an event has none. -/
def Instr.len (i : Instr) : Nat :=
  match encodeEnc i with
  | some (.k _ _) => 8
  | some (.w _ _ _ _) => 12
  | some (.x _ _ _ _) => 16
  | none => 0

/-- What the decoder reads from an instruction whose bits are `w`, `nbits` of them, the rest zero. -/
def decodeTableWord (nbits w : Nat) : Option Instr :=
  match decode (leBytes 16 (w % 2 ^ nbits)) with
  | .ok i => some i
  | _ => none

end Sys2Proof
end

