-- ==== Sys2Proof/Machine/Access.lean ====
section
/-! DEFINITION. Reading and writing the parts of the state: slots, cores, clusters, dies, partitions, registers. -/
namespace Sys2Proof.Machine

/-- Key of a slot. -/
def slotKey (r : SlotRef) : Nat := r.core * 16 + r.slot
/-- Slot of a key. -/
def refOfKey (k : Nat) : SlotRef := ⟨k / 16, k % 16⟩

/-- A write to a per-partition register has reached core c (R120). -/
def PCsrUpd.reached (u : PCsrUpd) (c : Nat) : Bool := u.core == c || u.seen.any fun n => Config.coin n c
/-- A write on its way is slot n's to g register k. -/
def GWrite.of (k n : Nat) (w : GWrite) : Bool := w.reg == k && w.slot == n

namespace State

/-- The slot named. -/
def slotAt (s : State) (r : SlotRef) : Slot := Sparse.get Slot.init s.slots (slotKey r)
/-- Change a slot. -/
def modSlot (s : State) (r : SlotRef) (f : Slot → Slot) : State :=
  { s with slots := Sparse.modify Slot.init (slotKey r) f s.slots }
/-- The slot whose instruction is running. -/
def here (s : State) : Slot := s.slotAt s.cur
/-- Change the running slot. -/
def modHere (s : State) (f : Slot → Slot) : State := s.modSlot s.cur f
/-- The core named. -/
def coreAt (s : State) (c : Nat) : Core := Sparse.get Core.init s.cores c
/-- Change a core. -/
def modCore (s : State) (c : Nat) (f : Core → Core) : State :=
  { s with cores := Sparse.modify Core.init c f s.cores }
/-- A partition's share of a core. -/
def cpAt (s : State) (c p : Nat) : CorePart := Sparse.get CorePart.init s.coreParts (c * 4 + p)
/-- Change a partition's share of a core. -/
def modCp (s : State) (c p : Nat) (f : CorePart → CorePart) : State :=
  { s with coreParts := Sparse.modify CorePart.init (c * 4 + p) f s.coreParts }
/-- The cluster named. -/
def clusterAt (s : State) (k : Nat) : Cluster := Sparse.get Cluster.init s.clusters k
/-- Change a cluster. -/
def modCluster (s : State) (k : Nat) (f : Cluster → Cluster) : State :=
  { s with clusters := Sparse.modify Cluster.init k f s.clusters }
/-- The die named. -/
def dieAt (s : State) (d : Nat) : Die := Sparse.get Die.init s.dies d
/-- The dies' clocks run: powered and not frozen (R359, R365). -/
def live (s : State) (d : Nat) : Bool := decide (d < 4) && s.serac.power == .on && !(s.dieAt d).frozen
/-- Change a die. -/
def modDie (s : State) (d : Nat) (f : Die → Die) : State :=
  { s with dies := Sparse.modify Die.init d f s.dies }
/-- The partition named, if it exists. -/
def part? (s : State) (p : Nat) : Option Partition := Sparse.get? s.parts p
/-- Change a partition that exists. -/
def modPart (s : State) (p : Nat) (f : Partition → Partition) : State :=
  { s with parts := s.parts.map fun e => if e.1 = p then (e.1, f e.2) else e }
/-- The scope named. -/
def scopeAt (s : State) (p n : Nat) : Fscope := Sparse.get Fscope.init s.scopes (p * 256 + n)
/-- The queue named. -/
def queueAt (s : State) (q : Nat) : Queue := Sparse.get Queue.init s.queues q
/-- Change a sibling group that exists. -/
def modGroup (s : State) (n : Nat) (f : Group → Group) : State :=
  { s with groups := s.groups.map fun e => if e.1 = n then (e.1, f e.2) else e }
/-- Change a queue. -/
def modQueue (s : State) (q : Nat) (f : Queue → Queue) : State :=
  { s with queues := Sparse.modify Queue.init q f s.queues }

/-- The partition that owns a slot number (R41). -/
def ownerOf (s : State) (slot : Nat) : Option Nat :=
  [0, 1, 2, 3].find? fun p => match s.part? p with
    | some P => P.cfg.slotMask.getLsbD slot
    | none => false
/-- The partition of the running slot. -/
def herePart (s : State) : Nat := (s.ownerOf s.cur.slot).getD 0
/-- The partition of a slot. -/
def partOf (s : State) (r : SlotRef) : Nat := (s.ownerOf r.slot).getD 0
/-- How many slot numbers a partition owns. -/
def slotCount (s : State) (p : Nat) : Nat :=
  match s.part? p with
  | some P => popcount 16 P.cfg.slotMask
  | none => 0
/-- The Varve generation of a partition (R144). -/
def gen (s : State) (p : Nat) : BitVec 12 :=
  match s.part? p with
  | some P => P.varve
  | none => 0
/-- The cycle of the die a core stands on. -/
def cycleOf (s : State) (c : Nat) : Nat := (s.dieAt (coreDie c)).cycle
/-- Scratchpad size of a partition on each core (R41). -/
def padSize (s : State) (p : Nat) : Nat :=
  match s.part? p with
  | some P => popcount 64 P.cfg.spMask * (if s.serac.split512 then 8192 else 16384)
  | none => 0

/-- A per-partition special register as core c sees it: a write reaches its own core at once, the others one by one (R120). -/
def pcsr (s : State) (p c : Nat) (r : PCsr) : Word :=
  match s.part? p with
  | none => 0
  | some P =>
    match (P.upds.filter fun u => u.reg = r && u.reached c).getLast? with
    | some u => u.val
    | none => match r with
      | .tvec => P.tvec
      | .ptbase => P.ptbase
      | .spbase => P.spbase

/-! ## Registers (R76, R79, R94, R97) -/

/-- Scalar register field f of a slot: s0 reads zero and full (R97). A g register that the slot itself has written reads as
written, also while the write is on its way; the other slots read it as it was until the write lands (R94). -/
def sreg (s : State) (r : SlotRef) (f : Nat) : Reg 64 :=
  if f = 0 then Reg.zero 64
  else if f < 32 then Sparse.get (Reg.zero 64) (s.slotAt r).sregs f
  else
    let cp := s.cpAt r.core (s.partOf r)
    match cp.gwrites.find? (GWrite.of (f - 32) r.slot) with
    | some w => w.val
    | none => Sparse.get (Reg.zero 64) cp.gregs (f - 32)
/-- Vector register f of a slot. -/
def vreg (s : State) (r : SlotRef) (f : Nat) : Reg 2048 := Sparse.get (Reg.zero 2048) (s.slotAt r).vregs f
/-- Change scalar register field f; s0 never changes. -/
def modS (s : State) (r : SlotRef) (f : Nat) (g : Reg 64 → Reg 64) : State :=
  if f = 0 then s
  else if f < 32 then s.modSlot r fun sl => { sl with sregs := Sparse.modify (Reg.zero 64) f g sl.sregs }
  else
    let x := g (s.sreg r f)
    s.modCp r.core (s.partOf r) fun cp => { cp with
      gregs := Sparse.set (f - 32) x cp.gregs, gwrites := cp.gwrites.filter fun w => !w.of (f - 32) r.slot }
/-- Change vector register f. -/
def modV (s : State) (r : SlotRef) (f : Nat) (g : Reg 2048 → Reg 2048) : State :=
  s.modSlot r fun sl => { sl with vregs := Sparse.modify (Reg.zero 2048) f g sl.vregs }

/-- Value of a scalar source of the running slot. -/
def rd (s : State) (f : SField) : Word := (s.sreg s.cur f.val).val
/-- Value of a vector source of the running slot. -/
def rdv (s : State) (f : VField) : VWord := (s.vreg s.cur f.val).val
/-- Value of a mask register of the running slot; m0 reads all ones (R97). -/
def rdm (s : State) (f : MField) : MWord := if f.val = 0 then allOnes256 else Sparse.get 0 s.here.mregs f.val

/-- A register of a slot is full. -/
def isFull (s : State) (r : SlotRef) : Dest → Bool
  | .none => true
  | .s f => (s.sreg r f).full
  | .v f => (s.vreg r f).full
/-- A slot parked on empty registers examines its sources again once all that its instruction waits for are full (R79,
R93). -/
def wakeOne (s : State) (r : SlotRef) : State :=
  match (s.slotAt r).run with
  | .parked (.operand on) => if on.all (s.isFull r) then s.modSlot r fun sl => { sl with run := .active } else s
  | _ => s
/-- Register f of a slot has become full: its readers wake; a g register's are all the partition's slots of the core. -/
def wakeReaders (s : State) (r : SlotRef) (f : Nat) : State :=
  if f < 32 then s.wakeOne r
  else (List.range 16).foldl (fun s i => if s.ownerOf i = s.ownerOf r.slot then s.wakeOne ⟨r.core, i⟩ else s) s
/-- A register result of an instruction: an s register is written at once; a write to a g register sets out, and drops from
its issue on the delivery that the register still awaited (R91, R94; log 79). -/
def putReg (s : State) (r : SlotRef) (f : Nat) (x : Reg 64) : State :=
  if f < 32 then s.modS r f fun _ => x
  else s.modCp r.core (s.partOf r) fun cp => { cp with
    gregs := Sparse.modify (Reg.zero 64) (f - 32) (fun y => { y with await := none }) cp.gregs
    gwrites := (cp.gwrites.filter fun w => !w.of (f - 32) r.slot) ++ [⟨f - 32, r.slot, x⟩] }
/-- The oldest write on its way to g register k of a partition on a core lands, and the slots that wait for it wake (R94,
R96). -/
def landG (s : State) (c p k : Nat) : State :=
  match (s.cpAt c p).gwrites.find? fun w => w.reg == k with
  | none => s
  | some w =>
    (s.modCp c p fun cp => { cp with
      gregs := Sparse.set k w.val cp.gregs, gwrites := cp.gwrites.erase w }).wakeReaders ⟨c, w.slot⟩ (32 + k)
/-- Land, in issue order, every write of list `ws` whose slot's interval is over, and those before it to the same register
(R91, R96). -/
def landOver (c p : Nat) (over_ : Nat → Bool) : List GWrite → State → State
  | [], s => s
  | w :: t, s => landOver c p over_ t (if (w :: t).any fun x => x.reg == w.reg && over_ x.slot then s.landG c p w.reg else s)
/-- Wr(f, v): write, set full, drop any mark and any pending delivery (R91, R94, R311). -/
def wrAt (s : State) (r : SlotRef) (f : Nat) (v : Word) : State := s.putReg r f ⟨v, true, .none, none, false⟩
/-- Wr for the running slot. -/
def wr (s : State) (f : SField) (v : Word) : State := s.wrAt s.cur f.val v
/-- Write a vector register of the running slot. -/
def wrv (s : State) (f : VField) (v : VWord) : State := s.modV s.cur f.val fun _ => ⟨v, true, .none, none, false⟩
/-- Write a mask register of the running slot; writes to m0 are discarded (R97). -/
def wrm (s : State) (f : MField) (v : MWord) : State :=
  if f.val = 0 then s else s.modHere fun sl => { sl with
    mregs := Sparse.set f.val v sl.mregs, mparity := sl.mparity.filter fun k => k != f.val }

/-- SetEmpty for a consumed source: the value is kept (R7, R79). -/
def consumeS (s : State) (r : SlotRef) (f : Nat) : State := s.modS r f fun x => { x with full := false }
/-- SetEmpty for a consumed vector source. -/
def consumeV (s : State) (r : SlotRef) (f : Nat) : State := s.modV r f fun x => { x with full := false }
/-- SetEmpty of a long-latency destination: it now waits for delivery `id` and for no other, and of a g register no write that
issued before it lands any more (R79, R94). -/
def await (s : State) (r : SlotRef) (d : Dest) (id : Nat) : State :=
  match d with
  | .none => s
  | .s f =>
    let s := s.modS r f fun x => { x with full := false, await := some id }
    if f < 32 then s
    else s.modCp r.core (s.partOf r) fun cp => { cp with gwrites := cp.gwrites.filter fun w => w.reg != f - 32 }
  | .v f => s.modV r f fun x => { x with full := false, await := some id }
/-- The delivery that a scalar register waits for: of a g register, as its core's bank has it (R94). -/
def awaitOf (s : State) (r : SlotRef) (f : Nat) : Option Nat :=
  if f < 32 then (s.sreg r f).await
  else (Sparse.get (Reg.zero 64) (s.cpAt r.core (s.partOf r)).gregs (f - 32)).await
/-- Fill(d, v): a completion delivery. It is discarded, and changes nothing, unless `id` is still the delivery the register waits
for (R94). -/
def fillReg (s : State) (r : SlotRef) (d : Dest) (id : Nat) (v : Nat) (m : Mark) : State :=
  match d with
  | .none => s
  | .s f => if s.awaitOf r f = some id then (s.modS r f fun _ => ⟨BitVec.ofNat 64 v, true, m, none, false⟩).wakeReaders r f else s
  | .v f => if (s.vreg r f).await = some id then (s.modV r f fun _ => ⟨BitVec.ofNat 2048 v, true, m, none, false⟩).wakeOne r else s

/-- A fresh operation number. -/
def fresh (s : State) : Nat × State := (s.nextId, { s with nextId := s.nextId + 1 })
/-- A long-latency destination of the running slot whose value is known at issue: it is emptied, and then filled (R79, R94,
R311). -/
def giveNow (s : State) (f : SField) (v : Word) (m : Mark) : State :=
  let (id, s) := s.fresh
  (s.await s.cur (.s f.val) id).fillReg s.cur (.s f.val) id v.toNat m
/-- A free choice below n, which is not 0 (log 82). -/
def choose (s : State) (n : Nat) : Nat × State := (Config.pick s.draws % n, { s with draws := s.draws + 1 })
/-- A choice below n that is none where there is only one thing to choose. -/
def chooseOf (s : State) (n : Nat) : Nat × State := if n ≤ 1 then (0, s) else s.choose n

/-! ## Outstanding operations -/

/-- An outstanding operation of a slot. -/
def pendAt (s : State) (o : OpRef) : Option Pend := (s.slotAt ⟨o.core, o.slot⟩).pend.find? fun p => p.id = o.id
/-- Change an outstanding operation. -/
def modPend (s : State) (o : OpRef) (f : Pend → Pend) : State :=
  s.modSlot ⟨o.core, o.slot⟩ fun sl => { sl with pend := sl.pend.map fun p => if p.id = o.id then f p else p }
/-- A spilled task's operation keeps its miss-queue entry: a STSY not yet applied, a BARW whose arrival is pending (R95, R179,
R262). -/
def mqStays (q : Pend) : Bool :=
  q.mq && q.res.isNone && (match q.kind with
    | .bank _ _ .stsy _ | .barw _ _ => true
    | _ => false)
/-- Miss-queue entries a partition holds on a core, for tasks that are gone from it by a spill too (R95). -/
def mqUsed (s : State) (c p : Nat) : Nat :=
  (List.range 16).foldl (fun n i =>
    if s.ownerOf i = some p then n + ((s.slotAt ⟨c, i⟩).pend.filter fun q => q.mq).length else n)
    ((s.spilled.filter fun x => x.live && x.core == c && x.task.part == p).flatMap fun x => x.ops.filter mqStays).length
/-- The partition's miss-queue share on a core is full (R95). -/
def mqFull (s : State) : Bool := decide (16 * s.slotCount s.herePart ≤ s.mqUsed s.cur.core s.herePart)
/-- The slots of a slot's partition on its core that are stalled for an entry retry once one is returned (R95). -/
def wakeMq (s : State) (r : SlotRef) : State :=
  (List.range 16).foldl (fun s i =>
    if (s.slotAt ⟨r.core, i⟩).run = .stalled .missQueue ∧ s.ownerOf i = s.ownerOf r.slot then
      s.modSlot ⟨r.core, i⟩ fun sl => { sl with run := .active }
    else s) s
/-- Drop an operation from its slot and return its miss-queue entry. -/
def dropPend (s : State) (o : OpRef) : State :=
  let s := s.modSlot ⟨o.core, o.slot⟩ fun sl => { sl with pend := sl.pend.filter fun p => p.id != o.id }
  s.wakeMq ⟨o.core, o.slot⟩

/-- Apply a change to every listed slot. -/
def mapSlots (s : State) (f : SlotRef → Slot → Slot) : State :=
  { s with slots := Sparse.mapVal (fun k sl => f (refOfKey k) sl) s.slots }

/-- References of every listed slot. -/
def slotRefs (s : State) : List SlotRef := s.slots.map fun e => refOfKey e.1

end State

/-- Hops between two stops, with a die crossing counted as none (R149). -/
def hopsXY (x₁ y₁ x₂ y₂ : Nat) : Nat := ((x₁ : Int) - x₂).natAbs + ((y₁ : Int) - y₂).natAbs

end Sys2Proof.Machine
end

