-- ==== Sys2Proof/Machine/Mem.lean ====
section
/-! DEFINITION. Memory: HBM, L2 homes, dies' dirty and clean copies, pushes between dies, poison, scratchpads, and the entries of
page tables (R134 to R148, R153 to R163, R326). -/
namespace Sys2Proof.Machine

/-! ## HBM -/

/-- One byte of memory. -/
def Memory.get : Memory → Nat → Byte
  | [], _ => Memory.fill
  | (a, b) :: t, k => if a = k then b else Memory.get t k
/-- Insert a byte at an address the list does not hold, in order. -/
def Memory.ins (k : Nat) (v : Byte) : Memory → Memory
  | [] => [(k, v)]
  | (a, b) :: t => if k < a then (k, v) :: (a, b) :: t else (a, b) :: Memory.ins k v t
/-- Memory without an address. -/
def Memory.del (k : Nat) (m : Memory) : Memory := m.filter fun c => c.1 != k
/-- Write one byte, keeping the canonical form. -/
def Memory.set (m : Memory) (k : Nat) (v : Byte) : Memory :=
  if v = Memory.fill then Memory.del k m else Memory.ins k v (Memory.del k m)

/-! ## Keys of lines, sectors and bytes (R144, R146) -/

/-- Key of a line, sector or byte number x under a tag, for a home: each home of one frame is coherent on its own (R146). -/
def lineKey (x tag home : Nat) : Nat := (x * 8 + tag) * 4 + home
/-- The number in a key. -/
def keyNum (k : Nat) : Nat := k / 32
/-- The tag in a key. -/
def keyTag (k : Nat) : Nat := k / 4 % 8
/-- The home in a key. -/
def keyHome (k : Nat) : Nat := k % 4
/-- The key of the sector, or of the line, that holds a byte's key: numbers divided by n. -/
def keyDiv (n k : Nat) : Nat := lineKey (keyNum k / n) (keyTag k) (keyHome k)
/-- Pointwise maximum of two causality vectors (R162). -/
def vecMax (a b : List Nat) : List Nat := a.mapIdx fun i x => max x (b.getD i 0)

namespace State

/-! ## The home of a byte (R144, R146) -/

/-- The Varve generation that lines under a tag must carry; that of SHR lines never changes (R144). -/
def lineGen (s : State) (tag : Nat) : BitVec 12 := if tag = 4 then 0 else s.gen tag
/-- The sector that a home's L2 holds because it has been written there, unless it is stale. -/
def l2Sec? (s : State) (tag home sec : Nat) : Option L2Sector :=
  (Sparse.get? s.l2 (lineKey sec tag home)).filter fun x => x.gen == s.lineGen tag
/-- A byte of such a sector. -/
def l2At (s : State) (tag home pa : Nat) : Option L2Byte :=
  (s.l2Sec? tag home (pa / 128)).bind fun x => x.bytes[pa % 128]?
/-- A byte of HBM with who wrote it. -/
def hbmAt (s : State) (pa : Nat) : L2Byte :=
  { (Sparse.get? s.hbmBy pa).getD ⟨0, 0, 0, 0, [], false⟩ with val := s.hbm.get pa }
/-- A byte at its home with who wrote it: of the sector that its L2 holds, else of HBM (R146). -/
def markAt (s : State) (tag home pa : Nat) : L2Byte := (s.l2At tag home pa).getD (s.hbmAt pa)
/-- The value at a home. -/
def lineByte (s : State) (tag home pa : Nat) : Byte :=
  match s.l2At tag home pa with
  | some b => b.val
  | none => s.hbm.get pa
/-- The home whose L2 holds a partition's byte as written there, for a reader that comes without a mapping: the device and the page
walker; where none does, the home of a page that is not HOMED (log 33). -/
def byteHome (s : State) (p pa : Nat) : Nat := ([0, 1, 2, 3].find? fun h => (s.l2At p h pa).isSome).getD (homeOf pa)
/-- A byte as the device and the page walker read it for a partition. -/
def homeByte (s : State) (p pa : Nat) : Byte := s.lineByte p (s.byteHome p pa) pa
/-- n such bytes, as a number. -/
def homeNat (s : State) (p pa n : Nat) : Nat := natOfBytes ((List.range n).map fun i => s.homeByte p (pa + i))
/-- Add or remove a number of a list without repeats. -/
def mark (k : Nat) (on : Bool) (l : List Nat) : List Nat :=
  let rest := l.filter fun x => x != k
  if on then k :: rest else rest
/-- A sector as its home's L2 holds it, or as a write there brings it in from HBM (R145, R146). -/
def sectorAt (s : State) (tag home sec : Nat) : L2Sector :=
  ⟨s.lineGen tag, (List.range 128).map fun i => s.markAt tag home (sec * 128 + i)⟩
/-- A sector as its home gives it is poisoned: in the L2 that holds it, else there or in HBM (R326). -/
def homeBad (s : State) (tag home sec : Nat) : Bool :=
  s.l2bad.contains (lineKey sec tag home) || ((s.l2Sec? tag home sec).isNone && s.poison.contains sec)
/-- Write a byte at its home, whose L2 then holds the sector, poisoned if it was so (R326). -/
def putHome (s : State) (tag home pa : Nat) (b : L2Byte) : State :=
  let sec := pa / 128
  let key := lineKey sec tag home
  let x := s.sectorAt tag home sec
  { s with
    l2 := Sparse.set key { x with bytes := x.bytes.set (pa % 128) b } s.l2
    l2bad := if s.homeBad tag home sec then mark key true s.l2bad else s.l2bad }
/-- Write a byte at its home; `pdie`, `pnum` name the push that carries it (0 for none), `vec` is its writer's vector. -/
def lineWrite (s : State) (tag home pa : Nat) (v : Byte) (pdie pnum : Nat) (vec : List Nat) : State :=
  s.putHome tag home pa ⟨v, s.lineGen tag, pdie, pnum, vec, false⟩
/-- Write bytes at their home for an agent of die d. -/
def lineWrites (s : State) (d tag home pa : Nat) : List Byte → State
  | [] => s
  | b :: t => (s.lineWrite tag home pa b 0 0 (s.dieAt d).vec).lineWrites d tag home (pa + 1) t
/-- A write performed at system scope by the device or a peer: it reaches HBM, and every L2 that holds the sector for the
partition (R169). -/
def devWrites (s : State) (p pa : Nat) : List Byte → State
  | [] => s
  | v :: t =>
    ({ s with
      hbm := s.hbm.set pa v, hbmBy := Sparse.erase pa s.hbmBy
      l2 := Sparse.mapVal (fun k x => if keyNum k = pa / 128 ∧ keyTag k = p then
        { x with bytes := x.bytes.set (pa % 128) ⟨v, x.gen, 0, 0, [], false⟩ } else x) s.l2 } : State).devWrites p (pa + 1) t

/-! ## What a die sees (R161 to R163) -/

/-- A die takes note of what it learns by reading a byte: the push that wrote it at once, and what a release that the byte may
be brings to the die's next acquire (R162). -/
def observe (s : State) (d : Nat) (b : L2Byte) : State :=
  s.modDie d fun D => { D with
    vec := D.vec.mapIdx fun i x => if i = b.pdie then max x b.pnum else x, relVec := vecMax D.relVec b.vec }
/-- A die reads n bytes at their home. -/
def observeAt (s : State) (d tag home pa n : Nat) : State :=
  (List.range n).foldl (fun s i => s.observe d (s.markAt tag home (pa + i))) s
/-- What a byte at its home was before the push that wrote it, where die d has not observed that push: since order between dies is
causal only, the die may still read it so (R162; log 85). -/
def shadowOf (s : State) (d tag home pa : Nat) (b : L2Byte) : Option L2Byte :=
  if b.pnum = 0 ∨ b.pdie = d ∨ b.pnum ≤ (s.dieAt d).vec.getD b.pdie 0 then none
  else (s.shadows.find? fun x => x.die == b.pdie && x.num == b.pnum && x.tag == tag && x.home == home).bind fun x =>
    Sparse.get? x.bytes pa
/-- A byte as it was up to `n` such pushes ago. -/
def shadowBack (s : State) (d tag home pa : Nat) : Nat → L2Byte → L2Byte
  | 0, b => b
  | n + 1, b => match s.shadowOf d tag home pa b with
    | some x => s.shadowBack d tag home pa n x
    | none => b
/-- How many pushes back a die may read a sector: a free choice where there are any that it has not observed (log 85). -/
def shadowPick (s : State) (d tag home sec : Nat) : Nat × State :=
  let any_ := (List.range 128).any fun i => (s.shadowOf d tag home (sec * 128 + i) (s.markAt tag home (sec * 128 + i))).isSome
  if any_ then s.choose (s.shadows.length + 1) else (0, s)
/-- Fetch a sector of a remote-homed line into a die's L2 as a clean copy. -/
def fetchSector (s : State) (d tag home sec : Nat) : State :=
  let (n, s) := s.shadowPick d tag home sec
  let bs := (List.range 128).map fun i => s.shadowBack d tag home (sec * 128 + i) n (s.markAt tag home (sec * 128 + i))
  let key := lineKey sec tag home
  (bs.foldl (fun s b => s.observe d b) s).modDie d fun D => { D with
    copies := Sparse.set key (bs.map fun b => b.val) D.copies
    badCopies := mark key (s.homeBad tag home sec) D.badCopies }
/-- A byte as die d reads it: at its own home; else its own dirty byte, else its clean copy. -/
def dieByte (s : State) (d tag pa home : Nat) : Byte :=
  if home = d then s.lineByte tag home pa
  else match Sparse.get? (s.dieAt d).dirty (lineKey pa tag home) with
    | some b => b.val
    | none => match Sparse.get? (s.dieAt d).copies (lineKey (pa / 128) tag home) with
      | some bs => bs.getD (pa % 128) 0
      | none => s.lineByte tag home pa
/-- Drop die d's clean copy of the sector of pa. -/
def dropCopy (s : State) (d tag home pa : Nat) : State :=
  let key := lineKey (pa / 128) tag home
  s.modDie d fun D => { D with copies := Sparse.erase key D.copies, badCopies := mark key false D.badCopies }
/-- Drop every clean copy of a remote-homed line in die d (R163). -/
def dropCopies (s : State) (d : Nat) : State := s.modDie d fun D => { D with copies := [], badCopies := [] }
/-- A sector as die d reads it is poisoned: what it has written there, or its copy, or the home's where the die holds no copy and
has not written all of it by one store (R326). -/
def dieBad (s : State) (d tag home sec : Nat) : Bool :=
  let key := lineKey sec tag home
  let D := s.dieAt d
  if home = d then s.homeBad tag home sec
  else D.badDirty.contains key || D.badCopies.contains key
    || ((Sparse.get? D.copies key).isNone && !D.whole.contains key && s.homeBad tag home sec)

/-! ## A sector that an engine writes is seen whole (R154) -/

/-- Two places lie in one 128-byte sector. -/
def sameSector (a b : Loc) : Bool :=
  match a, b with
  | .paged x h t, .paged y h' t' => x / 128 == y / 128 && h == h' && t == t'
  | .pad c x, .pad c' y => c == c' && x / 128 == y / 128
  | _, _ => false
/-- A load that has read a piece in the sector of a place reads all its pieces anew. -/
def unreadPend (l : Loc) (q : Pend) : Pend :=
  match q.kind with
  | .load gs _ =>
    if q.res.isNone && q.got.any fun e => gs[e.1]?.any fun g => sameSector g.loc l then { q with got := [], bad := false, early := none }
    else q
  | _ => q
/-- An engine has written in the sector of a place, for partition p where that is a scratchpad's: no load of a die that `sel` picks
has read some of its pieces before and reads others after (R154). -/
def unread (s : State) (sel : Nat → Bool) (p : Nat) (l : Loc) : State :=
  s.mapSlots fun r sl =>
    let mine := match l with
      | .paged _ _ _ => true
      | .pad _ _ => s.partOf r == p
    if sel (coreDie r.core) && mine then { sl with pend := sl.pend.map (unreadPend l) } else sl
/-- The bytes of a sector as die d now has them hold some that an engine wrote. -/
def engSectorAt (s : State) (tag home sec : Nat) : Bool :=
  (List.range 128).any fun i => (s.markAt tag home (sec * 128 + i)).eng
/-- An engine of die d has written n bytes from pa at their home: the bytes say so. -/
def engMark (s : State) (tag home pa n : Nat) : State :=
  (List.range n).foldl (fun s i => s.putHome tag home (pa + i) { s.markAt tag home (pa + i) with eng := true }) s

/-- Bring the sector of a remote-homed byte into the die unless a clean copy may serve (R163); an access that allocates no L2
line reads the home and leaves no copy (R145). -/
def touch (s : State) (d tag pa home : Nat) (refetch alloc : Bool) : State :=
  let key := lineKey (pa / 128) tag home
  if home = d then s
  else if refetch || (Sparse.get? (s.dieAt d).copies key).isNone then
    let s := if s.engSectorAt tag home (pa / 128) then s.unread (fun x => x == d) 0 (.paged pa home tag) else s
    if alloc then s.fetchSector d tag home (pa / 128)
    else (s.observeAt d tag home (pa / 128 * 128) 128).dropCopy d tag home pa
  else s
/-- A write by an agent of die d: at the home when the line is homed there, else dirty in die d's L2 until a push; a sector that is
poisoned for the die stays so (R326). -/
def dieWrite (s : State) (d tag pa home : Nat) (v : Byte) : State :=
  if home = d then s.lineWrite tag home pa v 0 0 (s.dieAt d).vec
  else
    let bad := s.dieBad d tag home (pa / 128)
    s.modDie d fun D => { D with
      dirty := Sparse.set (lineKey pa tag home) ⟨v, s.lineGen tag, home, 0, [], false⟩ D.dirty
      badDirty := if bad then mark (lineKey (pa / 128) tag home) true D.badDirty else D.badDirty }

/-! ## Pushes (R162) -/

/-- Dirty bytes of a die that no push carries yet and whose keys `sel` picks. -/
def unpushed (s : State) (d : Nat) (sel : Nat → Bool) : List (Nat × L2Byte) :=
  (s.dieAt d).dirty.filter fun e => e.2.pnum == 0 && sel e.1
/-- Send die d's dirty bytes that `sel` picks for partition p and home h as one push (R162). -/
def pushOne (s : State) (d p h : Nat) (alloc : Bool) (sel : Nat → Bool) : State :=
  let bs := (s.unpushed d sel).filter fun e => keyTag e.1 == p && keyHome e.1 == h && e.2.gen == s.gen p
  if bs.isEmpty then s
  else
    let num := (s.dieAt d).pushes + 1
    let vec := listSet (s.dieAt d).vec d num
    let secs := (bs.map fun e => keyDiv 128 e.1).eraseDups
    let of := fun (l : List Nat) => (secs.filter l.contains).map keyNum
    let eng := ((bs.filter fun e => e.2.eng).map fun e => keyNum e.1 / 128).eraseDups
    let s := s.modDie d fun D => { D with
      pushes := num, vec := vec
      dirty := D.dirty.map fun e => if bs.any fun b => b.1 == e.1 then (e.1, { e.2 with pnum := num }) else e }
    { s with inflight := s.inflight ++
        [⟨d, num, p, s.gen p, h, bs.map fun e => (keyNum e.1, e.2.val), (s.dieAt d).vec, of (s.dieAt d).badDirty, of (s.dieAt d).whole,
          eng, alloc⟩] }
/-- Push every dirty remote-homed byte of die d whose key `sel` picks (R162); `alloc` says whether the homes' L2s take lines for
them (R145). -/
def pushAs (s : State) (d : Nat) (alloc : Bool) (sel : Nat → Bool) : State :=
  [0, 1, 2, 3].foldl (fun s p => [0, 1, 2, 3].foldl (fun s h => s.pushOne d p h alloc sel) s) s
/-- The same with lines for them. -/
def pushSel (s : State) (d : Nat) (sel : Nat → Bool) : State := s.pushAs d true sel
/-- Push all of die d's dirty remote-homed bytes. -/
def pushAll (s : State) (d : Nat) : State := s.pushSel d fun _ => true
/-- Nothing that die d has performed for another home is still on its way: it holds no dirty remote-homed byte, none of its
pushes is under way and every RED it has accepted is applied. -/
def pushedOut (s : State) (d : Nat) : Bool :=
  !((s.dieAt d).dirty.any fun e => e.2.gen == s.lineGen (keyTag e.1)) && !(s.inflight.any fun q => q.die == d)
    && (s.dieAt d).reds.isEmpty
/-- A push may be applied: its home has applied every push to it that the sender had observed (R162). -/
def pushReady (s : State) (q : Push) : Bool :=
  s.inflight.all fun r => (r.die == q.die && r.num == q.num) || r.home != q.home || decide (q.vec.getD r.die 0 < r.num)
    || (r.die == q.die && decide (q.num ≤ r.num))
/-- The sectors of a push. -/
def pushSectors (q : Push) : List Nat := (q.bytes.map fun e => e.1 / 128).eraseDups
/-- What the bytes of a push are at its home before it (R162). -/
def shadowFor (s : State) (q : Push) : Shadow :=
  ⟨q.die, q.num, q.part, q.home, q.bytes.map fun e => (e.1, s.markAt q.part q.home e.1)⟩
/-- A push that every die has observed, or is at home with, needs no shadow any more. -/
def shadowOver (s : State) (x : Shadow) : Bool :=
  [0, 1, 2, 3].all fun d => d == x.die || d == x.home || decide (x.num ≤ (s.dieAt d).vec.getD x.die 0)
/-- A push's bytes go into the home's L2; a sector that it brings poisoned becomes so, one that a store had written whole is sound
(R326). -/
def pushHome (s : State) (q : Push) : State :=
  let s := { s with shadows := (s.shadows.filter fun x => !s.shadowOver x) ++ [s.shadowFor q] }
  let s := q.bytes.foldl (fun s e =>
    s.putHome q.part q.home e.1 ⟨e.2, s.lineGen q.part, q.die, q.num, q.vec, q.eng.contains (e.1 / 128)⟩) s
  let s := (pushSectors q).foldl (fun (s : State) k =>
    if q.bad.contains k then { s with l2bad := mark (lineKey k q.part q.home) true s.l2bad }
    else if q.whole.contains k then { s with l2bad := mark (lineKey k q.part q.home) false s.l2bad }
    else s) s
  q.eng.foldl (fun s k => s.unread (fun d => d != q.die) 0 (.paged (k * 128) q.home q.part)) s
/-- The pushing die after its push is applied: the bytes are dirty there no more, and its copy of their sectors has them. -/
def pushedDie (q : Push) (D : Die) : Die :=
  let dirty := D.dirty.filter fun e => !(e.2.pnum == q.num)
  let left := fun (k : Nat) => dirty.any fun e => keyDiv 128 e.1 == k
  let mine := fun (k : Nat) => keyTag k == q.part && keyHome k == q.home
  { D with
    dirty := dirty
    badDirty := D.badDirty.filter left
    whole := D.whole.filter left
    badCopies := (D.badCopies.filter fun k => !(mine k && q.whole.contains (keyNum k)))
      ++ (D.copies.map fun c => c.1).filter fun k => mine k && q.bad.contains (keyNum k) && !D.badCopies.contains k
    copies := D.copies.map fun c => (c.1, if mine c.1 then
      c.2.mapIdx fun i b => match q.bytes.find? fun e => e.1 = keyNum c.1 * 128 + i with
        | some e => e.2
        | none => b else c.2) }
/-- Apply a push at its home (R162); a push of a reset partition's old generation writes nothing (R144). -/
def applyPush (s : State) (q : Push) : State :=
  let s := { s with inflight := s.inflight.filter fun r => !(r.die == q.die && r.num == q.num) }
  let s := if q.gen = s.gen q.part then s.pushHome q else s
  s.modDie q.die (pushedDie q)

/-! ## Poison (R326) -/

/-- Poison or heal a sector as die d holds it. -/
def diePoison (s : State) (d tag home sec : Nat) (on : Bool) : State :=
  let key := lineKey sec tag home
  if home = d then { s with l2bad := mark key on s.l2bad }
  else s.modDie d fun D =>
    if on && (D.dirty.any fun e => keyDiv 128 e.1 == key) then { D with badDirty := mark key true D.badDirty }
    else if on then { D with badCopies := mark key true D.badCopies }
    else { D with badDirty := mark key false D.badDirty, badCopies := mark key false D.badCopies, whole := mark key true D.whole }
/-- One store of die d has written a sector whole: it is sound (R326). -/
def healSector (s : State) (d tag home sec : Nat) : State :=
  if home = d && !s.homeBad tag home sec then s else s.diePoison d tag home sec false
/-- A write of [pa, pa + n) by die d heals the sectors it covers wholly. -/
def dieHeal (s : State) (d tag home pa n : Nat) : State :=
  (List.range (n / 128 + 1)).foldl (fun s i =>
    let k := pa / 128 + i
    if pa ≤ k * 128 ∧ k * 128 + 128 ≤ pa + n then s.healSector d tag home k else s) s
/-- The sector of a byte is poisoned for the device, which reads it for a partition. -/
def poisonedAt (s : State) (p pa : Nat) : Bool := s.homeBad p (s.byteHome p pa) (pa / 128)
/-- A write of [pa, pa + n) by the device heals the sectors it covers wholly. -/
def unpoison (s : State) (p pa n : Nat) : State :=
  let whole := fun (k : Nat) => decide (pa ≤ k * 128) && decide (k * 128 + 128 ≤ pa + n)
  { s with poison := s.poison.filter fun k => !whole k, l2bad := s.l2bad.filter fun x => !(keyTag x == p && whole (keyNum x)) }

/-! ## REDs under way (R161, R194) -/

/-- A RED waits for the home of bytes [pa, pa + n) of a sector. -/
def RedReq.at_ (q : RedReq) (tag home sec : Nat) : Bool :=
  match q.loc with
  | .paged x h t => x / 128 == sec && h == home && t == tag
  | .pad _ _ => false
/-- Die d has accepted REDs to a sector that its remote home has not applied: the sector is in state U (R161). -/
def inU (s : State) (d tag home sec : Nat) : Bool := (s.dieAt d).reds.any fun q => RedReq.at_ q tag home sec

/-! ## Dies that an access needs (R359) -/

/-- The die whose HBM stacks hold a physical address (R146). -/
def hbmDie (pa : Nat) : Nat := field pa 37 2
/-- The dies that must run for a sector to be read at its home: the home, and that of its HBM where the home's L2 does not hold the
sector; requests to a frozen die wait (R359). -/
def homeDies (s : State) (tag home sec : Nat) : List Nat :=
  let held := ((Sparse.get? (s.dieAt home).l2lines (lineKey (sec / 4) tag home)).any fun l => l.secs.contains (sec % 4))
    || (s.l2Sec? tag home sec).isSome
  if held then [home] else [home, hbmDie (sec * 128)]
/-- A sector can be read at its home. -/
def homeLive (s : State) (tag home sec : Nat) : Bool := (s.homeDies tag home sec).all s.live
/-- The sectors of a run of bytes. -/
def sectorsOf (x n : Nat) : List Nat := (List.range ((x + n + 127) / 128 - x / 128)).map fun i => x / 128 + i
/-- The dies that hold n bytes of a partition from pa, as the device finds them, all run (R359). -/
def devLive (s : State) (p pa n : Nat) : Bool := (sectorsOf pa n).all fun k => s.homeLive p (s.byteHome p (k * 128)) k
/-- A sector of remote-homed memory that die d can read without its home: it holds a copy, or has written all of it. -/
def ownHolds (s : State) (d tag home sec : Nat) (refetch : Bool) : Bool :=
  (!refetch && (Sparse.get? (s.dieAt d).copies (lineKey sec tag home)).isSome)
    || (List.range 128).all fun i => (Sparse.get? (s.dieAt d).dirty (lineKey (sec * 128 + i) tag home)).isSome

/-! ## Scratchpads (R141, R144) -/

/-- Word w of a partition's scratchpad on a core; a stale or absent one is zero and empty. -/
def padWord (s : State) (c p w : Nat) : PadWord :=
  match Sparse.get? (s.cpAt c p).pad (w / 64) with
  | some r => if r.gen = s.gen p then Sparse.get ⟨0, false, false⟩ r.words (w % 64) else ⟨0, false, false⟩
  | none => ⟨0, false, false⟩
/-- The row of a scratchpad, made current: the first write to a stale row zeroes the rest (R144). -/
def padRow (s : State) (c p r : Nat) : PadRow :=
  match Sparse.get? (s.cpAt c p).pad r with
  | some x => if x.gen = s.gen p then x else ⟨s.gen p, [], []⟩
  | none => ⟨s.gen p, [], []⟩
/-- Write a scratchpad word. -/
def padSet (s : State) (c p w : Nat) (v : PadWord) : State :=
  let row := s.padRow c p (w / 64)
  s.modCp c p fun cp => { cp with pad := Sparse.set (w / 64) { row with words := Sparse.set (w % 64) v row.words } cp.pad }
/-- A byte of a scratchpad. -/
def padByte (s : State) (c p off : Nat) : Byte :=
  BitVec.ofNat 8 (field (s.padWord c p (off / 8)).val.toNat (8 * (off % 8)) 8)
/-- Write a byte of a scratchpad, leaving the full/empty bit (R141). -/
def padSetByte (s : State) (c p off : Nat) (v : Byte) : State :=
  let w := s.padWord c p (off / 8)
  s.padSet c p (off / 8) { w with val := BitVec.ofNat 64 (setField w.val.toNat (8 * (off % 8)) 8 v.toNat) }
/-- Write bytes of a scratchpad. -/
def padSetBytes (s : State) (c p off : Nat) : List Byte → State
  | [] => s
  | b :: t => (s.padSetByte c p off b).padSetBytes c p (off + 1) t
/-- A scratchpad sector of 128 bytes is poisoned. -/
def padPoisoned (s : State) (c p off : Nat) : Bool := (s.padRow c p (off / 512)).poison.contains (off % 512 / 128)
/-- Mark or clear the poison of scratchpad sector `sec`. -/
def padPoison (s : State) (c p sec : Nat) (on : Bool) : State :=
  let row := s.padRow c p (sec / 4)
  let rest := row.poison.filter fun k => k != sec % 4
  s.modCp c p fun cp => { cp with pad := Sparse.set (sec / 4) { row with poison := if on then sec % 4 :: rest else rest } cp.pad }
/-- A write of [off, off + n) clears the poison of the scratchpad sectors it covers wholly. -/
def padUnpoison (s : State) (c p off n : Nat) : State :=
  (List.range (n / 128 + 1)).foldl (fun s i =>
    let k := off / 128 + i
    if off ≤ k * 128 ∧ k * 128 + 128 ≤ off + n ∧ s.padPoisoned c p (k * 128) then s.padPoison c p k false else s) s

/-! ## Accesses to segments -/

/-- A place's sector becomes poisoned, or sound, as die d holds it for partition p. -/
def poisonLoc (s : State) (d p : Nat) (l : Loc) (on : Bool) : State :=
  match l with
  | .paged pa home tag => if on then s.diePoison d tag home (pa / 128) true else s.healSector d tag home (pa / 128)
  | .pad c off => s.padPoison c p (off / 128) on

/-- Home bytes and scratchpad bytes alike: one byte at a place as die d sees it for partition p. -/
def locByte (s : State) (d p : Nat) : Loc → Nat → Byte
  | .paged pa home tag, i => s.dieByte d tag (pa + i) home
  | .pad c off, i => s.padByte c p (off + i)
/-- Bytes of segments, in order, as die d sees them. -/
def segBytes (s : State) (d p : Nat) : List Seg → List Byte
  | [] => []
  | g :: t => ((List.range g.len).map fun i => s.locByte d p g.loc i) ++ s.segBytes d p t
/-- Die d takes note of what it learns by reading the bytes of segments homed on it (R162). -/
def observeSegs (s : State) (d : Nat) (gs : List Seg) : State :=
  gs.foldl (fun s g => match g.loc with
    | .paged pa home tag => if home = d then s.observeAt d tag home pa g.len else s
    | .pad _ _ => s) s
/-- Make the sectors of segments present in the die before a read. -/
def touchSegs (s : State) (d : Nat) (refetch alloc : Bool) (gs : List Seg) : State :=
  gs.foldl (fun s g => match g.loc with
    | .paged pa home tag => (sectorsOf pa g.len).foldl (fun s k => s.touch d tag (k * 128) home refetch alloc) s
    | .pad _ _ => s) s
/-- A segment holds poisoned data, as die d reads it for partition p. -/
def segPoisoned (s : State) (d p : Nat) (g : Seg) : Bool :=
  match g.loc with
  | .paged pa home tag => (sectorsOf pa g.len).any fun k => s.dieBad d tag home k
  | .pad c off => (sectorsOf off g.len).any fun k => s.padPoisoned c p (k * 128)
/-- Segments whose sectors REDs of die d are still on their way to (R161, R194). -/
def segsInU (s : State) (d : Nat) (gs : List Seg) : Bool :=
  gs.any fun g => match g.loc with
    | .paged pa home tag => (sectorsOf pa g.len).any fun k => s.inU d tag home k
    | .pad _ _ => false
/-- The dies that an agent of die d needs to read segments all run (R359). -/
def readLive (s : State) (d : Nat) (refetch : Bool) (gs : List Seg) : Bool :=
  gs.all fun g => match g.loc with
    | .paged pa home tag => (sectorsOf pa g.len).all fun k => (home != d && s.ownHolds d tag home k refetch) || s.homeLive tag home k
    | .pad c _ => s.live (coreDie c)
/-- A place can be written by an agent of die d: a line goes into the die's own L2, a word to its bank. -/
def writeLive (s : State) (d : Nat) (l : Loc) : Bool :=
  match l with
  | .paged _ _ _ => s.live d
  | .pad c _ => s.live (coreDie c)
/-- Write bytes at consecutive addresses by an agent of die d. -/
def dieWrites (s : State) (d tag pa home : Nat) : List Byte → State
  | [] => s
  | b :: t => (s.dieWrite d tag pa home b).dieWrites d tag (pa + 1) home t
/-- Write bytes at a place by an agent of die d. -/
def locWrite (s : State) (d p : Nat) (l : Loc) (bs : List Byte) : State :=
  match l with
  | .paged pa home tag => (s.dieWrites d tag pa home bs).dieHeal d tag home pa bs.length
  | .pad c off => (s.padSetBytes c p off bs).padUnpoison c p off bs.length
/-- Mark n bytes from pa, dirty in a die for another home, as written by an engine. -/
def engDirty (tag home pa n : Nat) (m : Sparse L2Byte) : Sparse L2Byte :=
  (List.range n).foldl (fun m i => match Sparse.get? m (lineKey (pa + i) tag home) with
    | some b => Sparse.set (lineKey (pa + i) tag home) { b with eng := true } m
    | none => m) m
/-- An engine of die d has written bytes at a place: they are marked, and loads see the sector whole (R154). -/
def engNote (s : State) (d p : Nat) (l : Loc) (n : Nat) : State :=
  match l with
  | .paged pa home tag =>
    let s := if home = d then s.engMark tag home pa n
      else s.modDie d fun D => { D with dirty := engDirty tag home pa n D.dirty }
    s.unread (fun x => home == d || x == d) p l
  | .pad _ _ => s.unread (fun _ => true) p l

end State

/-! ## Addresses (R134) -/

/-- What an address names. -/
inductive Where where
  | bad
  | win (core off : Nat)
  | page
  deriving DecidableEq, Repr, Inhabited

/-- Classify a 64-bit virtual address for an agent of core c. -/
def whereIs (c va : Nat) : Where :=
  let top := va >>> 56
  if top ≠ 0 ∧ top ≠ 0xFF then .bad
  else if va >>> 48 = 0xF0 then .win c (va % 2 ^ 48)
  else if va >>> 48 = 0xF1 then
    if field va 20 28 < 1024 then .win (field va 20 28) (va % 2 ^ 20) else .bad
  else if 0xF2 ≤ va >>> 48 ∧ va >>> 48 ≤ 0xFF then .bad
  else .page

/-- Bits [63:57] equal bit 56. -/
def canonical (va : Nat) : Bool := va >>> 56 == 0 || va >>> 56 == 0xFF

/-! ## Page tables (R136, R137) -/

/-- Bit n of an entry. -/
def pteBit (e : Word) (n : Nat) : Bool := e.getLsbD n
/-- PFN of an entry. -/
def ptePfn (e : Word) : Nat := field e.toNat 20 32
/-- FMT of an entry. -/
def pteFmt (e : Word) : Nat := field e.toNat 8 4
/-- The tag that the lines of a leaf's page carry for partition p: SHR pages share one (R144). -/
def pteTag (e : Word) (p : Nat) : Nat := if pteBit e 15 then 4 else p
/-- The L2 home die that a leaf gives the physical address pa (R146). -/
def pteHome (e : Word) (pa : Nat) : Nat := if pteBit e 12 then field e.toNat 13 2 else homeOf pa
/-- A leaf that is a page fault by itself (R137). -/
def pteBad (e : Word) : Bool :=
  !pteBit e 0 || field e.toNat 52 12 != 0 || field e.toNat 16 4 != 0 || (pteBit e 2 && !pteBit e 1)
    || (pteBit e 15 && pteBit e 2) || (field e.toNat 13 2 != 0 && !pteBit e 12)
/-- Why an access through a sound leaf is refused (R137); page faults before access faults before format faults. -/
def pteRefuse (e : Word) (acc : Acc) (user : Bool) : Option (BitVec 8) :=
  if pteBad e then some 6
  else if ptePfn e ≥ 0x00800000 then some 7
  else if user && !pteBit e 4 then some 7
  else match acc with
    | .read => if !pteBit e 1 then some 7 else if pteFmt e ≥ 8 then some 8 else none
    | .plane => if !pteBit e 1 then some 7 else none
    | .write => if !pteBit e 2 then some 7 else if pteFmt e ≥ 8 then some 8 else none
    | .fetch => if !pteBit e 3 || (!user && pteBit e 4) then some 7 else if pteFmt e ≥ 8 then some 8 else none

end Sys2Proof.Machine
end

