-- ==== Sys2Proof/Machine/Cache.lean ====
section
/-! DEFINITION. The lines that caches hold: the L1 data and instruction caches of the cores and the L2 slices, with their sets and
ways, replacement, retention and the directory (R2, R3, R70, R144 to R147, R161). What a byte's value is does not depend on
them; when a line leaves an L2 does. -/
namespace Sys2Proof.Machine

/-- A line with one of its sectors, 0-3, held. -/
def CLine.withSec (l : CLine) (sec : Nat) : CLine := { l with secs := State.mark sec true l.secs }
/-- A line without one of its sectors. -/
def CLine.without (l : CLine) (sec : Nat) : CLine :=
  { l with secs := State.mark sec false l.secs, dirty := State.mark sec false l.dirty, bad := State.mark sec false l.bad }
/-- A line with the sectors `ks` alone. -/
def CLine.only (l : CLine) (ks : List Nat) : CLine :=
  { l with secs := ks, dirty := l.dirty.filter ks.contains, bad := l.bad.filter ks.contains }
/-- A line has taken one replacement round of its set (R145). -/
def CLine.round (l : CLine) : CLine := { l with last := false }
/-- What a cache policy does to a line that is used under it (R82, R145). How the marks of successive uses combine the manual does
not say: a use that is not evict-first clears that mark, and one that is evict-first ends a protection (DESIGN CHOICE, log 84). -/
def CLine.policy (pol : Nat) (l : CLine) : CLine := { l with first := pol == 1, last := pol == 2 || (pol != 1 && l.last) }
/-- The lines of a list that may be replaced: those marked to go first, else those not protected; a retained line only where there
is no other (R145, R147). -/
def victims (ls : List (Nat × CLine)) : List (Nat × CLine) :=
  let free := ls.filter fun e => !e.2.kept
  let firsts := free.filter fun e => e.2.first
  let open_ := free.filter fun e => !e.2.last
  if !firsts.isEmpty then firsts else if !open_.isEmpty then open_ else if !free.isEmpty then free else ls

/-- Change the lines of a cache; a line that is left without sectors is gone. -/
def reLine (f : Nat → CLine → CLine) (m : Sparse CLine) : Sparse CLine := (Sparse.mapVal f m).filter fun e => !e.2.secs.isEmpty
/-- A cache without a sector of a line. -/
def dropSector (key sec : Nat) : Sparse CLine → Sparse CLine := reLine fun k l => if k = key then l.without sec else l
/-- A sector that is dirty in an L1 is written back to its die's L2 and stays clean (R161). -/
def cleanSector (key sec : Nat) (m : Sparse CLine) : Sparse CLine :=
  Sparse.mapVal (fun k l => if k = key then { l with dirty := State.mark sec false l.dirty } else l) m

/-- Directory states of a sector (R161). -/
inductive DirState where
  | m | e | s | i | u
  deriving DecidableEq, Repr, Inhabited

namespace State

/-! ## L1 (R145) and its directory (R161) -/

/-- Sets of an L1 data cache under the SRAM split (R145). -/
def l1Sets (s : State) : Nat := if s.serac.split512 then 192 else 128
/-- Ways of a partition in each L1 (R41). -/
def l1Ways (s : State) (p : Nat) : Nat := ((s.part? p).map fun P => popcount 16 P.cfg.l1Ways).getD 0
/-- Ways of a partition in each L2 slice (R41). -/
def l2Ways (s : State) (p : Nat) : Nat := ((s.part? p).map fun P => popcount 16 P.cfg.l2Ways).getD 0
/-- A line as it is when it is filled for a partition under a policy. -/
def newLine (s : State) (p key pol : Nat) : CLine :=
  CLine.policy pol ⟨p, s.lineGen (keyTag key), [], [], [], false, false, false, false⟩

/-- Change the L1 of every core of die d but core c. -/
def otherL1 (s : State) (d : Nat) (c : Option Nat) (f : Sparse CLine → Sparse CLine) : State :=
  { s with cores := Sparse.mapVal (fun k (C : Core) => if coreDie k = d ∧ c ≠ some k then { C with l1 := f C.l1 } else C) s.cores }

/-- Make room in the set of an L1 that a partition's new line goes to: a line of the partition's ways leaves, its dirty sectors going
to L2; which of those that R145 leaves is a free choice (log 84). -/
def l1Room (s : State) (c p key : Nat) : State :=
  let set := fun (k : Nat) => keyNum k % s.l1Sets
  let mine := (s.coreAt c).l1.filter fun e => e.2.part == p && set e.1 == set key
  if mine.length < s.l1Ways p then s
  else
    let vs := victims mine
    let (n, s) := s.choose vs.length
    let out := (vs.map fun e => e.1).getD n 0
    s.modCore c fun C => { C with l1 := Sparse.mapVal (fun k l => if l.part = p ∧ set k = set key then l.round else l) (Sparse.erase out C.l1) }
/-- Core c uses a sector of a line in its L1 (R145): the line is filled on a miss, unless the policy allocates none there; a write
makes the sector dirty. -/
def l1Use (s : State) (c p pol key sec : Nat) (write : Bool) : State :=
  let use := fun (s : State) (l : CLine) =>
    let l := (l.withSec sec).policy pol
    let l := if write then { l with dirty := State.mark sec true l.dirty, bad := State.mark sec false l.bad } else l
    s.modCore c fun C => { C with l1 := Sparse.set key l C.l1 }
  match Sparse.get? (s.coreAt c).l1 key with
  | some l => use s (if l.gen = s.lineGen (keyTag key) then l else s.newLine p key pol)
  | none => if pol = 3 ∨ s.l1Ways p = 0 then s else let s := s.l1Room c p key; use s (s.newLine p key pol)
/-- What a use of a sector by an agent of die d does to the L1 copies of the others (R161): a read recalls dirty data, a write
or an atomic invalidates. -/
def l1Snoop (s : State) (d : Nat) (c : Option Nat) (key sec : Nat) (write : Bool) : State :=
  s.otherL1 d c (if write then dropSector key sec else cleanSector key sec)
/-- Core c's copy of a sector of a line in its L1 is poisoned, being clean there (R326). -/
def l1Bad (s : State) (c key sec : Nat) : Bool := (Sparse.get? (s.coreAt c).l1 key).any fun l => l.bad.contains sec
/-- A run of bytes lies in such a sector. -/
def l1BadSeg (s : State) (c : Nat) (g : Seg) : Bool :=
  match g.loc with
  | .paged pa home tag => (sectorsOf pa g.len).any fun k => s.l1Bad c (lineKey (k / 4) tag home) (k % 4)
  | .pad _ _ => false
/-- Die d's L2 holds a sector dirty. -/
def l2Dirty (s : State) (d key sec : Nat) : Bool :=
  let k := keyNum key * 4 + sec
  if keyHome key = d then (s.l2Sec? (keyTag key) d k).isSome
  else (s.dieAt d).dirty.any fun e => keyDiv 128 e.1 == lineKey k (keyTag key) (keyHome key)
/-- The directory state of a sector in die d's L2 (R161). -/
def dirState (s : State) (d key sec : Nat) : DirState :=
  let held := fun (C : Core) => (Sparse.get? C.l1 key).filter fun l => l.secs.contains sec
  let ls := (s.cores.filter fun e => coreDie e.1 == d).filterMap fun e => held e.2
  if s.inU d (keyTag key) (keyHome key) (keyNum key * 4 + sec) then .u
  else if (ls.any fun l => l.dirty.contains sec) || s.l2Dirty d key sec then .m
  else match ls.length with
    | 0 => if (Sparse.get? (s.dieAt d).l2lines key).any fun l => l.secs.contains sec then .s else .i
    | 1 => .e
    | _ => .s

/-! ## L2 (R146, R147) -/

/-- The slice and set of a line on its die: slice pa[15:9] XOR pa[22:16] (R146). -/
def l2SetOf (key : Nat) : Nat :=
  let line := keyNum key
  (line % 128 ^^^ line / 128 % 128) * 128 + Config.l2Set line % 128
/-- Lines of a partition in the set of a key. -/
def l2Mates (s : State) (d p key : Nat) : List (Nat × CLine) :=
  (s.dieAt d).l2lines.filter fun e => e.2.part == p && l2SetOf e.1 == l2SetOf key
/-- Half ways that lines take: a line that compresses takes one, another two (R146). -/
def halfWays (ls : List (Nat × CLine)) : Nat := ls.foldl (fun n e => n + if e.2.half then 1 else 2) 0
/-- Line x lies in a retention range: the byte range from `a` of `b` bytes whose pages have the frames `fr` (R190). -/
def inRange (x : Nat) (rg : Nat × Nat × List Nat) : Bool :=
  let (a, b, fr) := rg
  (List.range fr.length).any fun i =>
    fr.getD i 0 == x / 128 && decide (a ≤ (a / 65536 + i) * 65536 + x % 128 * 512)
      && decide ((a / 65536 + i) * 65536 + x % 128 * 512 < a + b)
/-- A line lies in some retention range of a partition. -/
def pinned (s : State) (p key : Nat) : Bool :=
  ((s.part? p).map fun P => P.pins.any fun e => inRange (keyNum key) e.2).getD false
/-- A set may take one more retained line of the partition: never more than its ways less one (R147). -/
def mayKeep (s : State) (d p key : Nat) : Bool :=
  decide (((s.l2Mates d p key).filter fun e => e.2.kept && e.1 != key).length + 1 < s.l2Ways p)
/-- The retained lines of a partition after its ranges have changed (R147, R190): lines out of range are so no more, lines held that
are in range become so as long as their set may take them. -/
def reKeep (s : State) (p : Nat) : State :=
  [0, 1, 2, 3].foldl (fun (s : State) d =>
    let put := fun (s : State) (k : Nat) (b : Bool) => s.modDie d fun D => { D with
      l2lines := Sparse.mapVal (fun k' l => if k' = k then { l with kept := b } else l) D.l2lines }
    let mine := (s.dieAt d).l2lines.filter fun e => e.2.part == p
    let s := mine.foldl (fun (s : State) e => if s.pinned p e.1 then s else put s e.1 false) s
    mine.foldl (fun (s : State) e => if s.pinned p e.1 && s.mayKeep d p e.1 then put s e.1 true else s) s) s
/-- A line may leave die d's L2: a retained one only when no unretained line of its partition's ways is in the set (R147). -/
def mayEvict (s : State) (d key : Nat) : Bool :=
  match Sparse.get? (s.dieAt d).l2lines key with
  | some l => !l.kept || (s.l2Mates d l.part key).all fun e => e.2.kept
  | none => true

/-- The sectors of a line that its home's L2 holds dirty. -/
def heldSecs (s : State) (key : Nat) : List Nat :=
  ((List.range 4).map fun i => keyNum key * 4 + i).filter fun k => (s.l2Sec? (keyTag key) (keyHome key) k).isSome
/-- Those sectors' bytes, by address. -/
def heldBytes (s : State) (key : Nat) : List (Nat × L2Byte) :=
  (s.heldSecs key).flatMap fun k => (List.range 128).map fun i => (k * 128 + i, s.markAt (keyTag key) (keyHome key) (k * 128 + i))
/-- What HBM keeps of who wrote a byte: nothing where nobody did. -/
def keepBy (m : Sparse L2Byte) (e : Nat × L2Byte) : Sparse L2Byte :=
  if e.2.pnum = 0 ∧ e.2.vec = [] ∧ !e.2.eng then Sparse.erase e.1 m else Sparse.set e.1 e.2 m
/-- Write the sectors of a line that its home's L2 holds dirty back to HBM whole, with who wrote their bytes (R146, R162) and whether
they are poisoned (R326). -/
def writeBack (s : State) (key : Nat) : State :=
  let bs := s.heldBytes key
  { s with
    l2 := s.l2.filter fun e => keyDiv 4 e.1 != key
    hbm := bs.foldl (fun m e => Memory.set m e.1 e.2.val) s.hbm
    hbmBy := bs.foldl keepBy s.hbmBy
    poison := (s.heldSecs key).foldl (fun l k => mark k (s.l2bad.contains (lineKey k (keyTag key) (keyHome key))) l) s.poison
    l2bad := s.l2bad.filter fun k => keyDiv 4 k != key }
/-- A line leaves die d's L2 (R144, R146, R162): its L1 copies go with it; at its home its dirty bytes go to HBM; of a remote-homed
line the dirty bytes are pushed and the clean copies are dropped. -/
def evictLine (s : State) (d key : Nat) : State :=
  let s := s.otherL1 d none (Sparse.erase key)
  let s := if keyHome key = d then s.writeBack key
    else (s.pushSel d fun k => keyDiv 512 k == key).modDie d fun D => { D with
      copies := D.copies.filter fun e => keyDiv 4 e.1 != key
      badCopies := D.badCopies.filter fun k => keyDiv 4 k != key }
  s.modDie d fun D => { D with l2lines := Sparse.erase key D.l2lines }

/-- Lines leave a set of die d's L2 until a new one of `need` half ways fits in the partition's ways; which of those that R145 and
R147 leave is a free choice (log 84); `fuel` is how many may have to go. -/
def l2Room (d p key need : Nat) : Nat → State → State
  | 0, s => s
  | fuel + 1, s =>
    let mine := s.l2Mates d p key
    if halfWays mine + need ≤ 2 * s.l2Ways p then s
    else
      let vs := victims mine
      let (n, s) := s.choose vs.length
      let s := s.evictLine d ((vs.map fun e => e.1).getD n 0)
      l2Room d p key need fuel (s.modDie d fun D => { D with
        l2lines := Sparse.mapVal (fun k l => if l.part = p ∧ l2SetOf k = l2SetOf key then l.round else l) D.l2lines })
/-- Half ways less one that a partition's new line takes: a line compresses, which is a free choice, only where the partition has
accepted L2COMP (R146, R354; log 84). -/
def l2Half (s : State) (p : Nat) : Nat × State :=
  if (s.part? p).any fun P => P.features.getLsbD 5 then s.choose 2 else (1, s)
/-- Die d's L2 takes or uses a sector of a line for a partition; with policy 4 it allocates none (R145, R146). -/
def l2Use (s : State) (d p pol key sec : Nat) : State :=
  let use := fun (s : State) (l : CLine) =>
    s.modDie d fun D => { D with l2lines := Sparse.set key ((l.withSec sec).policy pol) D.l2lines }
  match (Sparse.get? (s.dieAt d).l2lines key).filter fun l => l.gen == s.lineGen (keyTag key) with
  | some l => use s l
  | none =>
    if pol = 4 ∨ s.l2Ways p = 0 then s
    else
      let (n, s) := s.l2Half p
      let s := l2Room d p key (n + 1) ((s.l2Mates d p key).length + 1) s
      use s { s.newLine p key pol with half := n == 0, kept := s.pinned p key && s.mayKeep d p key }

/-! ## Accesses -/

/-- An agent of die d, core `c` if one, reads or writes a sector for partition p: the L1 copies of the other cores give way, and the
caches on its way hold the sector. -/
def cacheUse (s : State) (d p : Nat) (c : Option Nat) (pol key sec : Nat) (write : Bool) : State :=
  let s := s.l1Snoop d c key sec write
  let s := s.l2Use d p pol key sec
  let s := if keyHome key = d then s else s.l2Use (keyHome key) p (if pol = 4 then 4 else 0) key sec
  match c with
  | some c => s.l1Use c p pol key sec write
  | none => s
/-- The same for every sector of segments. -/
def cacheSegs (s : State) (d p : Nat) (c : Option Nat) (pol : Nat) (write : Bool) (gs : List Seg) : State :=
  gs.foldl (fun s g => match g.loc with
    | .paged pa home tag => (sectorsOf pa g.len).foldl (fun s k => s.cacheUse d p c pol (lineKey (k / 4) tag home) (k % 4) write) s
    | .pad _ _ => s) s
/-- Dirty data of a place's line that die d's L2 has not allocated does not stay in it: it goes to HBM at its home, and else on to its
home, which allocates no line for it either (R145). -/
def settle (s : State) (d : Nat) (l : Loc) : State :=
  match l with
  | .paged pa home tag =>
    let key := lineKey (pa / 512) tag home
    if (Sparse.get? (s.dieAt d).l2lines key).isSome then s
    else if home = d then s.writeBack key
    else s.pushAs d false fun k => keyDiv 512 k == key
  | .pad _ _ => s
/-- Every line in the ways of a partition leaves the caches. -/
def evictPart (s : State) (p : Nat) : State :=
  let s := [0, 1, 2, 3].foldl (fun (s : State) d =>
    ((s.dieAt d).l2lines.filter fun e => e.2.part == p).foldl (fun (s : State) e => s.evictLine d e.1) s) s
  { s with cores := Sparse.mapVal (fun _ (C : Core) => { C with
      l1 := C.l1.filter fun e => e.2.part != p, icache := C.icache.filter fun e => e.2.part != p }) s.cores }
/-- An atomic at a home by an agent of die d: no L1 copy of the sector stays in either die (R161, R191). -/
def cacheAtomic (s : State) (d p : Nat) (l : Loc) : State :=
  match l with
  | .paged pa home tag =>
    let key := lineKey (pa / 512) tag home
    ((s.l1Snoop d none key (pa / 128 % 4) true).l1Snoop home none key (pa / 128 % 4) true).l2Use home p 0 key (pa / 128 % 4)
  | .pad _ _ => s
/-- An acquire at package scope by core c drops the clean remote-homed sectors of its L1 (R163). -/
def l1Acquire (s : State) (c : Nat) : State :=
  s.modCore c fun C => { C with l1 := reLine (fun k l => if keyHome k = coreDie c then l else l.only l.dirty) C.l1 }
/-- The sectors of a core's L1 line that `go` picks, by whether they are dirty, are dropped (R189). -/
def l1Drop (s : State) (c key : Nat) (go : Bool → Bool) : State :=
  let cut := fun (l : CLine) => l.only (l.secs.filter fun i => !go (l.dirty.contains i))
  s.modCore c fun C => { C with l1 := reLine (fun k l => if k = key then cut l else l) C.l1 }

/-! ## Instruction caches (R70) -/

/-- Lines of a set of an instruction cache: 64 KiB in 8 ways of 512-byte lines (R70); the set is taken as in the L1 data cache
(PRESUMED, log 84). -/
def icacheSet (key : Nat) : Nat := keyNum key % 16
/-- A core's instruction cache holds a sector for a partition, filled in the present generation. -/
def icacheHas (s : State) (c : Nat) (l : Loc) : Bool :=
  match l with
  | .paged pa home tag =>
    (Sparse.get? (s.coreAt c).icache (lineKey (pa / 512) tag home)).any fun x =>
      x.gen == s.lineGen tag && x.secs.contains (pa / 128 % 4)
  | .pad _ _ => false
/-- A core's instruction cache takes a sector; in a full set another line goes, of which R70 says nothing more (log 84). -/
def icachePut (s : State) (c p : Nat) (l : Loc) : State :=
  match l with
  | .paged pa home tag =>
    let key := lineKey (pa / 512) tag home
    let put := fun (s : State) (x : CLine) => s.modCore c fun C => { C with icache := Sparse.set key (x.withSec (pa / 128 % 4)) C.icache }
    match (Sparse.get? (s.coreAt c).icache key).filter fun x => x.gen == s.lineGen tag with
    | some x => put s x
    | none =>
      let mates := (s.coreAt c).icache.filter fun e => icacheSet e.1 == icacheSet key && e.1 != key
      if mates.length < 8 then put s (s.newLine p key 0)
      else
        let (n, s) := s.choose mates.length
        put (s.modCore c fun C => { C with icache := Sparse.erase ((mates.map fun e => e.1).getD n 0) C.icache }) (s.newLine p key 0)
  | .pad _ _ => s

end State
end Sys2Proof.Machine
end

