-- ==== Sys2Proof/Machine/Translate.lean ====
section
/-! DEFINITION. Translation: the page walk, the walker cache, the TLBs of cores and clusters, and checks 4 and 5 of R171 (R134 to R139,
R148, R171). -/
namespace Sys2Proof.Machine

/-- What a walk finds: a fault, or the leaf with its entry's address, the frame of the 64 KiB page, and whether it is one of a
512 MiB page. Cause 0, which no trap has, says that the walk waits for a frozen die (R359). -/
inductive WalkRes where
  | fault (cause : BitVec 8)
  | leaf (pteAddr : Nat) (pte : Word) (pa : Nat) (big : Bool)
  deriving DecidableEq, Repr

/-- Index of an address at a level (R136). -/
def walkIndex (level va : Nat) : Nat :=
  match level with
  | 0 => field va 47 10
  | 1 => field va 38 9
  | 2 => field va 29 9
  | _ => field va 16 13
/-- The address bits that name a table below level 0, for the walker cache. -/
def walkPath (level va : Nat) : Nat :=
  match level with
  | 1 => field va 47 10
  | 2 => field va 38 19
  | _ => field va 29 28

namespace State

/-- Walk from a table at a level; `n` is how many levels remain. Also lists the tables found. -/
def walkFrom (s : State) (p va : Nat) : Nat → Nat → List (Nat × Nat × Nat × Nat) → WalkRes × List (Nat × Nat × Nat × Nat)
  | 0, _, acc => (.fault 6, acc)
  | n + 1, table, acc =>
    let level := 3 - n
    if table ≥ 2 ^ 39 then (.fault 7, acc)
    else
      let at_ := table + 8 * walkIndex level va
      let e := BitVec.ofNat 64 (s.homeNat p at_ 8)
      if !s.homeLive p (s.byteHome p at_) (at_ / 128) then (.fault 0, acc)
      else if !pteBit e 0 then (.fault 6, acc)
      else if field e.toNat 1 3 = 0 then
        if level = 3 ∨ e.toNat ≠ 1 + ptePfn e * 2 ^ 20 then (.fault 6, acc)
        else
          let t := ptePfn e * 65536
          s.walkFrom p va n t ((p, level + 1, walkPath (level + 1) va, t) :: acc)
      else if level < 2 then (.fault 6, acc)
      else if level = 2 then
        if ptePfn e % 0x2000 ≠ 0 then (.fault 6, acc)
        else (.leaf at_ e (ptePfn e * 65536 + field va 16 13 * 65536) true, acc)
      else (.leaf at_ e (ptePfn e * 65536) false, acc)

/-- The deepest table the walker cache of die d holds for an address, with its level. -/
def walkStart (s : State) (d p c va : Nat) : Nat × Nat :=
  let hit := fun lv => (s.dieAt d).walkCache.find? fun e => e.1 == p && e.2.1 == lv && e.2.2.1 == walkPath lv va
  match hit 3 with
  | some e => (3, e.2.2.2)
  | none => match hit 2 with
    | some e => (2, e.2.2.2)
    | none => match hit 1 with
      | some e => (1, e.2.2.2)
      | none => (0, (s.pcsr p c .ptbase).toNat)

/-- A whole walk by die d's walker for an agent of core c: A and, for a write, D are set by an atomic OR at the
entry's home, whose L2 takes the line; upper-level entries of a walk that finds a leaf are cached; a faulting walk caches nothing (R139, R148). -/
def walk (s : State) (d p c va : Nat) (acc : Acc) (user : Bool) : State × (BitVec 8 ⊕ TlbEntry) :=
  let (lv, table) := s.walkStart d p c va
  match s.walkFrom p va (4 - lv) table [] with
  | (.fault f, _) => (s, .inl f)
  | (.leaf at_ e pa big, tables) =>
    match pteRefuse e acc user with
    | some f => (s, .inl f)
    | none =>
      let e' := e ||| (if acc = .write then 0xC0 else 0x40)
      let home := s.byteHome p at_
      let s := if e' = e then s
        else (s.cacheAtomic d p (.paged at_ home p)).lineWrite p home at_ (BitVec.ofNat 8 e'.toNat) 0 0 (s.dieAt d).vec
      (s.modDie d fun D => { D with walkCache := tables ++ D.walkCache }, .inr ⟨p, va / 65536, pa, e', big⟩)

/-- The entry a TLB holds for a page of a partition. -/
def tlbHit (l : List TlbEntry) (p va : Nat) : Option TlbEntry := l.find? fun e => e.part = p && e.page = va / 65536

/-- A held translation serves an access without the walker: D must be set for a write (R139). -/
def tlbServes (e : TlbEntry) (acc : Acc) : Bool := acc != .write || pteBit e.pte 7

/-- Put a translation into a TLB of n entries in place of one for the same page, or of the oldest one when it is full (R148). -/
def tlbPut (n : Nat) (e : TlbEntry) (l : List TlbEntry) : List TlbEntry :=
  (e :: l.filter fun x => !(x.part = e.part && x.page = e.page)).take n
/-- Entries of a core's TLB (R148). -/
def coreTlbSize : Nat := 256
/-- Entries of a cluster's TLB (R148). -/
def clusterTlbSize : Nat := 4096

/-- A translation by a unit of cluster k, or for a core of it: from the cluster TLB, else by a walk (R148). -/
def clusterXl (s : State) (k p c va : Nat) (acc : Acc) (user : Bool) : State × (BitVec 8 ⊕ TlbEntry) :=
  let fresh := fun (_ : Unit) =>
    match s.walk (k / 32) p c va acc user with
    | (s, .inl f) => (s, Sum.inl f)
    | (s, .inr e) => (s.modCluster k fun K => { K with tlb := tlbPut clusterTlbSize e K.tlb }, Sum.inr e)
  match tlbHit (s.clusterAt k).tlb p va with
  | some e =>
    if tlbServes e acc then
      match pteRefuse e.pte acc user with
      | some f => (s, .inl f)
      | none => (s, .inr e)
    else fresh ()
  | none => fresh ()

/-- The place of an address through a leaf. -/
def entryLoc (e : TlbEntry) (va : Nat) : Loc :=
  let pa := e.pa + va % 65536
  .paged pa (pteHome e.pte pa) (pteTag e.pte e.part)
/-- The places of m bytes of a page through its leaf, cut at line boundaries, where the home may change (R146); `fuel` bounds the
lines. -/
def entryCut (e : TlbEntry) : Nat → Nat → Nat → List Seg
  | 0, _, _ => []
  | fuel + 1, va, m =>
    if m = 0 then []
    else
      let k := min m (512 - va % 512)
      ⟨entryLoc e va, k⟩ :: entryCut e fuel (va + k) (m - k)
/-- The places of m bytes of a page through its leaf. -/
def entrySegs (e : TlbEntry) (va m : Nat) : List Seg := entryCut e (m / 512 + 2) va m

end State

/-- What check 5 of R171 gives for an access: its segments, a trap, or a translation to wait for. -/
inductive Xl where
  | ok (segs : List Seg)
  | trap (cause : BitVec 8) (tval : Nat)
  | stall (va : Nat) (acc : Acc)
  deriving DecidableEq, Repr

namespace State

/-- The translation that serves an access of the running slot: one made for its instruction, else its core's TLB's (R148, R190). -/
def hereHit (s : State) (va : Nat) (acc : Acc) : Option TlbEntry :=
  ((tlbHit s.here.walked s.herePart va).filter fun e => tlbServes e acc).or
    ((tlbHit (s.coreAt s.cur.core).tlb s.herePart va).filter fun e => tlbServes e acc)
/-- Check 5 on n bytes from va by the running slot, page by page from the lowest; `fuel` bounds the pages. -/
def xlPages (s : State) (acc : Acc) : Nat → Nat → Nat → Xl
  | 0, _, _ => .ok []
  | fuel + 1, va, n =>
    if n = 0 then .ok []
    else if whereIs s.cur.core va ≠ .page then .trap 7 va
    else
      let m := min n (65536 - va % 65536)
      match s.hereHit va acc with
      | some e =>
        match pteRefuse e.pte acc (!s.here.mode.priv) with
          | some f => .trap f va
          | none => match s.xlPages acc fuel ((va + m) % 2 ^ 64) (n - m) with
            | .ok gs => .ok (entrySegs e va m ++ gs)
            | r => r
      | none => match s.here.walkFault with
        | some (w, f) => if w / 65536 = va / 65536 then .trap f va else .stall va acc
        | none => .stall va acc

/-- Check 5 on n bytes from va. -/
def xl (s : State) (acc : Acc) (va n : Nat) : Xl := s.xlPages acc (n / 65536 + 2) va n

/-- Checks 4 and 5 of R171 on n bytes from va, after check 1. -/
def reach (s : State) (acc : Acc) (va n : Nat) : Xl :=
  match whereIs s.cur.core va with
  | .bad => .trap 7 va
  | .win c off =>
    if off + n ≤ s.padSize s.herePart then .ok [⟨.pad c off, n⟩]
    else .trap 7 (if off < s.padSize s.herePart then va + (s.padSize s.herePart - off) else va)
  | .page => s.xl acc va n

end State
end Sys2Proof.Machine
end

