-- ==== Sys2Proof/Machine/Ops.lean ====
section
/-! DEFINITION. The shared operations of instructions and events: issue and retirement of an instruction, parking and
waking, outstanding operations and their order, fault records, the end of a task, taking a trap and returning from
one, taking a cancellation (R79, R90 to R105, R112, R307 to R324, R332, R335, R342). -/
namespace Sys2Proof.Machine
namespace State

/-! ## Fault records (R314, R315) -/

/-- Physical address of offset `o` of a ring whose base and frames were fixed when it was set (R375). -/
def ringPa (base : Nat) (frames : List Nat) (o : Nat) : Nat :=
  frames.getD ((base % 65536 + o) / 65536) 0 + (base % 65536 + o) % 65536

/-- A record that could not be written is counted in the Serac health counters (R314). -/
def ringDrop (s : State) : State := { s with serac := { s.serac with ringDrops := s.serac.ringDrops + 1 } }

/-- The 64 bytes of a fault record (R315). -/
def recordBytes (s : State) (kind cause input : Nat) (t : Task) (core slot : Nat) (pc value : Word) : List Byte :=
  bytesOfNat 64 (kind % 256 + cause % 256 * 2 ^ 8 + input % 16 * 2 ^ 16 + slot % 16 * 2 ^ 20 + core % 1024 * 2 ^ 24
    + t.scope % 256 * 2 ^ 40 + t.launch % 4096 * 2 ^ 48 + t.ldie % 4 * 2 ^ 60 + t.taskIdx % 2 ^ 32 * 2 ^ 64
    + pc.toNat * 2 ^ 128 + value.toNat * 2 ^ 192 + s.time % 2 ^ 64 * 2 ^ 256)

/-- Physical addresses of a ring's header and of the record that comes next. -/
def ringPlaces (s : State) (p : Nat) (g : FaultRing) : Nat × Nat :=
  let hdr := ringPa g.base g.frames 0
  (hdr, ringPa g.base g.frames (64 + 64 * (s.homeNat p hdr 8 % 2 ^ g.j)))
/-- A fault record is written: PROD, CONS and LOST as one atomic operation, then the record (R314). -/
def ringWrite (s : State) (p : Nat) (bytes : List Byte) : State :=
  match (s.part? p).bind fun P => P.ring with
  | none => s.ringDrop
  | some g =>
    let (hdr, at_) := s.ringPlaces p g
    let prod := s.homeNat p hdr 8
    let cons := s.homeNat p (hdr + 8) 8
    let full := decide (2 ^ g.j ≤ (prod + 2 ^ 64 - cons) % 2 ^ 64)
    if s.poisonedAt p hdr || (!full && s.poisonedAt p at_) then s.ringDrop
    else if full then s.devWrites p (hdr + 16) (bytesOfNat 8 (s.homeNat p (hdr + 16) 8 + 1))
    else (s.devWrites p hdr (bytesOfNat 8 (prod + 1))).devWrites p at_ bytes

end State

/-- The partition of a write of the device that waits. -/
def DevOut.part : DevOut → Nat
  | .fault p _ => p
  | .put p _ _ => p

namespace State

/-- The dies that a write of the device needs all run (R359). -/
def devOutLive (s : State) : DevOut → Bool
  | .fault p _ => match (s.part? p).bind fun P => P.ring with
    | none => true
    | some g => let (hdr, at_) := s.ringPlaces p g; s.devLive p hdr 24 && s.devLive p at_ 64
  | .put p pa bs => s.devLive p pa bs.length
/-- Perform a write of the device. -/
def devOutDo (s : State) : DevOut → State
  | .fault p bs => s.ringWrite p bs
  | .put p pa bs => s.devWrites p pa bs
/-- The device writes: at once, or behind those of the partition that wait for a frozen die, or waiting for one itself (R359). -/
def devSend (s : State) (x : DevOut) : State :=
  if (s.devOut.any fun y => y.part == x.part) || !s.devOutLive x then { s with devOut := s.devOut ++ [x] } else s.devOutDo x
/-- The writes of the device that waited go out in their order; those whose dies are still frozen wait on (R359). -/
def devDrain (s : State) : State :=
  s.devOut.foldl (fun (s : State) x => s.devSend x) { s with devOut := [] }
/-- The device writes a fault record (R314, R315). -/
def faultRecord (s : State) (p kind cause input : Nat) (t : Task) (core slot : Nat) (pc value : Word) : State :=
  s.devSend (.fault p (s.recordBytes kind cause input t core slot pc value))

/-! ## Engine jobs of a slot -/

/-- Change every cluster that is listed. -/
def mapClusters (s : State) (f : Cluster → Cluster) : State :=
  { s with clusters := Sparse.mapVal (fun _ k => f k) s.clusters }

/-- The jobs of a cluster whose tokens are to fill, with where these go: queued, running, draining or discarded. -/
def clusterJobs (k : Cluster) : List (Nat × SlotRef × Dest) :=
  (k.copyQ.map fun j => (j.id, j.ref, j.dest)) ++ (k.copyRun.toList.map fun j => (j.job.id, j.job.ref, j.job.dest))
    ++ (k.mmaQ.map fun j => (j.id, j.ref, j.dest)) ++ ((k.mmaRun.toList ++ k.mmaDone).map fun j => (j.job.id, j.job.ref, j.job.dest))
    ++ (k.gone.map fun j => (j.id, j.ref, j.dest))
/-- Those of the whole package. -/
def allJobs (s : State) : List (Nat × SlotRef × Dest) := s.clusters.flatMap fun e => clusterJobs e.2
/-- Numbers of the copy and matrix jobs of a slot, in whatever cluster (R320). -/
def jobsOf (s : State) (r : SlotRef) : List Nat := (s.allJobs.filter fun j => j.2.1 == r).map fun j => j.1
/-- A job is still somewhere in the package's engines. -/
def jobLives (s : State) (id : Nat) : Bool := s.allJobs.any fun j => j.1 == id

/-- The token of a discarded job, and the fill of a withdrawn wait (R183, R292, R276). -/
def discardFill : Nat := 0x800000000000000F

end State

/-- A spilled task still holds an outstanding operation. -/
def Spilled.holds (x : Spilled) (id : Nat) : Bool := x.live && x.ops.any fun q => q.id == id
/-- A spilled task's record stands for an operation or job. -/
def Spilled.stands (x : Spilled) (id : Nat) : Bool := (x.live && x.entries.any fun e => e.1 == id) || x.holds id

namespace State

/-- The word of a spill's pending-delivery entry while its delivery is awaited, and once it has been filled: R317 gives it no
coding (log 4). -/
def entryOut (num i : Nat) : Nat := (Config.imageWord num (8 + i)).toNat
/-- The same once the entry has been filled, by the mark of what filled it (R311). -/
def entryFilled (num i : Nat) (m : Mark) : Nat :=
  (Config.imageWord num ((match m with
    | .none => 200
    | .faulted => 400
    | .poisoned => 600) + i)).toNat

/-- Slot r has performed a write, or an acquire, or observed an engine's writes: what loads of the other slots in its core or its
cluster have read ahead of an acquire of that scope does not stand (R152, R159). -/
def noteBy (s : State) (r : SlotRef) : State :=
  (s.modCore r.core fun C => { C with wrote := C.wrote + 1 }).modSlot r fun sl => { sl with
    pend := sl.pend.map fun q => { q with early := q.early.map fun e => (e.1, e.2 + 1) } }
/-- An engine of cluster k has performed a write. -/
def noteEngine (s : State) (k : Nat) : State := s.modCluster k fun K => { K with wrote := K.wrote + 1 }
/-- The count of these in a core's cluster, or in the core alone. -/
def wroteIn (s : State) (c : Nat) (cluster : Bool) : Nat :=
  if cluster then
    ((List.range 8).map fun i => (s.coreAt (clusterOf c * 8 + i)).wrote).sum + (s.clusterAt (clusterOf c)).wrote
  else (s.coreAt c).wrote

/-- Fill the token of a job, or its entry in the image of a spilled task (R319). -/
def deliver (s : State) (r : SlotRef) (d : Dest) (id v : Nat) (m : Mark) : State :=
  match s.spilled.find? fun x => x.stands id with
  | some x =>
    let i := x.entries.findIdx fun e => e.1 = id
    let s := if i < x.entries.length then
        s.devSend (.put x.task.part (x.pa + 0x1400 + 16 * i) (bytesOfNat 8 (entryFilled x.num i m) ++ bytesOfNat 8 v))
      else s
    ({ s with spilled := s.spilled.map fun y => if y.num = x.num then
        { y with ops := y.ops.map fun q => if q.id = id then { q with res := some (v, m) } else q } else y } : State).wakeMq r
  | none => (s.fillReg r d id v m).noteBy r

/-- Slots of a partition in a cluster that wait for a place in an engine's queue look again (R95, R283). -/
def wakeEngine (s : State) (k : Nat) : State :=
  { s with slots := Sparse.mapVal (fun key sl =>
      if clusterOf (key / 16) = k && sl.run == .stalled .engineQueue then { sl with run := .active } else sl) s.slots }

/-- Discard every not-yet-started copy and matrix job that `sel` picks (R323, R335); where `fill` says so each token is to fill, once
its release is met (R157, R187, R292). An emptied queue's credit is 0 (R284). -/
def discardWhere (s : State) (sel : SlotRef → Nat → Dest → Bool) (fill : Bool) : State :=
  let cs := s.clusters.flatMap fun e => e.2.copyQ.filter fun j => sel j.ref j.id j.dest
  let ms := s.clusters.flatMap fun e => e.2.mmaQ.filter fun j => sel j.ref j.id j.dest
  if cs.isEmpty && ms.isEmpty then s
  else
    let s := s.mapClusters fun k =>
      let cq := k.copyQ.filter fun j => !sel j.ref j.id j.dest
      let mq := k.mmaQ.filter fun j => !sel j.ref j.id j.dest
      let gone := (k.copyQ.filter fun j => sel j.ref j.id j.dest).map (fun j => (⟨j.id, j.ref, j.dest, j.part, j.scope, true⟩ : GoneJob))
        ++ (k.mmaQ.filter fun j => sel j.ref j.id j.dest).map fun j => ⟨j.id, j.ref, j.dest, j.part, j.scope, false⟩
      { k with
        copyQ := cq, mmaQ := mq, gone := if fill then k.gone ++ gone else k.gone
        copyCredit := k.copyCredit.filter fun e => cq.any fun j => j.part == e.1
        mmaCredit := k.mmaCredit.filter fun e => mq.any fun j => j.part == e.1 }
    s.clusters.foldl (fun s e => s.wakeEngine e.1) s

/-- Discard the not-yet-started jobs of the task in a slot. -/
def discardJobs (s : State) (r : SlotRef) (fill : Bool) : State := s.discardWhere (fun ref _ _ => ref = r) fill

/-- Change where the token of every job goes. -/
def retarget (s : State) (f : Nat → SlotRef → Dest → SlotRef × Dest) : State :=
  let fc := fun (j : CopyJob) => { j with ref := (f j.id j.ref j.dest).1, dest := (f j.id j.ref j.dest).2 }
  let fm := fun (j : MmaJob) => { j with ref := (f j.id j.ref j.dest).1, dest := (f j.id j.ref j.dest).2 }
  let fg := fun (j : GoneJob) => { j with ref := (f j.id j.ref j.dest).1, dest := (f j.id j.ref j.dest).2 }
  s.mapClusters fun k => { k with
    copyQ := k.copyQ.map fc
    copyRun := k.copyRun.map fun x => { x with job := fc x.job }
    mmaQ := k.mmaQ.map fm
    mmaRun := k.mmaRun.map fun x => { x with job := fm x.job }
    mmaDone := k.mmaDone.map fun x => { x with job := fm x.job }
    gone := k.gone.map fg }

/-- The tokens of a slot's jobs are to be discarded when they fill (R124, R342). -/
def orphanJobs (s : State) (r : SlotRef) : State :=
  s.retarget fun _ ref d => if ref = r then (ref, .none) else (ref, d)

/-- The epilogue slot of started jobs has become Free: they fault with cause 18 and their rows are discarded (R291). -/
def epilogueGone (s : State) (r : SlotRef) (p : Nat) : State :=
  let s := s.modCluster (clusterOf r.core) fun k => { k with
    mmaRun := k.mmaRun.map fun x =>
      if x.job.epi && x.job.core == r.core && x.job.part == p && x.job.epislot == r.slot && decide (x.left < x.job.m)
          && x.fault.isNone
      then { x with fault := some 18, fullSince := none } else x }
  s.modCp r.core p fun cp => { cp with epi := cp.epi.filter fun e => e.slot != r.slot }

/-! ## Waits and the event latch -/

/-- The operation a wait stands for. -/
def waitId : Wait → Option Nat
  | .operand _ | .wfe => none
  | .wfet id _ | .ldsy id | .gbar id | .barw id | .tagwait id | .fswait id | .epiw id => some id

/-- Withdraw a parked slot's waiting operation from the unit that holds it (R181, R276, R301). A GBAR that has not yet
entered the network still goes on, as a request without a destination (R245). -/
def withdraw (s : State) (r : SlotRef) (id : Nat) : State :=
  let o : OpRef := ⟨r.core, r.slot, id⟩
  let p := s.partOf r
  let s := match (s.pendAt o).map fun q => q.kind with
    | some (.bank c _ _ _) => s.modCp c p fun cp => { cp with bankQ := cp.bankQ.filter fun b => b.id != id }
    | some (.barw w _) => s.modDie (coreDie r.core) fun D => { D with
        wires := Sparse.mapVal (fun k x => if k = p * 33 + w then { x with arrivals := x.arrivals.filter fun a => !(a.2 = o) } else x) D.wires }
    | some (.firn d _ _ _ _) => s.modDie d fun D => { D with gbars := D.gbars.filter fun g => g.id != id }
    | _ => s
  match s.pendAt o with
  | some q => match q.kind with
    | .firn _ _ _ _ _ => if q.arrived then s.dropPend o else s.modPend o fun q => { q with dest := .none }
    | _ => s.dropPend o
  | none => s

/-- A STSY that waits at its bank (R181). -/
def stsyWaits (q : Pend) : Bool :=
  q.arrived && q.res.isNone && (match q.kind with
    | .bank _ _ .stsy _ => true
    | _ => false)
/-- A STSY of a thread with operations `ops` that waits: at its bank, or behind one that does (R168, R181). -/
def stsyQueued (ops : List Pend) (q : Pend) : Bool :=
  q.res.isNone && (match q.kind with
    | .bank _ _ .stsy _ => q.arrived || (ops.takeWhile fun e => e.id != q.id).any stsyWaits
    | _ => false)
/-- Withdraw a slot's bank requests of some kinds that wait at their banks, and STSYs that wait behind such a one (R181). -/
def withdrawAll (s : State) (r : SlotRef) (sel : BankOp → Bool) : State :=
  let ops := (s.slotAt r).pend
  let ids := ops.filterMap fun q => match q.kind with
    | .bank _ _ op _ => if sel op && ((q.arrived && q.res.isNone) || stsyQueued ops q) then some q.id else none
    | _ => none
  ids.foldl (fun s id => s.withdraw r id) s

/-- The instruction at the slot's PC is complete: go to the next one, with the end-of-body check of R101; a return to
LS is a taken backward branch and so a cancellation point (R112). -/
def advance (s : State) (r : SlotRef) (len : Nat) : State :=
  s.modSlot r fun sl =>
    let nx := sl.pc + BitVec.ofNat 64 len
    if sl.lc ≠ 0 ∧ nx = sl.le ∧ sl.mode.priv = sl.loopMode then
      if 2 ≤ sl.lc.toNat then
        { sl with lc := sl.lc - 1, pc := sl.ls
                  run := if sl.mode.cpend && !sl.mode.priv then .cancelDue sl.ls else .active }
      else { sl with lc := 0, pc := nx, run := .active }
    else { sl with pc := nx, run := .active }

/-- A parked instruction completes: the slot becomes Active after it (R93). A cancellation that reached the slot in the cycle
of the wait's condition is due behind the instruction (R276). -/
def unpark (s : State) (r : SlotRef) : State :=
  let due := (s.slotAt r).cwait.isSome
  let s := s.advance r 8
  if due then s.modSlot r fun sl => { sl with run := .cancelDue sl.pc, cwait := none } else s

/-- A parked WFET ends with a status. -/
def endWfet (s : State) (r : SlotRef) (id status : Nat) : State :=
  let d := ((s.pendAt ⟨r.core, r.slot, id⟩).map fun q => q.dest).getD .none
  ((s.fillReg r d id status .none).dropPend ⟨r.core, r.slot, id⟩).unpark r
/-- Set a slot's event latch; a slot parked in WFE or WFET clears it and continues; a WFET whose limit had run out in an
earlier cycle ends with status 1 first, and the latch stays set (R102, R121, R123). -/
def setLatch (s : State) (r : SlotRef) : State :=
  let set := fun (s : State) => s.modSlot r fun sl => { sl with evt := true }
  match (s.slotAt r).run with
  | .parked .wfe => s.unpark r
  | .parked (.wfet id lim) => if s.cycleOf r.core ≤ lim then s.endWfet r id 0 else set (s.endWfet r id 1)
  | _ => set s

/-! ## The end of a task (R124, R335, R342) -/

/-- A slot stops issuing: deliveries and tokens will be discarded, its parked wait is withdrawn, requests still waiting
at a bank are withdrawn on a kill (R181, R276, R301); `how` says why. -/
def stopSlot (s : State) (r : SlotRef) (how : EndHow) : State :=
  let killed := match how with
    | .exit | .exitc _ _ => false
    | _ => true
  let s := match (s.slotAt r).run with
    | .parked w | .clearing (some w) => match waitId w with
      | some id => s.withdraw r id
      | none => s
    | _ => s
  let s := if killed then (s.withdrawAll r fun op => op == .stsy || op == .ldpk).discardJobs r false else s
  let s := s.orphanJobs r
  s.modSlot r fun sl => { sl with
    run := .ending how, ahead := [], penalty := none, cwait := none, mode := { sl.mode with cpend := false }
    pend := sl.pend.map fun q => { q with dest := .none } }

/-- The task of a slot, or one that stands for none. -/
def taskAt (s : State) (r : SlotRef) : Task := (s.slotAt r).task.getD default

/-- A double trap kills the slot and writes a record of kind 4 (R310). -/
def doubleTrap (s : State) (r : SlotRef) (cause : BitVec 8) (tval : Word) : State :=
  let pc := (s.slotAt r).pc
  (s.faultRecord (s.partOf r) 4 cause.toNat 0 (s.taskAt r) r.core r.slot pc tval).stopSlot r .doubleTrap

/-! ## Traps (R307) -/

/-- TAKING AN EXCEPTION on slot r with EPC its PC: EPC, CAUSE and TVAL saved, supervisor mode entered with NEST set and
the old privilege in PP, the PC at the partition's vector; a trap while NEST is set is a double trap. -/
def trapAt (s : State) (r : SlotRef) (cause : BitVec 8) (tval : Word) : State :=
  if (s.slotAt r).mode.nest then s.doubleTrap r cause tval
  else
    let v := s.pcsr (s.partOf r) r.core .tvec
    s.modSlot r fun sl => { sl with
      run := .active, epc := sl.pc, cause := cause, tval := tval
      mode := { sl.mode with pp := sl.mode.priv, priv := true, nest := true }
      pc := v, ahead := [], walkFault := none, walked := [], cwait := none }
/-- A trap of the running instruction. -/
def trap (s : State) (cause : BitVec 8) (tval : Word) : State := s.trapAt s.cur cause tval

/-! ## Cancellation (R321 to R323) -/

/-- The place in a sibling group of a slot's task. -/
def memberOf (s : State) (r : SlotRef) : Option (Nat × Nat) :=
  match (s.slotAt r).task with
  | some t => if t.member = 255 then none else some (t.sibgrp, t.member)
  | none => none

/-- Taking a cancellation at a point's EPC (R323); an LDPK still waiting is withdrawn for good (R181). -/
def takeCancel (s : State) (r : SlotRef) (epc : Word) : State :=
  let t := s.taskAt r
  let turns := (s.slotAt r).turns
  let s := (s.discardJobs r true).withdrawAll r fun op => op == .ldpk
  let s := s.modGroup t.sibgrp fun g =>
    { g with members := g.members.mapIdx fun i m => if i = t.member then { m with cturns := some turns } else m }
  s.modSlot r fun sl => { sl with
    run := .active, epc := epc, cause := 15, tval := BitVec.ofNat 64 t.sibgrp
    mode := { sl.mode with cpend := false, ctaken := true }
    pc := t.entry + t.handler.signExtend 64, ahead := [], walkFault := none, walked := [] }

/-- A cancellation point of the running slot: a pending cancellation is due there in user mode (R321, R322). -/
def cancelPoint (s : State) (epc : Word) : State :=
  if s.here.mode.cpend && !s.here.mode.priv then s.modHere fun sl => { sl with run := .cancelDue epc } else s

/-! ## Issue (R79, R88, R90) -/

end State

/-- A register source with its modifier (R78); a mask register has none and is always full (R97). -/
inductive Src where
  | s (f : SField) (m : Md)
  | v (f : VField) (m : Md)
  | m (f : MField)
  deriving DecidableEq, Repr

/-- The outcome of an instruction's checks at its turn: none fails, a trap, a stall (R95, R171), or a no-op. -/
inductive Chk where
  | ok
  | trap (cause : BitVec 8) (tval : Word)
  | stall (why : Stall)
  deriving DecidableEq, Repr

namespace State

/-- A source is full. -/
def srcFull (s : State) : Src → Bool
  | .s f _ => (s.sreg s.cur f.val).full
  | .v f _ => (s.vreg s.cur f.val).full
  | .m _ => true
/-- Its delivery mark. -/
def srcMark (s : State) : Src → Mark
  | .s f _ => (s.sreg s.cur f.val).mark
  | .v f _ => (s.vreg s.cur f.val).mark
  | .m _ => .none
/-- Its parity fails. -/
def srcParity (s : State) : Src → Bool
  | .s f _ => (s.sreg s.cur f.val).parity
  | .v f _ => (s.vreg s.cur f.val).parity
  | .m f => s.here.mparity.contains f.val
/-- Its low 64 bits: a register's value as TVAL. -/
def srcVal (s : State) : Src → Word
  | .s f _ => (s.sreg s.cur f.val).val
  | .v f _ => (s.vreg s.cur f.val).val.setWidth 64
  | .m f => (s.rdm f).setWidth 64
/-- Its modifier. -/
def srcMd : Src → Md
  | .s _ m => m
  | .v _ m => m
  | .m _ => .wait
/-- Read with wait or consume. -/
def srcWaits (x : Src) : Bool := srcMd x != .peek

/-- Some source read with wait or consume is empty (R79). -/
def mustPark (s : State) (xs : List Src) : Bool := xs.any fun x => srcWaits x && !s.srcFull x

/-- The trap of a marked source, if any: poisoned or parity-failed first, then faulted with TRAPASYNC; within each the
first source in field order gives TVAL (R312, R326). -/
def markTrap (s : State) (xs : List Src) : Option (BitVec 8 × Word) :=
  match xs.find? fun x => srcWaits x && (s.srcMark x == .poisoned || s.srcParity x) with
  | some x => some (16, if s.srcParity x then 0 else s.srcVal x)
  | none =>
    if s.here.mode.trapAsync then
      (xs.find? fun x => srcWaits x && s.srcMark x == .faulted).map fun x => (17, s.srcVal x)
    else none

/-- A machine check also writes a record of kind 3 (R326). -/
def machineCheck (s : State) (tval : Word) : State :=
  (s.faultRecord s.herePart 3 16 0 (s.taskAt s.cur) s.cur.core s.cur.slot s.here.pc tval).trap 16 tval

/-- Empty the consumed sources (R79). -/
def consume (s : State) (xs : List Src) : State :=
  xs.foldl (fun s x => match x with
    | .s f .consume => s.consumeS s.cur f.val
    | .v f .consume => s.consumeV s.cur f.val
    | _ => s) s

/-- The registers that sources wait for. -/
def waitsOn (xs : List Src) : List Dest :=
  (xs.filter srcWaits).map fun x => match x with
    | .s f _ => .s f.val
    | .v f _ => .v f.val
    | .m _ => .none
/-- Park the running slot until the sources it waits for are all full; the park is a cancellation point (R79, R322). -/
def parkOperand (s : State) (xs : List Src) : State :=
  if s.here.mode.cpend && !s.here.mode.priv then s.modHere fun sl => { sl with run := .cancelDue sl.pc }
  else s.modHere fun sl => { sl with run := .parked (.operand (waitsOn xs)) }

/-- ISSUE of a decoded instruction of the running slot (R79, R88, R90): nothing unless the slot is Active; a
privileged instruction traps in user mode with cause 5; empty sources park the slot; marked sources trap; a check may
trap or stall; then the consumes apply and `body` acts. -/
def issueP (s : State) (privTval : Option Word) (xs : List Src) (chk : State → Chk) (body : State → State) : State :=
  match s.here.run with
  | .active =>
    match privTval with
    | some w => if s.here.mode.priv then go s else s.trap 5 w
    | none => go s
  | _ => s
where
  go (s : State) : State :=
    if s.mustPark xs then s.parkOperand xs
    else match s.markTrap xs with
      | some (16, tv) => s.machineCheck tv
      | some (c, tv) => s.trap c tv
      | none => match chk s with
        | .ok => body (s.consume xs)
        | .trap c tv => s.trap c tv
        | .stall y => s.modHere fun sl => { sl with run := .stalled y }

/-- Issue without privilege or address checks. -/
def issue (s : State) (xs : List Src) (body : State → State) : State := s.issueP none xs (fun _ => .ok) body

/-- The instruction has used its turn: TURNS counts it and its interval runs (R90, R347). -/
def used (s : State) (interval : Nat) : State :=
  let now := s.cycleOf s.cur.core
  (s.modHere fun sl => { sl with turns := sl.turns + 1, interval := some (now + interval), walkFault := none, walked := [] }).modDie
    (coreDie s.cur.core) fun D => { D with lastIssue := now }

/-- Retire: use the turn and go to the next instruction (R91, R101). -/
def retire (s : State) (interval len : Nat) : State := (s.used interval).advance s.cur len

/-- Transfer control to t: a target at or below the PC is a taken backward branch and so a cancellation point (R112);
`penalty` is the cycles of R104 after the interval. -/
def jumpTo (s : State) (t : Word) (penalty : Nat) : State :=
  let back := decide (t.toNat ≤ s.here.pc.toNat)
  let now := s.cycleOf s.cur.core
  let s := s.used 8
  let s := s.modHere fun sl => { sl with
    pc := t, penalty := if penalty = 0 then sl.penalty else some (now + 8 + penalty) }
  if back then s.cancelPoint t else s

/-! ## Outstanding operations (R94, R95, R153 to R160, R367) -/

/-- Issue an outstanding operation of the running slot under a cache policy, with its destination emptied; answers its number
too. -/
def launchPol (s : State) (pol : Nat) (k : OpKind) (d : Dest) (rel acq : Option Scope) (mq : Bool) (va : Word) : Nat × State :=
  let (id, s) := s.fresh
  let s := s.await s.cur d id
  (id, s.modHere fun sl => { sl with pend := sl.pend ++ [⟨id, k, d, rel, acq, mq, false, none, va, pol, [], false, none⟩] })
/-- The same where no policy matters. -/
def launchOp (s : State) (k : OpKind) (d : Dest) (rel acq : Option Scope) (mq : Bool) (va : Word) : Nat × State :=
  s.launchPol 0 k d rel acq mq va

/-- Issue an operation whose result is known already; its delivery is still to come. -/
def launchKnown (s : State) (k : OpKind) (d : Dest) (v : Nat) : State :=
  let (id, s) := s.fresh
  let s := s.await s.cur d id
  s.modHere fun sl => { sl with pend := sl.pend ++ [⟨id, k, d, none, none, false, true, some (v, .none), 0, 0, [], false, none⟩] }

/-- The usual shape: issue an outstanding operation and retire. -/
def sendOp (s : State) (k : OpKind) (d : Dest) (rel acq : Option Scope) (mq : Bool) (va : Word) (len : Nat) : State :=
  (s.launchOp k d rel acq mq va).2.retire 8 len
/-- The same for an access under a cache policy (R82). -/
def sendMem (s : State) (pol : Policy) (k : OpKind) (d : Dest) (mq : Bool) (va : Word) (len : Nat) : State :=
  (s.launchPol pol.val k d none none mq va).2.retire 8 len

end State

/-- Places an operation reads or writes. -/
def opSegs : OpKind → List Seg
  | .load gs _ => gs
  | .store ws => ws.map fun w => ⟨w.1, w.2.length⟩
  | .amo l w _ _ | .red l w _ _ | .cas l w _ _ => [⟨l, if w then 4 else 8⟩]
  | .bank c o .ldfe _ => [⟨.pad c o, 512⟩]
  | .bank c o _ _ => [⟨.pad c o, 8⟩]
  | _ => []

/-- Two segments share a byte. -/
def segOverlap (a b : Seg) : Bool :=
  match a.loc, b.loc with
  | .paged x _ _, .paged y _ _ => decide (x < y + b.len) && decide (y < x + a.len)
  | .pad c x, .pad d y => c == d && decide (x < y + b.len) && decide (y < x + a.len)
  | _, _ => false

/-- An operation writes: memory, or as a read-modify-write a counter context (R167). -/
def opWrites : OpKind → Bool
  | .store _ | .amo _ _ _ _ | .cas _ _ _ _ | .red _ _ _ _ => true
  | .firn _ _ op _ _ => op != .fpeek
  | .fcfg _ _ _ => true
  | .bank _ _ op _ => op == .stsy || op == .stfl || op == .stem
  | _ => false

/-- A pair of requests that one unit takes in program order: one Firn context, one tag key, one bank core (R367). -/
def sameUnit : OpKind → OpKind → Bool
  | .firn d x _ _ _, .firn e y _ _ _ => d == e && x == y
  | .firn d x _ _ _, .fcfg e y _ => d == e && x == y
  | .fcfg d x _, .firn e y _ _ _ => d == e && x == y
  | .fcfg d x _, .fcfg e y _ => d == e && x == y
  | .tag k _ _, .tag l _ _ => k == l
  | .bank c _ op _, .bank d _ op' _ => c == d && (op == .stsy || op == .stfl) && (op' == .stsy || op' == .stfl)
  | _, _ => false

/-- The operations that the orders of R157, R158 and R160 speak of: memory operations and requests, not engine jobs
(which are no `Pend`), events, translations or the generator. -/
def opOrders : OpKind → Bool
  | .spdz | .wfet | .epiw | .sev _ _ | .calving _ _ _ _ | .tlbinv _ _ => false
  | _ => true

/-- What a FENCE.acq waits for: loads, AMOs, requests and, like any fence, a STSY that is queued; not stores, reductions, STFL and
STEM, or a FENCE.rel (R160, R195). -/
def fenceAcqWaits : OpKind → Bool
  | .store _ | .red _ _ _ _ | .fence 2 | .bank _ _ .stfl _ | .bank _ _ .stem _ => false
  | _ => true
/-- Earlier operation `e` holds back later operation `p` of the same thread (R153, R157, R158, R160, R367), where acquires and
releases of a scope that `void` names order nothing. A fence is kind 0 FENCE, 1 FENCE.acq, 2 FENCE.rel, 3 FENCE.sc; its scope
stands in its annotations. -/
def holdsUnder (void : Scope → Bool) (e p : Pend) : Bool :=
  let real := fun (sc : Option Scope) => sc.any fun x => !void x
  e.res.isNone && opOrders e.kind && (
    (opSegs e.kind).any (fun a => (opSegs p.kind).any fun b => segOverlap a b)
    || (sameUnit e.kind p.kind && (!e.arrived || (match e.kind with
      | .bank _ _ _ _ => true
      | _ => false)))
    || (match e.kind with
      | .fence 2 => real e.rel && (opWrites p.kind || p.rel.isSome)
      | _ => real e.acq)
    || (match p.kind with
      | .fence 1 => real p.acq && fenceAcqWaits e.kind
      | .bank _ _ _ _ => p.rel.isSome
      | _ => real p.rel))
/-- The same with all of them in force. -/
def holdsBack (e p : Pend) : Bool := holdsUnder (fun _ => false) e p

namespace State

/-- The dies whose units an operation's request goes to; those of a load's or a store's pieces are asked piece by piece. -/
def opDies (s : State) (k : OpKind) : List Nat :=
  match k with
  | .amo l _ _ _ | .cas l _ _ _ => match l with
    | .paged pa home tag => s.homeDies tag home (pa / 128)
    | .pad c _ => [coreDie c]
  | .bank c _ _ _ | .sev c _ | .calving _ c _ _ => [coreDie c]
  | .firn d _ _ _ _ | .fcfg d _ _ => [d]
  | .tag key _ _ => if tagWide key then [0, 1, 2, 3] else [tagHome key]
  | .tlbinv _ _ => [0, 1, 2, 3]
  | .fsopen _ _ | .fsclose _ | .fswait _ | .gpost _ | .gstat => [0]
  | _ => []
/-- The clocks run on the die that issued an operation and on those its request goes to; else the request waits (R359). -/
def opLive (s : State) (o : OpRef) (k : OpKind) : Bool := s.live (coreDie o.core) && (s.opDies k).all s.live
/-- No other agent is in core scope, or in cluster scope, of slot r: an acquire or a release of that scope then pairs with none and
orders nothing (R152). A cluster's engines are agents while they have jobs. -/
def alone (s : State) (r : SlotRef) (sc : Scope) : Bool :=
  let none_ := fun (in_ : Nat → Bool) => s.slots.all fun e => e.1 == slotKey r || e.2.run == .free || !in_ (e.1 / 16)
  match sc with
  | .core => none_ fun c => c == r.core
  | .clu => (none_ fun c => clusterOf c == clusterOf r.core) && (clusterJobs (s.clusterAt (clusterOf r.core))).isEmpty
  | _ => false
/-- The operations of a slot before one of them, in program order. -/
def before (s : State) (o : OpRef) : List Pend := (s.slotAt ⟨o.core, o.slot⟩).pend.takeWhile fun e => e.id != o.id
/-- Every earlier operation of the slot lets the operation be sent. -/
def mayGo (s : State) (o : OpRef) : Bool :=
  match s.pendAt o with
  | none => false
  | some p => (s.before o).all fun e => !holdsUnder (s.alone ⟨o.core, o.slot⟩) e p
/-- An operation that is sent has passed earlier ones that an annotation would have had it wait for if another agent had been in its
scope: none comes there before they are done (R152). -/
def noteLoose (s : State) (o : OpRef) : State :=
  match s.pendAt o with
  | none => s
  | some p =>
    let ids := ((s.before o).filter fun e => holdsBack e p).map fun e => e.id
    if ids.isEmpty then s
    else s.modSlot ⟨o.core, o.slot⟩ fun sl => { sl with
      loose := ((sl.loose.filter fun i => sl.pend.any fun q => q.id == i) ++ ids).eraseDups }
/-- Some slot of a core's cluster has passed an operation that is still outstanding. -/
def looseIn (s : State) (c : Nat) : Bool :=
  s.slots.any fun e => clusterOf (e.1 / 16) == clusterOf c && e.2.pend.any fun q => e.2.loose.contains q.id

/-- An earlier operation `e` holds back a later load only as an acquire, or a fence that is one, at cluster or core scope: it orders
nothing against agents outside that scope (R152). -/
def narrowHold (e p : Pend) : Bool :=
  (e.acq == some .clu || e.acq == some .core) && !((opSegs e.kind).any fun a => (opSegs p.kind).any fun b => segOverlap a b)
/-- A load may read ahead of acquires of narrow scope, which alone hold it back (R152): whether one of them is of cluster scope. -/
def mayEarly (s : State) (o : OpRef) : Option Bool :=
  match s.pendAt o with
  | none => none
  | some p =>
    let holds := (s.before o).filter fun e => holdsBack e p
    if p.rel.isNone && (match p.kind with
      | .load _ _ => true
      | _ => false) && holds.all (fun e => narrowHold e p) then some (holds.any fun e => e.acq == some .clu)
    else none

/-- A release at package or system scope needs its die's pushes applied; a FENCE.sc also every push its die has
observed (R162, R164). -/
def releaseMet (s : State) (d : Nat) (rel : Option Scope) (sc : Bool) : Bool :=
  match rel with
  | some .pkg | some .sys =>
    s.pushedOut d && (!sc || s.inflight.all fun q => decide ((s.dieAt d).vec.getD q.die 0 < q.num))
  | _ => true

/-- An acquire at package scope by an agent of core c: its die's clean copies and its L1's go (R163), and its die observes what
the releases that it has received had observed (R162; log 85). -/
def acquirePkg (s : State) (c : Nat) : State :=
  ((s.dropCopies (coreDie c)).l1Acquire c).modDie (coreDie c) fun D => { D with vec := vecMax D.vec D.relVec }
/-- What an acquire of slot r does when it is performed. -/
def acquireDone (s : State) (r : SlotRef) (acq : Option Scope) : State :=
  match acq with
  | some .pkg | some .sys => (s.acquirePkg r.core).noteBy r
  | some _ => s.noteBy r
  | none => s

/-! ## What releases bring through the units (R162; log 85) -/

end State

/-- The unit's state that a release passes through: a tag's entry, a finish scope, a Firn context, a scratchpad word, a launch, a
spill image, a slot's event latch (R157, R331). -/
inductive Chan where
  | tag (part key : Nat)
  | scope (part n : Nat)
  | firn (die ctx : Nat)
  | pad (core part word : Nat)
  | launch (die entry : Nat)
  | image (part pa : Nat)
  | latch (core slot : Nat)
  deriving DecidableEq, Repr

/-- The key of such a state in `State.relOf`. -/
def Chan.key : Chan → Nat
  | .tag p k => (p * 2 ^ 48 + k) * 8
  | .scope p n => (p * 256 + n) * 8 + 1
  | .firn d x => (d * 4096 + x) * 8 + 2
  | .pad c p w => ((c * 4 + p) * 2 ^ 17 + w) * 8 + 3
  | .launch d l => (d * 4096 + l) * 8 + 4
  | .image p pa => (pa * 4 + p) * 8 + 5
  | .latch c n => (c * 16 + n) * 8 + 6

/-- The states that an operation of partition p's slot reads and writes at its unit; those of memory stand with the bytes. -/
def opChans (p : Nat) : OpKind → List Chan
  | .firn d x op _ _ => if op == .finc || op == .fdec then [.firn d x] else [.firn d (x / 2 * 2), .firn d (x / 2 * 2 + 1)]
  | .tag k .wait arg => [.tag p k, .scope p (field arg.toNat 16 8)]
  | .tag k _ _ => [.tag p k]
  | .fsclose n | .fswait n => [.scope p n]
  | .bank c off _ _ => [.pad c p (off / 8)]
  | _ => []

namespace State

/-- A release at package or system scope from die d brings what the die has observed to a unit's state, and so to the acquires that
read it; the pushes that it may follow are visible everywhere from then on. -/
def sendRel (s : State) (d : Nat) (rel : Option Scope) (x : Chan) : State :=
  match rel with
  | some .pkg | some .sys =>
    { s with relOf := Sparse.set x.key (vecMax (s.dieAt d).vec (Sparse.get [] s.relOf x.key)) s.relOf, shadows := [] }
  | _ => s
/-- Die d receives what releases have brought to a unit's state: its next acquire at package scope takes it in. -/
def recvRel (s : State) (d : Nat) (acq : Option Scope) (x : Chan) : State :=
  match acq with
  | some .pkg | some .sys => s.modDie d fun D => { D with relVec := vecMax D.relVec (Sparse.get [] s.relOf x.key) }
  | _ => s
/-- What releases of die d that ended a request bring to its issuer's event latch (R331). -/
def wakeRel (s : State) (d : Nat) (w : Waker) : State :=
  match w with
  | .slot r _ => s.sendRel d (some .pkg) (.latch r.core r.slot)
  | .serac _ => s
/-- An operation's release passes through its unit. -/
def releaseOp (s : State) (o : OpRef) (p : Pend) : State :=
  let s := if p.kind == .fence 3 && (p.rel == some .pkg || p.rel == some .sys) then { s with shadows := [] } else s
  (opChans (s.partOf ⟨o.core, o.slot⟩) p.kind).foldl (fun s x => s.sendRel (coreDie o.core) p.rel x) s
/-- An operation's acquire is performed, with what its unit's state has brought. -/
def acquireOp (s : State) (o : OpRef) (p : Pend) : State :=
  let s := (opChans (s.partOf ⟨o.core, o.slot⟩) p.kind).foldl (fun s x => s.recvRel (coreDie o.core) p.acq x) s
  s.acquireDone ⟨o.core, o.slot⟩ p.acq

/-- Run `act` on an outstanding operation once it may be sent, the dies it needs run, and its release is met; while the release is
not met its die's dirty remote-homed bytes are pushed (R157, R162, R359). -/
def whenSent (s : State) (o : OpRef) (act : Pend → State → State) : State :=
  match s.pendAt o with
  | none => s
  | some p =>
    if p.res.isNone && !p.arrived && s.mayGo o && s.opLive o p.kind then
      if s.releaseMet (coreDie o.core) p.rel (decide (p.kind = .fence 3)) then act p ((s.noteLoose o).releaseOp o p)
      else s.pushAll (coreDie o.core)
    else s

/-- A slot in Clearing is to resume the wait of an operation: what concerns it comes when the refill is over (R320). -/
def resumes (s : State) (r : SlotRef) (id : Nat) : Bool :=
  match (s.slotAt r).run with
  | .clearing (some w) => waitId w == some id
  | _ => false
/-- A decided result lands: it fills its destination under R94, the operation is gone, and a slot parked on it goes on, also
one that is being saved (R316); one in Clearing keeps it for its wait (R320). -/
def land (s : State) (o : OpRef) : State :=
  match s.pendAt o with
  | none => s
  | some p =>
    match p.res with
    | none => s
    | some (v, m) =>
      let r : SlotRef := ⟨o.core, o.slot⟩
      if s.resumes r o.id then s else
      let s := (s.fillReg r p.dest p.id v m).dropPend o
      match (s.slotAt r).run with
      | .parked w => if waitId w = some o.id then s.unpark r else s
      | .saving (some w) =>
        if waitId w = some o.id then (s.advance r 8).modSlot r fun sl => { sl with run := .saving none } else s
      | _ => s

/-- A cancelled wait in GBAR: the word is filled; an arrival that has left the network is over, one on its way stays counted and
holds nothing back on its return (R245, R276). -/
def leaveGbar (s : State) (r : SlotRef) (q : Pend) : State :=
  let o : OpRef := ⟨r.core, r.slot, q.id⟩
  let s := s.fillReg r q.dest q.id discardFill .faulted
  if [0, 1, 2, 3].any fun d => (s.dieAt d).gbars.any fun g => g.id == q.id then s.withdraw r q.id
  else s.modPend o fun q => { q with dest := .none, acq := none }

/-- The cancellation of a wait (R276, R322, R323 and the entry of each wait): the wait is ended as its kind says and the
cancellation is due at its point's EPC; a wait whose result is decided completes first, as does a WFET whose limit ran out in
an earlier cycle. A WFET that it ends with status 2 continues at pc + 8 without the end-of-body check of R101, of which the
manual says nothing here (DESIGN CHOICE, log 81). -/
def cancelWait (s : State) (r : SlotRef) : State :=
  let pc := (s.slotAt r).pc
  let due := fun (s : State) (epc : Word) => s.modSlot r fun sl => { sl with run := .cancelDue epc, cwait := none }
  match (s.slotAt r).run with
  | .parked w =>
    match (waitId w).bind fun id => s.pendAt ⟨r.core, r.slot, id⟩ with
    | none => due s pc
    | some q =>
      let o : OpRef := ⟨r.core, r.slot, q.id⟩
      if q.res.isSome then
        let s := s.land o
        due s (s.slotAt r).pc
      else match w with
        | .wfet _ lim =>
          if lim < s.cycleOf r.core then
            let s := s.endWfet r q.id 1
            due s (s.slotAt r).pc
          else due ((s.fillReg r q.dest q.id 2 .none).dropPend o) (pc + 8)
        | .ldsy _ => due (s.withdraw r q.id) pc
        | .gbar _ => due (s.leaveGbar r q) (pc + 8)
        | _ => due ((s.fillReg r q.dest q.id discardFill .faulted).withdraw r q.id) pc
  | _ => s

/-- A cancellation has reached a parked slot in an earlier cycle and the wait has not ended yet: the condition of the wait comes
too late (R276). -/
def cancelFirst (s : State) (r : SlotRef) : Bool := (s.slotAt r).cwait.any fun c => decide (c < s.cycleOf r.core)
/-- The unit has decided the value an operation will deliver, which performs its acquire; its miss-queue entry stays until
the delivery. For a spilled task the value goes into its entry in the image (R276, R319). -/
def decideRes (s : State) (o : OpRef) (v : Nat) (m : Mark) : State :=
  let r : SlotRef := ⟨o.core, o.slot⟩
  if s.spilled.any fun x => x.stands o.id then s.deliver r .none o.id v m
  else
    let s := match (s.slotAt r).run with
      | .parked w => if waitId w = some o.id && s.cancelFirst r then s.cancelWait r else s
      | _ => s
    let s := s.modPend o fun p => { p with res := some (v, m), arrived := true }
    match s.pendAt o with
    | some p => s.acquireOp o p
    | none => s

/-- The running slot parks on a wait, having used its turn; the park is a cancellation point (R322). -/
def parkOn (s : State) (w : Wait) : State :=
  let s := (s.used 8).modHere fun sl => { sl with run := .parked w }
  if s.here.mode.cpend && !s.here.mode.priv then s.cancelWait s.cur else s

/-- An operation without a result is complete; a spilled task's is struck from its record (R319). -/
def finishOp (s : State) (o : OpRef) : State :=
  let s := s.dropPend o
  if s.spilled.any fun x => x.holds o.id then
    ({ s with spilled := s.spilled.map fun x =>
        if x.live then { x with ops := x.ops.filter fun q => q.id != o.id } else x } : State).wakeMq ⟨o.core, o.slot⟩
  else s

/-- Send a side-band reply: request's SEQ and CMD, STATUS, arguments, and a signature over the header and the arguments (R357);
its KEYID, of which the manual says nothing, is 0 (DESIGN CHOICE, log 88). -/
def sbSend (s : State) (seq cmd status : Nat) (args : List Byte) : State :=
  let header := bytesOfNat 32 (0x4B58 + 2 ^ 16 + cmd % 256 * 2 ^ 32 + args.length * 2 ^ 96 + status % 256 * 2 ^ 128
    + seq % 2 ^ 64 * 2 ^ 192)
  { s with outbox := s.outbox ++ [.sideband seq cmd status args (Config.sign (Config.digest (header ++ args)))] }
/-- The Serac's commands that `sel` picks are complete: their replies are sent (R358). -/
def sbDone (s : State) (sel : SbWait → Bool) : State :=
  let out := s.serac.waiting.filter sel
  let s : State := { s with serac := { s.serac with waiting := s.serac.waiting.filter fun x => !sel x } }
  out.foldl (fun (s : State) x => s.sbSend x.seq x.cmd 0 []) s
/-- A SPILL, REFILL or SLOTKILL is complete: its issuer's latch is to be set (R331), or its side-band reply sent (R358). -/
def wakeUp (s : State) (w : Waker) : State :=
  match w with
  | .slot r t => { s with latchQ := s.latchQ ++ [(r, t)] }
  | .serac seq => s.sbDone fun x => x.cmd == 6 && x.seq == seq

/-- A fill's mark by its FAULT bit (R311). -/
def faultMark (v : Nat) : Mark := if v.testBit 63 then .faulted else .none

/-! ## Return from a trap (R332) -/

/-- ERET's effect once it has issued: a misaligned EPC traps with cause 4; else the privilege comes back from PP, NEST
clears, and the PC is EPC, with the penalty of R104; returning to user mode with CPEND set, the cancellation is due at
EPC before any instruction there (R321). -/
def returnFromTrap (s : State) : State :=
  let epc := s.here.epc
  if epc.toNat % 4 ≠ 0 then s.trap 4 epc
  else
    let now := s.cycleOf s.cur.core
    let s := s.used 8
    let s := s.modHere fun sl => { sl with
      mode := { sl.mode with priv := sl.mode.pp, nest := false }
      pc := epc, ahead := [], penalty := some (now + 14) }
    s.cancelPoint epc

end State
end Sys2Proof.Machine
end

