-- ==== Sys2Proof/Machine/Wires.lean ====
section
/-! DEFINITION. Row, column and die barriers (R261, R262) and the writes of special registers that several slots see (R119, R120). A
die's wires per partition are numbered 0-15 rows, 16-31 columns, 32 the die wire. -/
namespace Sys2Proof.Machine
namespace State

/-- The wire BARW's s[A][1:0] names on a core, if it names one (R262). -/
def wireOf (c sel : Nat) : Option Nat :=
  match sel with
  | 0 => some (coreY c)
  | 1 => some (16 + coreX c)
  | 2 => some 32
  | _ => none
/-- The bit of BJOIN for a wire (R261). -/
def wireBit (w : Nat) : Nat := if w < 16 then 0 else if w < 32 then 1 else 2
/-- A core takes part in a wire: it is on the wire's line and its BJOIN bit is set. -/
def takesPart (s : State) (p w c : Nat) : Bool :=
  (s.cpAt c p).bjoin.getLsbD (wireBit w) && (decide (w = 32) || decide (w = coreY c) || decide (w = 16 + coreX c))
/-- The participants of a wire of die d (R262). -/
def participants (s : State) (d p w : Nat) : List Nat :=
  ((List.range 256).map fun i => d * 256 + i).filter fun c => s.takesPart p w c
/-- A wire of a die and partition. -/
def wireAt (s : State) (d p w : Nat) : Wire := Sparse.get ⟨0, []⟩ (s.dieAt d).wires (p * 33 + w)
/-- Change a wire. -/
def setWire (s : State) (d p w : Nat) (x : Wire) : State :=
  s.modDie d fun D => { D with wires := Sparse.set (p * 33 + w) x D.wires }
/-- A BARW whose timeout ran out before this cycle (R262). -/
def barwLate (now : Nat) (q : Pend) : Bool :=
  match q.kind with
  | .barw _ lim => lim != 0 && decide (lim < now)
  | _ => false
/-- The timeout of a BARW at a wire has run out before this cycle; while its slot is in Clearing it does not count (R262, R276). -/
def arrivalLate (s : State) (o : OpRef) : Bool :=
  (s.pendAt o).any (barwLate (s.cycleOf o.core)) && !s.resumes ⟨o.core, o.slot⟩ o.id
/-- A BARW at a wire that a cancellation reached in an earlier cycle is withdrawn before anything completes (R276). -/
def arrivalCancel (s : State) (o : OpRef) : State :=
  let r : SlotRef := ⟨o.core, o.slot⟩
  if (s.slotAt r).run == .parked (.barw o.id) && s.cancelFirst r then s.cancelWait r else s
/-- Arrivals that a cancellation reached in an earlier cycle are withdrawn, and those whose timeout ran out in an earlier cycle, with
status 1, before anything completes. -/
def wireExpire (s : State) (d p w : Nat) : State :=
  let s := (s.wireAt d p w).arrivals.foldl (fun s a => s.arrivalCancel a.2) s
  let x := s.wireAt d p w
  let late := x.arrivals.filter fun a => s.arrivalLate a.2
  if late.isEmpty then s
  else late.foldl (fun s a => s.decideRes a.2 0x8000000000000001 .none)
    (s.setWire d p w { x with arrivals := x.arrivals.filter fun a => !late.contains a })
/-- The completion condition of a wire: with every participant's arrival pending the phase advances, the arrivals clear
and each arriving slot's status is the old phase; a wire without participants never completes (R262). -/
def wireEval (s : State) (d p w : Nat) : State :=
  let s := s.wireExpire d p w
  let x := s.wireAt d p w
  let ps := s.participants d p w
  if !ps.isEmpty && ps.all (fun c => x.arrivals.any fun a => a.1 == c) then
    let s := s.setWire d p w ⟨x.phase + 1, []⟩
    x.arrivals.foldl (fun s a => s.decideRes a.2 x.phase.toNat .none) s
  else s
/-- BARWs of a core at a wire that are issued and whose arrival has not counted yet: the bits say that an arrival is pending
(log 83). -/
def barwSent (s : State) (c p w : Nat) : List OpRef :=
  ((List.range 16).filter fun i => s.ownerOf i == some p).flatMap fun i =>
    ((s.slotAt ⟨c, i⟩).pend.filter fun q => q.res.isNone && !q.arrived && (match q.kind with
      | .barw w' _ => w' == w
      | _ => false)).map fun q => ⟨c, i, q.id⟩
/-- A write to BJOIN of a core: a cleared bit withdraws the core's pending arrival, counted or not, with status 3, and the wires
touched are evaluated again (R262). -/
def bjoinSet (s : State) (c p : Nat) (v : BitVec 3) : State :=
  let s := s.modCp c p fun cp => { cp with bjoin := v }
  [coreY c, 16 + coreX c, 32].foldl (fun s w =>
    let d := coreDie c
    let x := s.wireAt d p w
    let gone := x.arrivals.filter fun a => a.1 == c && !v.getLsbD (wireBit w)
    let s := if gone.isEmpty then s else s.setWire d p w { x with arrivals := x.arrivals.filter fun a => !(gone.contains a) }
    let out := gone.map (fun a => a.2) ++ (if v.getLsbD (wireBit w) then [] else s.barwSent c p w)
    let s := out.foldl (fun s o => s.decideRes o 0x8000000000000003 .none) s
    s.wireEval d p w) s

/-! ## Writes of shared special registers (R119, R120) -/

/-- A write to a per-partition register reaches the writing core, and is under way to the others (R120). Among the writes under way
that have not reached the writing core it may take any place (log 29). -/
def pcsrWrite (s : State) (r : SlotRef) (x : PCsr) (v : Word) : State :=
  match s.part? (s.partOf r) with
  | none => s
  | some P =>
    let (n, s) := s.chooseOf ((P.upds.reverse.takeWhile fun u => !(u.reg == x && u.reached r.core)).length + 1)
    let at_ := P.upds.length - n
    s.modPart (s.partOf r) fun P => { P with upds := P.upds.take at_ ++ [⟨x, v, r.core, []⟩] ++ P.upds.drop at_ }
/-- A write of a shared special register reaches every slot of the partition on the core; in the cycle of a stamp of the same SFMT
register the stamp applies last (R119, R120). -/
def sharedWrite (s : State) (r : SlotRef) (x : SharedCsr) (v : Word) : State :=
  match x with
  | .bjoin => s.bjoinSet r.core (s.partOf r) (v.setWidth 3)
  | .sfmt i => s.modCp r.core (s.partOf r) fun cp =>
      if Sparse.get 0 cp.stamps i = s.cycleOf r.core + 1 then cp else { cp with sfmt := Sparse.set i (v.setWidth 4) cp.sfmt }
  | .part x => s.pcsrWrite r x v
/-- Such a write issues: it reaches the slots at the end of its slot's interval (R120). -/
def sharedIssue (s : State) (r : SlotRef) (x : SharedCsr) (v : Word) : State :=
  s.modCp r.core (s.partOf r) fun cp => { cp with cwrites := cp.cwrites ++ [⟨x, r.slot, v⟩] }
/-- Land, in issue order, every such write of list `ws` whose slot's interval is over. -/
def landShared (c p : Nat) (over_ : Nat → Bool) : List CsrLand → State → State
  | [], s => s
  | w :: t, s => landShared c p over_ t (if over_ w.slot then
      (s.modCp c p fun cp => { cp with cwrites := cp.cwrites.erase w }).sharedWrite ⟨c, w.slot⟩ w.csr w.val else s)
/-- Of the writes on their way on a core, those of the slots that `over_` picks land: g registers and shared special registers (R91,
R96, R120). -/
def landPart (s : State) (c p : Nat) (over_ : Nat → Bool) : State :=
  landShared c p over_ (s.cpAt c p).cwrites (landOver c p over_ (s.cpAt c p).gwrites s)
/-- Every write of a core whose slot's interval is over has landed (R91). -/
def landCore (s : State) (c : Nat) : State :=
  [0, 1, 2, 3].foldl (fun (s : State) p =>
    s.landPart c p fun n => (s.slotAt ⟨c, n⟩).interval.all fun e => decide (e ≤ s.cycleOf c)) s
/-- The same for every core of the package on which a write is on its way. -/
def landAll (s : State) : State :=
  (s.coreParts.filter fun e => !(e.2.gwrites.isEmpty && e.2.cwrites.isEmpty)).foldl (fun (s : State) e => s.landCore (e.1 / 4)) s

end State
end Sys2Proof.Machine
end

