-- ==== Sys2Proof/Machine/Fetch.lean ====
section
/-! DEFINITION. Issue turns and instruction fetch: which slot gets a core's turn in a cycle (R42, R90), the fetch of its
block (R68 to R71), decoding with its order of checks (R88), and the placing of one word where the next fetch finds it. -/
namespace Sys2Proof.Machine
namespace State

end State

/-- What a slot's fetch finds (R70, R71). -/
inductive Fetched where
  | block (bytes : List Byte)
  | miss
  | walk
  | fault (cause : BitVec 8)
  deriving DecidableEq, Repr

namespace State

/-- The 8-byte word of code at a virtual address as the core's die sees it. Poison of its sector is not looked at: R71, R88 and
R326 name no machine check of a fetch (DESIGN CHOICE, log 80). -/
def readCode (s : State) (c p : Nat) (e : TlbEntry) (va : Nat) : List Byte :=
  s.segBytes (coreDie c) p [⟨State.entryLoc e va, 8⟩]
/-- The addresses of the words of a block. -/
def blockWords (blk : Nat) : List Nat := (List.range 4).map fun i => blk + 8 * i
/-- A word that a slot has fetched already. -/
def codeAhead (sl : Slot) (va : Nat) : Option (List Byte) := (sl.ahead.find? fun w => w.addr == va).map fun w => w.bytes
/-- A 32-byte block: each of its words as fetched ahead, else as memory has it now (R70). -/
def readBlock (s : State) (r : SlotRef) (e : TlbEntry) (blk : Nat) : List Byte :=
  (blockWords blk).flatMap fun va => (codeAhead (s.slotAt r) va).getD (s.readCode r.core (s.partOf r) e va)
/-- A slot with a word fetched, in place of what it had fetched of that word. -/
def Slot.keepCode (sl : Slot) (w : CodeWord) : Slot := { sl with ahead := (sl.ahead.filter fun x => x.addr != w.addr) ++ [w] }
/-- A FENCE.acq of the slot is not yet performed: fetches wait for it (R70). -/
def fetchWaits (s : State) (r : SlotRef) : Bool := (s.slotAt r).pend.any fun q => q.kind == .fence 1 && q.res.isNone

/-- Fetch of the block that holds a slot's PC. -/
def fetch (s : State) (r : SlotRef) : Fetched :=
  let sl := s.slotAt r
  let blk := sl.pc.toNat / 32 * 32
  let p := s.partOf r
  match (blockWords blk).mapM (codeAhead sl) with
  | some ws => .block ws.flatten
  | none =>
    if whereIs r.core blk ≠ .page then .fault 7
    else match tlbHit (s.coreAt r.core).tlb p blk with
      | some e => match pteRefuse e.pte .fetch (!sl.mode.priv) with
        | some f => .fault f
        | none =>
          if s.icacheHas r.core (State.entryLoc e blk) then .block (s.readBlock r e blk) else .miss
      | none => match sl.walkFault with
        | some (w, f) => if w / 65536 = blk / 65536 then .fault f else .walk
        | none => .walk

/-- The interval of the last instruction and any branch penalty are over (R90, R104). -/
def rested (s : State) (r : SlotRef) : Bool :=
  let now := s.cycleOf r.core
  ((s.slotAt r).interval.all fun e => decide (e ≤ now)) && ((s.slotAt r).penalty.all fun e => decide (e ≤ now))

/-- A slot is Active. -/
def isActive (s : State) (r : SlotRef) : Bool := (s.slotAt r).run == .active

/-- Active slots of a core whose block is not there stall for it, taking no turn (R71, R92). -/
def stallFetch (s : State) (c : Nat) : State :=
  (List.range 16).foldl (fun s i =>
    let r : SlotRef := ⟨c, i⟩
    if s.isActive r && (s.slotAt r).pc.toNat % 4 == 0 && !s.fetchWaits r then
      match s.fetch r with
      | .miss => s.modSlot r fun sl => { sl with run := .stalled .icache }
      | .walk => s.modSlot r fun sl => { sl with run := .stalled (.walk (sl.pc.toNat / 32 * 32) .fetch) }
      | _ => s
    else s) s

/-- A slot is ready (R70, R90). -/
def ready (s : State) (r : SlotRef) : Bool := s.isActive r && s.rested r && !s.fetchWaits r

/-- The slot that gets the turn of the core's present cycle: the slot of that number, or by lending the next ready slot
of its partition in rotation order unless the partition is deterministic (R42). -/
def turnSlot (s : State) (c : Nat) : Option Nat :=
  let n := s.cycleOf c % 16
  match s.ownerOf n with
  | none => none
  | some p =>
    if s.ready ⟨c, n⟩ then some n
    else if ((s.part? p).map fun P => P.cfg.det).getD false then none
    else ((List.range 15).map fun i => (n + 1 + i) % 16).find? fun m => s.ownerOf m == some p && s.ready ⟨c, m⟩

end State

/-- What a turn has to run, after decode checks 1 to 5 of R88: an instruction, the events ILLEGAL_ENCODING and
FETCH_FAULT, or another trap. -/
inductive Turn where
  | run (i : Instr)
  | illegal (word : Word)
  | fetchFault (cause : Nat)
  | trap (cause : BitVec 8) (tval : Word)
  deriving DecidableEq, Repr

/-- Decode checks 1 to 5 on the block fetched for a PC (R68, R69, R88); check 6 is in each meaning. -/
def decodeTurn (pc : Word) : Fetched → Turn
  | .block bs =>
    let off := pc.toNat % 32
    let here := bs.drop off
    let w := leNat (here.take 8)
    match (here.headD 0).toNat % 4 with
    | 3 => .illegal (BitVec.ofNat 64 (leNat (here.take 4)))
    | k =>
      if 32 < off + 8 + 4 * k then .trap 3 (BitVec.ofNat 64 (pc.toNat / 32 * 32 + 32))
      else match decode here with
        | .ok i => .run i
        | .illegal => .illegal (BitVec.ofNat 64 w)
        | .badReg => .trap 2 (BitVec.ofNat 64 w)
  | .fault f => .fetchFault f.toNat
  | .miss | .walk => .run .nop8

/-- A decode fault of the running slot (R88). -/
def decodeFault (s : State) (cause : BitVec 8) (tval : Word) : State :=
  if s.here.run = .active then s.trap cause tval else s

/-- ILLEGAL_ENCODING (R87, R88): cause 1 with the word as TVAL. -/
def execIllegalEncoding (word : Word) (s : State) : Host.Outcome State Fault Refusal := .next (decodeFault s 1 word)

/-- FETCH_FAULT (R71, R88): the fetch's cause with TVAL = PC. -/
def execFetchFault (cause : Nat) (s : State) : Host.Outcome State Fault Refusal :=
  .next (if cause = 6 ∨ cause = 7 ∨ cause = 8 then decodeFault s (BitVec.ofNat 8 cause) s.here.pc else s)

namespace State

/-- The words of a block of bytes. -/
def wordsOf (blk : Nat) (bs : List Byte) : List CodeWord := (List.range 4).map fun i => ⟨blk + 8 * i, (bs.drop (8 * i)).take 8⟩
/-- A slot's turn begins: it is the running slot, its core's turn of this cycle is used, its block is kept. -/
def beginTurn (s : State) (r : SlotRef) : State :=
  let blk := (s.slotAt r).pc.toNat / 32 * 32
  let keep := match s.fetch r with
    | .block bs => wordsOf blk bs
    | _ => []
  let s := { s with cur := r }
  let s := s.modCore r.core fun C => { C with lastTurn := s.cycleOf r.core + 1 }
  s.modSlot r fun sl => keep.foldl State.Slot.keepCode sl

/-- A slot fetches an 8-byte word of code ahead, in place of what it held of it (R70): a word that its core's TLB and
instruction cache have, while no FENCE.acq of it is outstanding. -/
def fetchAhead (s : State) (r : SlotRef) (va : Nat) : State :=
  let p := s.partOf r
  if va % 8 ≠ 0 ∨ whereIs r.core va ≠ .page ∨ s.fetchWaits r ∨ (s.slotAt r).task = none ∨ !s.live (coreDie r.core) then s
  else match tlbHit (s.coreAt r.core).tlb p va with
    | some e =>
      if (pteRefuse e.pte .fetch (!(s.slotAt r).mode.priv)).isNone
          && s.icacheHas r.core (State.entryLoc e va)
      then s.modSlot r fun sl => State.Slot.keepCode sl ⟨va, s.readCode r.core p e va⟩
      else s
    | none => s

/-- Place one instruction where the next step fetches: slot 0 of core 0, in a partition that owns it, Active with its
interval over, its block fetched ahead, and core 0's turn next. The PC moves to the start of its block. -/
def placeBlock (s : State) (bytes : List Byte) : State :=
  let pc := (s.slotAt ⟨0, 0⟩).pc.toNat / 32 * 32
  let cfg : PartCfg := { (default : PartCfg) with slotMask := 1#16 }
  let P : Partition := ⟨cfg, 0, 0, 0, 0, [], 0, none, [], [], [], false, true⟩
  let s := if s.ownerOf 0 = none then { s with parts := Sparse.set 0 P s.parts } else s
  let s := { s with serac := { s.serac with power := .on }, agenda := .turn 0 :: s.agenda }
  let s := s.modDie 0 fun D => { D with frozen := false, cycle := D.cycle / 16 * 16 }
  let s := s.modCore 0 fun C => { C with lastTurn := 0 }
  s.modSlot ⟨0, 0⟩ fun sl => { sl with
    run := .active, interval := none, penalty := none, pc := BitVec.ofNat 64 pc, ahead := wordsOf pc (bytes ++ List.replicate (32 - bytes.length) 0), pend := [] }

end State
end Sys2Proof.Machine
end

