-- ==== Sys2Proof/Machine/Operands.lean ====
section
/-! DEFINITION. The operand forms of the instructions: which sources are read in which field order, and how a plain
result is written and the instruction retired (R79, R91, R106, R211). -/
namespace Sys2Proof.Machine

/-- TVAL of a privilege fault: instruction bits [63:0] (R88). -/
def insnWord (i : Instr) : Word := BitVec.ofNat 64 ((encode i).getD 0)

namespace State

/-- D := f A B (R106). -/
def aluRRR (o : RRR) (interval : Nat) (f : Word → Word → Word) (s : State) : State :=
  s.issue [.s o.a o.am, .s o.b o.bm] fun s => (s.wr o.d (f (s.rd o.a) (s.rd o.b))).retire interval 8
/-- D := f A imm, the immediate sign-extended (R127). -/
def aluRRI (o : RRI) (f : Word → Word → Word) (s : State) : State :=
  s.issue [.s o.a o.am] fun s => (s.wr o.d (f (s.rd o.a) (imm24s o.imm))).retire 8 8
/-- D := f A sh (R127). -/
def aluRRSh (o : RRSh) (f : Word → Nat → Word) (s : State) : State :=
  s.issue [.s o.a o.am] fun s => (s.wr o.d (f (s.rd o.a) o.sh.toNat)).retire 8 8
/-- D := f A w (R128). -/
def aluRRW (o : RRW) (f : Word → Nat → Word) (s : State) : State :=
  s.issue [.s o.a o.am] fun s => (s.wr o.d (f (s.rd o.a) o.w.toNat)).retire 8 8
/-- D := f A (R128). -/
def aluRR (o : RRO) (f : Word → Word) (s : State) : State :=
  s.issue [.s o.a o.am] fun s => (s.wr o.d (f (s.rd o.a))).retire 8 8
/-- D := f A B C in format W (R129). -/
def aluRRRR (o : RRRR) (f : Word → Word → Word → Word) (s : State) : State :=
  s.issue [.s o.a o.am, .s o.b o.bm, .s o.c o.cm] fun s =>
    (s.wr o.d (f (s.rd o.a) (s.rd o.b) (s.rd o.c))).retire 8 12
/-- D := an immediate (R130). -/
def aluImm (d : SField) (v : Word) (len : Nat) (s : State) : State :=
  s.issue [] fun s => (s.wr d v).retire 8 len
/-- A conditional branch (R111, R103): a misprediction by the hint costs the penalty of R104. -/
def branch (o : BranchO) (c : Word → Word → Bool) (s : State) : State :=
  s.issue [.s o.a o.am, .s o.b o.bm] fun s =>
    let taken := c (s.rd o.a) (s.rd o.b)
    let pen := if taken = o.hint then 0 else 6
    if taken then s.jumpTo (s.here.pc + 4 * imm24s o.off) pen
    else
      let now := s.cycleOf s.cur.core
      let s := s.retire 8 8
      if pen = 0 then s else s.modHere fun sl => { sl with penalty := some (now + 8 + pen) }

end State
end Sys2Proof.Machine
end

