-- ==== Sys2Proof/Machine/Flags.lean ====
section
/-! DEFINITION. The rounding mode of an instruction, the floating-point flags, and the shapes of scalar floating-point
instructions (R99, R119, R131). -/
namespace Sys2Proof.Machine

/-- The rounding mode a code of FRM names (R99, R204). -/
def rmOfFrm (n : Nat) : Rm :=
  match n with
  | 1 => .rtz
  | 2 => .rup
  | 3 => .rdn
  | 4 => .rna
  | _ => .rne

/-- The format H chooses (R131). -/
def fpOf (dbl : Bool) : FpFmt := if dbl then fmtF64 else fmtF32
/-- The operand a register holds for H: bits [31:0] for f32 (R131). -/
def fpArg (dbl : Bool) (v : Word) : Nat := if dbl then v.toNat else v.toNat % 2 ^ 32

namespace State

/-- The mode in force: RM, or FRM when RM = 7 (R131). -/
def rmNow (s : State) (rm : Rm) : Rm :=
  match rm with
  | .dyn => rmOfFrm s.here.frm.toNat
  | r => r
/-- OR flags into FFLAGS of the running slot (R119). -/
def raise (s : State) (fl : Fl) : State := s.modHere fun sl => { sl with fflags := sl.fflags ||| fl }
/-- Write a floating result and its flags, and retire. -/
def fpDone (s : State) (d : SField) (r : Nat × Fl) (interval len : Nat) : State :=
  ((s.wr d (BitVec.ofNat 64 r.1)).raise r.2).retire interval len

/-- D := f A B with flags (R132). -/
def fp2 (o : FP2) (interval : Nat) (f : FpFmt → Rm → Nat → Nat → Nat × Fl) (s : State) : State :=
  s.issue [.s o.a o.am, .s o.b o.bm] fun s =>
    s.fpDone o.d (f (fpOf o.dbl) (s.rmNow o.rm) (fpArg o.dbl (s.rd o.a)) (fpArg o.dbl (s.rd o.b))) interval 8
/-- D := f A with flags. -/
def fp1 (o : FP1) (interval : Nat) (f : FpFmt → Rm → Nat → Nat × Fl) (s : State) : State :=
  s.issue [.s o.a o.am] fun s =>
    s.fpDone o.d (f (fpOf o.dbl) (s.rmNow o.rm) (fpArg o.dbl (s.rd o.a))) interval 8
/-- A comparison result as a register value. -/
def cmpRes (r : Bool × Fl) : Nat × Fl := (r.1.toNat, r.2)

end State
end Sys2Proof.Machine
end

