-- ==== Sys2Proof/Machine/Lanes.lean ====
section
/-! DEFINITION. The operand forms of vector and mask instructions: lanes, masks, merging, scalar B (R211 to R215). -/
namespace Sys2Proof.Machine

/-- A vector of lanes of width w by lane index. -/
def ofLanes (w : Nat) (f : Nat → Nat) : VWord := BitVec.ofNat 2048 (packLanes w ((List.range (2048 / w)).map f))
/-- Lane i of f where the mask bit is 1, else of the old value (R213). -/
def mergeLanes (w : Nat) (mk : MWord) (old : VWord) (f : Nat → Nat) : VWord :=
  ofLanes w fun i => if mk.getLsbD i then f i else lane w old i
/-- Mask bits 0 to L-1 by lane index; bits from L on are 0 (R213). -/
def ofBits (w : Nat) (f : Nat → Bool) : MWord :=
  BitVec.ofNat 256 (packLanes 1 ((List.range (2048 / w)).map fun i => (f i).toNat))
/-- Indices of active lanes (R213). -/
def activeLanes (w : Nat) (mk : MWord) : List Nat := (List.range (2048 / w)).filter fun i => mk.getLsbD i
/-- The numeric view of a lane: signed for i types, unsigned otherwise (R216). -/
def tyVal (t : Ty) (x : Nat) : Int := if t.isSignedInt then signedVal (tyBits t) x else x % 2 ^ tyBits t
/-- The lane code of an integer, mod 2^width. -/
def tyCode (t : Ty) (v : Int) : Nat := (v % 2 ^ tyBits t).toNat
/-- Smallest value of an integer type. -/
def tyMin (t : Ty) : Int := if t.isSignedInt then -(2 ^ (tyBits t - 1)) else 0
/-- Largest value of an integer type. -/
def tyMax (t : Ty) : Int := if t.isSignedInt then 2 ^ (tyBits t - 1) - 1 else 2 ^ tyBits t - 1
/-- A value clamped to a type's range. -/
def tyClamp (t : Ty) (v : Int) : Int := if v < tyMin t then tyMin t else if tyMax t < v then tyMax t else v

/-- B as a source (R212). -/
def bSrc (b : VB) (m : Md) : Src :=
  match b with
  | .v r => .v r m
  | .s r => .s r m

/-- Flags of a list of lane results, ORed (R214). -/
def orFl (l : List (Nat × Fl)) : Fl := l.foldl (fun f x => f ||| x.2) 0

namespace State

/-- Lane i of B: of the vector, or the low bits of the scalar (R212). -/
def bLane (s : State) (b : VB) (w i : Nat) : Nat :=
  match b with
  | .v r => lane w (s.rdv r) i
  | .s r => (s.rd r).toNat % 2 ^ w
/-- A mask other than m0 is a source, and so is the destination that it governs (R213, R326). -/
def mergeSrc (d : VField) (mk : MField) : List Src := if mk.val = 0 then [] else [.m mk, .v d .wait]
/-- Write the active lanes of vD and keep the others (R213). -/
def wrMerge (s : State) (d : VField) (mk : MField) (w : Nat) (f : Nat → Nat) : State :=
  s.wrv d (mergeLanes w (s.rdm mk) (s.rdv d) f)
/-- Write active lanes with flags: only active lanes raise any (R213, R214). -/
def wrMergeFl (s : State) (d : VField) (mk : MField) (w : Nat) (f : Nat → Nat × Fl) : State :=
  let rs : List (Nat × Nat × Fl) := (activeLanes w (s.rdm mk)).map fun i => (i, f i)
  (s.wrMerge d mk w fun i => ((Sparse.get? rs i).getD (0, 0)).1).raise (orFl (rs.map fun r => r.2))

/-- D := f A B lane by lane, integer (R216). -/
def vi2 (o : VI2) (f : Ty → Nat → Nat → Nat) (s : State) : State :=
  s.issue ([.v o.a o.am, bSrc o.b o.bm] ++ mergeSrc o.d o.mask) fun s =>
    let w := tyBits o.ty
    (s.wrMerge o.d o.mask w fun i => f o.ty (lane w (s.rdv o.a) i) (s.bLane o.b w i)).retire 8 8
/-- mD := the lanes where a relation holds (R217). -/
def vcmp (o : VCmpO) (f : Int → Int → Bool) (s : State) : State :=
  s.issue [.v o.a o.am, bSrc o.b o.bm, .m o.mask] fun s =>
    let w := tyBits o.ty
    (s.wrm o.d (ofBits w fun i => (s.rdm o.mask).getLsbD i
      && f (tyVal o.ty (lane w (s.rdv o.a) i)) (tyVal o.ty (s.bLane o.b w i)))).retire 8 8
/-- D := f A B lane by lane, floating, with an interval (R214, R215, R224). -/
def vf2 (o : VF2) (interval : Nat) (f : FpFmt → Rm → Nat → Nat → Nat × Fl) (s : State) : State :=
  s.issue ([.v o.a o.am, bSrc o.b o.bm] ++ mergeSrc o.d o.mask) fun s =>
    let w := tyBits o.ty
    (s.wrMergeFl o.d o.mask w fun i =>
      f (tyFp o.ty) (s.rmNow o.rm) (lane w (s.rdv o.a) i) (s.bLane o.b w i)).retire interval 8
/-- D := f A lane by lane, floating (R224). -/
def vf1 (o : VF1) (interval : Nat) (f : FpFmt → Rm → Nat → Nat × Fl) (s : State) : State :=
  s.issue ([.v o.a o.am] ++ mergeSrc o.d o.mask) fun s =>
    let w := tyBits o.ty
    (s.wrMergeFl o.d o.mask w fun i => f (tyFp o.ty) (s.rmNow o.rm) (lane w (s.rdv o.a) i)).retire interval 8
/-- The fused family of format W (R226). -/
def vf3 (o : VF3) (negProd negC : Bool) (s : State) : State :=
  s.issue ([.v o.a o.am, bSrc o.b o.bm, .v o.c o.cm] ++ mergeSrc o.d o.mask) fun s =>
    let w := tyBits o.ty
    (s.wrMergeFl o.d o.mask w fun i => fpFma (tyFp o.ty) (s.rmNow o.rm) negProd negC (lane w (s.rdv o.a) i)
      (s.bLane o.b w i) (lane w (s.rdv o.c) i)).retire 8 12
/-- mD := the lanes where a floating relation holds; active lanes raise its flags (R227). -/
def vfcmp (o : VCmpO) (f : FpFmt → Nat → Nat → Bool × Fl) (s : State) : State :=
  s.issue [.v o.a o.am, bSrc o.b o.bm, .m o.mask] fun s =>
    let w := tyBits o.ty
    let rs : List (Nat × Nat × Fl) := (activeLanes w (s.rdm o.mask)).map fun i =>
      let r := f (tyFp o.ty) (lane w (s.rdv o.a) i) (s.bLane o.b w i)
      (i, r.1.toNat, r.2)
    ((s.wrm o.d (ofBits w fun i => ((Sparse.get? rs i).getD (0, 0)).1 == 1)).raise (orFl (rs.map fun r => r.2))).retire 8 8

end State
end Sys2Proof.Machine
end

