-- ==== Sys2Proof/Machine/LoadStore.lean ====
section
/-! DEFINITION. The operand forms of memory instructions: effective addresses, the checks of R171, the segments and values
of loads and stores, and the checks of VLDF (R171 to R178). -/
namespace Sys2Proof.Machine

/-- A byte of a list, 0 beyond its end. -/
def byteAt (bs : List Byte) (i : Nat) : Nat := (bs.getD i 0).toNat
/-- n bytes of a list from i on, as a number. -/
def natAt (bs : List Byte) (i n : Nat) : Nat := natOfBytes ((bs.drop i).take n)

/-- Bytes of a store, split over its segments. -/
def splitBytes : List Seg → List Byte → List (Loc × List Byte)
  | [], _ => []
  | g :: t, bs => (g.loc, bs.take g.len) :: splitBytes t (bs.drop g.len)

/-- A place n bytes on. -/
def locAdd (l : Loc) (n : Nat) : Loc :=
  match l with
  | .paged pa h t => .paged (pa + n) h t
  | .pad c off => .pad c (off + n)
/-- A place's byte within its sector. -/
def locByteNo (l : Loc) : Nat :=
  match l with
  | .paged pa _ _ => pa % 128
  | .pad _ off => off % 128
/-- A number for a place's sector. -/
def sectorId (l : Loc) : Nat :=
  match l with
  | .paged pa home tag => 2 * lineKey (pa / 128) tag home
  | .pad c off => 2 * ((c * 2 ^ 20 + off) / 128) + 1
/-- Segments cut into pieces of z bytes, each of which an access performs at once (R154). -/
def cutSegs (z : Nat) (gs : List Seg) : List Seg :=
  gs.flatMap fun g => (List.range ((g.len + z - 1) / z)).map fun i => ⟨locAdd g.loc (i * z), min z (g.len - i * z)⟩
/-- Bytes of a piece of a vector access to n bytes from va with elements of `elem` bytes: sectors of 128 bytes when it is one of
256 aligned bytes, else elements (R154); VLD and VST name no element, and byte is taken (DESIGN CHOICE, log 16). -/
def pieceSize (va n elem : Nat) : Nat := if n = 256 ∧ va % 256 = 0 then 128 else elem

/-- Storage formats 0 to 7; none for the reserved codes (R138). -/
def fmtOf (n : Nat) : Option Fmt :=
  match n with
  | 0 => some .raw
  | 1 => some .f4b8
  | 2 => some .e4m3
  | 3 => some .e5m2
  | 4 => some .bf16
  | 5 => some .f16
  | 6 => some .f32
  | 7 => some .mls
  | _ => none

/-- Data bytes of a VLDF of L lanes (R177). -/
def vldfBytes (f : Fmt) (paged : Bool) (l : Nat) : Nat :=
  match f with
  | .f4b8 => if paged then l / 2 else l / 64 * 40
  | .e4m3 | .e5m2 => l
  | .bf16 | .f16 => 2 * l
  | _ => 4 * l
/-- Alignment of a VLDF (R177). -/
def vldfAlign (f : Fmt) (paged : Bool) : Nat :=
  match f with
  | .f4b8 => if paged then 4 else 8
  | .e4m3 | .e5m2 | .raw => 1
  | .bf16 | .f16 => 2
  | .f32 | .mls => 4

/-- Bytes of an element of a VLDF, or of two f4b8 elements. -/
def vldfElemSize (f : Fmt) : Nat :=
  match f with
  | .f4b8 | .e4m3 | .e5m2 => 1
  | .bf16 | .f16 => 2
  | .raw | .f32 | .mls => 4

/-- Element i of a VLDF's bytes; a paged f4b8 access has its scale bytes after its data bytes (R143, R177). -/
def vldfElem (f : Fmt) (paged : Bool) (l : Nat) (bs : List Byte) (i : Nat) : Num :=
  let nib := fun (b k : Nat) => byteAt bs b / 16 ^ (k % 2) % 16
  match f with
  | .f4b8 =>
    if paged then f4b8Num (nib (i / 2) i) (byteAt bs (l / 2 + i / 8))
    else
      let g := 40 * (i / 64)
      let j := i % 64
      f4b8Num (nib (g + j / 2) j) (byteAt bs (g + 32 + j / 8))
  | .e4m3 => fmtE4m3.decode (byteAt bs i)
  | .e5m2 => fmtE5m2.decode (byteAt bs i)
  | .bf16 => fmtBf16.decode (natAt bs (2 * i) 2)
  | .f16 => fmtF16.decode (natAt bs (2 * i) 2)
  | .f32 => fmtF32.decode (natAt bs (4 * i) 4)
  | .mls => fmtBf16.decode (natAt bs (4 * i + 2) 2)
  | .raw => .fin false 0 0

/-- The register value a load makes of its bytes (R174, R176, R177). -/
def loadValue (fin : LoadFin) (bs : List Byte) : Nat :=
  match fin with
  | .scalar sg n => if sg then (sext64 (8 * n) (natOfBytes bs)).toNat else natOfBytes bs
  | .vec => natOfBytes bs
  | .vldf f paged ty =>
    let l := tyLanes ty
    packLanes (tyBits ty) ((List.range l).map fun i => ((tyFp ty).deliver .rne false (vldfElem f paged l bs i)).1)

/-- The pieces of an access whose checks pass. -/
def Xl.cut (z : Nat) : Xl → Xl
  | .ok gs => .ok (cutSegs z gs)
  | x => x

namespace State

/-- Base plus signed byte offset (R174). -/
def ea (s : State) (a : SField) (imm : BitVec 24) : Nat := (s.rd a + imm24s imm).toNat

/-- An access takes a miss-queue entry unless it is to the local window (R95). -/
def needsMq (s : State) (va : Nat) : Bool :=
  match whereIs s.cur.core va with
  | .win c _ => c != s.cur.core
  | _ => true

/-- Check 5 or 4 as a check of an instruction. -/
def xlChk (s : State) (mq : Bool) : Xl → Chk
  | .trap c v => .trap c (BitVec.ofNat 64 v)
  | .stall v acc => .stall (.walk v acc)
  | .ok _ => if mq && s.mqFull then .stall .missQueue else .ok

/-- The checks of R171 on an access of n bytes, with an alignment, but for check 2. -/
def memXl (s : State) (acc : Acc) (va n align : Nat) : Xl :=
  if whereIs s.cur.core va = .bad then .trap 7 va
  else if va % align ≠ 0 then .trap 4 va
  else s.reach acc va n
/-- The same, with the miss queue of R95. -/
def memChk (s : State) (acc : Acc) (va n align : Nat) : Chk := s.xlChk (s.needsMq va) (s.memXl acc va n align)
/-- The segments of an access whose checks pass. -/
def segsAt (s : State) (acc : Acc) (va n : Nat) : List Seg :=
  match s.reach acc va n with
  | .ok gs => gs
  | _ => []

/-- A scalar load of n bytes (R174). -/
def loadS (o : LdO) (n : Nat) (sg : Bool) (s : State) : State :=
  s.issueP none [.s o.a o.am] (fun s => s.memChk .read (s.ea o.a o.imm) n n) fun s =>
    let va := s.ea o.a o.imm
    s.sendMem o.pol (.load (s.segsAt .read va n) (.scalar sg n)) (.s o.d.val) (s.needsMq va) (BitVec.ofNat 64 va) 8
/-- A scalar store of n bytes (R175). -/
def storeS (o : StO) (n : Nat) (s : State) : State :=
  s.issueP none [.s o.a o.am, .s o.b o.bm] (fun s => s.memChk .write (s.ea o.a o.imm) n n) fun s =>
    let va := s.ea o.a o.imm
    s.sendMem o.pol (.store (splitBytes (s.segsAt .write va n) (bytesOfNat n (s.rd o.b).toNat))) .none (s.needsMq va)
      (BitVec.ofNat 64 va) 8

/-- The lanes of VLDS and the like: checks in ascending lane order, then all segments (R171, R178). -/
def lanesXl (s : State) (acc : Acc) (n : Nat) : List Nat → Xl
  | [] => .ok []
  | va :: t => match s.memXl acc va n n with
    | .ok gs => match s.lanesXl acc n t with
      | .ok hs => .ok (gs ++ hs)
      | r => r
    | r => r
/-- Segments of the lanes. -/
def lanesSegs (s : State) (acc : Acc) (n : Nat) (vas : List Nat) : List Seg :=
  match s.lanesXl acc n vas with
  | .ok gs => gs
  | _ => []
/-- Addresses of a strided access (R178). -/
def strideVas (s : State) (a b : SField) (ty : Ty) : List Nat :=
  (List.range (tyLanes ty)).map fun i => (s.rd a + BitVec.ofNat 64 i * s.rd b).toNat
/-- Addresses of a gather or scatter (R178). -/
def gatherVas (s : State) (a : SField) (b : VField) (ty : Ty) : List Nat :=
  (List.range (tyLanes ty)).map fun i =>
    (s.rd a + sext64 32 (lane 32 (s.rdv b) i) * BitVec.ofNat 64 (tyBits ty / 8)).toNat
/-- A load of lanes into vD (R178). -/
def loadLanes (pol : Policy) (srcs : List Src) (d : VField) (ty : Ty) (vas : State → List Nat) (s : State) : State :=
  let n := tyBits ty / 8
  s.issueP none srcs (fun s => s.xlChk ((vas s).any fun va => s.needsMq va) (s.lanesXl .read n (vas s))) fun s =>
    s.sendMem pol (.load (s.lanesSegs .read n (vas s)) .vec) (.v d.val) ((vas s).any fun va => s.needsMq va)
      (BitVec.ofNat 64 ((vas s).headD 0)) 8
/-- A store of the lanes of a vector; of overlapping lanes the higher remains (R178). -/
def storeLanes (pol : Policy) (srcs : List Src) (d : VField) (ty : Ty) (vas : State → List Nat) (s : State) : State :=
  let n := tyBits ty / 8
  s.issueP none srcs (fun s => s.xlChk ((vas s).any fun va => s.needsMq va) (s.lanesXl .write n (vas s))) fun s =>
    s.sendMem pol (.store (splitBytes (s.lanesSegs .write n (vas s)) (bytesOfNat 256 (s.rdv d).toNat))) .none
      ((vas s).any fun va => s.needsMq va) (BitVec.ofNat 64 ((vas s).headD 0)) 8

/-- SFMT code of the region that holds an offset (R142). -/
def sfmtAt (s : State) (c p off : Nat) : Nat :=
  (Sparse.get 0 (s.cpAt c p).sfmt (off / (s.padSize p / 16)) : BitVec 4).toNat
/-- Scale-plane address of a data address (R140). -/
def scaleVa (s : State) (p c va : Nat) : Nat := ((s.pcsr p c .spbase).toNat + va / 65536 * 16384 + va % 65536 / 4) % 2 ^ 64

/-- The checks of VLDF in their order (R171), ending in the segments with the storage format. -/
def vldfPlan (s : State) (va l : Nat) : Xl × Fmt × Bool :=
  let tr := fun (c : BitVec 8) (v : Nat) => (Xl.trap c v, Fmt.raw, false)
  let finish := fun (code : Nat) (paged : Bool) =>
    match fmtOf code with
    | none => tr 8 va
    | some .raw => tr 8 va
    | some f =>
      if va % vldfAlign f paged ≠ 0 then tr 4 va
      else
        let data := (s.reach .read va (vldfBytes f paged l)).cut (pieceSize va (vldfBytes f paged l) (vldfElemSize f))
        if f = .f4b8 ∧ paged then
          let sva := s.scaleVa s.herePart s.cur.core va
          let scale := (s.xl .plane sva (l / 8)).cut 1
          let both := match data, scale with
            | .ok gs, .ok hs => Xl.ok (gs ++ hs)
            | .ok _, r => r
            | r, .ok _ => r
            | r, q => if sva < va then q else r
          (both, f, paged)
        else (data, f, paged)
  match whereIs s.cur.core va with
  | .bad => tr 7 va
  | .win c off =>
    if s.padSize s.herePart ≤ off then tr 7 va else finish (s.sfmtAt c s.herePart off) false
  | .page =>
    match s.xl .read va 1 with
    | .ok _ => match s.hereHit va .read with
      | some e => finish (pteFmt e.pte) true
      | none => tr 7 va
    | r => (r, .raw, true)

/-! ## Performing accesses (R154, R161, R178) -/

/-- Slot r performs one piece of a store for partition p. A sector whose copy in the core's L1 is poisoned stays so, unless the piece
is all of it (R326). -/
def coreWrite (s : State) (r : SlotRef) (p pol : Nat) (l : Loc) (bs : List Byte) : State :=
  let g : Seg := ⟨l, bs.length⟩
  let d := coreDie r.core
  let bad := s.l1BadSeg r.core g && decide (bs.length < 128)
  let s := (s.cacheSegs d p (some r.core) pol true [g]).locWrite d p l bs
  ((if bad then s.poisonLoc d p l true else s).settle d l).noteBy r
/-- Core c reads one piece of a load for partition p: its die has the sectors then, and has observed what they bring. -/
def coreRead (s : State) (c p pol : Nat) (refetch : Bool) (g : Seg) : State :=
  ((s.cacheSegs (coreDie c) p (some c) pol false [g]).touchSegs (coreDie c) refetch (pol != 4) [g]).observeSegs (coreDie c) [g]

/-- A store has written n bytes at a place; it keeps what it has written of each sector (R326). -/
def storeWrote (q : Pend) (l : Loc) (n : Nat) : Pend :=
  let bs := (List.range n).map fun i => BitVec.ofNat 8 (locByteNo l + i)
  { q with got := Sparse.modify [] (sectorId l) (fun xs => (xs ++ bs).eraseDups) q.got }
/-- It has now written all of a place's sector. -/
def storeWhole (q : Pend) (l : Loc) : Bool := (Sparse.get [] q.got (sectorId l)).length == 128
/-- The pieces of a store that may be performed next: those that overlap no earlier one that is left, so that of overlapping
lanes the higher remains (R178). -/
def storeNext (ws : List (Loc × List Byte)) : List Nat :=
  (List.range ws.length).filter fun i => match ws[i]? with
    | none => false
    | some w => (ws.take i).all fun x => !segOverlap ⟨x.1, x.2.length⟩ ⟨w.1, w.2.length⟩

end State
end Sys2Proof.Machine
end

