-- ==== Sys2Proof/Machine/Atomics.lean ====
section
/-! DEFINITION. Atomics and reductions, performed at the L2 home of their bytes or at the bank of a window word, and the
applying of pushes (R162, R191 to R194). -/
namespace Sys2Proof.Machine

/-- Op of R192 at width 4 or 8 bytes. -/
def amoVal (op : AmoOp) (w32 : Bool) (old b : Nat) : Nat :=
  let n := if w32 then 32 else 64
  let x := old % 2 ^ n
  let y := b % 2 ^ n
  match op with
  | .add => (x + y) % 2 ^ n
  | .and => x &&& y
  | .or => x ||| y
  | .xor => x ^^^ y
  | .min => if signedVal n x ≤ signedVal n y then x else y
  | .max => if signedVal n x ≤ signedVal n y then y else x
  | .minn => if x ≤ y then x else y
  | .maxn => if x ≤ y then y else x
  | .swap => y
  | .fadd => (fpAdd (if w32 then fmtF32 else fmtF64) .rne x y).1

namespace State

/-- Die d holds no dirty byte of its own of the sector of a remote-homed place (R191). -/
def sectorClean (s : State) (d : Nat) (l : Loc) : Bool :=
  match l with
  | .paged pa home tag => home == d || !(s.dieAt d).dirty.any fun e => keyDiv 128 e.1 == lineKey (pa / 128) tag home
  | .pad _ _ => true
/-- The bytes at their home or bank, as a number. -/
def homeVal (s : State) (p : Nat) (l : Loc) (n : Nat) : Nat :=
  match l with
  | .paged pa home tag => natOfBytes ((List.range n).map fun i => s.lineByte tag home (pa + i))
  | .pad c off => natOfBytes ((List.range n).map fun i => s.padByte c p (off + i))
/-- Write bytes at their home or bank for an agent of die d, whose clean copy goes. -/
def homePut (s : State) (d p : Nat) (l : Loc) (n v : Nat) : State :=
  match l with
  | .paged pa home tag =>
    let s := s.lineWrites d tag home pa (bytesOfNat n v)
    if home = d then s else s.dropCopy d tag home pa
  | .pad c off => s.padSetBytes c p off (bytesOfNat n v)
/-- A failed atomic has read the home's value: the die's older clean copy may not be read after it (R156). -/
def dropStale (s : State) (d : Nat) (l : Loc) : State :=
  match l with
  | .paged pa home tag => if home = d then s else s.dropCopy d tag home pa
  | .pad _ _ => s
/-- The home of a RED of die d applies it, behind those to the sector that the die accepted before (R194). -/
def applyRed (s : State) (d : Nat) (q : RedReq) : State :=
  let n := if q.w32 then 4 else 8
  let s := (s.modDie d fun D => { D with reds := D.reds.filter fun x => x.by_ != q.by_ }).cacheAtomic d q.part q.loc
  s.homePut d q.part q.loc n (amoVal q.op q.w32 (s.homeVal q.part q.loc n) q.b.toNat)
/-- The dies that a RED under way needs to be applied (R359). -/
def redDies (s : State) (q : RedReq) : List Nat :=
  match q.loc with
  | .paged pa home tag => s.homeDies tag home (pa / 128)
  | .pad c _ => [coreDie c]
/-- The oldest RED of die d to a sector of some segments is applied: what reads or writes them otherwise waits for it (state U of
R161). -/
def flushReds (s : State) (d : Nat) (gs : List Seg) : State :=
  match (s.dieAt d).reds.find? fun q => gs.any fun g => match g.loc with
      | .paged pa home tag => (sectorsOf pa g.len).any fun k => RedReq.at_ q tag home k
      | .pad _ _ => false with
  | some q => if s.live d && (s.redDies q).all s.live then s.applyRed d q else s
  | none => s
/-- One atomic step at the home (R191): `f` gives the new value, if it writes; answers the old one. While the die holds a
dirty copy of the sector it is pushed first; REDs that the die has accepted go before. -/
def atomicStep (s : State) (o : OpRef) (l : Loc) (n : Nat) (f : Nat → Option Nat) (fin : State → Nat → State) : State :=
  let d := coreDie o.core
  let p := s.partOf ⟨o.core, o.slot⟩
  if s.segsInU d [⟨l, n⟩] then s.flushReds d [⟨l, n⟩]
  else if !s.readLive d true [⟨l, n⟩] then s
  else if s.sectorClean d l then
    let s := s.cacheAtomic d p l
    let s := match l with
      | .paged pa home tag => s.observeAt d tag home pa n
      | .pad _ _ => s
    let old := s.homeVal p l n
    match f old with
    | some v => fin ((s.homePut d p l n v).noteBy ⟨o.core, o.slot⟩) old
    | none => fin (s.dropStale d l) old
  else match l with
    | .paged pa home tag => s.pushSel d fun k => keyDiv 128 k == lineKey (pa / 128) tag home
    | .pad _ _ => s

/-- The checks of an atomic (R171, R192): a write access, naturally aligned; every one takes a miss-queue entry but to the
local window (R95). -/
def amoChk (s : State) (a : SField) (w32 : Bool) : Chk :=
  let n := if w32 then 4 else 8
  s.memChk .write (s.rd a).toNat n n
/-- The place of an atomic. -/
def amoLoc (s : State) (a : SField) (w32 : Bool) : Loc :=
  ((s.segsAt .write (s.rd a).toNat (if w32 then 4 else 8)).head?.map fun g => g.loc).getD (.pad s.cur.core 0)
/-- The release an ORD gives. -/
def ordRel (o : Ord) (sc : Scope) : Option Scope := if o = .rel ∨ o = .ar then some sc else none
/-- The acquire an ORD gives. -/
def ordAcq (o : Ord) (sc : Scope) : Option Scope := if o = .acq ∨ o = .ar then some sc else none

/-- AMO (R192). -/
def amo (o : AmoO) (op : AmoOp) (s : State) : State :=
  s.issueP none [.s o.a o.am, .s o.b o.bm] (fun s => s.amoChk o.a o.w32) fun s =>
    s.sendOp (.amo (s.amoLoc o.a o.w32) o.w32 op (s.rd o.b)) (.s o.d.val) (ordRel o.ord o.scope) (ordAcq o.ord o.scope)
      (s.needsMq (s.rd o.a).toNat) (s.rd o.a) 8
/-- RED (R194). -/
def red (o : RedO) (op : AmoOp) (s : State) : State :=
  s.issueP none [.s o.a o.am, .s o.b o.bm] (fun s => s.amoChk o.a o.w32) fun s =>
    s.sendOp (.red (s.amoLoc o.a o.w32) o.w32 op (s.rd o.b)) .none (ordRel o.ord o.scope) none
      (s.needsMq (s.rd o.a).toNat) (s.rd o.a) 8

end State

/-- AMO.add (R192). -/
def execAmoAdd (o : AmoO) (s : State) : Host.Outcome State Fault Refusal := .next (s.amo o .add)
/-- AMO.and (R192). -/
def execAmoAnd (o : AmoO) (s : State) : Host.Outcome State Fault Refusal := .next (s.amo o .and)
/-- AMO.or (R192). -/
def execAmoOr (o : AmoO) (s : State) : Host.Outcome State Fault Refusal := .next (s.amo o .or)
/-- AMO.xor (R192). -/
def execAmoXor (o : AmoO) (s : State) : Host.Outcome State Fault Refusal := .next (s.amo o .xor)
/-- AMO.min (R192). -/
def execAmoMin (o : AmoO) (s : State) : Host.Outcome State Fault Refusal := .next (s.amo o .min)
/-- AMO.max (R192). -/
def execAmoMax (o : AmoO) (s : State) : Host.Outcome State Fault Refusal := .next (s.amo o .max)
/-- AMO.minn (R192). -/
def execAmoMinn (o : AmoO) (s : State) : Host.Outcome State Fault Refusal := .next (s.amo o .minn)
/-- AMO.maxn (R192). -/
def execAmoMaxn (o : AmoO) (s : State) : Host.Outcome State Fault Refusal := .next (s.amo o .maxn)
/-- AMO.swap (R192). -/
def execAmoSwap (o : AmoO) (s : State) : Host.Outcome State Fault Refusal := .next (s.amo o .swap)
/-- AMO.fadd (R192). -/
def execAmoFadd (o : AmoO) (s : State) : Host.Outcome State Fault Refusal := .next (s.amo o .fadd)
/-- RED.add (R194). -/
def execRedAdd (o : RedO) (s : State) : Host.Outcome State Fault Refusal := .next (s.red o .add)
/-- RED.fadd (R194). -/
def execRedFadd (o : RedO) (s : State) : Host.Outcome State Fault Refusal := .next (s.red o .fadd)
/-- RED.min (R194). -/
def execRedMin (o : RedO) (s : State) : Host.Outcome State Fault Refusal := .next (s.red o .min)
/-- RED.max (R194). -/
def execRedMax (o : RedO) (s : State) : Host.Outcome State Fault Refusal := .next (s.red o .max)
/-- RED.or (R194). -/
def execRedOr (o : RedO) (s : State) : Host.Outcome State Fault Refusal := .next (s.red o .or)
/-- CAS (R193). -/
def execCas (o : CasO) (s : State) : Host.Outcome State Fault Refusal :=
  .next (s.issueP none [.s o.a o.am, .s o.b o.bm, .s o.c o.cm] (fun s => s.amoChk o.a o.w32) fun s =>
    s.sendOp (.cas (s.amoLoc o.a o.w32) o.w32 (s.rd o.b) (s.rd o.c)) (.s o.d.val) (State.ordRel o.ord o.scope)
      (State.ordAcq o.ord o.scope) (s.needsMq (s.rd o.a).toNat) (s.rd o.a) 12)

/-- ATOMIC_AT_HOME (R191 to R193): an AMO or CAS is performed; poisoned data delivers its address (R326). -/
def execAtomicAtHome (o : OpRef) (s : State) : Host.Outcome State Fault Refusal :=
  .next (s.whenSent o fun q s =>
    let p := s.partOf ⟨o.core, o.slot⟩
    let home := fun (l : Loc) => match l with
      | .paged _ h _ => h
      | .pad c _ => coreDie c
    let give := fun (l : Loc) (n : Nat) (s : State) (old : Nat) =>
      if s.segPoisoned (home l) p ⟨l, n⟩ then s.decideRes o q.va.toNat .poisoned else s.decideRes o old .none
    match q.kind with
    | .amo l w32 op b =>
      let n := if w32 then 4 else 8
      s.atomicStep o l n (fun old => some (amoVal op w32 old b.toNat)) (give l n)
    | .cas l w32 e v =>
      let n := if w32 then 4 else 8
      s.atomicStep o l n (fun old => if old = e.toNat % 2 ^ (8 * n) then some (v.toNat % 2 ^ (8 * n)) else none) (give l n)
    | _ => s)
namespace State

/-- The die's L2 accepts a RED to a remote-homed word: it is performed at die scope, returns its miss-queue entry and leaves the
sector in state U, without a clean copy; until then the die's own dirty bytes of the sector go to the home (R161, R191, R194). -/
def acceptRed (s : State) (o : OpRef) (l : Loc) (w32 : Bool) (op : AmoOp) (b : Word) : State :=
  let d := coreDie o.core
  let p := s.partOf ⟨o.core, o.slot⟩
  match l with
  | .paged pa home tag =>
    if s.sectorClean d l then
      let s := (s.l1Snoop d none (lineKey (pa / 512) tag home) (pa / 128 % 4) true).dropCopy d tag home pa
      let s := s.modDie d fun D => { D with reds := D.reds ++ [⟨o, p, l, w32, op, b⟩] }
      (s.noteBy ⟨o.core, o.slot⟩).finishOp o
    else s.pushSel d fun k => keyDiv 128 k == lineKey (pa / 128) tag home
  | .pad _ _ => s
/-- A word's home is another die than d. -/
def isRemote (d : Nat) (l : Loc) : Bool :=
  match l with
  | .paged _ home _ => home != d
  | .pad _ _ => false

end State

/-- RED_APPLY (R194): a reduction is applied where its home or bank is its own die's; one to another die's home is accepted by the
die's L2 first, and reaches its home later, in the order of acceptance for each word. -/
def execRedApply (o : OpRef) (s : State) : Host.Outcome State Fault Refusal :=
  let d := coreDie o.core
  .next (match (s.dieAt d).reds.find? fun q => q.by_ == o with
    | some q => s.flushReds d [⟨q.loc, if q.w32 then 4 else 8⟩]
    | none => s.whenSent o fun q s => match q.kind with
      | .red l w32 op b =>
        if State.isRemote d l then s.acceptRed o l w32 op b
        else s.atomicStep o l (if w32 then 4 else 8) (fun old => some (amoVal op w32 old b.toNat)) fun s _ => s.finishOp o
      | _ => s)
/-- PUSH_APPLY (R162): a push under way is applied at its home, if every push its sender had observed there is; the home's L2 takes
its lines, unless their writer's policy was to allocate none (R145). -/
def execPushApply (idx : Nat) (s : State) : Host.Outcome State Fault Refusal :=
  .next (match s.inflight[idx]? with
    | some q =>
      if s.pushReady q && s.live q.die && s.live q.home then
        let s := if q.gen = s.gen q.part then
            (State.pushSectors q).foldl (fun (s : State) k =>
              let key := lineKey (k / 4) q.part q.home
              (s.l1Snoop q.home none key (k % 4) true).l2Use q.home q.part (if q.alloc then 0 else 4) key (k % 4)) s
          else s
        (State.pushSectors q).foldl (fun (s : State) k => s.settle q.home (.paged (k * 128) q.home q.part)) (s.applyPush q)
      else s
    | none => s)

end Sys2Proof.Machine
end

