-- ==== Sys2Proof/Machine/Bank.lean ====
section
/-! DEFINITION. The synchronising scratchpad accesses and the event of their arrival at a bank (R179 to R181), and the
cache and retention controls (R189, R190). -/
namespace Sys2Proof.Machine
namespace State

/-- A slot is stopping under a kill or a double trap, or a kill has found it stopping (R335). -/
def isKilled (s : State) (r : SlotRef) : Bool :=
  match (s.slotAt r).run with
  | .ending .kill | .ending .doubleTrap => true
  | .ending _ => !(s.slotAt r).killers.isEmpty
  | _ => false
/-- A request at a word can be served now (R179). -/
def bankCan (s : State) (c p : Nat) (q : BankReq) : Bool :=
  let full := (s.padWord c p (q.off / 8)).full
  match q.op with
  | .ldsy | .ldpk => full
  | .stsy => !full
  | .ldfe | .stfl | .stem => true

/-- An operation has written a scratchpad word; its slot, unless its task is spilled, knows its own writes (R152). -/
def noteBank (s : State) (o : OpRef) : State :=
  if (s.pendAt o).isSome then s.noteBy ⟨o.core, o.slot⟩ else s.modCore o.core fun C => { C with wrote := C.wrote + 1 }
/-- The effect of a request at its word (R179): a fill of poisoned data is its address (R326); a fill by another die makes
the acquire one of package scope (R168). -/
def bankApply (s : State) (c p : Nat) (q : BankReq) : State :=
  let i := q.off / 8
  let w := s.padWord c p i
  let o : OpRef := ⟨q.ref.core, q.ref.slot, q.id⟩
  let give := fun (s : State) (v : Nat) =>
    let s := if w.far then s.modPend o fun x => { x with acq := some .pkg } else s
    let va := ((s.pendAt o).map fun x => x.va.toNat).getD 0
    if s.padPoisoned c p q.off then s.decideRes o va .poisoned else s.decideRes o v .none
  let put : PadWord := ⟨q.data, true, coreDie q.ref.core != coreDie c⟩
  match q.op with
  | .ldsy => (give s w.val.toNat).padSet c p i { w with full := false }
  | .ldpk => give s w.val.toNat
  | .ldfe =>
    let bits := packLanes 1 ((List.range 64).map fun k => ((s.padWord c p (i + k)).full).toNat)
    s.decideRes o bits .none
  | .stsy | .stfl => ((s.padSet c p i put).noteBank o).finishOp o
  | .stem => ((s.padSet c p i { w with full := false }).noteBank o).finishOp o

/-- Serve the requests of word i in the order they reached the bank, for as long as one can be served (R180). -/
def bankServe (c p i : Nat) : Nat → State → State
  | 0, s => s
  | n + 1, s =>
    match (s.cpAt c p).bankQ.find? fun q => q.off / 8 == i && s.bankCan c p q with
    | none => s
    | some q =>
      bankServe c p i n ((s.modCp c p fun cp => { cp with bankQ := cp.bankQ.filter fun x => x.id != q.id }).bankApply c p q)

/-- Serve every request that waits at a word. -/
def bankRun (s : State) (c p i : Nat) : State := bankServe c p i ((s.cpAt c p).bankQ.length + 1) s

/-- The checks of a synchronising access (R171): check 2 is cause 11; each takes a miss-queue entry (R179). -/
def syncChk (s : State) (va n : Nat) : Chk :=
  match whereIs s.cur.core va with
  | .bad => .trap 7 (BitVec.ofNat 64 va)
  | .page => .trap 11 (BitVec.ofNat 64 va)
  | .win _ _ => s.xlChk true (s.memXl .read va n 8)

/-- The core and offset a window address names. -/
def winAt (s : State) (va : Nat) : Nat × Nat :=
  match whereIs s.cur.core va with
  | .win c off => (c, off)
  | _ => (s.cur.core, 0)

/-- Scope of a synchronising store's release: core at home, die on the die, package across dies (R157, R180). -/
def syncRel (s : State) (c : Nat) : Scope :=
  if c = s.cur.core then .core else if coreDie c = coreDie s.cur.core then .die else .pkg

/-- LDSY, LDPK, LDFE: send the request. -/
def syncLoad (o : SyLdO) (op : BankOp) (n : Nat) (s : State) : State :=
  s.issueP none [.s o.a o.am] (fun s => s.syncChk (s.ea o.a o.imm) n) fun s =>
    let va := s.ea o.a o.imm
    let (c, off) := s.winAt va
    let acq := if op = .ldfe then none else some Scope.die
    let (id, s) := s.launchOp (.bank c off op 0) (.s o.d.val) none acq true (BitVec.ofNat 64 va)
    if op = .ldsy then s.parkOn (.ldsy id) else s.retire 8 8
/-- STSY and STFL: send the request. -/
def syncStore (o : SyStO) (op : BankOp) (s : State) : State :=
  s.issueP none [.s o.a o.am, .s o.b o.bm] (fun s => s.syncChk (s.ea o.a o.imm) 8) fun s =>
    let va := s.ea o.a o.imm
    let (c, off) := s.winAt va
    s.sendOp (.bank c off op (s.rd o.b)) .none (some (s.syncRel c)) none true (BitVec.ofNat 64 va) 8

/-- The checks of FLUSH and INVL: 1 and 5, with read permission; a window address does nothing (R189). -/
def lineChk (s : State) (va : Nat) : Chk :=
  match whereIs s.cur.core va with
  | .bad => .trap 7 (BitVec.ofNat 64 va)
  | .win _ _ => .ok
  | .page => s.xlChk false (s.xl .read va 1)
/-- Physical address, home and tag of a paged byte that has passed its checks. -/
def lineAt (s : State) (va : Nat) : Option (Nat × Nat × Nat) :=
  match whereIs s.cur.core va, s.xl .read va 1 with
  | .page, .ok (⟨.paged pa home tag, _⟩ :: _) => some (pa, home, tag)
  | _, _ => none

end State

/-- LDSY (R179): parks until the word is full and its value has come. -/
def execLdsy (o : SyLdO) (s : State) : Host.Outcome State Fault Refusal := .next (s.syncLoad o .ldsy 8)
/-- LDPK (R179). -/
def execLdpk (o : SyLdO) (s : State) : Host.Outcome State Fault Refusal := .next (s.syncLoad o .ldpk 8)
/-- LDFE (R179): the full/empty bits of 64 words. -/
def execLdfe (o : SyLdO) (s : State) : Host.Outcome State Fault Refusal := .next (s.syncLoad o .ldfe 512)
/-- STSY (R179). -/
def execStsy (o : SyStO) (s : State) : Host.Outcome State Fault Refusal := .next (s.syncStore o .stsy)
/-- STFL (R179). -/
def execStfl (o : SyStO) (s : State) : Host.Outcome State Fault Refusal := .next (s.syncStore o .stfl)
/-- STEM (R179). -/
def execStem (o : SyEmO) (s : State) : Host.Outcome State Fault Refusal :=
  .next (s.issueP none [.s o.a o.am] (fun s => s.syncChk (s.ea o.a o.imm) 8) fun s =>
    let va := s.ea o.a o.imm
    let (c, off) := s.winAt va
    s.sendOp (.bank c off .stem 0) .none none none true (BitVec.ofNat 64 va) 8)

namespace State

/-- The words that a request uses. -/
def bankWords (off : Nat) (op : BankOp) : List Nat := (List.range (if op = .ldfe then 64 else 1)).map fun k => off / 8 + k
/-- A request of a slot may reach its words now: none of a slot behind it has reached one of them in this cycle (R180). -/
def bankTurn (s : State) (c p : Nat) (ws : List Nat) (r : SlotRef) : Bool :=
  ws.all fun w =>
    let last := Sparse.get (0, 0) (s.cpAt c p).lastReq w
    last.1 != s.cycleOf c + 1 || decide (last.2 ≤ slotKey r)
/-- An operation's unit has it; a spilled task's stands in its record. -/
def opArrived (s : State) (o : OpRef) : State :=
  let put := fun (q : Pend) => if q.id = o.id then { q with arrived := true } else q
  let s := s.modPend o fun q => { q with arrived := true }
  if s.spilled.any fun x => x.holds o.id then
    { s with spilled := s.spilled.map fun x => if x.live then { x with ops := x.ops.map put } else x }
  else s
/-- A request reaches its bank, in the order of packed core and slot within a cycle; it is served or waits, and may serve others
(R179, R180). -/
def bankArrive (s : State) (o : OpRef) (p c off : Nat) (op : BankOp) (data : Word) : State :=
  let r : SlotRef := ⟨o.core, o.slot⟩
  let ws := bankWords off op
  if !s.bankTurn c p ws r then s
  else
    ((s.opArrived o).modCp c p fun cp => { cp with
      bankQ := cp.bankQ ++ [⟨r, o.id, off, op, data⟩]
      lastReq := ws.foldl (fun m w => Sparse.set w (s.cycleOf c + 1, slotKey r) m) cp.lastReq }).bankRun c p (off / 8)
/-- A STSY of a spilled task that stood behind one waiting at its bank is sent once that is applied (R168, R181). -/
def spilledStsy (s : State) (o : OpRef) : State :=
  match s.spilled.find? fun x => x.holds o.id && x.core == o.core with
  | none => s
  | some x => match x.ops.find? fun q => q.id == o.id with
    | none => s
    | some q => match q.kind with
      | .bank c off .stsy data =>
        if q.res.isNone && !q.arrived && (x.ops.takeWhile fun e => e.id != o.id).all (fun e => !holdsBack e q)
            && s.live (coreDie o.core) && s.live (coreDie c) then
          (s.sendRel (coreDie o.core) q.rel (.pad c x.task.part (off / 8))).bankArrive o x.task.part c off .stsy data
        else s
      | _ => s

end State

/-- BANK_SYNC_REQUEST (R179, R180): the request reaches its bank; a STSY or LDPK of a killed slot that would wait is discarded
(R181). -/
def execBankSyncRequest (o : OpRef) (s : State) : Host.Outcome State Fault Refusal :=
  .next (if (s.pendAt o).isNone then s.spilledStsy o
    else s.whenSent o fun q s => match q.kind with
      | .bank c off op data =>
        let r : SlotRef := ⟨o.core, o.slot⟩
        let s := s.bankArrive o (s.partOf r) c off op data
        if s.isKilled r && (op == .stsy || op == .ldpk) && (s.pendAt o).any (fun q => q.arrived && q.res.isNone) then s.withdraw r o.id
        else s
      | _ => s)

/-- PREF (R189): fetches the sector into the L1 under its policy; an address failure makes it a no-op. One whose sector stands behind
a frozen die fetches nothing, which no agent can tell by a value (DESIGN CHOICE, log 84). -/
def execPref (o : PrefO) (s : State) : Host.Outcome State Fault Refusal :=
  .next (s.issueP none [.s o.a o.am] (fun s => match s.lineChk (s.ea o.a o.imm) with
      | .stall y => .stall y
      | _ => .ok) fun s =>
    let s := match s.lineAt (s.ea o.a o.imm) with
      | some (pa, home, tag) =>
        if !s.readLive (coreDie s.cur.core) false [⟨.paged pa home tag, 1⟩] then s else
        (s.cacheUse (coreDie s.cur.core) s.herePart (some s.cur.core) o.pol.val (lineKey (pa / 512) tag home) (pa / 128 % 4) false).touch
          (coreDie s.cur.core) tag pa home false (o.pol.val != 4)
      | none => s
    s.retire 8 8)
/-- FLUSH (R189): a line that is dirty in the core's L1 goes to L2 and leaves the L1; of a remote-homed line the dirty sectors are
pushed. -/
def execFlush (o : SyEmO) (s : State) : Host.Outcome State Fault Refusal :=
  .next (s.issueP none [.s o.a o.am] (fun s => s.lineChk (s.ea o.a o.imm)) fun s =>
    let s := match s.lineAt (s.ea o.a o.imm) with
      | some (pa, home, tag) =>
        let key := lineKey (pa / 512) tag home
        let dirty := (Sparse.get? (s.coreAt s.cur.core).l1 key).any fun (l : CLine) => !l.dirty.isEmpty
        (s.l1Drop s.cur.core key fun _ => dirty).pushSel (coreDie s.cur.core) fun k => keyDiv 512 k == key
      | none => s
    s.retire 8 8)
/-- INVL (R189): the clean copies of the line go from the core's L1, and of a remote-homed line from the die's L2. -/
def execInvl (o : SyEmO) (s : State) : Host.Outcome State Fault Refusal :=
  .next (s.issueP none [.s o.a o.am] (fun s => s.lineChk (s.ea o.a o.imm)) fun s =>
    let s := match s.lineAt (s.ea o.a o.imm) with
      | some (pa, home, tag) =>
        let s := s.l1Drop s.cur.core (lineKey (pa / 512) tag home) fun dirty => !dirty
        if home = coreDie s.cur.core then s
        else [0, 128, 256, 384].foldl (fun (s : State) i =>
          s.dropCopy (coreDie s.cur.core) tag home (pa / 512 * 512 + i)) s
      | none => s
    s.retire 8 8)

namespace State

/-- The checks of PIN (R190): multiples of 512, then every page's translation; those already made for it stand in its slot, however
many pages there are. -/
def pinChk (s : State) (a b : Nat) : Chk :=
  if b = 0 then .ok
  else if a % 512 ≠ 0 then .trap 4 (BitVec.ofNat 64 a)
  else if b % 512 ≠ 0 then .trap 4 (BitVec.ofNat 64 b)
  else s.xlChk false (s.xl .read a b)
/-- The frames of a range's pages, in ascending order. -/
def pinFrames (s : State) (a b : Nat) : List Nat :=
  if b = 0 then []
  else (List.range ((a + b - 1) / 65536 - a / 65536 + 1)).map fun i =>
    ((s.hereHit ((a / 65536 + i) % 2 ^ 48 * 65536) .read).map fun e => e.pa / 65536).getD 0

end State

/-- PIN (R190): a retention range of the partition, or its clearing when the length is 0. -/
def execPin (o : PinO) (s : State) : Host.Outcome State Fault Refusal :=
  .next (s.issueP none [.s o.a o.am, .s o.b o.bm] (fun s => s.pinChk (s.rd o.a).toNat (s.rd o.b).toNat) fun s =>
    let a := (s.rd o.a).toNat
    let b := (s.rd o.b).toNat
    let fr := s.pinFrames a b
    ((s.modPart s.herePart fun P => { P with
      pins := if b = 0 then Sparse.erase o.n.toNat P.pins else Sparse.set o.n.toNat (a, b, fr) P.pins }).reKeep s.herePart).retire 8 8)
/-- UNPIN (R190). -/
def execUnpin (o : UnpinO) (s : State) : Host.Outcome State Fault Refusal :=
  .next (s.issue [] fun s =>
    ((s.modPart s.herePart fun P => { P with pins := Sparse.erase o.n.toNat P.pins }).reKeep s.herePart).retire 8 8)

end Sys2Proof.Machine
end

