-- ==== Sys2Proof/Machine/Barw.lean ====
section
/-! DEFINITION. BARW and its events (R261, R262). -/
namespace Sys2Proof.Machine

/-- BARW (R262): wire select 3, a clear BJOIN bit and an arrival already pending are answered at once; else the arrival is
sent and the slot parks. An arrival sent and not yet counted is pending too (log 83). BARW is a release and an acquire at die
scope. -/
def execBarw (o : RRO) (s : State) : Host.Outcome State Fault Refusal :=
  .next (s.issueP none [.s o.a o.am] (fun s => if s.mqFull then .stall .missQueue else .ok) fun s =>
    let sel := (s.rd o.a).toNat % 4
    let c := s.cur.core
    let p := s.herePart
    let answer := fun v : Word => (s.giveNow o.d v .none).retire 8 8
    match State.wireOf c sel with
    | none => answer 0x8000000000000003
    | some w =>
      if !(s.takesPart p w c) then answer 0x8000000000000003
      else if (s.wireAt (coreDie c) p w).arrivals.any (fun a => a.1 == c)
          || !(s.barwSent c p w).isEmpty then answer 0x8000000000000002
      else
        let bto := s.here.bto.toNat
        let k := s.cycleOf c
        let (id, s) := s.launchOp (.barw w (if bto = 0 then 0 else k + bto)) (.s o.d.val) (some .die) (some .die) true 0
        s.parkOn (.barw id))

/-- BARW_ARRIVAL_COUNTED (R262): the arrival counts once the thread's earlier operations are performed at die scope, and
may complete the wire. -/
def execBarwArrivalCounted (o : OpRef) (s : State) : Host.Outcome State Fault Refusal :=
  .next (s.whenSent o fun q s => match q.kind with
    | .barw w _ =>
      let d := coreDie o.core
      let p := s.partOf ⟨o.core, o.slot⟩
      if s.arrivalLate o then s.decideRes o 0x8000000000000001 .none
      else
      let s := s.modPend o fun q => { q with arrived := true }
      let x := s.wireAt d p w
      (s.setWire d p w { x with arrivals := x.arrivals ++ [(o.core, o)] }).wireEval d p w
    | _ => s)

/-- BARW_TIMEOUT (R262): BTO cycles after issue without completion, also in the last of them, the arrival is withdrawn with
status 1. -/
def execBarwTimeout (o : OpRef) (s : State) : Host.Outcome State Fault Refusal :=
  .next (match s.pendAt o with
    | some q => match q.kind with
      | .barw w _ =>
        if q.res.isNone && s.arrivalLate o && s.live (coreDie o.core) then
          let d := coreDie o.core
          let p := s.partOf ⟨o.core, o.slot⟩
          let x := s.wireAt d p w
          ((s.setWire d p w { x with arrivals := x.arrivals.filter fun a => !(a.2 = o) }).decideRes o 0x8000000000000001 .none).land o
        else s
      | _ => s
    | none => s)

end Sys2Proof.Machine
end

