-- ==== Sys2Proof/Machine/Units.lean ====
section
/-! DEFINITION. The shared units of the package: finish scopes (R268, R344 to R346), the Rime tables and filter (R31 to
R36, R263 to R265), the Cirque's groups (R272 to R274, R348), and the ending of tasks that never start (R17, R34, R274). -/
namespace Sys2Proof.Machine
namespace State

/-- The outstanding operations that `sel` picks, by slot. -/
def pendsWhere (s : State) (sel : SlotRef → Pend → Bool) : List OpRef :=
  s.slots.flatMap fun e =>
    let r := refOfKey e.1
    (e.2.pend.filter (sel r)).map fun q => ⟨r.core, r.slot, q.id⟩

/-! ## Launches (R10, R27) -/

/-- A launch table entry that is live (R39). -/
def launchAt (s : State) (d l : Nat) : Option Launch := Sparse.get? (s.dieAt d).launches l
/-- Change a launch that is live. -/
def modLaunch (s : State) (d l : Nat) (f : Launch → Launch) : State :=
  s.modDie d fun D => { D with launches := D.launches.map fun e => if e.1 = l then (e.1, f e.2) else e }

end State

/-- What has become of task t: as listed; else tag-ready when the launch is untagged, and eligible once that has fired;
else waiting with the inputs diverted for all (R29, R33, R34, R36). -/
def Launch.st (L : Launch) (t : Nat) : TaskSt :=
  match Sparse.get? L.tasks t with
  | some x => x
  | none => if !L.inputs.isEmpty then .waiting L.divAll else if L.fired then .eligible else .ready
/-- What a task becomes that is tag-ready: eligible at once if the launch is untimed or its release time has come (R34). -/
def Launch.readySt (L : Launch) : TaskSt := if L.fired then .eligible else .ready
/-- The release time has come: every tag-ready task becomes eligible (R29, R30). -/
def Launch.fire (L : Launch) : Launch :=
  { L with fired := true, tasks := Sparse.mapVal (fun _ x => if x = .ready then .eligible else x) L.tasks }
/-- Inputs `is_` are diverted for every task that waits (R36). -/
def Launch.divert (L : Launch) (is_ : List Nat) : Launch :=
  let more := fun (div : List Nat) => div ++ is_.filter fun i => !div.contains i
  { L with divAll := more L.divAll, tasks := Sparse.mapVal (fun _ x => match x with
      | .waiting div => .waiting (more div)
      | x => x) L.tasks }
/-- A task is still before the Rime filter. -/
def Launch.isWaiting (L : Launch) (t : Nat) : Bool :=
  match L.st t with
  | .waiting _ => true
  | _ => false
/-- Record what has become of a task. -/
def Launch.put (L : Launch) (t : Nat) (x : TaskSt) : Launch := { L with tasks := Sparse.set t x L.tasks }
/-- The lowest waiting task from t on, the task count if none; `fuel` is how many are left. -/
def Launch.lowestFrom (L : Launch) : Nat → Nat → Nat
  | 0, t => t
  | n + 1, t => if L.isWaiting t then t else L.lowestFrom n (t + 1)
/-- The window moved past tasks that no longer wait (R33). -/
def Launch.slide (L : Launch) : Launch := { L with low := L.lowestFrom (L.taskN - L.low) L.low }
/-- The sibling group and member index of a task (R19); none without a sibling section. -/
def Launch.sibling (L : Launch) (t : Nat) : Option (Nat × Nat) :=
  if L.sibn = 0 then none else some (L.groups.getD (t / L.sibn) 0, t % L.sibn)
/-- The identity of a task (R318). -/
def Launch.taskOf (L : Launch) (d l t : Nat) : Task :=
  let g := (L.sibling t).getD (0, 255)
  ⟨L.lseq, g.1, g.2, L.part, L.scope, d, l, L.taskN, t, L.entry, L.handler⟩

namespace State

/-- One more task of a launch has ended; the last one frees its entry (R27). -/
def taskEnded (s : State) (d l t : Nat) : State :=
  match s.launchAt d l with
  | none => s
  | some L =>
    if L.taskN ≤ L.ended + 1 then s.modDie d fun D => { D with launches := Sparse.erase l D.launches }
    else s.modLaunch d l fun L => { L.put t .ended with ended := L.ended + 1 }

/-- A task ends without starting: its launch counts it, and it leaves its scope, by way of the Cirque for a sibling
member; NFAULT counts it, `err` marks the scope (R17, R34, R274, R344). -/
def endUnstarted (s : State) (d l t : Nat) (err : Bool) : State :=
  match s.launchAt d l with
  | none => s
  | some L =>
    let dep : Depart := ⟨16384 + d, L.part, L.scope, d, L.lseq, err, true, [], [], [], []⟩
    let s := s.taskEnded d l t
    match L.sibling t with
    | none => { s with scopeQ := s.scopeQ ++ [.depart dep] }
    | some (g, m) =>
      let s : State := { s with memberQ := s.memberQ ++ [⟨g, m, 0, false, dep⟩] }
      s.modGroup g fun G => { G with members := G.members.mapIdx fun i x => if i = m then { x with gone := true } else x }

/-! ## The Rime tables (R31, R32, R36) -/

end State

/-- An entry at h is newer than e (R32). -/
def genNewer (h e : BitVec 16) : Bool := let d := (h - e).toNat; decide (1 ≤ d) && decide (d ≤ 32767)

namespace State

/-- The generation of a key's entry, if it has one. -/
def tagGen (s : State) (p key : Nat) : Option (BitVec 16) :=
  Sparse.get? (s.dieAt (tagHome key)).rime (p * 2 ^ 48 + key)
/-- A partition's buffer is in overflow mode (R36). -/
def inOverflow (s : State) (p buf : Nat) : Bool := s.overflow.contains (p * 65536 + buf)
/-- A new entry of a partition finds no room on a die: its quota is used up or the table is full (R36). -/
def tagNoRoom (s : State) (d p : Nat) : Bool :=
  let t := (s.dieAt d).rime
  let quota := ((s.part? p).map fun P => P.cfg.rimeQ.getD d 0).getD 0
  decide (quota ≤ (t.filter fun e => e.1 / 2 ^ 48 == p).length) || decide (65536 ≤ t.length)
/-- Set a key's entry. -/
def tagSet (s : State) (p key : Nat) (g : BitVec 16) : State :=
  s.modDie (tagHome key) fun D => { D with rime := Sparse.set (p * 2 ^ 48 + key) g D.rime }
/-- Remove the entries that `sel` picks on a die. -/
def tagDrop (s : State) (d : Nat) (sel : Nat → Bool) : State :=
  s.modDie d fun D => { D with rime := D.rime.filter fun e => !sel e.1 }

/-! ## The Rime filter (R33, R34) -/

end State

/-- How an evaluation of a task ends (R17, R34). -/
inductive Gate where
  | wide (input key : Nat)
  | stale (input key : Nat)
  | ready
  | wait (diverted : List Nat)
  deriving DecidableEq, Repr

namespace State

/-- Key of input i of task t (R16). -/
def inputKey (i : TagInput) (t : Nat) : Nat := i.buf * 2 ^ 32 + (i.tile + t * i.stride) % 2 ^ 32

/-- Evaluate task t of a launch whose diverted inputs are `div` (R17, R34, R36). -/
def gate (s : State) (L : Launch) (t : Nat) (div : List Nat) : Gate :=
  let ins : List (Nat × TagInput) := (List.range L.inputs.length).zip L.inputs
  let key := fun (e : Nat × TagInput) => inputKey e.2 t
  match ins.find? fun e => tagWide (key e) with
  | some e => .wide e.1 (key e)
  | none =>
    let off := fun (e : Nat × TagInput) => div.contains e.1 || s.inOverflow L.part e.2.buf
    let gen := fun (e : Nat × TagInput) => s.tagGen L.part (key e)
    match ins.find? fun e => !off e && (gen e).any fun h => genNewer h (BitVec.ofNat 16 e.2.gen) with
    | some e => .stale e.1 (key e)
    | none =>
      let empty := (s.scopeAt L.part L.fbscope).members == 0
      if ins.all fun e => if off e then empty else gen e == some (BitVec.ofNat 16 e.2.gen) then .ready
      else .wait ((ins.filter off).map fun e => e.1)

/-- Evaluate one waiting task and act on the finding: records of kinds 1 and 2 and the task's end (R17, R34). -/
def gateTask (s : State) (d l t : Nat) (L : Launch) (div : List Nat) : State :=
  let drop := fun (kind input key : Nat) =>
    (s.faultRecord L.part kind 9 input (L.taskOf d l t) 0x3FF 0 L.entry (BitVec.ofNat 64 key)).endUnstarted d l t true
  match s.gate L t div with
  | .wide i k => drop 2 i k
  | .stale i k => drop 1 i k
  | .ready => s.modLaunch d l fun L => L.put t L.readySt
  | .wait div => s.modLaunch d l fun L => L.put t (.waiting div)

/-- Evaluate the tasks in the window of a launch from t on, moving the window (R33); `fuel` bounds the tasks left. -/
def gateFrom (d l : Nat) : Nat → Nat → State → State
  | 0, _, s => s
  | n + 1, t, s =>
    match s.launchAt d l with
    | none => s
    | some L =>
      if L.taskN ≤ t ∨ L.low + 64 ≤ t then s
      else
        let s := match L.st t with
          | .waiting div => s.gateTask d l t L div
          | _ => s
        gateFrom d l n (t + 1) (s.modLaunch d l Launch.slide)

/-- Evaluate a launch's window. -/
def gateLaunch (s : State) (d l : Nat) : State :=
  match s.launchAt d l with
  | none => s
  | some L => if L.inputs.isEmpty then s else gateFrom d l (L.taskN - L.low) L.low s

/-- The filters of the dies evaluate a partition's waiting tasks (R34). -/
def gateAll (s : State) (p : Nat) : State :=
  [0, 1, 2, 3].foldl (fun (s : State) d =>
    (s.dieAt d).launches.foldl (fun (s : State) e => if e.2.part = p then s.gateLaunch d e.1 else s) s) s

/-- A partition's buffer has entered overflow mode: the inputs that name it are diverted for each waiting task (R36). -/
def divertAll (s : State) (p buf : Nat) : State :=
  let one := fun (L : Launch) =>
    if L.part = p then
      L.divert ((List.range L.inputs.length).filter fun i => ((L.inputs.map fun x => x.buf).getD i 65536) == buf)
    else L
  { s with dies := Sparse.mapVal (fun _ (D : Die) => { D with launches := Sparse.mapVal (fun _ L => one L) D.launches }) s.dies }

/-! ## TAGWAIT (R265) -/

/-- Evaluate a TAGWAIT that waits at its key's home; `va` nonzero says that it has been diverted. A stale one fills its
register, then traps at its PC; a fill of 3 is no acquire. -/
def tagwaitEval (s : State) (o : OpRef) : State :=
  let r : SlotRef := ⟨o.core, o.slot⟩
  match s.pendAt o with
  | none => s
  | some q =>
    match q.kind with
    | .tag key .wait arg =>
      if !q.arrived || q.res.isSome || (s.slotAt r).run != .parked (.tagwait o.id) then s
      else
        if s.cancelFirst r then s.cancelWait r
        else
        let p := s.partOf r
        let inMode := s.inOverflow p (tagBuf key)
        let e : BitVec 16 := arg.setWidth 16
        if q.va ≠ 0 ∨ (inMode ∧ arg.getLsbD 24) then
          let s := s.modPend o fun q => { q with va := 1 }
          if (s.scopeAt p (field arg.toNat 16 8)).members = 0 then s.decideRes o 1 .none else s
        else if inMode then (s.modPend o fun q => { q with acq := none }).decideRes o 3 .none
        else match s.tagGen p key with
          | none => s
          | some h =>
            if h = e then s.decideRes o 0 .none
            else if genNewer h e then
              ((s.fillReg r q.dest q.id 0x8000000000000009 .faulted).dropPend o).trapAt r 9 (BitVec.ofNat 64 key)
            else s
    | _ => s

/-- Every waiting TAGWAIT of a partition is evaluated. -/
def tagwaitAll (s : State) (p : Nat) : State :=
  (s.pendsWhere fun r q => s.partOf r == p && (match q.kind with
    | .tag _ .wait _ => true
    | _ => false)).foldl (fun s o => s.tagwaitEval o) s

/-- A key, an overflow mode or a fallback scope of a partition has changed: its consumers are evaluated (R34, R265). -/
def consumersAll (s : State) (p : Nat) : State := (s.gateAll p).tagwaitAll p

/-! ## Finish scopes (R268, R345, R346) -/

/-- Change a scope. -/
def modScope (s : State) (p n : Nat) (f : Fscope → Fscope) : State :=
  { s with scopes := Sparse.modify Fscope.init (p * 256 + n) f s.scopes }

/-- A change may reach the scope unit now: none that stands behind it in the order of one cycle has been applied to the
partition's scopes in this cycle (R345). -/
def scopeTurn (s : State) (p key : Nat) : Bool :=
  let last := Sparse.get (0, 0) s.scopeLast p
  last.1 != s.ticks + 1 || decide (last.2 ≤ key)
/-- A change reaches the scope unit. -/
def scopeNote (s : State) (p key : Nat) : State := { s with scopeLast := Sparse.set p (s.ticks + 1, key) s.scopeLast }
/-- Place of a departure without a start, by the die of its launch. -/
def unstartedKey (d : Nat) : Nat := 16384 + d
/-- Place of a queue engine's change, by its die. -/
def engineKey (d : Nat) : Nat := 16388 + d
/-- A scope gains k members; ERR is cleared when it had none (R268). -/
def scopeJoin (s : State) (p n k : Nat) : State :=
  s.modScope p n fun x => { x with
    members := (x.members + k) % 2 ^ 40
    err := x.err && (decide (k = 0) || x.members != 0) }

/-- The completion records due at a completion of scope n: every pending launch of it whose tasks have all left (R346). -/
def recordsDue (s : State) (p n : Nat) (err : Bool) : State :=
  let due := fun (x : PendRec) => x.scope == n && decide (x.taskN ≤ x.left)
  s.modPart p fun P => { P with
    recs := P.recs ++ (P.pendRecs.filter due).map fun x =>
      ⟨x.queue, x.seq, x.taskN, x.nfault, if err then 16 else 0, x.late, s.time, x.slaunch⟩
    pendRecs := P.pendRecs.filter fun x => !due x }

/-- What releases have brought to one unit's state goes on to another's (R162). -/
def passRel (s : State) (x y : Chan) : State :=
  match Sparse.get? s.relOf x.key with
  | some v => { s with relOf := Sparse.set y.key (vecMax v (Sparse.get [] s.relOf y.key)) s.relOf }
  | none => s
/-- Scope n completes: FSWAITs wake, records are queued, fallback inputs are evaluated, and the parent loses a member,
which may complete it in turn (R268); `fuel` is at least the scope's number, since a parent's is lower. -/
def scopeComplete (p : Nat) : Nat → Nat → State → State
  | 0, _, s => s
  | fuel + 1, n, s =>
    let x := s.scopeAt p n
    let waits := s.pendsWhere fun r q => s.partOf r == p && q.arrived && q.res.isNone && q.kind == .fswait n
    let s := waits.foldl (fun s o => s.decideRes o x.err.toNat .none) s
    let s := (s.recordsDue p n x.err).consumersAll p
    match x.parent with
    | none => s
    | some q =>
      let s := (s.modScope p n fun y => { y with parent := none }).passRel (.scope p n) (.scope p q)
      let y := s.scopeAt p q
      let s := s.modScope p q fun y => { y with members := y.members - 1, err := y.err || x.err }
      if y.members = 1 then scopeComplete p fuel q s else s

/-- A scope loses one member, with an error mark or not; one that has none is unchanged (R334, R345). -/
def scopeLeave (s : State) (p n : Nat) (err : Bool) : State :=
  let x := s.scopeAt p n
  if x.members = 0 then s
  else
    let s := s.modScope p n fun y => { y with members := y.members - 1, err := y.err || err }
    if x.members = 1 then scopeComplete p 257 n s else s

/-- FSOPEN (R269). -/
def scopeOpen (s : State) (p c q : Nat) : State :=
  let x := s.scopeAt p c
  if x.holds = 2 ^ 32 - 1 then s
  else
    let s := (s.scopeJoin p c 1).modScope p c fun y => { y with holds := y.holds + 1 }
    if x.members = 0 ∧ q < c then (s.modScope p c fun y => { y with parent := some q }).scopeJoin p q 1 else s

/-- FSCLOSE (R269). -/
def scopeClose (s : State) (p c : Nat) : State :=
  if (s.scopeAt p c).holds = 0 then s
  else (s.modScope p c fun y => { y with holds := y.holds - 1 }).scopeLeave p c false

/-! ## The Cirque (R272 to R274) -/

end State

/-- The leading hash and its count: most posts, the earliest first post among equals (R274). -/
def Group.lead (g : Group) : Option (Word × Nat) :=
  g.hashes.foldl (fun (b : Option (Word × Nat)) h => match b with
    | none => some h
    | some x => if x.2 < h.2 then some h else some x) none
/-- WINCNT (R272). -/
def Group.wincnt (g : Group) : Nat :=
  if g.decided then ((g.hashes.find? fun h => h.1 = g.winner && !g.noAnswer).map fun h => h.2).getD 0
  else (g.lead.map fun h => h.2).getD 0
/-- The 64 bytes of the group record (R272). -/
def Group.record (g : Group) : List Byte :=
  let mstat := (List.range g.members.length).foldl (fun n i => n + (g.members.map fun m => m.stat).getD i 0 * 4 ^ i) 0
  bytesOfNat 64 (g.winner.toNat + g.decided.toNat * 2 ^ 64 + g.byQuorum.toNat * 2 ^ 65 + g.noAnswer.toNat * 2 ^ 66
    + g.members.length * 2 ^ 72 + g.quorum * 2 ^ 80 + g.wincnt * 2 ^ 88 + g.posts * 2 ^ 96 + g.cancelled * 2 ^ 104
    + g.ended * 2 ^ 112 + g.cancTurns.toNat * 2 ^ 128 + g.handTurns.toNat * 2 ^ 192 + mstat * 2 ^ 256
    + g.totTurns.toNat * 2 ^ 384)
/-- Change a member. -/
def Group.modMember (g : Group) (m : Nat) (f : MemberSt → MemberSt) : Group :=
  { g with members := g.members.mapIdx fun i x => if i = m then f x else x }
/-- A member. -/
def Group.memberAt (g : Group) (m : Nat) : MemberSt := g.members.getD m ⟨2, none, false, false, none, false⟩
/-- Some member is running (R274). -/
def Group.running (g : Group) : Bool := g.members.any fun m => m.stat == 0
/-- The plurality decision of an undecided group without running members (R274). -/
def Group.plurality (g : Group) : Group :=
  if g.decided || g.running then g
  else match g.lead with
    | some h => { g with decided := true, winner := h.1 }
    | none => { g with decided := true, noAnswer := true, winner := 0 }
/-- A hash counted in first-post order. -/
def countHash (h : Word) : List (Word × Nat) → List (Word × Nat)
  | [] => [(h, 1)]
  | x :: t => if x.1 = h then (h, x.2 + 1) :: t else x :: countHash h t
/-- The quorum decision, which cancels every running member (R273). -/
def Group.byQuorumOf (g : Group) (h : Word) : Group :=
  { g with
    decided := true, byQuorum := true, winner := h
    cancelled := g.cancelled + (g.members.filter fun m => m.stat == 0).length
    members := g.members.map fun m => if m.stat = 0 then { m with stat := 3, due := m.placed } else m }
/-- A post by member m (R273). -/
def Group.post (g : Group) (m : Nat) (h : Word) : Group :=
  if (g.memberAt m).stat ≠ 0 then g.plurality
  else
    let g := { g.modMember m (fun x => { x with stat := 1, hash := some h }) with posts := g.posts + 1 }
    let g := if g.decided then g
      else
        let g := { g with hashes := countHash h g.hashes }
        if (g.hashes.find? fun x => x.1 = h).any fun x => x.2 == g.quorum then g.byQuorumOf h else g
    g.plurality
/-- The Cirque result for member m (R273). -/
def Group.result (g : Group) (m : Nat) : Nat :=
  let out := if !g.decided then 0
    else match (g.memberAt m).hash with
      | none => 3
      | some h => if h = g.winner then 1 else 2
  out + g.byQuorum.toNat * 4 + g.decided.toNat * 8 + g.wincnt * 2 ^ 8 + g.posts * 2 ^ 16 + g.cancelled * 2 ^ 24
/-- The end of member m with t turns (R348). -/
def Group.endMember (g : Group) (m : Nat) (t : Word) (started : Bool) : Group :=
  let x := g.memberAt m
  let g := { g with ended := g.ended + 1, totTurns := g.totTurns + t }
  let g := match x.stat with
    | 0 => g.modMember m fun x => { x with stat := 2 }
    | 3 => match x.cturns with
      | some c => if started then { g with cancTurns := g.cancTurns + c, handTurns := g.handTurns + (t - c) }
        else { g with cancTurns := g.cancTurns + t }
      | none => { g with cancTurns := g.cancTurns + t }
    | _ => g
  (g.modMember m fun x => { x with due := false }).plurality

namespace State

/-- A group. -/
def groupAt (s : State) (n : Nat) : Option Group := Sparse.get? s.groups n
/-- The Cirque, on die 0, and the dies that hold a group's record run, and no earlier write of the device to the partition waits:
what follows a record's write waits with it (R273, R348, R359). -/
def groupLive (s : State) (g : Group) : Bool :=
  s.live 0 && s.devLive g.part g.recPa 64 && !(s.devOut.any fun y => y.part == g.part)
/-- Put a group's new state and write its record (R272). -/
def putGroup (s : State) (n : Nat) (g : Group) : State :=
  ({ s with groups := Sparse.set n g s.groups } : State).devSend (.put g.part g.recPa g.record)
/-- The members of group n that a decision has just cancelled and that are not placed end without starting, but for one
that has so ended already and whose end is still under way (R274, R348); the launch's window then moves on (R33). -/
def cancelUnplaced (s : State) (n : Nat) (old : Group) : State :=
  match s.groupAt n with
  | none => s
  | some g => ((List.range g.members.length).foldl (fun (s : State) m =>
      if (old.memberAt m).stat = 0 ∧ (g.memberAt m).stat = 3 ∧ !(g.memberAt m).placed ∧ !(g.memberAt m).gone then
        s.endUnstarted g.die g.launch (g.first + m) false
      else s) s).gateLaunch g.die g.launch

/-! ## Translation by the device (R19, R351, R375) -/

/-- The places of n bytes of a partition's virtual memory for a unit of die d, page by page; only paged memory will do. Cause 0
says that a walk waits for a frozen die (R359). -/
def devPages (s : State) (d p : Nat) (acc : Acc) : Nat → Nat → Nat → State × (BitVec 8 ⊕ List Seg)
  | 0, _, _ => (s, .inr [])
  | fuel + 1, va, n =>
    if n = 0 then (s, .inr [])
    else if whereIs 1024 va ≠ .page then (s, .inl 7)
    else
      let m := min n (65536 - va % 65536)
      match s.walk d p 1024 va acc false with
      | (s, .inl f) => (s, .inl f)
      | (s, .inr e) => match s.devPages d p acc fuel ((va + m) % 2 ^ 64) (n - m) with
        | (s, .inl f) => (s, .inl f)
        | (s, .inr gs) => (s, .inr (entrySegs e va m ++ gs))

/-- The places of n bytes from va; none where the access is refused. -/
def devSegs (s : State) (d p : Nat) (acc : Acc) (va n : Nat) : State × Option (List Seg) :=
  match s.devPages d p acc (n / 65536 + 2) va n with
  | (s, .inl _) => (s, none)
  | (s, .inr gs) => (s, some gs)
/-- A walk for n bytes from va waits for a frozen die (R359). -/
def devWaits (s : State) (d p : Nat) (acc : Acc) (va n : Nat) : Bool :=
  match (s.devPages d p acc (n / 65536 + 2) va n).2 with
  | .inl f => f == 0
  | .inr _ => false

/-- Physical address of a place in paged memory. -/
def segPa (g : Seg) : Nat :=
  match g.loc with
  | .paged pa _ _ => pa
  | .pad _ o => o

end State
end Sys2Proof.Machine
end

