-- ==== Sys2Proof/Machine/Tags.lean ====
section
/-! DEFINITION. The tag instructions and the event of a request at its key's home table (R263 to R267). -/
namespace Sys2Proof.Machine
namespace State

/-- Key of a tag instruction (R263). -/
def tagKey (s : State) (a : SField) : Nat := (s.rd a).toNat % 2 ^ 48
/-- A request of the counting and publishing chapter needs a miss-queue entry (R95, R248). -/
def mqChk (s : State) : Chk := if s.mqFull then .stall .missQueue else .ok

/-- TAGPUB at the home: the status, and the state after it (R264, R36). -/
def tagPublish (s : State) (p key : Nat) (g : BitVec 16) : Nat × State :=
  if s.inOverflow p (tagBuf key) then (3, s)
  else match s.tagGen p key with
    | none =>
      if s.tagNoRoom (tagHome key) p then
        (3, ({ s with overflow := (p * 65536 + tagBuf key) :: s.overflow } : State).divertAll p (tagBuf key))
      else (0, s.tagSet p key g)
    | some h => if h ≠ g ∧ !genNewer h g then (1, s.tagSet p key g) else (2, s)

/-- TAGQRY's word (R266). -/
def tagQuery (s : State) (p key : Nat) : Nat :=
  (match s.tagGen p key with
    | some h => h.toNat + 2 ^ 16
    | none => 0) + (s.inOverflow p (tagBuf key)).toNat * 2 ^ 17

/-- TAGRET at the home: one key, or everything of a buffer and its overflow mode (R267). -/
def tagRetire (s : State) (p key : Nat) (g : BitVec 16) : State :=
  if tagWide key then
    let s := { s with overflow := s.overflow.filter fun x => x != p * 65536 + tagBuf key }
    [0, 1, 2, 3].foldl (fun (s : State) d =>
      s.tagDrop d fun k => k / 2 ^ 48 == p && tagBuf (k % 2 ^ 48) == tagBuf key) s
  else if s.tagGen p key = some g then s.tagDrop (tagHome key) fun k => k == p * 2 ^ 48 + key
  else s

end State

/-- TAGPUB (R264): a release at package scope. -/
def execTagpub (o : RRR) (s : State) : Host.Outcome State Fault Refusal :=
  .next (s.issueP none [.s o.a o.am, .s o.b o.bm] State.mqChk fun s =>
    s.sendOp (.tag (s.tagKey o.a) .pub (s.rd o.b)) (.s o.d.val) (some .pkg) none true 0 8)
/-- TAGWAIT (R265): parks; an acquire at package scope. -/
def execTagwait (o : RRR) (s : State) : Host.Outcome State Fault Refusal :=
  .next (s.issueP none [.s o.a o.am, .s o.b o.bm] State.mqChk fun s =>
    let (id, s) := s.launchOp (.tag (s.tagKey o.a) .wait (s.rd o.b)) (.s o.d.val) none (some .pkg) true 0
    s.parkOn (.tagwait id))
/-- TAGQRY (R266). -/
def execTagqry (o : RRO) (s : State) : Host.Outcome State Fault Refusal :=
  .next (s.issueP none [.s o.a o.am] State.mqChk fun s =>
    s.sendOp (.tag (s.tagKey o.a) .qry 0) (.s o.d.val) none none true 0 8)
/-- TAGRET (R267). -/
def execTagret (o : ABO) (s : State) : Host.Outcome State Fault Refusal :=
  .next (s.issueP none [.s o.a o.am, .s o.b o.bm] State.mqChk fun s =>
    s.sendOp (.tag (s.tagKey o.a) .ret (s.rd o.b)) .none none none true 0 8)

/-- TAG_HOME_REQUEST (R31, R263): a tag request acts at its key's home, and the consumers of what it changed are
evaluated; every one but TAGRET answers the buffer-wide key with 0x8000_0000_0000_0009. -/
def execTagHomeRequest (o : OpRef) (s : State) : Host.Outcome State Fault Refusal :=
  .next (s.whenSent o fun q s => match q.kind with
    | .tag key op arg =>
      let p := s.partOf ⟨o.core, o.slot⟩
      let g : BitVec 16 := arg.setWidth 16
      if tagWide key ∧ op ≠ .ret then s.decideRes o 0x8000000000000009 .faulted
      else match op with
        | .pub =>
          let (st, s) := s.tagPublish p key g
          (s.decideRes o st .none).consumersAll p
        | .wait => (s.modPend o fun q => { q with arrived := true }).tagwaitEval o
        | .qry => s.decideRes o (s.tagQuery p key) .none
        | .ret => ((s.tagRetire p key g).finishOp o).consumersAll p
    | _ => s)

end Sys2Proof.Machine
end

