-- ==== Sys2Proof/Machine/Scopes.lean ====
section
/-! DEFINITION. The scope instructions and the event of a change at the scope unit (R268 to R271, R345). The packet of a
SPAWN is read and checked by PACKET_CHECK. -/
namespace Sys2Proof.Machine
namespace State

/-- Send a scope request: its operation, and the change on its way to the scope unit. -/
def sendScope (s : State) (k : OpKind) (rel : Option Scope) : State :=
  let (id, s) := s.launchOp k .none rel none true 0
  ({ s with scopeQ := s.scopeQ ++ [.op ⟨s.cur.core, s.cur.slot, id⟩] } : State).retire 8 8

/-- The earlier operations of an issuing thread are performed at package scope (R331). -/
def priorDone (s : State) (x : Prior) : Bool :=
  let out := fun (q : Pend) => x.ids.contains q.id && q.res.isNone
  !(s.slots.any fun e => e.2.pend.any out) && !(s.spilled.any fun y => y.live && y.ops.any out) && s.pushedOut x.die
/-- Push what die d still has to, while its clocks run. -/
def pushFrom (s : State) (d : Nat) : State := if s.live d && !s.pushedOut d then s.pushAll d else s
/-- Push what the earlier operations of an issuing thread still lack. -/
def pushPrior (s : State) (x : Prior) : State := s.pushFrom x.die
/-- A departure may be sent: the task's engine jobs are over and the stores of the dies it ran on are at their homes (R124), and so
are the earlier operations of the threads that killed it (R331); it goes from the task's last die, or its launch's where it has
never started, to the scope unit on die 0, whose clocks run (R359). -/
def mayDepart (s : State) (x : Depart) : Bool :=
  s.live 0 && s.live (x.from_.headD x.die) && !(x.jobs.any fun j => s.jobLives j) && x.prior.all (fun y => s.priorDone y)
    && x.from_.all fun d => s.pushedOut d
/-- A departure is a release at package scope that covers what the task did on every die, and what those that killed it had done
(R124, R331): toward the scope, and toward the latches of those who are told of it. -/
def departRel (s : State) (x : Depart) : State :=
  (x.from_ ++ x.prior.map fun y => y.die).foldl (fun s d =>
    x.wake.foldl (fun s w => s.wakeRel d w) (s.sendRel d (some .pkg) (.scope x.part x.scope))) s

/-- A task of a launch with a pending record has left its scope (R346). -/
def noteLeft (s : State) (p d lseq : Nat) (fault : Bool) : State :=
  s.modPart p fun P => { P with pendRecs := P.pendRecs.map fun x =>
    if x.die = d ∧ x.lseq = lseq then { x with left := x.left + 1, nfault := x.nfault + fault.toNat } else x }

/-- Apply an instruction's change at the scope unit. -/
def scopeApply (s : State) (o : OpRef) (q : Pend) : State :=
  let p := s.partOf ⟨o.core, o.slot⟩
  match q.kind with
  | .fsopen c par => (s.scopeOpen p c par).finishOp o
  | .fsclose c => (s.scopeClose p c).finishOp o
  | .fswait c =>
    if (s.scopeAt p c).members = 0 then s.decideRes o (s.scopeAt p c).err.toNat .none
    else s.modPend o fun q => { q with arrived := true }
  | _ => s

end State

/-- SPAWN (R271): a release at package scope; its packet goes to the queue engine of the issuing die. -/
def execSpawn (o : RRO) (s : State) : Host.Outcome State Fault Refusal :=
  .next (s.issueP none [.s o.a o.am] State.mqChk fun s =>
    s.sendOp (.spawn (s.rd o.a) (!s.here.mode.priv)) (.s o.d.val) (some .pkg) none true 0 8)
/-- FSOPEN (R269): relaxed. -/
def execFsopen (o : ABO) (s : State) : Host.Outcome State Fault Refusal :=
  .next (s.issueP none [.s o.a o.am, .s o.b o.bm] State.mqChk fun s =>
    s.sendScope (.fsopen ((s.rd o.a).toNat % 256) ((s.rd o.b).toNat % 256)) none)
/-- FSCLOSE (R269): sent once the thread's earlier operations are performed at package scope. -/
def execFsclose (o : OneA) (s : State) : Host.Outcome State Fault Refusal :=
  .next (s.issueP none [.s o.a o.am] State.mqChk fun s => s.sendScope (.fsclose ((s.rd o.a).toNat % 256)) (some .pkg))
/-- FSWAIT (R270): parks; an acquire at package scope. -/
def execFswait (o : RRO) (s : State) : Host.Outcome State Fault Refusal :=
  .next (s.issueP none [.s o.a o.am] State.mqChk fun s =>
    let (id, s) := s.launchOp (.fswait ((s.rd o.a).toNat % 256)) (.s o.d.val) none (some .pkg) true 0
    ({ s with scopeQ := s.scopeQ ++ [.op ⟨s.cur.core, s.cur.slot, id⟩] } : State).parkOn (.fswait id))

/-- SCOPE_UNIT_CHANGE (R345): one of the changes under way reaches the unit, in the order of its kind within a cycle, and is
applied whole; an operation that no longer exists is dropped, and one that may not be sent yet stays. -/
def execScopeUnitChange (idx : Nat) (s : State) : Host.Outcome State Fault Refusal :=
  .next (match s.scopeQ[idx]? with
    | none => s
    | some c =>
      let drop := fun (s : State) => { s with scopeQ := s.scopeQ.eraseIdx idx }
      match c with
      | .op o =>
        let p := s.partOf ⟨o.core, o.slot⟩
        let key := slotKey ⟨o.core, o.slot⟩
        if (s.pendAt o).isNone then drop s
        else if !s.scopeTurn p key then s
        else s.whenSent o fun q s => ((drop s).scopeNote p key).scopeApply o q
      | .depart x =>
        if !s.scopeTurn x.part x.key then s
        else if s.mayDepart x then
          let s := s.departRel x
          let s := (((drop s).scopeNote x.part x.key).noteLeft x.part x.die x.lseq x.fault).scopeLeave x.part x.scope x.err
          x.wake.foldl (fun (s : State) w => s.wakeUp w) s
        else
          x.from_.foldl (fun s d => s.pushFrom d) (x.prior.foldl (fun (s : State) y => s.pushPrior y) s))

end Sys2Proof.Machine
end

