-- ==== Sys2Proof/Machine/Cirque.lean ====
section
/-! DEFINITION. GPOST, GSTAT, the Cirque's events, and the delivery and taking of a cancellation (R272 to R276, R319, R321
to R323, R348). -/
namespace Sys2Proof.Machine

/-- GPOST (R273): relaxed (R275). -/
def execGpost (o : RRO) (s : State) : Host.Outcome State Fault Refusal :=
  .next (s.issueP none [.s o.a o.am] State.mqChk fun s => s.sendOp (.gpost (s.rd o.a)) (.s o.d.val) none none true 0 8)
/-- GSTAT (R273): relaxed (R275). -/
def execGstat (o : OneD) (s : State) : Host.Outcome State Fault Refusal :=
  .next (s.issueP none [] State.mqChk fun s => s.sendOp .gstat (.s o.d.val) none none true 0 8)

/-- CIRQUE_POST (R273): a GPOST or GSTAT is applied to its member's group; a slot without a group is answered
0x8000_0000_0000_0007. -/
def execCirquePost (o : OpRef) (s : State) : Host.Outcome State Fault Refusal :=
  .next (s.whenSent o fun q s =>
    let none_ := fun (_ : Unit) => s.decideRes o 0x8000000000000007 .faulted
    let mine := (s.memberOf ⟨o.core, o.slot⟩).bind fun x => (s.groupAt x.1).map fun g => (x.1, x.2, g)
    match q.kind, mine with
    | .gpost _, none | .gstat, none => none_ ()
    | .gpost h, some (n, m, g) =>
      if !s.groupLive g then s else
      let g' := g.post m h
      ((s.putGroup n g').cancelUnplaced n g).decideRes o (g'.result m) .none
    | .gstat, some (_, m, g) => if !s.groupLive g then s else s.decideRes o (g.result m) .none
    | _, _ => s)

/-- CIRQUE_MEMBER_END (R348): a member's end is recorded, then its departure is sent; the group is free once every member
has ended. -/
def execCirqueMemberEnd (idx : Nat) (s : State) : Host.Outcome State Fault Refusal :=
  .next (match s.memberQ[idx]? with
    | none => s
    | some e =>
      if !s.live 0 || (s.groupAt e.group).any (fun g => !s.groupLive g) then s else
      let s := { s with memberQ := s.memberQ.eraseIdx idx }
      let s := match s.groupAt e.group with
        | none => s
        | some g =>
          let g' := g.endMember e.member e.turns e.started
          let s := s.putGroup e.group g'
          if g'.members.length ≤ g'.ended then { s with groups := Sparse.erase e.group s.groups } else s
      { s with scopeQ := s.scopeQ ++ [.depart e.depart] })

namespace State

/-- A cancellation reaches the slot that holds the member's task: CPEND and the latch are set; a slot parked in user mode
discards its unstarted jobs and ends its wait, at the end of the cycle where the wait's condition may still win (R276); a supervisor WFE or WFET wakes by the latch; a slot that is ending drops it
(R102, R124, R321). -/
def cancelSlot (s : State) (r : SlotRef) : State :=
  let cp := fun (s : State) => s.modSlot r fun sl => { sl with mode := { sl.mode with cpend := true } }
  match (s.slotAt r).run with
  | .free | .ending _ => s
  | .parked _ =>
    if (s.slotAt r).mode.priv then (cp s).setLatch r
    else
      let s := (cp s).modSlot r fun sl => { sl with evt := true }
      let s := match (s.slotAt r).run with
        | .parked (.gbar _) | .parked (.barw _) | .parked (.tagwait _) | .parked (.fswait _) =>
          s.modSlot r fun sl => { sl with cwait := some (s.cycleOf r.core) }
        | _ => s.cancelWait r
      s.discardJobs r true
  | _ => (cp s).setLatch r

/-- A cancellation reaches a spilled task: recorded against it, its unstarted jobs discarded (R319). -/
def cancelSpilled (s : State) (x : Spilled) : State :=
  let s := { s with spilled := s.spilled.map fun (y : Spilled) => if y.num = x.num then { y with cancel := true } else y }
  s.discardWhere (fun _ id _ => x.jobs.contains id) true

end State

/-- CANCELLATION_DELIVERY (R274, R275, R321): a cancellation under way reaches its member: in its slot, in a bind record
not yet taken, or in its spilled image; it waits for a frozen die, the Cirque's or the task's (R359). -/
def execCancellationDelivery (group member : Nat) (s : State) : Host.Outcome State Fault Refusal :=
  .next (match s.groupAt group with
    | none => s
    | some g =>
      let mine := fun (t : Task) => t.sibgrp == group && t.member == member
      let asleep := !s.live 0 || ((s.slotRefs.find? fun r => (s.slotAt r).task.any mine).any fun r => !s.live (coreDie r.core))
        || s.dies.any fun D => !s.live D.1 && D.2.slotTable.any fun e => e.2.valid && e.2.sibgrp == group && e.2.member == member
      if !(g.memberAt member).due || asleep then s
      else
        let s := s.modGroup group fun g => g.modMember member fun x => { x with due := false }
        match s.slotRefs.find? fun r => (s.slotAt r).task.any mine with
        | some r => s.cancelSlot r
        | none => match s.spilled.find? fun x => x.live && mine x.task with
          | some x => s.cancelSpilled x
          | none => [0, 1, 2, 3].foldl (fun (s : State) d => s.modDie d fun D => { D with
              slotTable := D.slotTable.map fun e =>
                if e.2.valid ∧ e.2.sibgrp = group ∧ e.2.member = member then (e.1, { e.2 with cpend := true }) else e }) s)

/-- CANCELLATION_TAKEN (R276, R323): a slot that is at a cancellation point with a cancellation pending takes it; a wait that a
cancellation reached in an earlier cycle ends. -/
def execCancellationTaken (r : SlotRef) (s : State) : Host.Outcome State Fault Refusal :=
  .next (if !s.live (coreDie r.core) then s else match (s.slotAt r).run with
    | .cancelDue epc => s.takeCancel r epc
    | .parked _ => if s.cancelFirst r then s.cancelWait r else s
    | _ => s)

end Sys2Proof.Machine
end

