-- ==== Sys2Proof/Machine/CsrOps.lean ====
section
/-! DEFINITION. The special registers: reading, writing, the CSR instructions and the rows for their writes (R99, R117 to
R120, R309). -/
namespace Sys2Proof.Machine

/-- MODE as a word (R309). -/
def modeWord (m : ModeBits) : Word :=
  BitVec.ofNat 64 (m.cpend.toNat * 32 + m.ctaken.toNat * 16 + m.nest.toNat * 8 + m.priv.toNat * 4 + m.pp.toNat * 2
    + m.trapAsync.toNat)

namespace State

/-- The value a CSR read returns (R99, R119). -/
def csrRead (s : State) (r : SlotRef) : Csr → Word
  | .spbase => s.pcsr (s.partOf r) r.core .spbase
  | .ptbase => s.pcsr (s.partOf r) r.core .ptbase
  | .tvec => s.pcsr (s.partOf r) r.core .tvec
  | .bjoin => (s.cpAt r.core (s.partOf r)).bjoin.setWidth 64
  | .sscratch => (s.slotAt r).sscratch
  | .tval => (s.slotAt r).tval
  | .cause => (s.slotAt r).cause.setWidth 64
  | .epc => (s.slotAt r).epc
  | .mode => modeWord (s.slotAt r).mode
  | .sfmt i => (Sparse.get 0 (s.cpAt r.core (s.partOf r)).sfmt i.val : BitVec 4).setWidth 64
  | .evt => b2w (s.slotAt r).evt
  | .bto => (s.slotAt r).bto.setWidth 64
  | .spdctl => b2w (s.slotAt r).spdAnti
  | .seed => (s.slotAt r).seed
  | .fflags => (s.slotAt r).fflags.setWidth 64
  | .frm => (s.slotAt r).frm.setWidth 64
  | .le => (s.slotAt r).le
  | .ls => (s.slotAt r).ls
  | .lc => (s.slotAt r).lc
  | .time => BitVec.ofNat 64 s.time
  | .turns => (s.slotAt r).turns
  | .cycle => BitVec.ofNat 64 (s.cycleOf r.core)
  | .part => BitVec.ofNat 64 (s.partOf r)
  | .core => BitVec.ofNat 64 r.core
  | .slot => BitVec.ofNat 64 r.slot

/-- The register of a write that several slots see, and the value it takes there (R99, R120). -/
def sharedOf (v : Word) : Csr → Option (SharedCsr × Word)
  | .spbase => some (.part .spbase, v &&& 0xFFFFFFFFFFFF0000)
  | .ptbase => some (.part .ptbase, v &&& 0xFFFFFFFFFFFF0000)
  | .tvec => some (.part .tvec, v &&& 0xFFFFFFFFFFFFFFFC)
  | .bjoin => some (.bjoin, v &&& 7)
  | .sfmt i => some (.sfmt i.val, v &&& 15)
  | _ => none
/-- A write of a register that its slot alone sees: bits that R99 does not name are ignored, read-only registers and fields keep their
values. -/
def csrOwn (s : State) (r : SlotRef) (c : Csr) (v : Word) : State :=
  match c with
  | .spbase | .ptbase | .tvec | .bjoin | .sfmt _ => s
  | .sscratch => s.modSlot r fun sl => { sl with sscratch := v }
  | .tval => s.modSlot r fun sl => { sl with tval := v }
  | .cause => s.modSlot r fun sl => { sl with cause := v.setWidth 8 }
  | .epc => s.modSlot r fun sl => { sl with epc := v }
  | .mode => s.modSlot r fun sl => { sl with mode := { sl.mode with
      nest := v.getLsbD 3, pp := v.getLsbD 1, trapAsync := v.getLsbD 0 } }
  | .evt => if v.getLsbD 0 then s.setLatch r else s.modSlot r fun sl => { sl with evt := false }
  | .bto => s.modSlot r fun sl => { sl with bto := v.setWidth 32 }
  | .spdctl => s.modSlot r fun sl => { sl with spdAnti := v.getLsbD 0 }
  | .seed => s.modSlot r fun sl => { sl with seed := v }
  | .fflags => s.modSlot r fun sl => { sl with fflags := v.setWidth 5 }
  | .frm => s.modSlot r fun sl => { sl with frm := if 5 ≤ v.toNat % 8 then 0 else v.setWidth 3 }
  | .le => s.modSlot r fun sl => { sl with le := v }
  | .ls => s.modSlot r fun sl => { sl with ls := v }
  | .lc => s.modSlot r fun sl => { sl with lc := v }
  | .time | .turns | .cycle | .part | .core | .slot => s

/-- A CSR write as it issues: a register of the slot's own has it at once, a shared one at the end of the interval (R120). -/
def csrWrite (s : State) (r : SlotRef) (c : Csr) (v : Word) : State :=
  match sharedOf v c with
  | some (x, w) => s.sharedIssue r x w
  | none => s.csrOwn r c v
/-- A CSR write as it lands. -/
def csrLand (s : State) (r : SlotRef) (c : Csr) (v : Word) : State :=
  match sharedOf v c with
  | some (x, w) => s.sharedWrite r x w
  | none => s.csrOwn r c v

/-- The value that a CSR instruction with a write reads: since its read and its write are one step among the core's CSR instructions,
it sees also a shared register's writes that are still on their way (R117). -/
def csrNow (s : State) (r : SlotRef) (c : Csr) : Word :=
  match (sharedOf 0 c).bind fun x => ((s.cpAt r.core (s.partOf r)).cwrites.filter fun w => w.csr == x.1).getLast? with
  | some w => w.val
  | none => s.csrRead r c

/-- A write that is cause 12: to LS or LE while a loop is active, or a nonzero one to LC while none is (R118). -/
def csrLoopFault (s : State) (r : SlotRef) (c : Csr) (v : Word) : Bool :=
  match c with
  | .ls | .le => (s.slotAt r).lc != 0
  | .lc => (s.slotAt r).lc == 0 && v != 0
  | _ => false

/-- The shape of CSRW, CSRS, CSRC and CSRX: one step of read and write (R117), privileged from index 0x100 on (R89);
`f` gives the new value from the old and from s[A]; the old value goes to D where there is one. -/
def csrStep (i : Instr) (idx : BitVec 12) (a : SField) (am : Md) (d : Option SField) (f : Word → Word → Word)
    (s : State) : State :=
  match csrOfIndex idx with
  | none => s.issueP none [] (fun _ => .trap 1 (insnWord i)) id
  | some c =>
    s.issueP (if 0x100 ≤ idx.toNat then some (insnWord i) else none) [.s a am]
      (fun s => if s.csrLoopFault s.cur c (f (s.csrNow s.cur c) (s.rd a)) then .trap 12 (idx.setWidth 64) else .ok)
      fun s =>
        let old := s.csrNow s.cur c
        let s := s.csrWrite s.cur c (f old (s.rd a))
        (match d with
          | some d => s.wr d old
          | none => s).retire 8 8

/-- A CSR write landing on a slot, for the rows that name one kind of register each; `sel` picks the registers. -/
def csrRow (e : CsrEv) (sel : Csr → Bool) (s : State) : State :=
  match csrOfIndex e.idx with
  | some c =>
    if sel c && !c.readOnly then
      if s.csrLoopFault e.ref c e.val then s.trapAt e.ref 12 (e.idx.setWidth 64) else s.csrLand e.ref c e.val
    else s
  | none => s

end State

/-- CSRR (R117). -/
def execCsrr (o : CsrRO) (s : State) : Host.Outcome State Fault Refusal :=
  .next (match csrOfIndex o.idx with
    | none => s.issueP none [] (fun _ => .trap 1 (insnWord (.csrr o))) id
    | some c => s.issueP (if 0x100 ≤ o.idx.toNat then some (insnWord (.csrr o)) else none) [] (fun _ => .ok) fun s =>
        (s.wr o.d (s.csrRead s.cur c)).retire 8 8)
/-- CSRW (R117). -/
def execCsrw (o : CsrWO) (s : State) : Host.Outcome State Fault Refusal :=
  .next (s.csrStep (.csrw o) o.idx o.a o.am none fun _ v => v)
/-- CSRS (R117). -/
def execCsrs (o : CsrDO) (s : State) : Host.Outcome State Fault Refusal :=
  .next (s.csrStep (.csrs o) o.idx o.a o.am (some o.d) fun old v => old ||| v)
/-- CSRC (R117). -/
def execCsrc (o : CsrDO) (s : State) : Host.Outcome State Fault Refusal :=
  .next (s.csrStep (.csrc o) o.idx o.a o.am (some o.d) fun old v => old &&& ~~~v)
/-- CSRX (R117). -/
def execCsrx (o : CsrDO) (s : State) : Host.Outcome State Fault Refusal :=
  .next (s.csrStep (.csrx o) o.idx o.a o.am (some o.d) fun _ v => v)

/-- BJOIN_WRITE (R262). -/
def execBjoinWrite (e : CsrEv) (s : State) : Host.Outcome State Fault Refusal :=
  .next (s.csrRow e fun c => c == .bjoin)
/-- EVT_WRITE (R119). -/
def execEvtWrite (e : CsrEv) (s : State) : Host.Outcome State Fault Refusal :=
  .next (s.csrRow e fun c => c == .evt)
/-- LC_WRITE (R118). -/
def execLcWrite (e : CsrEv) (s : State) : Host.Outcome State Fault Refusal :=
  .next (s.csrRow e fun c => c == .lc)
/-- LS_LE_WRITE (R118). -/
def execLsLeWrite (e : CsrEv) (s : State) : Host.Outcome State Fault Refusal :=
  .next (s.csrRow e fun c => c == .ls || c == .le)
/-- FRM_WRITE (R99). -/
def execFrmWrite (e : CsrEv) (s : State) : Host.Outcome State Fault Refusal :=
  .next (s.csrRow e fun c => c == .frm)
/-- SFMT_WRITE (R119). -/
def execSfmtWrite (e : CsrEv) (s : State) : Host.Outcome State Fault Refusal :=
  .next (s.csrRow e fun c => match c with
    | .sfmt _ => true
    | _ => false)
/-- CSR_REGISTER_WRITE (R117): any other writable register. -/
def execCsrRegisterWrite (e : CsrEv) (s : State) : Host.Outcome State Fault Refusal :=
  .next (s.csrRow e fun c => match c with
    | .bjoin | .evt | .lc | .ls | .le | .frm | .sfmt _ => false
    | _ => true)

namespace State

/-- An update that has reached every core: the partition's register holds it. -/
def pcsrLand (P : Partition) (u : PCsrUpd) : Partition :=
  let P := { P with upds := P.upds.erase u }
  match u.reg with
  | .tvec => { P with tvec := u.val }
  | .ptbase => { P with ptbase := u.val }
  | .spbase => { P with spbase := u.val }
/-- The update that the others of its register come after. -/
def pcsrFirst (l : List PCsrUpd) (u : PCsrUpd) : Bool := (l.find? fun x => x.reg == u.reg) == some u

end State

/-- PARTITION_CSR_PROPAGATION (R120): a write under way to a partition's register reaches some more cores, or, where no other
write to that register comes before it, the last of them; which and when is a free choice (log 29). -/
def execPartitionCsrPropagation (part : Nat) (s : State) : Host.Outcome State Fault Refusal :=
  .next (match s.part? part with
    | none => s
    | some P =>
      if P.upds.isEmpty then s
      else
        let (i, s) := s.choose P.upds.length
        match P.upds[i]? with
        | none => s
        | some u =>
          let (all, s) := s.choose 2
          s.modPart part fun P =>
            if all = 0 ∧ State.pcsrFirst P.upds u = true then State.pcsrLand P u
            else { P with upds := P.upds.map fun x => if x = u then { x with seen := s.draws :: x.seen } else x })

end Sys2Proof.Machine
end

