-- ==== Sys2Proof/Machine/Control.lean ====
section
/-! DEFINITION. The meanings of NOPs, jumps, branches, loops, traps, events and exit (R108 to R116, R121 to R124), and of
the events of issue (R43, R71, R90, R104, R122, R123). -/
namespace Sys2Proof.Machine
namespace State

/-- A NOP of a length (R108). -/
def nop (len : Nat) (s : State) : State := s.issue [] fun s => s.retire 8 len

/-- BR and JAL's target (R109). -/
def target (s : State) (off : BitVec 24) : Word := s.here.pc + 4 * imm24s off

/-- JR and JALR: a target not a multiple of 4 traps with cause 4, before the link (R110). -/
def jumpReg (a : SField) (am : Md) (imm : BitVec 24) (d : Option SField) (s : State) : State :=
  s.issueP none [.s a am] (fun s =>
      let t := s.rd a + imm24s imm
      if t.toNat % 4 ≠ 0 then .trap 4 t else .ok) fun s =>
    let t := s.rd a + imm24s imm
    let link := s.here.pc + 8
    (match d with
      | some d => s.wr d link
      | none => s).jumpTo t 6

end State

/-- NOP8 (R108). -/
def execNop8 (s : State) : Host.Outcome State Fault Refusal := .next (s.nop 8)
/-- NOP12 (R108). -/
def execNop12 (s : State) : Host.Outcome State Fault Refusal := .next (s.nop 12)
/-- NOP16 (R108). -/
def execNop16 (s : State) : Host.Outcome State Fault Refusal := .next (s.nop 16)
/-- BR (R109). -/
def execBr (o : BrO) (s : State) : Host.Outcome State Fault Refusal :=
  .next (s.issue [] fun s => s.jumpTo (s.target o.off) 0)
/-- JAL (R109). -/
def execJal (o : JalO) (s : State) : Host.Outcome State Fault Refusal :=
  .next (s.issue [] fun s => (s.wr o.d (s.here.pc + 8)).jumpTo (s.target o.off) 0)
/-- JR (R110). -/
def execJr (o : JrO) (s : State) : Host.Outcome State Fault Refusal := .next (s.jumpReg o.a o.am o.imm none)
/-- JALR (R110). -/
def execJalr (o : JalrO) (s : State) : Host.Outcome State Fault Refusal := .next (s.jumpReg o.a o.am o.imm (some o.d))
/-- BEQ (R111). -/
def execBeq (o : BranchO) (s : State) : Host.Outcome State Fault Refusal := .next (s.branch o fun a b => a == b)
/-- BNE (R111). -/
def execBne (o : BranchO) (s : State) : Host.Outcome State Fault Refusal := .next (s.branch o fun a b => a != b)
/-- BLT (R111). -/
def execBlt (o : BranchO) (s : State) : Host.Outcome State Fault Refusal := .next (s.branch o fun a b => a.slt b)
/-- BGE (R111). -/
def execBge (o : BranchO) (s : State) : Host.Outcome State Fault Refusal := .next (s.branch o fun a b => !a.slt b)
/-- BLTN (R111). -/
def execBltn (o : BranchO) (s : State) : Host.Outcome State Fault Refusal := .next (s.branch o fun a b => a.ult b)
/-- BGEN (R111). -/
def execBgen (o : BranchO) (s : State) : Host.Outcome State Fault Refusal := .next (s.branch o fun a b => !a.ult b)

/-- LOOP (R100, R113): cause 12 while a loop is active or when the end is at or below LS; a count of 0 goes to the end
with the penalty of R104. -/
def execLoop (o : LoopO) (s : State) : Host.Outcome State Fault Refusal :=
  .next (s.issueP none [.s o.a o.am] (fun s =>
      if s.here.lc ≠ 0 ∨ (s.here.pc.toNat : Int) + 4 * o.off.toInt ≤ s.here.pc.toNat + 8 then .trap 12 (s.target o.off)
      else .ok) fun s =>
    let le := s.target o.off
    let n := s.rd o.a
    let now := s.cycleOf s.cur.core
    let s := s.used 8
    s.modHere fun sl => { sl with
      ls := sl.pc + 8, le := le, lc := n, loopMode := sl.mode.priv
      pc := if n = 0 then le else sl.pc + 8
      penalty := if n = 0 then some (now + 14) else sl.penalty })
/-- LBRK (R114). -/
def execLbrk (s : State) : Host.Outcome State Fault Refusal :=
  .next (s.issue [] fun s =>
    if s.here.lc ≠ 0 then (s.used 8).modHere fun sl => { sl with lc := 0, pc := sl.le } else s.retire 8 8)
/-- TRAP (R115). -/
def execTrap (o : TrapO) (s : State) : Host.Outcome State Fault Refusal :=
  .next (s.issue [] fun s => s.trap 13 (o.code.setWidth 64))
/-- BRK (R115). -/
def execBrk (s : State) : Host.Outcome State Fault Refusal := .next (s.issue [] fun s => s.trap 14 0)
/-- CPOINT (R116). Where a cancellation is taken at it as the last instruction of a loop's body, EPC is pc + 8 without the
end-of-body check of R101, of which the manual says nothing here (DESIGN CHOICE, log 81). -/
def execCpoint (s : State) : Host.Outcome State Fault Refusal :=
  .next (s.issue [] fun s =>
    if s.here.mode.cpend && !s.here.mode.priv then
      let s := s.used 8
      let s := s.modHere fun sl => { sl with pc := sl.pc + 8 }
      s.cancelPoint s.here.pc
    else s.retire 8 8)

/-- WFE (R121): with the latch set it clears it and continues; else it parks, which is a cancellation point: where a
cancellation is pending already the WFE does not issue, and TURNS does not count it (R347; log 32). -/
def execWfe (s : State) : Host.Outcome State Fault Refusal :=
  .next (s.issue [] fun s =>
    if s.here.evt then (s.modHere fun sl => { sl with evt := false }).retire 8 8
    else if s.here.mode.cpend && !s.here.mode.priv then s.cancelPoint s.here.pc
    else (s.used 8).modHere fun sl => { sl with run := .parked .wfe })
/-- SEV (R122): a release toward the latch, at die scope for a target on the sender's die and at package scope otherwise. -/
def execSev (o : OneA) (s : State) : Host.Outcome State Fault Refusal :=
  .next (s.issue [.s o.a o.am] fun s =>
    let v := (s.rd o.a).toNat
    let c := field v 4 10
    let sc := if coreDie c = coreDie s.cur.core then Scope.die else Scope.pkg
    s.sendOp (.sev c (v % 16)) .none (some sc) none false 0 8)
/-- WFET (R123): answered at once with 0 for a set latch, 1 for a limit of 0, 2 where a cancellation is due; else it parks. -/
def execWfet (o : RRO) (s : State) : Host.Outcome State Fault Refusal :=
  .next (s.issue [.s o.a o.am] fun s =>
    let lim := (s.rd o.a).toNat
    if s.here.evt then ((s.modHere fun sl => { sl with evt := false }).giveNow o.d 0 .none).retire 8 8
    else if lim = 0 then (s.giveNow o.d 1 .none).retire 8 8
    else if s.here.mode.cpend && !s.here.mode.priv then
      let s := (s.giveNow o.d 2 .none).used 8
      s.cancelPoint (s.here.pc + 8)
    else
      let (id, s) := s.launchOp .wfet (.s o.d.val) none none false 0
      let now := s.cycleOf s.cur.core
      (s.used 8).modHere fun sl => { sl with run := .parked (.wfet id (now + lim)) })

/-- EXIT (R124). -/
def execExit (s : State) : Host.Outcome State Fault Refusal :=
  .next (s.issue [] fun s => (s.used 8).stopSlot s.cur .exit)
/-- EXITC (R124): a code of 0 is EXIT. -/
def execExitc (o : OneA) (s : State) : Host.Outcome State Fault Refusal :=
  .next (s.issue [.s o.a o.am] fun s =>
    let code : BitVec 16 := (s.rd o.a).setWidth 16
    (s.used 8).stopSlot s.cur (if code = 0 then .exit else .exitc code s.here.pc))

/-- ISSUE_INTERVAL_END (R90, R91, R120): a slot's re-issue interval is over; its writes of g registers and of shared special registers
have landed. -/
def execIssueIntervalEnd (r : SlotRef) (s : State) : Host.Outcome State Fault Refusal :=
  .next (if (s.slotAt r).interval.any fun e => decide (e ≤ s.cycleOf r.core) then
      (s.landPart r.core (s.partOf r) fun n => n == r.slot).modSlot r fun sl => { sl with interval := none }
    else s)
/-- BRANCH_PENALTY_END (R104): a slot's branch penalty is over. -/
def execBranchPenaltyEnd (r : SlotRef) (s : State) : Host.Outcome State Fault Refusal :=
  .next (if (s.slotAt r).penalty.any fun e => decide (e ≤ s.cycleOf r.core) then
      s.modSlot r fun sl => { sl with penalty := none }
    else s)
/-- SEV_DELIVERY (R122): once the sender's earlier operations are performed, the latch of the target is set if its slot
number belongs to the sender's partition; else the target is left untouched. -/
def execSevDelivery (o : OpRef) (s : State) : Host.Outcome State Fault Refusal :=
  .next (s.whenSent o fun q s => match q.kind with
    | .sev c n =>
      let s := s.finishOp o
      if s.ownerOf n = s.ownerOf o.slot ∧ c < 1024 then
        ((s.sendRel (coreDie o.core) q.rel (.latch c n)).recvRel (coreDie c) q.rel (.latch c n)).setLatch ⟨c, n⟩
      else s
    | _ => s)
/-- WFET_TIMEOUT (R123): the limit has run out with the latch clear, also in its last cycle; status 1. -/
def execWfetTimeout (r : SlotRef) (s : State) : Host.Outcome State Fault Refusal :=
  .next (match (s.slotAt r).run with
    | .parked (.wfet id lim) =>
      if lim < s.cycleOf r.core ∧ s.live (coreDie r.core) then
        (s.decideRes ⟨r.core, r.slot, id⟩ 1 .none).land ⟨r.core, r.slot, id⟩
      else s
    | _ => s)
/-- ICACHE_FILL (R71): the sector of a stalled slot's block arrives; the slot is ready again. -/
def execIcacheFill (r : SlotRef) (s : State) : Host.Outcome State Fault Refusal :=
  .next (if (s.slotAt r).run = .stalled .icache ∧ s.live (coreDie r.core) then
      let p := s.partOf r
      let blk := (s.slotAt r).pc.toNat / 32 * 32
      match State.tlbHit (s.coreAt r.core).tlb p blk with
      | some e =>
        let l := State.entryLoc e blk
        if !s.readLive (coreDie r.core) false [⟨l, 32⟩] then s
        else
        let s := ((s.cacheSegs (coreDie r.core) p none 0 false [⟨l, 32⟩]).touchSegs (coreDie r.core) false true [⟨l, 32⟩]).observeSegs
          (coreDie r.core) [⟨l, 32⟩]
        let s := s.icachePut r.core p l
        s.modSlot r fun sl => State.wordsOf blk (s.readBlock r e blk) |>.foldl State.Slot.keepCode { sl with run := .active }
      | none => s.modSlot r fun sl => { sl with run := .active }
    else s)
/-- PAGE_WALK (R139, R148, R190): the translation a slot is stalled for arrives from the cluster TLB or a walk, or its fault; it serves
the slot's instruction also when the core's TLB has replaced it meanwhile. -/
def execPageWalk (r : SlotRef) (s : State) : Host.Outcome State Fault Refusal :=
  .next (match (s.slotAt r).run with
    | .stalled (.walk va acc) =>
      if !s.live (coreDie r.core) then s else
      match s.clusterXl (clusterOf r.core) (s.partOf r) r.core va acc (!(s.slotAt r).mode.priv) with
      | (t, .inl f) => if f = 0 then s else t.modSlot r fun sl => { sl with run := .active, walkFault := some (va, f) }
      | (s, .inr e) =>
        let s := s.modCore r.core fun C => { C with tlb := State.tlbPut State.coreTlbSize e C.tlb }
        s.modSlot r fun sl => { sl with
          run := .active, walkFault := none, walked := e :: sl.walked.filter fun x => x.page != e.page }
    | _ => s)

end Sys2Proof.Machine
end

