-- ==== Sys2Proof/Machine/Engine.lean ====
section
/-! DEFINITION. What the copy and matrix engines of a cluster share: the choice among partitions, the order behind a
thread's earlier operations, translation, and storage formats (R165, R166, R182, R284, R286, R373). -/
namespace Sys2Proof.Machine

/-- Weighted deficit round robin from partition p on (R284); `fuel` bounds the visits. -/
def drrFrom (weight : Nat → Nat) (queued : Nat → Bool) : Nat → Nat → Sparse Int → Option (Nat × Sparse Int)
  | 0, _, _ => none
  | fuel + 1, p, credit =>
    if queued p then
      if Sparse.get 0 credit p < 0 then
        drrFrom weight queued fuel ((p + 1) % 4) (Sparse.set p (Sparse.get 0 credit p + 64 * weight p) credit)
      else some (p, credit)
    else drrFrom weight queued fuel ((p + 1) % 4) credit

/-- The partition to serve next after `last`, with the credits then (R284). -/
def drrPick (weight : Nat → Nat) (queued : Nat → Bool) (last : Nat) (credit : Sparse Int) : Option (Nat × Sparse Int) :=
  let debt := credit.foldl (fun (n : Nat) (e : Nat × Int) => n + e.2.natAbs) 0
  drrFrom weight queued (4 * debt + 8) ((last + 1) % 4) credit

/-- A place's 128-byte sector. -/
def locSector (l : Loc) : Loc :=
  match l with
  | .paged pa h t => .paged (pa / 128 * 128) h t
  | .pad c off => .pad c (off / 128 * 128)
/-- Places and bytes of segments cut at the boundaries of 128-byte sectors, each of which an engine writes at once (R154). -/
def sectorCut (gs : List Seg) : List Seg :=
  gs.flatMap fun g =>
    let o := locByteNo g.loc
    (List.range ((o + g.len + 127) / 128)).map fun k =>
      let lo := max o (128 * k)
      ⟨locAdd g.loc (lo - o), min (o + g.len) (128 * k + 128) - lo⟩

namespace State

/-- A partition's engine time weight, at least 1 (R41). -/
def weightOf (s : State) (p : Nat) : Nat := max 1 (((s.part? p).map fun P => P.cfg.weight).getD 1)

/-- The outstanding operations of the thread that issued a job: its slot's, or what its spilled task still holds. -/
def jobPends (s : State) (r : SlotRef) (id : Nat) : List Pend :=
  match s.spilled.find? fun x => x.live && x.jobs.contains id with
  | some x => x.ops
  | none => (s.slotAt r).pend
/-- A store, plain or synchronising. -/
def isStore (q : Pend) : Bool :=
  match q.kind with
  | .store _ => true
  | .bank _ _ op _ => op == .stsy || op == .stfl
  | _ => false
/-- None of the issuing thread's operations that `sel` picks stands before a job (R165). -/
def jobBehind (s : State) (r : SlotRef) (id : Nat) (sel : Pend → Bool) : Bool :=
  (s.jobPends r id).all fun e => decide (id ≤ e.id) || e.res.isSome || !sel e
/-- An engine job may read: the thread's earlier stores, acquires and fences are done (R158, R160, R165, R166, R298). -/
def jobMayStart (s : State) (r : SlotRef) (id : Nat) : Bool :=
  s.jobBehind r id fun e => e.acq.isSome || isStore e || (match e.kind with
    | .fence _ => true
    | _ => false)

/-- The place of one byte for an engine of cluster k working for core c (R182). A scale-plane address that falls in a window is
taken as that byte of the scratchpad: R140 calls the plane paged memory and says nothing of such an address (DESIGN CHOICE,
log 86). -/
def engByte (s : State) (k p c : Nat) (user : Bool) (acc : Acc) (va : Nat) : State × (BitVec 8 ⊕ Loc) :=
  match whereIs c va with
  | .bad => (s, .inl 7)
  | .win wc off => (s, if off < s.padSize p then .inr (.pad wc off) else .inl 7)
  | .page => match s.clusterXl k p c va acc user with
    | (s, .inl f) => (s, .inl f)
    | (s, .inr e) => (s, .inr (State.entryLoc e va))

/-- A page's translation is one that a unit has to wait for: the walk needs a frozen die (R359). -/
def xlWaits (s : State) (k p c : Nat) (user : Bool) (acc : Acc) (va : Nat) : Bool :=
  match whereIs c va with
  | .page => match (s.clusterXl k p c va acc user).2 with
    | .inl f => f == 0
    | .inr _ => false
  | _ => false

/-- The places of n bytes, page by page; `fuel` bounds the pages. A failure names its cause; 0 says that the walk waits for a frozen
die (R359). -/
def engSegs (s : State) (k p c : Nat) (user : Bool) (acc : Acc) : Nat → Nat → Nat → State × (BitVec 8 ⊕ List Seg)
  | 0, _, _ => (s, .inr [])
  | fuel + 1, va, n =>
    if n = 0 then (s, .inr [])
    else match whereIs c va with
      | .bad => (s, .inl 7)
      | .win wc off => (s, if off + n ≤ s.padSize p then .inr [⟨.pad wc off, n⟩] else .inl 7)
      | .page =>
        let m := min n (65536 - va % 65536)
        match s.clusterXl k p c va acc user with
        | (s, .inl f) => (s, .inl f)
        | (s, .inr e) => match s.engSegs k p c user acc fuel ((va + m) % 2 ^ 64) (n - m) with
          | (s, .inl f) => (s, .inl f)
          | (s, .inr gs) => (s, .inr (State.entrySegs e va m ++ gs))

/-- An engine of core c's cluster reads the sector of a place, unless it has read it before (R154, R182, R293). -/
def engRead (s : State) (c p pol : Nat) (l : Loc) (rs : List SecRead) : State × List SecRead :=
  let at_ := locSector l
  if rs.any fun x => x.loc == at_ then (s, rs)
  else
    let d := coreDie c
    let g : Seg := ⟨at_, 128⟩
    let s := ((s.cacheSegs d p none pol false [g]).touchSegs d false (pol != 4) [g]).observeSegs d [g]
    (s, rs ++ [⟨at_, s.segBytes d p [g], s.segPoisoned d p g⟩])
/-- What an engine has read of a place's sector. -/
def engSector (rs : List SecRead) (l : Loc) : SecRead := (rs.find? fun x => x.loc == locSector l).getD ⟨l, [], false⟩

/-- An engine of core c's cluster has written segments: loads see their sectors whole (R154), data that the die's L2 has not
allocated moves on (R145), and loads that read ahead of a narrow acquire are redone (R152). -/
def engWrote (s : State) (c p : Nat) (gs : List Seg) : State :=
  let s := gs.foldl (fun s g => s.engNote (coreDie c) p g.loc g.len) s
  (gs.foldl (fun s g => s.settle (coreDie c) g.loc) s).noteEngine (clusterOf c)
/-- An engine of core c's cluster writes a piece (R154). -/
def engWrite (s : State) (c p pol : Nat) (l : Loc) (bs : List Byte) : State :=
  let g : Seg := ⟨l, bs.length⟩
  ((s.cacheSegs (coreDie c) p none pol true [g]).locWrite (coreDie c) p l bs).engWrote c p [g]

/-- SFMT code of the region a window address lies in, as latched at issue (R119); 0 for any other address. -/
def sfmtOfVa (s : State) (c p va : Nat) : Nat :=
  match whereIs c va with
  | .win wc off => if off < s.padSize p then s.sfmtAt wc p off else 0
  | _ => 0

/-- Segments of n bytes from offset o of a run of segments. -/
def subSegs : List Seg → Nat → Nat → List Seg
  | [], _, _ => []
  | g :: t, o, n =>
    if n = 0 then []
    else if g.len ≤ o then subSegs t (o - g.len) n
    else
      let m := min n (g.len - o)
      ⟨locAdd g.loc o, m⟩ :: subSegs t 0 (n - m)

/-- A completion at a scope: the die's pushes are out when the scope needs it (R162). -/
def scopeDone (s : State) (d : Nat) (sc : Scope) : Bool := s.releaseMet d (some sc) false
/-- The token of a discarded job of cluster k may fill: that is a release at the job's scope, which covers the thread's earlier
stores (R157). -/
def goneReady (s : State) (k : Nat) (j : GoneJob) : Bool := s.jobBehind j.ref j.id isStore && s.scopeDone (k / 32) j.scope
/-- It fills (R183, R292). -/
def goneFill (s : State) (k : Nat) (j : GoneJob) : State :=
  (s.modCluster k fun K => { K with gone := K.gone.filter fun x => x.id != j.id }).deliver j.ref j.dest j.id discardFill .faulted

end State
end Sys2Proof.Machine
end

