-- ==== Sys2Proof/Machine/Queue.lean ====
section
/-! DEFINITION. The queue engines: messages, packet checks and acceptance, completion records, RMA windows (R11 to R28,
R346, R351). -/
namespace Sys2Proof.Machine

/-- n bytes of a message from byte `at_`, as a number; bytes past its end read zero. -/
def msgNat (bs : List Byte) (at_ n : Nat) : Nat := natOfBytes ((List.range n).map fun i => bs.getD (at_ + i) 0)
/-- Bit i of FLAGS (R13). -/
def pkFlag (bs : List Byte) (i : Nat) : Bool := (msgNat bs 4 2).testBit i
/-- LEN16 (R12). -/
def pkLen16 (bs : List Byte) : Nat := msgNat bs 1 1
/-- Where the tag section begins (R11). -/
def pkTagAt (bs : List Byte) : Nat := 32 + (if pkFlag bs 0 then 8 else 0)
/-- The raw NIN (R15). -/
def pkNin (bs : List Byte) : Nat := if pkFlag bs 1 then field (msgNat bs (pkTagAt bs) 1) 0 4 else 0
/-- Where the sibling section begins (R11). -/
def pkSibAt (bs : List Byte) : Nat := pkTagAt bs + (if pkFlag bs 1 then 8 + 16 * pkNin bs else 0)
/-- Where the sections end (R11). -/
def pkEnd (bs : List Byte) : Nat := pkSibAt bs + (if pkFlag bs 2 then 16 else 0)
/-- A packet's fields. -/
def pkParse (bs : List Byte) : Packet where
  prio := msgNat bs 3 1
  flags := msgNat bs 4 2
  scope := msgNat bs 6 1
  entry := BitVec.ofNat 64 (msgNat bs 8 8)
  taskN := msgNat bs 16 4
  cluhint := msgNat bs 20 2
  arg := BitVec.ofNat 64 (msgNat bs 24 8)
  release := msgNat bs 32 8
  fbscope := msgNat bs (pkTagAt bs + 1) 1
  inputs := (List.range (pkNin bs)).map fun i =>
    let a := pkTagAt bs + 8 + 16 * i
    ⟨msgNat bs a 4, msgNat bs (a + 4) 2, msgNat bs (a + 6) 2, msgNat bs (a + 8) 4⟩
  grprec := msgNat bs (pkSibAt bs + 8) 8
  handler := BitVec.ofNat 32 (msgNat bs (pkSibAt bs + 4) 4)
  quorum := msgNat bs (pkSibAt bs + 1) 1
  sibn := if pkFlag bs 2 then msgNat bs (pkSibAt bs) 1 else 0
  payload := if pkFlag bs 4 then bs.drop (pkEnd bs) else []

/-- Check 2 of R24; `len` is the message's length for a queue packet. A section counts where its FLAGS bit is set, also one
whose feature is not accepted, which R354 has fail check 5 only: the manual does not say whether such a bit sizes a section
(DESIGN CHOICE, log 75). -/
def pkSized (bs : List Byte) (len : Option Nat) : Bool :=
  let n := 16 * pkLen16 bs
  decide (2 ≤ pkLen16 bs) && decide (pkLen16 bs ≤ 16) && len.all (fun k => k == n) && decide (pkEnd bs ≤ n)
    && (pkFlag bs 4 || decide (n < pkEnd bs + 16))
/-- The feature bit of a FLAGS bit: TIMED, TAGS, SIBS, DET, INLINE stand at 0, 1, 2, 4, 3 of the feature word (R13, R354). -/
def flagFeature (i : Nat) : Nat := if i = 3 then 4 else if i = 4 then 3 else i
/-- FLAGS sets a reserved bit, or one whose feature is not accepted (R13, R354). -/
def pkBadFlags (features : BitVec 6) (flags : Nat) : Bool :=
  decide (flags / 32 ≠ 0) || (List.range 5).any fun i => flags.testBit i && !features.getLsbD (flagFeature i)
/-- Check 5 of R24: reserved fields, padding and the ARG of an INLINE packet are zero (R11 to R18). -/
def pkZeros (bs : List Byte) (features : BitVec 6) : Bool :=
  msgNat bs 7 1 == 0 && msgNat bs 22 2 == 0 && !pkBadFlags features (msgNat bs 4 2)
    && (!pkFlag bs 1 || (msgNat bs (pkTagAt bs) 1 / 16 == 0 && msgNat bs (pkTagAt bs + 2) 6 == 0
      && (List.range (pkNin bs)).all fun i => msgNat bs (pkTagAt bs + 8 + 16 * i + 12) 4 == 0))
    && (!pkFlag bs 2 || msgNat bs (pkSibAt bs + 2) 2 == 0)
    && (if pkFlag bs 4 then msgNat bs 24 8 == 0 else (bs.drop (pkEnd bs)).all fun b => b == 0)
/-- Check 10 of R24 (R18, R19). -/
def pkSibOk (k : Packet) : Bool :=
  decide (2 ≤ k.sibn) && decide (k.sibn ≤ 64) && decide (k.sibn / 2 + 1 ≤ k.quorum) && decide (k.quorum ≤ k.sibn)
    && k.handler.toNat % 4 == 0 && k.taskN % k.sibn == 0 && decide (k.taskN / k.sibn ≤ 4096)

/-- What the checks of R24 find: that they wait for a frozen die (R359), a code, or acceptance with the places of the sibling
groups' records. -/
inductive PkRes where
  | wait
  | reject (code : Nat)
  | ok (k : Packet) (recs : List (Nat × Nat))
  deriving DecidableEq, Repr

namespace State

/-- Physical addresses of a launch's group records, if the whole array is paged with V, R and W (R19). -/
def recPlaces (s : State) (d p va n : Nat) : State × Option (List Nat) :=
  match s.devSegs d p .write va (64 * n) with
  | (s, none) => (s, none)
  | (s, some gs) => (s, some ((List.range n).map fun i =>
      match subSegsAt gs (64 * i) with
      | some pa => pa
      | none => 0))
where
  /-- Physical address of an offset into segments. -/
  subSegsAt : List Seg → Nat → Option Nat
    | [], _ => none
    | g :: t, o => if o < g.len then some (segPa g + o) else subSegsAt t (o - g.len)

/-- The checks of R24 in their order on a packet of partition p at die d. -/
def checkPacket (s : State) (d p : Nat) (bs : List Byte) (len : Option Nat) : State × PkRes :=
  let k := pkParse bs
  let feats := ((s.part? p).map fun P => P.features).getD 0
  let sibs := pkFlag bs 2
  if msgNat bs 0 1 ≠ 1 then (s, .reject 1)
  else if !pkSized bs len then (s, .reject 2)
  else if msgNat bs 2 1 ≠ p then (s, .reject 3)
  else if 7 < k.prio then (s, .reject 4)
  else if !pkZeros bs feats then (s, .reject 5)
  else if k.taskN = 0 then (s, .reject 6)
  else if k.entry.toNat % 4 ≠ 0 ∨ !canonical k.entry.toNat then (s, .reject 7)
  else if 127 < k.cluhint ∧ k.cluhint ≠ 0xFFFF then (s, .reject 8)
  else if pkFlag bs 1 ∧ (pkNin bs = 0 ∨ 8 < pkNin bs) then (s, .reject 9)
  else if sibs ∧ !pkSibOk k then (s, .reject 10)
  else
    let n := if sibs then k.taskN / k.sibn else 0
    if sibs ∧ k.grprec % 64 = 0 ∧ s.devWaits d p .write k.grprec (64 * n) then (s, .wait)
    else
    let (s, recs) := if !sibs then (s, some [])
      else if k.grprec % 64 ≠ 0 then (s, none)
      else s.recPlaces d p k.grprec n
    match recs with
    | none => (s, .reject 11)
    | some recs =>
      let m := k.payload.length
      if pkFlag bs 4 ∧ (m < 8 ∨ 224 < m ∨ m % 8 ≠ 0) then (s, .reject 12)
      else (s, .ok k ((List.range n).zip recs))

/-- The launch of an accepted packet. -/
def launchOf (s : State) (d p : Nat) (k : Packet) (groups : List Nat) (origin : Origin) : Launch where
  lseq := (s.dieAt d).lseq
  order := s.accepts
  part := p
  prio := k.prio
  scope := k.scope
  entry := k.entry
  arg := k.arg
  taskN := k.taskN
  cluhint := k.cluhint
  det := k.flags.testBit 3
  release := if k.flags.testBit 0 then some k.release else none
  fired := !k.flags.testBit 0 || decide (k.release ≤ s.time)
  inputs := k.inputs
  fbscope := k.fbscope
  payload := if k.flags.testBit 4 then some k.payload else none
  sibn := k.sibn
  quorum := k.quorum
  handler := k.handler
  groups := groups
  divAll := (List.range k.inputs.length).filter fun i => s.inOverflow p ((k.inputs.map fun x => x.buf).getD i 65536)
  super := match origin with
    | .slaunch _ _ => true
    | _ => false
  low := 0
  tasks := []
  ended := 0

/-- The lowest-numbered free entry of a die's launch table, if any (R27). -/
def freeLaunch (s : State) (d : Nat) : Option Nat :=
  (List.range 4096).find? fun i => (s.launchAt d i).isNone

/-- Some sibling groups for a launch of n groups: the proposed free numbers, or none (R20). -/
def groupsOk (s : State) (n : Nat) (want : List Nat) : Bool :=
  want.length == n && want.eraseDups.length == n && want.all fun g => decide (g < 4096) && (s.groupAt g).isNone

/-- Acceptance of a packet by die d (R20, R22, R27, R33, R346): a launch entry, its groups with their records, its scope's
members, a pending record for a packet of a queue, the first evaluation of its window. -/
def accept (s : State) (d p l : Nat) (k : Packet) (recs : List (Nat × Nat)) (groups : List Nat) (origin : Origin) : State :=
  let L := s.launchOf d p k groups origin
  let s := ({ s with accepts := s.accepts + 1, relOf := Sparse.erase (Chan.launch d l).key s.relOf } : State).modDie d fun D => { D with
    launches := Sparse.set l L D.launches, lseq := D.lseq + 1 }
  let s := recs.foldl (fun (s : State) e =>
    let m : MemberSt := ⟨0, none, false, false, none, false⟩
    let g : Group := ⟨p, d, l, e.1 * k.sibn, e.2, k.quorum, List.replicate k.sibn m, [], 0, 0, 0, false, false, false,
      0, 0, 0, 0⟩
    s.putGroup (groups.getD e.1 0) g) s
  let s := (s.scopeNote p (engineKey d)).scopeJoin p k.scope k.taskN
  let s := match origin with
    | .queue q n => s.modPart p fun P => { P with
        fixed := true, pendRecs := P.pendRecs ++ [(⟨d, L.lseq, q, n, k.scope, k.taskN, 0, 0, false, false⟩ : PendRec)] }
    | .slaunch q n => s.modPart p fun P => { P with
        fixed := true, pendRecs := P.pendRecs ++ [(⟨d, L.lseq, q, n, k.scope, k.taskN, 0, 0, false, true⟩ : PendRec)] }
    | .spawn => s.modPart p fun P => { P with fixed := true }
  s.gateLaunch d l

/-! ## Queues (R25, R26) -/

/-- The dies that hold places of a partition, as the device finds them, all run (R359). -/
def placesLive (s : State) (p : Nat) (gs : List (Nat × Nat)) : Bool :=
  gs.all fun g => s.devLive p g.1 g.2
/-- Some partition holds a transport job identifier (R350). -/
def jobBound (s : State) (job : Nat) : Bool := s.parts.any fun e => e.2.cfg.jobs.contains job
/-- A packet that the transport drops and counts (R350). -/
def dropPacket (s : State) : State := { s with serac := { s.serac with drops := s.serac.drops + 1 } }

/-- Physical address of byte o of entry i of a queue's ring. -/
def queuePa (Q : Queue) (i o : Nat) : Nat := ringPa Q.base Q.frames (i % 2 ^ Q.j * 256 + o)
/-- Bytes of a message at the head of a queue's ring, read from memory. Where a sector of them is poisoned they are taken as they are:
R326 speaks of register loads, stores and engine jobs only (DESIGN CHOICE, log 90). -/
def headBytes (s : State) (p : Nat) (Q : Queue) : List Byte :=
  let n := (Q.entries.head?.map fun e => e.len).getD 0
  (List.range n).map fun o => s.homeByte p (queuePa Q Q.head o)
/-- The dies that hold those bytes run (R359). -/
def headLive (s : State) (p : Nat) (Q : Queue) : Bool :=
  let n := (Q.entries.head?.map fun e => e.len).getD 0
  s.placesLive p [(queuePa Q Q.head 0, n)]
/-- Remove the head of a queue. -/
def popQueue (s : State) (q : Nat) : State :=
  s.modQueue q fun Q => { Q with head := (Q.head + 1) % 2 ^ Q.j, entries := Q.entries.drop 1, waits := none }
/-- The partition that owns a queue (R25, R41). -/
def queueOwner (s : State) (q : Nat) : Option Nat :=
  (s.parts.find? fun e => e.2.cfg.qranges.any fun x => decide (x.1 ≤ q) && decide (q < x.1 + x.2)).map fun e => e.1
/-- Is queue q its partition's control queue? -/
def isControl (s : State) (q : Nat) : Bool := s.parts.any fun e => e.2.cfg.cq == q
/-- Record that a packet was rejected (R28). -/
def recordReject (s : State) (p q seq taskN code : Nat) (slaunch : Bool) : State :=
  s.modPart p fun P => { P with recs := P.recs ++ [⟨q, seq, if code < 6 then 0 else taskN, 0, code, false, s.time, slaunch⟩] }

/-- The queue engine of a die can take packets of partition p: a launch entry and a pending-record entry are free (R27, R346). -/
def engineOpen (s : State) (d p : Nat) : Bool :=
  s.live d && (s.freeLaunch d).isSome && decide (((s.part? p).map fun P => P.pendRecs.length).getD 16384 < 16384)

/-- Too few sibling groups are free for a checked packet (R20). -/
def shortOf (s : State) (recs : List (Nat × Nat)) : Bool := decide (4096 < s.groups.length + recs.length)
/-- The control queue of a partition. -/
def ctlQueue (s : State) (part : Nat) : Nat := ((s.part? part).map fun P => P.cfg.cq).getD 65536
/-- The control message to execute next: none while an SLAUNCH's reply is owed (R352, R353). -/
def ctlHead (s : State) (part : Nat) : Option (List Byte) :=
  match s.part? part with
  | none => none
  | some P =>
    let Q := s.queueAt P.cfg.cq
    if P.slaunch || Q.entries.isEmpty || s.queueOwner P.cfg.cq != some part || !s.live (P.cfg.cq % 4) || !s.headLive part Q then
      none
    else some (s.headBytes part Q)
/-- The reserved field and the argument bytes from `used` on are zero (R352). -/
def ctlClean (bs : List Byte) (used : Nat) : Bool := msgNat bs 1 7 == 0 && msgNat bs (8 + used) (56 - used) == 0
/-- An engine's acceptance may reach the scope unit and the Cirque on die 0 now; else the engine waits with it (R345, R359). -/
def acceptOpen (s : State) (d p : Nat) : Bool := s.live 0 && s.scopeTurn p (engineKey d)
/-- A queue has a packet that its engine can take now: of a control queue, an SLAUNCH's (R353). -/
def takeable (s : State) (q : Nat) : Bool :=
  let Q := s.queueAt q
  match s.queueOwner q with
  | some p => !Q.entries.isEmpty && s.engineOpen (q % 4) p
      && (if s.isControl q then (s.ctlHead p).any fun bs => msgNat bs 0 1 == 6 && ctlClean bs 32
        else !(Q.waits.any fun k => s.shortOf k.recs))
  | none => false
/-- Queue q is next at its die's engine: no queue of a higher class is takeable, and none of its class stands before it in
rotation from the one last served (R27); the rotation starts at the lowest queue (log 6). -/
def isNext (s : State) (q : Nat) : Bool :=
  let cls := (s.queueAt q).cls
  let last := Sparse.get 65535 (s.dieAt (q % 4)).lastQ cls
  let dist := fun x : Nat => (x + 65536 - last - 1) % 65536
  s.takeable q && s.queues.all fun e =>
    e.1 % 4 != q % 4 || !s.takeable e.1 || (decide (e.2.cls ≤ cls) && (e.2.cls != cls || decide (dist q ≤ dist e.1)))

end State

/-- QUEUE_MESSAGE (R26): a message is refused or appended, by the first case that applies; a control queue takes 64-byte
messages only (R352). One whose place in the ring stands behind a frozen die waits for it (R359). -/
def execQueueMessage (m : QMsg) (s : State) : Host.Outcome State Fault Refusal :=
  let Q := s.queueAt m.queue
  let nack := fun (code : Nat) => { s with outbox := s.outbox ++ [.nack m.queue code] }
  let n := m.data.length
  .next (if 65536 ≤ m.queue ∨ !s.live (m.queue % 4) then s
    else if !s.jobBound m.job then s.dropPacket
    else match s.queueOwner m.queue with
    | none => nack 0
    | some p =>
      let holds := ((s.part? p).map fun P => P.cfg.jobs.contains m.job).getD false
      if !holds ∨ !Q.isSet then nack 0
      else if n < 32 ∨ 256 < n ∨ n % 16 ≠ 0 ∨ (s.isControl m.queue ∧ n ≠ 64) then nack 1
      else if 2 ^ Q.j ≤ Q.entries.length then nack 2
      else
        let i := Q.head + Q.entries.length
        if !s.devLive p (State.queuePa Q i 0) n then s else
        let s := (List.range n).foldl (fun (s : State) o => s.devWrites p (State.queuePa Q i o) [m.data.getD o 0]) s
        s.modQueue m.queue fun Q => { Q with entries := Q.entries ++ [⟨n, Q.nextSeq⟩], nextSeq := Q.nextSeq + 1 })

namespace State

/-- Queue q is the one that its die's engine served last in its class. -/
def served (s : State) (q : Nat) : State :=
  let cls := (s.queueAt q).cls
  s.modDie (q % 4) fun D => { D with lastQ := Sparse.set cls q D.lastQ }

/-- The engine takes a checked packet of queue q: it is accepted with the free groups proposed; short of groups it stays at
the head as it was read (R20, R23); a proposal that does not fit takes nothing. Its record array is translated at the check and keeps
those frames: R19 speaks of acceptance, check 11 of the check (DESIGN CHOICE, log 90). -/
def takePacket (s u : State) (q p : Nat) (e : QEntry) (k : Checked) (groups : List Nat) : State :=
  if u.shortOf k.recs then (u.served q).modQueue q fun Q => { Q with waits := some k }
  else match u.freeLaunch (q % 4) with
    | some l =>
      if u.groupsOk k.recs.length groups then
        ((u.served q).popQueue q).accept (q % 4) p l k.packet k.recs groups (.queue q e.seq)
      else s
    | none => s
/-- PACKET_CHECK of a queue's head (R20, R23, R24, R27, R28): its bytes are read and checked once. -/
def checkQueue (s : State) (q : Nat) (groups : List Nat) : State :=
  let Q := s.queueAt q
  match s.queueOwner q, Q.entries.head? with
  | some p, some e =>
    if !s.isNext q || s.isControl q || !s.headLive p Q || !s.acceptOpen (q % 4) p then s
    else match Q.waits with
      | some k => s.takePacket s q p e k groups
      | none =>
        let bs := s.headBytes p Q
        match s.checkPacket (q % 4) p bs (some e.len) with
        | (_, .wait) => s
        | (u, .reject code) => ((u.served q).recordReject p q e.seq (msgNat bs 16 4) code false).popQueue q
        | (u, .ok k recs) => s.takePacket u q p e ⟨k, recs⟩ groups
  | _, _ => s

/-- Read n bytes of a SPAWN's packet as a plain load of the spawning thread (R271); failure 0 says that it waits for a frozen die
(R359). Poisoned bytes are taken as they are, as those of a ring (DESIGN CHOICE, log 90). -/
def spawnRead (s : State) (o : OpRef) (va n : Nat) (user : Bool) : State × (BitVec 8 ⊕ List Byte) :=
  let p := s.partOf ⟨o.core, o.slot⟩
  let d := coreDie o.core
  match s.engSegs (clusterOf o.core) p o.core user .read (n / 65536 + 2) va n with
  | (s, .inl f) => (s, .inl f)
  | (s, .inr gs) =>
    if s.readLive d false gs then
      let s := ((s.cacheSegs d p none 0 false gs).touchSegs d false true gs).observeSegs d gs
      (s, .inr (s.segBytes d p gs))
    else (s, .inl 0)
/-- Accept a SPAWN's checked packet; short of groups or of a launch entry it waits as it was read (R20, R23, R27, R271). -/
def takeSpawn (s u : State) (o : OpRef) (k : Checked) (groups : List Nat) : State :=
  let p := u.partOf ⟨o.core, o.slot⟩
  let d := coreDie o.core
  match u.freeLaunch d with
  | some l =>
    if u.shortOf k.recs then u.modDie d fun D => { D with spawned := Sparse.set o.id k D.spawned }
    else if u.groupsOk k.recs.length groups then
      (((u.modDie d fun D => { D with spawned := Sparse.erase o.id D.spawned }).accept d p l k.packet k.recs groups .spawn).sendRel
        d (some .pkg) (.launch d l)).decideRes o 0 .none
    else s
  | none => u.modDie d fun D => { D with spawned := Sparse.set o.id k D.spawned }
/-- PACKET_CHECK of a SPAWN (R271): the first 16 bytes are read, checks 1 and 2 may end it there, then the rest. While the launch
table is full the SPAWN waits unread (R27). -/
def checkSpawn (s : State) (o : OpRef) (va : Nat) (user : Bool) (groups : List Nat) : State :=
  let p := s.partOf ⟨o.core, o.slot⟩
  let d := coreDie o.core
  let bad := fun (t : State) (f : Nat) => if f = 0 then s else t.decideRes o (2 ^ 63 + f) .faulted
  if !s.live d || !s.acceptOpen d p || (s.freeLaunch d).isNone then s
  else match Sparse.get? (s.dieAt d).spawned o.id with
  | some k => s.takeSpawn s o k groups
  | none =>
  if va % 16 ≠ 0 then bad s 4
  else match s.spawnRead o va 16 user with
    | (s, .inl f) => bad s f.toNat
    | (s, .inr h) =>
      if msgNat h 0 1 ≠ 1 then s.decideRes o 1 .none
      else if pkLen16 h < 2 ∨ 16 < pkLen16 h then s.decideRes o 2 .none
      else match s.spawnRead o (va + 16) (16 * pkLen16 h - 16) user with
        | (s, .inl f) => bad s f.toNat
        | (s', .inr t) => match s'.checkPacket d p (h ++ t) none with
          | (_, .wait) => s
          | (u, .reject code) => u.decideRes o code .none
          | (u, .ok k recs) => s'.takeSpawn u o ⟨k, recs⟩ groups

end State

/-- PACKET_CHECK (R23, R24): a queue engine takes the packet at the head of a queue, or one of a SPAWN. -/
def execPacketCheck (c : PkCheck) (s : State) : Host.Outcome State Fault Refusal :=
  .next (match c.src with
    | .queue q => s.checkQueue q c.groups
    | .spawn o => s.whenSent o fun q s => match q.kind with
      | .spawn va user => s.checkSpawn o va.toNat user c.groups
      | _ => s)

/-! ## Completion records (R28, R346) -/

/-- The 32 bytes of a completion record (R28). -/
def recBytes (part : Nat) (x : RecOut) : List Byte :=
  bytesOfNat 32 (x.status + x.late.toNat * 2 ^ 8 + part * 2 ^ 16 + x.queue * 2 ^ 32 + x.seq % 2 ^ 64 * 2 ^ 64
    + x.taskN * 2 ^ 128 + x.nfault % 2 ^ 32 * 2 ^ 160 + x.ctime * 2 ^ 192)

namespace State

/-- Every write of the package is performed at system scope: no die holds dirty bytes of another's, no push is under way
(R169). -/
def allPushed (s : State) : Bool := [0, 1, 2, 3].all fun d => s.pushedOut d

/-- Take the partition's oldest waiting completion record and act on it once all writes are performed at system scope. The records of
all its queues go out in the order of their events, so that one for a queue of a frozen die holds back the others: R28 orders only
those of one queue (DESIGN CHOICE, log 90). -/
def takeRecord (s : State) (part : Nat) (act : RecOut → State → State) : State :=
  match s.part? part with
  | none => s
  | some P => match P.recs.find? fun x => !x.slaunch with
    | none => s
    | some x =>
      if !s.live (x.queue % 4) then s
      else if s.allPushed then act x (s.modPart part fun P => { P with recs := P.recs.eraseIdx (P.recs.findIdx fun y => !y.slaunch) })
      else [0, 1, 2, 3].foldl (fun (s : State) d => s.pushFrom d) s

end State

/-- COMPLETION_RECORD_WRITE (R28, R169, R346): to the queue's completion target as it is at the write, which the manual does
not settle where a QSET has changed it meanwhile (DESIGN CHOICE, log 77). -/
def execCompletionRecordWrite (part : Nat) (s : State) : Host.Outcome State Fault Refusal :=
  .next (s.takeRecord part fun x s =>
    let Q := s.queueAt x.queue
    { s with outbox := s.outbox ++ [.record Q.target Q.buf (recBytes part x)] })
/-- RECORD_TRANSPORT_FAILURE (R346): the record is dropped and counted. -/
def execRecordTransportFailure (part : Nat) (s : State) : Host.Outcome State Fault Refusal :=
  .next (s.takeRecord part fun _ s => { s with serac := { s.serac with recDrops := s.serac.recDrops + 1 } })

/-! ## RMA (R351) -/

namespace State

/-- The window of a partition that holds the job and wholly contains the access with its right. -/
def rmaWindow (s : State) (job va n : Nat) (wr : Bool) : Option (Nat × Window) :=
  s.parts.findSome? fun e =>
    if e.2.cfg.jobs.contains job then
      (e.2.cfg.wins.find? fun w =>
        decide (w.base ≤ va) && decide (va + n ≤ w.base + w.len) && (if wr then w.write else w.read)).map fun w => (e.1, w)
    else none

/-- The places of an RMA access by a port of die d, translated for a virtual window; none where it is refused. -/
def rmaPlaces (s : State) (d p : Nat) (w : Window) (acc : Acc) (va n : Nat) : State × Option (List (Nat × Nat)) :=
  if w.physical then (s, if va + n ≤ 2 ^ 39 then some [(va, n)] else none)
  else match s.devSegs d p acc va n with
    | (s, none) => (s, none)
    | (s, some gs) => (s, some (gs.map fun g => (segPa g, g.len)))

/-- The translation of an RMA access waits for a frozen die (R359). -/
def rmaWaits (s : State) (d p : Nat) (w : Window) (acc : Acc) (va n : Nat) : Bool := !w.physical && s.devWaits d p acc va n
/-- A refused RMA access. -/
def rmaRefuse (s : State) (job : Nat) : State := { s with outbox := s.outbox ++ [.rmaAck job false []] }

/-- Write bytes at places in order, at system scope (R169). -/
def devPut (p : Nat) : List (Nat × Nat) → List Byte → State → State
  | [], _, s => s
  | (pa, n) :: t, bs, s => devPut p t (bs.drop n) ((s.devWrites p pa (bs.take n)).unpoison p pa n)

end State

/-- RMA_WRITE (R169, R351): an access wholly inside one window with the right is performed; any other is refused and touches
nothing. A packet to a port of a die that does not run is lost, and one that needs a frozen die waits (R349, R359). -/
def execRmaWrite (r : RmaReq) (s : State) : Host.Outcome State Fault Refusal :=
  let d := r.port / 3
  .next (if !s.live d then s else if !s.jobBound r.job then s.dropPacket
    else match s.rmaWindow r.job r.addr r.data.length true with
    | none => s.rmaRefuse r.job
    | some (p, w) =>
      if s.rmaWaits d p w .write r.addr r.data.length then s
      else match s.rmaPlaces d p w .write r.addr r.data.length with
      | (t, none) => t.rmaRefuse r.job
      | (t, some gs) =>
        if t.placesLive p gs then
          let t := State.devPut p gs r.data t
          { t with outbox := t.outbox ++ [.rmaAck r.job true []] }
        else s)
/-- RMA_READ (R351). -/
def execRmaRead (r : RmaReq) (s : State) : Host.Outcome State Fault Refusal :=
  let d := r.port / 3
  .next (if !s.live d then s else if !s.jobBound r.job then s.dropPacket
    else match s.rmaWindow r.job r.addr r.len false with
    | none => s.rmaRefuse r.job
    | some (p, w) =>
      if s.rmaWaits d p w .read r.addr r.len then s
      else match s.rmaPlaces d p w .read r.addr r.len with
      | (t, none) => t.rmaRefuse r.job
      | (t, some gs) =>
        if t.placesLive p gs then
          let bs := gs.flatMap fun g => (List.range g.2).map fun i => t.homeByte p (g.1 + i)
          { t with outbox := t.outbox ++ [.rmaAck r.job true bs] }
        else s)

/-- TRANSPORT_PACKET_DROP (R350): a packet of an unsupported service or an unbound job identifier is dropped and counted. -/
def execTransportPacketDrop (s : State) : Host.Outcome State Fault Refusal :=
  .next s.dropPacket

end Sys2Proof.Machine
end

