-- ==== Sys2Proof/Machine/ControlQueue.lean ====
section
/-! DEFINITION. The control commands of a partition (R352 to R354, R375). A reply holds CMD, STATUS and the 56 result bytes;
where CMD and STATUS lie in its bytes 0-7 the manual does not say. -/
namespace Sys2Proof.Machine
namespace State

/-- The message is done: reply with STATUS and result, and go on to the next. -/
def ctlReply (s : State) (part cmd status : Nat) (result : List Byte) : State :=
  let q := s.ctlQueue part
  let Q := s.queueAt q
  let res := result ++ List.replicate (56 - result.length) (0 : Byte)
  { (s.popQueue q) with outbox := s.outbox ++ [.reply Q.target Q.buf cmd status res] }

/-- Argument word i of a control message (R375). -/
def ctlArg (bs : List Byte) (i : Nat) : Nat := msgNat bs (8 + 8 * i) 8
/-- Execute the head message when it is command `cmd`: `act` answers a status, a result and the state, which is kept only
with status 0; 255, which no reply holds, says that the command waits for a frozen die (R359). -/
def ctlStep (s : State) (part cmd used : Nat) (act : List Byte → State → Nat × List Byte × State) : State :=
  match s.ctlHead part with
  | none => s
  | some bs =>
    if msgNat bs 0 1 ≠ cmd then s
    else if !ctlClean bs used then s.ctlReply part cmd 2 []
    else match act bs s with
      | (0, res, s') => s'.ctlReply part cmd 0 res
      | (255, _, _) => s
      | (st, _, _) => s.ctlReply part cmd st []

/-- Frames of the pages of a ring of n bytes at a virtual address, one for each page, if every page translates with R and W
(R375). -/
def ringFrames (s : State) (d p va n : Nat) : State × Option (List Nat) :=
  match s.devSegs d p .write va n with
  | (s, none) => (s, none)
  | (s, some gs) =>
    (s, some ((gs.zip (List.range gs.length)).filterMap fun e =>
      if e.2 = 0 ∨ segPa e.1 % 65536 = 0 then some (segPa e.1 / 65536 * 65536) else none))

/-- QSET (R352, R375). -/
def qset (part : Nat) (bs : List Byte) (s : State) : Nat × List Byte × State :=
  let q := ctlArg bs 0
  let base := ctlArg bs 1
  let j := ctlArg bs 2
  let cls := ctlArg bs 3
  if 65536 ≤ q ∨ s.queueOwner q ≠ some part ∨ q = s.ctlQueue part ∨ j < 4 ∨ 16 < j ∨ 3 < cls
      ∨ base % (256 * 2 ^ j) ≠ 0 then (2, [], s)
  else if s.devWaits (q % 4) part .write base (256 * 2 ^ j) then (255, [], s)
  else match s.ringFrames (q % 4) part base (256 * 2 ^ j) with
    | (s, none) => (2, [], s)
    | (s, some fr) =>
      (0, [], s.modQueue q fun Q => { Q with
        isSet := true, base := base, frames := fr, j := j, cls := cls
        target := (bs.drop 40).take 16, buf := BitVec.ofNat 64 (ctlArg bs 6)
        head := 0, entries := [], nextSeq := 0, waits := none })

/-- FRING (R314, R375). -/
def fring (part : Nat) (bs : List Byte) (s : State) : Nat × List Byte × State :=
  let base := ctlArg bs 0
  let j := ctlArg bs 1
  let d := s.ctlQueue part % 4
  if base % 64 ≠ 0 ∨ j < 4 ∨ 16 < j then (2, [], s)
  else if s.devWaits d part .write base (64 + 64 * 2 ^ j) then (255, [], s)
  else match s.ringFrames d part base (64 + 64 * 2 ^ j) with
    | (s, none) => (2, [], s)
    | (s, some fr) =>
      if !s.placesLive part [(ringPa base fr 0, 24)] then (255, [], s)
      else if s.homeNat part (ringPa base fr 0) 24 ≠ 0 then (2, [], s)
      else (0, [], s.modPart part fun P => { P with ring := some ⟨base, j, fr⟩ })

/-- FOFFER (R354): the feature word. -/
def foffer (s : State) : Nat × List Byte × State := (0, bytesOfNat 8 0x3F, s)

/-- FACCEPT (R354). -/
def faccept (part : Nat) (bs : List Byte) (s : State) : Nat × List Byte × State :=
  let m := ctlArg bs 0
  if 64 ≤ m then (2, [], s) else (0, [], s.modPart part fun P => { P with features := BitVec.ofNat 6 m })

/-- SRESUME (R353): the latch of a slot of the partition. -/
def sresume (part : Nat) (bs : List Byte) (s : State) : Nat × List Byte × State :=
  let v := ctlArg bs 0
  if s.ownerOf (v % 16) ≠ some part then (2, [], s)
  else if !s.live (coreDie (field v 4 10)) then (255, [], s)
  else (0, [], s.setLatch ⟨field v 4 10, v % 16⟩)

end State

/-- QSET. -/
def execQset (part : Nat) (s : State) : Host.Outcome State Fault Refusal :=
  .next (s.ctlStep part 1 56 (State.qset part))
/-- FRING. -/
def execFring (part : Nat) (s : State) : Host.Outcome State Fault Refusal :=
  .next (s.ctlStep part 2 16 (State.fring part))
/-- FOFFER. -/
def execFoffer (part : Nat) (s : State) : Host.Outcome State Fault Refusal :=
  .next (s.ctlStep part 3 0 fun _ s => s.foffer)
/-- FACCEPT. -/
def execFaccept (part : Nat) (s : State) : Host.Outcome State Fault Refusal :=
  .next (s.ctlStep part 4 8 (State.faccept part))
/-- SRESUME. -/
def execSresume (part : Nat) (s : State) : Host.Outcome State Fault Refusal :=
  .next (s.ctlStep part 5 8 (State.sresume part))
/-- CONTROL_UNKNOWN_CMD (R352): STATUS 1 and nothing changes. -/
def execControlUnknownCmd (part : Nat) (s : State) : Host.Outcome State Fault Refusal :=
  .next (match s.ctlHead part with
    | some bs => let c := msgNat bs 0 1; if c = 0 ∨ 6 < c then s.ctlReply part c 1 [] else s
    | none => s)
/-- SLAUNCH (R353): its packet is checked and accepted as one of a queue, when its queue's class and the rotation let the
engine take it (R27); the reply comes with its completion record, and
until then no control message is executed. -/
def execSlaunch (part : Nat) (s : State) : Host.Outcome State Fault Refusal :=
  .next (match s.ctlHead part with
    | none => s
    | some bs =>
      if msgNat bs 0 1 ≠ 6 then s
      else if !State.ctlClean bs 32 then s.ctlReply part 6 2 []
      else
        let q := s.ctlQueue part
        let d := q % 4
        let seq := ((s.queueAt q).entries.head?.map fun e => e.seq).getD 0
        let pk := (bs.drop 8).take 32
        let owed := fun (s : State) => ((s.served q).popQueue q).modPart part fun P => { P with slaunch := true }
        if !s.isNext q || !s.acceptOpen d part then s
        else match s.checkPacket d part pk (some 32) with
          | (_, .wait) => s
          | (s, .reject code) => (owed s).recordReject part q seq (msgNat pk 16 4) code true
          | (s, .ok k recs) => match s.freeLaunch d with
            | some l => (owed s).accept d part l k recs [] (.slaunch q seq)
            | none => s)
/-- SLAUNCH_REPLY (R353): the reply with the completion record in bytes 8-39, once the writes of R169 are performed; the
control queue then goes on. -/
def execSlaunchReply (part : Nat) (s : State) : Host.Outcome State Fault Refusal :=
  .next (match s.part? part with
    | none => s
    | some P => match P.recs.find? fun x => x.slaunch with
      | none => s
      | some x =>
        if !s.live (P.cfg.cq % 4) then s
        else if s.allPushed then
          let Q := s.queueAt P.cfg.cq
          let s := s.modPart part fun P => { P with recs := P.recs.filter fun y => !y.slaunch, slaunch := false }
          { s with outbox := s.outbox ++
            [.reply Q.target Q.buf 6 0 (recBytes part x ++ List.replicate 24 (0 : Byte))] }
        else [0, 1, 2, 3].foldl (fun (s : State) d => s.pushFrom d) s)

end Sys2Proof.Machine
end

