-- ==== Sys2Proof/Machine/Copy.lean ====
section
/-! DEFINITION. Copy jobs: COPY, COPY2, KVGATH and the events of the copy engine (R182 to R188, R373). -/
namespace Sys2Proof.Machine

/-- Rows of a job: COPY has one, or data and scales when it de-interleaves (R184 to R186). -/
def copyRows (j : CopyJob) (m : CopyMode) : Nat :=
  match j.kind, m with
  | .copy, .deinterleave => 2
  | .copy, _ => 1
  | .copy2 _ _ _, _ => j.cnt
  | .kvgath _ _ _, _ => 64

/-- Destination address and length of a row; `scale` gives scale-plane addresses (R140). -/
def copyRow (scale : Nat → Nat) (j : CopyJob) (m : CopyMode) (r : Nat) : Nat × Nat :=
  match j.kind, m with
  | .copy, .bytes => (j.dst, j.cnt)
  | .copy, .interleave => (j.dst, j.cnt / 32 * 40)
  | .copy, .deinterleave => if r = 0 then (j.dst, j.cnt / 40 * 32) else (scale j.dst, j.cnt / 40 * 8)
  | .copy2 rb _ ds, _ => ((j.dst + r * ds) % 2 ^ 64, rb)
  | .kvgath blk _ mask, _ => ((j.dst + r * blk) % 2 ^ 64, if mask.getLsbD r then blk else 0)

/-- Source of byte i of a row, none for a zero, with its job byte offset (R183 to R186). -/
def copySrc (scale : Nat → Nat) (j : CopyJob) (m : CopyMode) (r i : Nat) : Option (Nat × Acc) × Nat :=
  match j.kind, m with
  | .copy, .bytes => (some ((j.src + i) % 2 ^ 64, .read), i)
  | .copy, .interleave =>
    let g := 32 * (i / 40)
    let x := i % 40
    if x < 32 then (some ((j.src + g + x) % 2 ^ 64, .read), g + x)
    else (some ((scale ((j.src + g) % 2 ^ 64) + (x - 32)) % 2 ^ 64, .plane), g + 4 * (x - 32))
  | .copy, .deinterleave =>
    let o := if r = 0 then 40 * (i / 32) + i % 32 else 40 * (i / 8) + 32 + i % 8
    (some ((j.src + o) % 2 ^ 64, .read), o)
  | .copy2 rb ss _, _ => (some ((j.src + r * ss + i) % 2 ^ 64, .read), r * rb + i)
  | .kvgath blk idx _, _ =>
    let b := idx.getD r 0
    (if b < j.cnt then some ((j.src + b * blk + i) % 2 ^ 64, .read) else none, r * blk + i)

/-- The 128-byte sectors that a row touches, by virtual address (R182). -/
def rowSectors (x : Nat × Nat) : List Nat :=
  if x.2 = 0 then [] else (List.range ((x.1 % 128 + x.2 + 127) / 128)).map fun k => (x.1 / 128 + k) % 2 ^ 57
/-- The bytes of a row that lie in a sector. -/
def rowIn (x : Nat × Nat) (sec : Nat) : List Nat :=
  (List.range 128).filterMap fun k =>
    let i := (sec * 128 + k + 2 ^ 64 - x.1 % 2 ^ 64) % 2 ^ 64
    if i < x.2 then some i else none
/-- The rows of a job that have bytes in a sector. -/
def copyRowsIn (scale : Nat → Nat) (j : CopyJob) (m : CopyMode) (sec : Nat) : List Nat :=
  (List.range (copyRows j m)).filter fun r => !(rowIn (copyRow scale j m r) sec).isEmpty
/-- A KVGATH index is out of range in an active lane (R186). -/
def copyBounds (j : CopyJob) : Bool :=
  match j.kind with
  | .kvgath _ idx mask => (List.range 64).any fun r => mask.getLsbD r && decide (j.cnt ≤ idx.getD r 0)
  | _ => false

namespace State

/-- Scale-plane addresses as a job's core sees SPBASE. -/
def jobScale (s : State) (j : CopyJob) (va : Nat) : Nat := s.scaleVa j.part j.core va

/-- Queue entries a partition holds at a cluster's copy engine. The running job counts until its token fills: R283 says so of the
matrix engine, the manual nothing of this one (DESIGN CHOICE, log 89). -/
def copyHeld (s : State) (k p : Nat) : Nat :=
  let K := s.clusterAt k
  (K.copyQ.filter fun j => j.part == p).length + (K.copyRun.toList.filter fun x => x.job.part == p).length

/-- Issue of a copy job: latched operands go to the cluster's queue; a full share stalls the slot; a count of 0 fills the
token at once, and its partition is charged 1 (R182, R184, R185, R373), where it has a job queued or running: else it has no credit
to charge (R284). A job of count 0 stalls too while the share is full, although it is never queued (DESIGN CHOICE, log 89). -/
def copyOp (d : SField) (srcs : List Src) (zeroDone : Bool) (a b c : SField) (mk : State → CopyKind) (sc : Scope)
    (fillfe stamp : Bool) (pol : Nat) (s : State) : State :=
  s.issueP none srcs
    (fun s => if 4 * s.slotCount s.herePart ≤ s.copyHeld (clusterOf s.cur.core) s.herePart then .stall .engineQueue else .ok)
    fun s =>
      if zeroDone && s.rd c == 0 then
        let p := s.herePart
        ((s.giveNow d 0 .none).modCluster (clusterOf s.cur.core) fun K => { K with
          copyCredit := if (K.copyQ.any fun q => q.part == p) || K.copyRun.any fun x => x.job.part == p then Sparse.set p (Sparse.get 0 K.copyCredit p - 1) K.copyCredit
            else K.copyCredit }).retire 8 16
      else
        let (id, s) := s.fresh
        let core := s.cur.core
        let p := s.herePart
        let src := (s.rd b).toNat
        let job : CopyJob := ⟨id, s.cur, core, p, !s.here.mode.priv, mk s, (s.rd a).toNat, src, (s.rd c).toNat,
          s.sfmtOfVa core p src, sc, fillfe, stamp, pol, .s d.val⟩
        let s := s.await s.cur (.s d.val) id
        (s.modCluster (clusterOf core) fun K => { K with copyQ := K.copyQ ++ [job] }).retire 8 16

/-- The job's engine finds how it moves bytes, or why it cannot (R184, R185). Of a range over pages of several formats the page of
the first byte decides (DESIGN CHOICE, log 89). -/
def copyPlan (s : State) (k : Nat) (j : CopyJob) : State × (Nat ⊕ CopyMode) :=
  let inWin := fun va => match whereIs j.core va with
    | .win _ _ => true
    | _ => false
  let pageFmt := fun (s : State) (va : Nat) (acc : Acc) => match whereIs j.core va with
    | .page => match s.clusterXl k j.part j.core va acc j.user with
      | (s, .inr e) => (s, pteFmt e.pte)
      | (s, .inl _) => (s, 0)
    | _ => (s, 0)
  match j.kind with
  | .copy =>
    if 2 ^ 32 < j.cnt then (s, .inl 7)
    else
      let (s, fs) := pageFmt s j.src .read
      if fs = 1 ∧ inWin j.dst then
        if j.src % 32 = 0 ∧ j.cnt % 32 = 0 ∧ j.dst % 8 = 0 then (s, .inr .interleave) else (s, .inl 4)
      else if inWin j.src && j.sfmt == 1 then
        let (s, fd) := pageFmt s j.dst .write
        if fd = 1 then
          if j.cnt % 40 = 0 ∧ j.dst % 32 = 0 then (s, .inr .deinterleave) else (s, .inl 4)
        else (s, .inr .bytes)
      else (s, .inr .bytes)
  | .copy2 _ _ _ => (s, if 2 ^ 24 < j.cnt then .inl 7 else .inr .bytes)
  | .kvgath _ _ _ => (s, .inr .bytes)

/-- What a job's start has to know of its pages waits for a frozen die (R359). -/
def copyPlanWaits (s : State) (k : Nat) (j : CopyJob) : Bool :=
  s.xlWaits k j.part j.core j.user .read j.src || s.xlWaits k j.part j.core j.user .write j.dst

/-- The places of a sector's bytes, given by row and number: source (none for a zero), destination and job offset; or the first
fault by job offset (R183). -/
def copyPlaces (s : State) (k : Nat) (j : CopyJob) (m : CopyMode) :
    List (Nat × Nat) → State × List (Option Loc × Loc × Nat) × Option (Nat × Nat)
  | [] => (s, [], none)
  | (r, i) :: t =>
    let scale := s.jobScale j
    let (src, off) := copySrc scale j m r i
    let dva := ((copyRow scale j m r).1 + i) % 2 ^ 64
    let (s, x) : State × (BitVec 8 ⊕ Option Loc) := match src with
      | none => (s, .inr none)
      | some (va, acc) => match s.engByte k j.part j.core j.user acc va with
        | (s, .inl f) => (s, .inl f)
        | (s, .inr l) => (s, .inr (some l))
    let (s, y) := s.engByte k j.part j.core j.user .write dva
    let (s, ls, f) := s.copyPlaces k j m t
    let bad := fun (c : BitVec 8) => match f with
      | some (c', o') => if o' < off then some (c', o') else some (c.toNat, off)
      | none => some (c.toNat, off)
    match x, y with
    | .inl c, _ => (s, ls, bad c)
    | .inr _, .inl c => (s, ls, bad c)
    | .inr a, .inr b => (s, (a, b, off) :: ls, f)

/-- Set a word of a scratchpad full and serve who waits for it (R187). -/
def fillWord (s : State) (p from_ c w : Nat) : State :=
  (s.padSet c p w { s.padWord c p w with full := true, far := from_ != coreDie c }).bankRun c p w

/-- Write one destination sector of a job whose places are known (R182, R187, R326): its source sectors are read, those not read
before; then the bytes are written at once; poisoned data poisons the sector. Answers the reads and the job offset of the first
byte read from poisoned data. -/
def copyWrite (s : State) (j : CopyJob) (rs : List SecRead) (ls : List (Option Loc × Loc × Nat)) :
    State × List SecRead × Option Nat :=
  let p := j.part
  let d := coreDie j.core
  let (s, rs) := ls.foldl (fun (x : State × List SecRead) e => match e.1 with
    | some l => x.1.engRead j.core p j.pol l x.2
    | none => x) (s, rs)
  let bads := ls.filterMap fun e => e.1.bind fun l => if (engSector rs l).bad then some e.2.2 else none
  let dsts := (ls.map fun e => e.2.1).eraseDups
  let s := s.cacheSegs d p none j.pol true ((dsts.map locSector).eraseDups.map fun l => ⟨l, 128⟩)
  let s := ls.foldl (fun (s : State) e =>
    s.locWrite d p e.2.1 [(e.1.map fun l => (engSector rs l).bytes.getD (locByteNo l) 0).getD 0]) s
  let s := match dsts.head? with
    | some l => if dsts.length = 128 then s.poisonLoc d p l false else s
    | none => s
  let s := if bads.isEmpty then s else dsts.foldl (fun s l => s.poisonLoc d p l true) s
  let s := s.engWrote j.core p (dsts.map fun l => ⟨l, 1⟩)
  let words := (dsts.filterMap fun l => match l with
    | .pad c off => some (c, off / 8)
    | .paged _ _ _ => none).eraseDups
  let s := if j.fillfe then words.foldl (fun s w => s.fillWord p d w.1 w.2) s else s
  (s, rs, bads.foldl (fun (m : Option Nat) o => some (match m with
    | some x => min x o
    | none => o)) none)

/-- The value of a token (R183). -/
def copyToken (x : CopyRun) : Nat :=
  (if copyBounds x.job then 2 ^ 62 else 0) + (match x.fault with
    | some (c, off) => 2 ^ 63 + off % 2 ^ 46 * 2 ^ 16 + c % 2 ^ 16
    | none => 0)

/-- STAMP at the token fill of a job that wrote (R119, R142, R187). A paged source's format is read as the page has it then: the
manual does not say when (DESIGN CHOICE, log 89). -/
def copyStamp (s : State) (k : Nat) (x : CopyRun) : State :=
  let j := x.job
  let r0 := ((List.range (copyRows j x.mode)).find? fun r => decide ((copyRow (s.jobScale j) j x.mode r).2 ≠ 0)).getD 0
  match whereIs j.core (copyRow (s.jobScale j) j x.mode r0).1 with
  | .win wc off =>
    let (s, f) := match whereIs j.core j.src with
      | .page => match s.clusterXl k j.part j.core j.src .read j.user with
        | (s, .inr e) => (s, pteFmt e.pte)
        | (s, .inl _) => (s, 0)
      | _ => (s, j.sfmt)
    let i := off / (s.padSize j.part / 16)
    s.modCp wc j.part fun cp => { cp with
      sfmt := Sparse.set i (BitVec.ofNat 4 f) cp.sfmt, stamps := Sparse.set i (s.cycleOf wc + 1) cp.stamps }
  | _ => s

/-- A job has nothing left to move. -/
def copyOver (s : State) (x : CopyRun) : Bool :=
  x.fault.isSome || (List.range (copyRows x.job x.mode)).all fun r =>
    (rowSectors (copyRow (s.jobScale x.job) x.job x.mode r)).all fun k => x.moved.contains k

end State

/-- COPY (R184). -/
def execCopy (o : CopyO) (s : State) : Host.Outcome State Fault Refusal :=
  .next (s.copyOp o.d [.s o.a o.am, .s o.b o.bm, .s o.c o.cm] true o.a o.b o.c (fun _ => .copy) o.scope o.fillfe o.stamp o.cp.val)
/-- COPY2 (R185). -/
def execCopy2 (o : Copy2O) (s : State) : Host.Outcome State Fault Refusal :=
  .next (s.copyOp o.d [.s o.a o.am, .s o.b o.bm, .s o.c o.cm] true o.a o.b o.c
    (fun _ => .copy2 o.rowbytes.toNat o.sstride.toNat o.dstride.toNat) o.scope o.fillfe o.stamp o.cp.val)
/-- KVGATH (R186): the index register and the mask are latched. -/
def execKvgath (o : KvO) (s : State) : Host.Outcome State Fault Refusal :=
  .next (s.copyOp o.d [.s o.a o.am, .s o.b o.bm, .s o.c o.cm, .v o.idx .wait, .m o.mask] false o.a o.b o.c
    (fun s => .kvgath o.blk.toNat ((List.range 64).map fun i => lane 32 (s.rdv o.idx) i) (s.rdm o.mask)) o.scope o.fillfe o.stamp 0)

/-- COPY_JOB_START (R373): the idle engine takes the oldest job of the partition that the round robin serves next. -/
def execCopyJobStart (cluster : Nat) (s : State) : Host.Outcome State Fault Refusal :=
  let K := s.clusterAt cluster
  .next (if K.copyRun.isSome || !s.live (cluster / 32) then s
    else match drrPick s.weightOf (fun p => K.copyQ.any fun j => j.part == p) K.copyLast K.copyCredit with
      | none => s
      | some (p, credit) => match K.copyQ.find? fun j => j.part == p with
        | none => s
        | some j =>
          if s.jobMayStart j.ref j.id && !s.copyPlanWaits cluster j then
            let (s, plan) := s.copyPlan cluster j
            let run : CopyRun := match plan with
              | .inl c => ⟨j, .bytes, [], some (c, 0), []⟩
              | .inr m => ⟨j, m, [], none, []⟩
            s.modCluster cluster fun K => { K with
              copyQ := K.copyQ.filter fun x => x.id != j.id, copyRun := some run, copyLast := p, copyCredit := credit }
          else s)

/-- COPY_SECTOR_MOVE (R182): the running job writes one of its destination sectors, named by virtual address, in no stated
order; where rows of it overlap there, which one's byte stays is a free choice (log 20). A fault found ends its moves (R188); REDs
under way to a sector it reads or writes go first (R161). -/
def execCopySectorMove (cluster sector : Nat) (s : State) : Host.Outcome State Fault Refusal :=
  .next (match (s.clusterAt cluster).copyRun with
    | none => s
    | some x =>
      let j := x.job
      let scale := s.jobScale j
      let rows := copyRowsIn scale j x.mode sector
      if 2 ^ 57 ≤ sector || x.fault.isSome || x.moved.contains sector || rows.isEmpty || !s.live (cluster / 32) then s
      else
        let put := fun (s : State) (x : CopyRun) => s.modCluster cluster fun K => { K with copyRun := some x }
        let (n, s) := s.chooseOf rows.length
        let bytes := (rows.drop n ++ rows.take n).flatMap fun r => (rowIn (copyRow scale j x.mode r) sector).map fun i => (r, i)
        match s.copyPlaces cluster j x.mode bytes with
        | (t, _, some f) => if f.1 = 0 then s else put t { x with fault := some f }
        | (s, ls, none) =>
          let gs : List Seg := ls.flatMap fun e => e.1.toList.map (fun l => ⟨l, 1⟩) ++ [⟨e.2.1, 1⟩]
          let srcs : List Seg := ls.flatMap fun e => e.1.toList.map fun l => ⟨l, 1⟩
          if s.segsInU (cluster / 32) gs then s.flushReds (cluster / 32) gs
          else if !s.readLive (cluster / 32) false srcs || !(ls.all fun e => s.writeLive (cluster / 32) e.2.1) then s
          else
            let (s, rs, bad) := s.copyWrite j x.read ls
            put s { x with fault := bad.map fun o => (16, o), moved := sector :: x.moved, read := rs })

namespace State

/-- The running job's token fills and its queue entry is free; the partition is charged for the sectors written (R373). -/
def copyFill (s : State) (k : Nat) (x : CopyRun) : State :=
  let j := x.job
  let s := if j.stamp && x.fault.isNone && !x.moved.isEmpty then s.copyStamp k x else s
  let v := copyToken x
  let s := s.deliver j.ref j.dest j.id v (faultMark v)
  let s := s.modCluster k fun K => { K with
    copyRun := none
    copyCredit := if K.copyQ.any fun q => q.part == j.part then
        Sparse.set j.part (Sparse.get 0 K.copyCredit j.part - max 1 x.moved.length) K.copyCredit
      else Sparse.erase j.part K.copyCredit }
  s.wakeEngine k

end State

/-- COPY_TOKEN_FILL (R157, R183, R188): a token fills, freely chosen among those that may: of the running job once it is over and
every write is performed at its scope, or of a discarded job once its release is met. -/
def execCopyTokenFill (cluster : Nat) (s : State) : Host.Outcome State Fault Refusal :=
  let K := s.clusterAt cluster
  let ended := K.copyRun.toList.filter fun x => s.copyOver x && !(x.job.stamp && s.copyPlanWaits cluster x.job)
  let gone := K.gone.filter fun j => j.copy
  let ready := ended.filter fun x => s.scopeDone (cluster / 32) x.job.scope
  let out := gone.filter (s.goneReady cluster)
  .next (if !s.live (cluster / 32) || (ended.isEmpty && gone.isEmpty) then s
    else if ready.isEmpty && out.isEmpty then s.pushAll (cluster / 32)
    else
      let (n, s) := s.chooseOf (ready.length + out.length)
      match ready[n]?, out[n - ready.length]? with
      | some x, _ => s.copyFill cluster x
      | none, some j => s.goneFill cluster j
      | none, none => s)

end Sys2Proof.Machine
end

