-- ==== Sys2Proof/Machine/Firn.lean ====
section
/-! DEFINITION. The Firn counting network: the network, its contexts, groups, and the meanings of the instructions and
events of a plane (R231 to R247, R251 to R260). -/
namespace Sys2Proof.Machine

/-! ## The network (R231 to R233) -/

/-- The merger stage m (width 2^m) that holds a layer, and the layer's place in it, for layers counted from 1. -/
def layerStage (l : Nat) : Nat × Nat :=
  let m := ((List.range 6).find? fun m => decide (l ≤ (m + 1) * (m + 2) / 2)).getD 5
  (m + 1, l - 1 - m * (m + 1) / 2)
/-- The other wire of the balancer that a wire meets in a layer (R232). -/
def firnPartner (l wire : Nat) : Nat :=
  let (m, t) := layerStage l
  let w := 2 ^ m
  let i := wire % w
  if t = 0 then wire - i + (w - 1 - i)
  else
    let sh := w / 2 ^ (t + 1)
    wire - i + (if i / sh % 2 = 0 then i + sh else i - sh)
/-- Layers of Bitonic[2^k] (R233). -/
def firnLayers (k : Nat) : Nat := k * (k + 1) / 2
/-- Width of a context (R234). -/
def FirnCtx.width (x : FirnCtx) : Nat := 2 ^ x.wcode
/-- One balancer step of a token or antitoken (R231): the output wire and the toggles after it. -/
def balancerStep (toggles : List (Nat × Nat)) (anti : Bool) (l wire : Nat) : Nat × List (Nat × Nat) :=
  let q := firnPartner l wire
  let top := min wire q
  let on := toggles.contains (l, top)
  let flipped := if on then toggles.filter fun t => t != (l, top) else (l, top) :: toggles
  (if on == anti then top else max wire q, flipped)

/-! ## Contexts (R234 to R244) -/

/-- The signed exit count c_e. -/
def FirnCtx.count (x : FirnCtx) (e : Nat) : Int := (Sparse.get 0 x.cnt e : BitVec 40).toInt
/-- v - BASE of the value that exit e holds (R236). -/
def FirnCtx.diff (x : FirnCtx) (e : Nat) : Int := x.count e * x.width + e
/-- v = (BASE + d) mod 2^64. -/
def FirnCtx.value (x : FirnCtx) (d : Int) : Word := x.base + BitVec.ofInt 64 d
/-- Change an exit count by one. -/
def FirnCtx.bump (x : FirnCtx) (e : Nat) (by_ : Int) : FirnCtx :=
  { x with cnt := Sparse.set e (Sparse.get 0 x.cnt e + BitVec.ofInt 40 by_) x.cnt }
/-- The VALUE field of a result (R251). -/
def firnVal (w32 : Bool) (v : Word) : Nat := if w32 then v.toNat % 2 ^ 32 else v.toNat % 2 ^ 56
/-- Result bits N, Q, R, V, F, ADV (R251). -/
def firnBit (on : Bool) (n : Nat) : Nat := if on then 2 ^ n else 0
/-- A refused request's word: FAULT and cause 10. -/
def firnFault : Nat := 2 ^ 63 + 10
/-- FCAN of the value v (R238): the context after it, and the V and F bits. -/
def FirnCtx.cancel (x : FirnCtx) (v : Word) : FirnCtx × Nat :=
  let d : Int := (v.toNat : Int) - x.base.toNat
  let e := (d % x.width).toNat
  if x.spread || decide (d < 0) || decide (x.count e ≤ d / x.width) then (x, firnBit true 59)
  else if x.queue.contains d.toNat then (x, firnBit true 59)
  else if 8 ≤ x.queue.length then (x, firnBit true 58)
  else ({ x with queue := x.queue ++ [d.toNat] }, 0)
/-- A tag lies below a phase, both taken mod 2^32 (R243). -/
def tagBelow (tag phase : BitVec 32) : Bool := decide (0 < (phase - tag).toInt)

namespace State

/-- A context. -/
def ctxAt (s : State) (d x : Nat) : FirnCtx := Sparse.get FirnCtx.init (s.dieAt d).firn x
/-- Change a context. -/
def modCtx (s : State) (d x : Nat) (f : FirnCtx → FirnCtx) : State :=
  s.modDie d fun D => { D with firn := Sparse.modify FirnCtx.init x f D.firn }

/-- The phase of the group of a context advances: every parked slot with a tag below the new PHASE wakes (R243). -/
def advancePhase (s : State) (d even : Nat) : State :=
  let s := s.modCtx d even fun x => { x with phase := x.phase + 1, target := x.target + x.memb.setWidth 40 }
  let ph := (s.ctxAt d even).phase
  let go := (s.dieAt d).gbars.filter fun g => g.ctx == even && tagBelow g.tag ph
  let s := s.modDie d fun D => { D with gbars := D.gbars.filter fun g => !(g.ctx == even && tagBelow g.tag ph) }
  go.foldl (fun s g => s.decideRes ⟨g.ref.core, g.ref.slot, g.id⟩ g.tag.toNat .none) s

/-- A context of a plane lies in partition p's range (R41, R246). -/
def ownsCtx (s : State) (p d ctx : Nat) : Bool :=
  match (s.part? p).bind fun P => P.cfg.firn[d]? with
  | some (b, n) => decide (b ≤ ctx) && decide (ctx < b + n)
  | none => false

/-- The rule of R243 for a token of partition p that exits on an odd context with difference `diff`: answers whether the
phase advanced. A membership context of another partition is not touched (log 74). -/
def arrivalRule (s : State) (p d odd : Nat) (diff : Int) : State × Bool :=
  if odd % 2 = 1 ∧ s.ownsCtx p d (odd - 1) ∧ diff = (s.ctxAt d (odd - 1)).target.toInt then (s.advancePhase d (odd - 1), true)
  else (s, false)

/-- A slot still waits in the GBAR of this operation, also while it is being saved (R245). -/
def waitsGbar (s : State) (r : SlotRef) (id : Nat) : Bool :=
  (s.slotAt r).run == .parked (.gbar id) || (s.slotAt r).run == .saving (some (.gbar id))

/-- A request without a token acts at the exit stage (R236 to R238, R253 to R259): its result word. -/
def exitServe (s : State) (d ctx : Nat) (op : FirnOp) (arg : Word) (w32 : Bool) : State × Nat :=
  let x := s.ctxAt d ctx
  match op with
  | .finc =>
    match x.queue with
    | q :: t => (s.modCtx d ctx fun x => { x with queue := t }, firnBit true 60 + firnVal w32 (x.value q))
    | [] => (s, 0)
  | .join =>
    let (idx, r, s) : Nat × Bool × State := match x.queue with
      | q :: t => (q, true, s.modCtx d ctx fun x => { x with queue := t })
      | [] => (0, false, s)
    let s := s.modCtx d ctx fun x => { x with memb := x.memb + 1, target := x.target + 1 }
    (s, firnBit r 60 + idx % 2 ^ 32 + (s.ctxAt d ctx).phase.toNat % 2 ^ 24 * 2 ^ 32)
  | .fcan =>
    let v : Word := if w32 then BitVec.ofNat 64 (arg.toNat % 2 ^ 32) else arg
    let (y, bits) := x.cancel v
    (s.modCtx d ctx fun _ => y, bits + firnVal w32 v)
  | .fpeek =>
    let v : Word := match arg.toNat % 4 with
      | 0 => x.base + BitVec.ofInt 64 ((List.range x.width).foldl (fun (n : Int) e => n + x.count e) 0)
      | 1 => BitVec.ofNat 64 x.queue.length
      | 2 => x.memb.setWidth 64
      | _ => x.phase.setWidth 64
    (s, firnVal w32 v)
  | .leave =>
    let (y, bits) := x.cancel (x.base + arg)
    if bits ≠ 0 then (s, bits + x.memb.toNat)
    else
      let y := { y with memb := y.memb - 1, target := y.target - 1 }
      let s := s.modCtx d ctx fun _ => y
      let o := s.ctxAt d (ctx + 1)
      let t := y.target.toInt
      if t / o.width < o.count (t % o.width).toNat then
        let s := s.advancePhase d ctx
        (s, firnBit true 57 + y.memb.toNat)
      else (s, y.memb.toNat)
  | .fdec | .gbar => (s, 0)

/-- The context whose network or exit stage a request uses: a GBAR enters its group's arrival context (R243). -/
def firnCtxOf (op : FirnOp) (ctx : Nat) : Nat := if op = .gbar then ctx / 2 * 2 + 1 else ctx

/-- Entry wire of a slot into a context (R236, R247). -/
def entryWire (s : State) (d ctx : Nat) (r : SlotRef) : Nat :=
  let x := s.ctxAt d ctx
  x.wire + (r.core + r.slot) % x.width

/-- A request has reached the plane and no FCFG is before it: refused, served at the exit stage, or a token (R237, R243,
R246, R258). A GBAR or LEAVE whose arrival context lies outside the partition's range is refused too (R41, log 74). A LEAVE whose
arrival context has CFG 0 is served, with the width and counts of that context as they then are: the manual says nothing of it
(DESIGN CHOICE, log 93). -/
def firnEnter (s : State) (d : Nat) (o : OpRef) (ctx : Nat) (op : FirnOp) (arg : Word) (w32 : Bool) (p : Nat) : State :=
  let r : SlotRef := ⟨o.core, o.slot⟩
  let group := op == .join || op == .leave || op == .gbar
  let x := s.ctxAt d ctx
  let net := firnCtxOf op ctx
  let other := (op == .leave || op == .gbar) && !s.ownsCtx p d (ctx + 1)
  if (group && ctx % 2 == 1) || !x.cfg || !(s.ctxAt d net).cfg || other then s.decideRes o firnFault (.faulted)
  else
    let token := op == .fdec || op == .gbar || ((op == .finc || op == .join) && (x.queue.isEmpty || x.spread))
    if token then
      let tag := if op == .gbar then x.phase else 0
      let s := if op == .gbar then s.modPend o fun q => { q with va := tag.setWidth 64 } else s
      s.modDie d fun D => { D with tokens := D.tokens ++ [⟨o.id, r, net, op, w32, s.entryWire d net r, 0, tag, p⟩] }
    else
      let (s, v) := s.exitServe d ctx op arg w32
      s.decideRes o v .none

/-- Some request of a context is in flight in its plane (R235). -/
def ctxBusy (s : State) (d ctx : Nat) : Bool :=
  (s.dieAt d).tokens.any fun t => t.ctx == ctx || (t.op == .gbar && t.ctx / 2 * 2 == ctx)
/-- The contexts that a request at a plane concerns: a GBAR its group's two, any other its own (R235, R243). -/
def heldCtxs (h : FirnHeld) : List Nat := if h.op == .gbar && h.fcfg.isNone then [h.ctx, firnCtxOf h.op h.ctx] else [h.ctx]
/-- Some request of a list concerns one of the contexts of `h`. -/
def heldMeets (l : List FirnHeld) (h : FirnHeld) : Bool := l.any fun k => (heldCtxs k).any fun x => (heldCtxs h).contains x

/-- A token leaves the last layer of its context at exit e (R236, R243, R253, R254, R258, R260). -/
def firnExit (s : State) (d : Nat) (t : FirnTok) : State :=
  let x := s.ctxAt d t.ctx
  let e := t.wire - x.wire
  let o : OpRef := ⟨t.ref.core, t.ref.slot, t.id⟩
  let s := s.modDie d fun D => { D with tokens := D.tokens.filter fun u => u.id != t.id }
  match t.op with
  | .fdec =>
    let y := x.bump e (-1)
    let diff := y.diff e
    let q := decide (0 ≤ diff) && y.queue.contains diff.toNat
    let y := if q then { y with queue := y.queue.filter fun k => k != diff.toNat } else y
    let s := s.modCtx d t.ctx fun _ => y
    s.decideRes o (firnBit (decide (y.count e < 0)) 62 + firnBit q 61
      + (if x.spread then e else firnVal t.w32 (y.value diff))) .none
  | .join =>
    let diff := x.diff e
    let s := s.modCtx d t.ctx fun x => { x.bump e 1 with memb := x.memb + 1, target := x.target + 1 }
    s.decideRes o ((BitVec.ofInt 32 diff).toNat + (s.ctxAt d t.ctx).phase.toNat % 2 ^ 24 * 2 ^ 32) .none
  | .gbar =>
    let diff := x.diff e
    let s := s.modCtx d t.ctx fun x => x.bump e 1
    let (s, adv) := s.arrivalRule t.part d t.ctx diff
    if adv then s.decideRes o (firnBit true 57 + t.tag.toNat) .none
    else if tagBelow t.tag (s.ctxAt d (t.ctx - 1)).phase || !s.waitsGbar t.ref t.id then s.decideRes o t.tag.toNat .none
    else s.modDie d fun D => { D with gbars := D.gbars ++ [⟨t.id, t.ref, t.ctx - 1, t.tag⟩] }
  | _ =>
    let diff := x.diff e
    let s := s.modCtx d t.ctx fun x => x.bump e 1
    let (s, adv) := s.arrivalRule t.part d t.ctx diff
    s.decideRes o (firnBit adv 57 + (if x.spread then e else firnVal t.w32 (x.value diff))) .none

/-- FCFG takes effect on a context (R235, R257). -/
def fcfgApply (s : State) (d ctx : Nat) (q : FcfgReq) : State :=
  if q.clear then
    let s := s.modCtx d ctx fun _ =>
      ⟨true, q.wcode, q.wire, q.spread, q.base, [], [], [], q.memb, 0, q.memb.setWidth 40 - 1⟩
    if ctx % 2 = 0 then
      let go := (s.dieAt d).gbars.filter fun g => g.ctx == ctx
      let s := s.modDie d fun D => { D with gbars := D.gbars.filter fun g => g.ctx != ctx }
      go.foldl (fun s g => s.decideRes ⟨g.ref.core, g.ref.slot, g.id⟩ firnFault .faulted) s
    else s
  else s.modCtx d ctx fun x =>
    if x.cfg then { x with base := q.base, spread := q.spread, memb := q.memb
                           target := x.target + q.memb.setWidth 40 - x.memb.setWidth 40 }
    else x

/-- The checks of a Firn or group request at issue: its context is the partition's, else cause 10 (R246, R252); one
miss-queue entry. -/
def firnChk (s : State) (a : SField) : Chk :=
  let h := (s.rd a).toNat
  let c := h % 4096
  if !s.ownsCtx s.herePart (field h 12 2) c then .trap 10 (s.rd a) else if s.mqFull then .stall .missQueue else .ok

/-- A Firn request without parking: FINC, FDEC, FCAN, FPEEK, JOIN, LEAVE. -/
def firnOp (op : FirnOp) (d a : SField) (srcs : List Src) (arg : State → Word) (w32 : Bool) (sc : Scope) (ord : Ord)
    (s : State) : State :=
  s.issueP none srcs (fun s => s.firnChk a) fun s =>
    let h := (s.rd a).toNat
    s.sendOp (.firn (field h 12 2) (h % 4096) op (arg s) w32) (.s d.val) (ordRel ord sc) (ordAcq ord sc) true 0 8

end State

/-- FINC (R253). -/
def execFinc (o : FirnO) (s : State) : Host.Outcome State Fault Refusal :=
  .next (s.firnOp .finc o.d o.a [.s o.a o.am] (fun _ => 0) o.w32 o.scope o.ord)
/-- FDEC (R254). -/
def execFdec (o : FirnO) (s : State) : Host.Outcome State Fault Refusal :=
  .next (s.firnOp .fdec o.d o.a [.s o.a o.am] (fun _ => 0) o.w32 o.scope o.ord)
/-- FCAN (R255). -/
def execFcan (o : FirnBO) (s : State) : Host.Outcome State Fault Refusal :=
  .next (s.firnOp .fcan o.d o.a [.s o.a o.am, .s o.b o.bm] (fun s => s.rd o.b) o.w32 o.scope o.ord)
/-- FPEEK (R256). -/
def execFpeek (o : FirnBO) (s : State) : Host.Outcome State Fault Refusal :=
  .next (s.firnOp .fpeek o.d o.a [.s o.a o.am, .s o.b o.bm] (fun s => s.rd o.b) o.w32 o.scope o.ord)
/-- JOIN (R258). -/
def execJoin (o : FirnO) (s : State) : Host.Outcome State Fault Refusal :=
  .next (s.firnOp .join o.d o.a [.s o.a o.am] (fun _ => 0) false o.scope o.ord)
/-- LEAVE (R259). -/
def execLeave (o : FirnBO) (s : State) : Host.Outcome State Fault Refusal :=
  .next (s.firnOp .leave o.d o.a [.s o.a o.am, .s o.b o.bm] (fun s => s.rd o.b) false o.scope o.ord)
/-- GBAR (R260): a release as it arrives, an acquire on return; the slot parks until its phase is over. -/
def execGbar (o : FirnO) (s : State) : Host.Outcome State Fault Refusal :=
  .next (s.issueP none [.s o.a o.am] (fun s => s.firnChk o.a) fun s =>
    let h := (s.rd o.a).toNat
    let (id, s) := s.launchOp (.firn (field h 12 2) (h % 4096) .gbar 0 false) (.s o.d.val) (some o.scope) (some o.scope) true 0
    s.parkOn (.gbar id))
/-- FCFG (R257): privileged; its request waits its turn at the plane. -/
def execFcfg (o : FcfgO) (s : State) : Host.Outcome State Fault Refusal :=
  .next (s.issueP (some (insnWord (.fcfg o))) [.s o.a o.am, .s o.b o.bm, .s o.c o.cm] (fun s => s.firnChk o.a) fun s =>
    let h := (s.rd o.a).toNat
    let q : FcfgReq := ⟨s.rd o.b, (s.rd o.c).setWidth 32, o.wcode.toNat, o.wire.toNat, o.spread, o.clear⟩
    s.sendOp (.fcfg (field h 12 2) (h % 4096) q) .none none none true 0 16)

namespace State

/-- The entry wire that a request at a plane wants. -/
def heldWire (s : State) (d : Nat) (h : FirnHeld) : Nat :=
  s.entryWire d (if h.fcfg.isSome then h.ctx else firnCtxOf h.op h.ctx) h.ref
/-- A request in a port waits behind an FCFG of a context of its own (R235): it wants no wire. -/
def heldStands (s : State) (d : Nat) (h : FirnHeld) : Bool := heldMeets (s.dieAt d).held h
/-- Request `k`, which stands before `h` in the port if `early` says so, goes before it: the lower packed core and slot on one
wire, and one slot's earlier request (R247, R252). -/
def heldBefore (s : State) (d : Nat) (early : Bool) (k h : FirnHeld) : Bool :=
  let mine := early && k.ref == h.ref
  k.part == h.part && ((mine && k.ctx == h.ctx)
    || (!s.heldStands d k && s.heldWire d k == s.heldWire d h && (mine || decide (slotKey k.ref < slotKey h.ref))))
/-- A request that waits in a port gives way to another there. -/
def portBlocked (s : State) (d : Nat) (h : FirnHeld) : Bool :=
  let l := (s.dieAt d).port
  let i := l.findIdx fun k => k.id == h.id
  (l.zip (List.range l.length)).any fun e => e.1.id != h.id && s.heldBefore d (decide (e.2 < i)) e.1 h
/-- A plane's wires used in its present cycle. -/
def wiresNow (s : State) (d : Nat) : List Nat := if (s.dieAt d).wiresCycle = (s.dieAt d).cycle then (s.dieAt d).wiresUsed else []
/-- An entry wire of a plane is used in its present cycle. -/
def useWire (s : State) (d wire : Nat) : State :=
  s.modDie d fun D => { D with wiresUsed := wire :: s.wiresNow d, wiresCycle := D.cycle }
/-- The request has its wire: it is admitted, an FCFG to wait until its context is idle (R235, R247). -/
def portEnter (s : State) (d : Nat) (h : FirnHeld) : State :=
  let s := (s.useWire d (s.heldWire d h)).modDie d fun D => { D with port := D.port.filter fun k => k.id != h.id }
  if h.fcfg.isSome then s.modDie d fun D => { D with held := D.held ++ [h] }
  else s.firnEnter d ⟨h.ref.core, h.ref.slot, h.id⟩ h.ctx h.op h.arg h.w32 h.part
/-- The request in a port is admitted if no FCFG is before it, the plane's cycle is its partition's, its entry wire is unused in the
cycle and no other goes first (R235, R247). -/
def portTurn (s : State) (d : Nat) (h : FirnHeld) : State :=
  if s.heldStands d h || s.ownerOf ((s.dieAt d).cycle % 16) != some h.part || (s.wiresNow d).contains (s.heldWire d h) || !s.live d
      || s.portBlocked d h then s
  else s.portEnter d h
/-- The entry wire that a request of the Nunatak takes in its plane's present cycle: the first that is unused, and that no waiting
request of the partition whose cycle it is wants (R247). -/
def nunatakWire (s : State) (d : Nat) : Option Nat :=
  let owner := s.ownerOf ((s.dieAt d).cycle % 16)
  let wanted := ((s.dieAt d).port.filter fun h => owner == some h.part && !s.heldStands d h).map (s.heldWire d)
  (List.range 64).find? fun w => !(s.wiresNow d).contains w && !wanted.contains w

end State

/-- FIRN_PLANE_ADMISSION (R247): a request whose thread's order allows it reaches its plane; one that has reached it is
admitted in its turn. -/
def execFirnPlaneAdmission (o : OpRef) (s : State) : Host.Outcome State Fault Refusal :=
  .next (
    let r : SlotRef := ⟨o.core, o.slot⟩
    let p := s.partOf r
    match [0, 1, 2, 3].findSome? fun d => ((s.dieAt d).port.find? fun h => h.id == o.id).map fun h => (d, h) with
    | some (d, h) => s.portTurn d h
    | none => s.whenSent o fun q s =>
      let reach := fun (d : Nat) (h : FirnHeld) =>
        if !s.live d then s
        else (s.modPend o fun q => { q with arrived := true }).modDie d fun D => { D with port := D.port ++ [h] }
      match q.kind with
      | .firn d ctx op arg w32 => reach d ⟨o.id, r, ctx, none, op, arg, w32, p⟩
      | .fcfg d ctx f => reach d ⟨o.id, r, ctx, some f, .fpeek, 0, false, p⟩
      | _ => s)

/-- BALANCER_STEP (R231): a token passes the balancer of its next layer; within a cycle the one on the top input before the one
on the bottom. -/
def execBalancerStep (die id : Nat) (s : State) : Host.Outcome State Fault Refusal :=
  .next (match (s.dieAt die).tokens.find? fun t => t.id == id with
    | none => s
    | some t =>
      let x := s.ctxAt die t.ctx
      if firnLayers x.wcode ≤ t.layer || !s.live die then s
      else
        let top := min t.wire (firnPartner (t.layer + 1) t.wire)
        let bal := (t.ctx, t.layer + 1, top)
        let D := s.dieAt die
        let used := if D.balCycle = D.cycle then D.balUsed else []
        if t.wire == top && used.contains bal then s
        else
        let (w, tg) := balancerStep x.toggles (t.op == .fdec) (t.layer + 1) t.wire
        let s := s.modCtx die t.ctx fun x => { x with toggles := tg }
        let s := if t.wire == top then s
          else s.modDie die fun D => { D with balUsed := bal :: used, balCycle := D.cycle }
        s.modDie die fun D => { D with
          tokens := D.tokens.map fun u => if u.id = id then { u with wire := w, layer := t.layer + 1 } else u })

/-- FIRN_EXIT_STAGE (R236): a token that has passed its context's layers leaves. -/
def execFirnExitStage (die id : Nat) (s : State) : Host.Outcome State Fault Refusal :=
  .next (match (s.dieAt die).tokens.find? fun t => t.id == id with
    | none => s
    | some t => if firnLayers (s.ctxAt die t.ctx).wcode ≤ t.layer && s.live die then s.firnExit die t else s)

/-- FCFG_APPLY (R235): with no request of its context in flight a waiting FCFG takes effect; the requests behind it are admitted
after it, each in its partition's cycle (R247). -/
def execFcfgApply (die id : Nat) (s : State) : Host.Outcome State Fault Refusal :=
  .next (match (s.dieAt die).held.find? fun h => h.id == id with
    | none => s
    | some h => match h.fcfg with
      | none => s
      | some q =>
        if s.ctxBusy die h.ctx || !s.live die then s
        else
          let s := s.modDie die fun D => { D with held := D.held.filter fun k => k.id != id }
          (s.fcfgApply die h.ctx q).finishOp ⟨h.ref.core, h.ref.slot, id⟩)

end Sys2Proof.Machine
end

