-- ==== Sys2Proof/Machine/MemInstr.lean ====
section
/-! DEFINITION. The meanings of loads and stores, scalar and vector, of LDACQ, STREL, the fences, and of the delivery of
their results (R94, R160, R174 to R178, R195, R196). -/
namespace Sys2Proof.Machine

/-- LD.i8 (R174). -/
def execLdI8 (o : LdO) (s : State) : Host.Outcome State Fault Refusal := .next (s.loadS o 1 true)
/-- LD.n8 (R174). -/
def execLdN8 (o : LdO) (s : State) : Host.Outcome State Fault Refusal := .next (s.loadS o 1 false)
/-- LD.i16 (R174). -/
def execLdI16 (o : LdO) (s : State) : Host.Outcome State Fault Refusal := .next (s.loadS o 2 true)
/-- LD.n16 (R174). -/
def execLdN16 (o : LdO) (s : State) : Host.Outcome State Fault Refusal := .next (s.loadS o 2 false)
/-- LD.i32 (R174). -/
def execLdI32 (o : LdO) (s : State) : Host.Outcome State Fault Refusal := .next (s.loadS o 4 true)
/-- LD.n32 (R174). -/
def execLdN32 (o : LdO) (s : State) : Host.Outcome State Fault Refusal := .next (s.loadS o 4 false)
/-- LD.i64 (R174). -/
def execLdI64 (o : LdO) (s : State) : Host.Outcome State Fault Refusal := .next (s.loadS o 8 false)
/-- ST.8 (R175). -/
def execSt8 (o : StO) (s : State) : Host.Outcome State Fault Refusal := .next (s.storeS o 1)
/-- ST.16 (R175). -/
def execSt16 (o : StO) (s : State) : Host.Outcome State Fault Refusal := .next (s.storeS o 2)
/-- ST.32 (R175). -/
def execSt32 (o : StO) (s : State) : Host.Outcome State Fault Refusal := .next (s.storeS o 4)
/-- ST.64 (R175). -/
def execSt64 (o : StO) (s : State) : Host.Outcome State Fault Refusal := .next (s.storeS o 8)
/-- VLD (R176). -/
def execVld (o : VLdO) (s : State) : Host.Outcome State Fault Refusal :=
  .next (s.issueP none [.s o.a o.am] (fun s => s.memChk .read (s.ea o.a o.imm) 256 8) fun s =>
    let va := s.ea o.a o.imm
    s.sendMem o.pol (.load (cutSegs (pieceSize va 256 1) (s.segsAt .read va 256)) .vec) (.v o.d.val) (s.needsMq va)
      (BitVec.ofNat 64 va) 8)
/-- VST (R176). -/
def execVst (o : VStO) (s : State) : Host.Outcome State Fault Refusal :=
  .next (s.issueP none [.s o.a o.am, .v o.b o.bm] (fun s => s.memChk .write (s.ea o.a o.imm) 256 8) fun s =>
    let va := s.ea o.a o.imm
    s.sendMem o.pol (.store (splitBytes (cutSegs (pieceSize va 256 1) (s.segsAt .write va 256))
      (bytesOfNat 256 (s.rdv o.b).toNat))) .none (s.needsMq va) (BitVec.ofNat 64 va) 8)
/-- VLDF (R177). -/
def execVldf (o : VLdfO) (s : State) : Host.Outcome State Fault Refusal :=
  .next (s.issueP none [.s o.a o.am]
      (fun s => s.xlChk (s.needsMq (s.ea o.a o.imm)) (s.vldfPlan (s.ea o.a o.imm) (tyLanes o.ty)).1) fun s =>
    let va := s.ea o.a o.imm
    let (x, f, paged) := s.vldfPlan va (tyLanes o.ty)
    let gs := match x with
      | .ok gs => gs
      | _ => []
    s.sendMem o.pol (.load gs (.vldf f paged o.ty)) (.v o.d.val) (s.needsMq va) (BitVec.ofNat 64 va) 8)
/-- VLDS (R178). -/
def execVlds (o : VLdsO) (s : State) : Host.Outcome State Fault Refusal :=
  .next (s.loadLanes o.pol [.s o.a o.am, .s o.b o.bm] o.d o.ty fun s => s.strideVas o.a o.b o.ty)
/-- VSTS (R178): the D field is a source read with wait. -/
def execVsts (o : VLdsO) (s : State) : Host.Outcome State Fault Refusal :=
  .next (s.storeLanes o.pol [.s o.a o.am, .s o.b o.bm, .v o.d .wait] o.d o.ty fun s => s.strideVas o.a o.b o.ty)
/-- VGATH (R178). -/
def execVgath (o : VGathO) (s : State) : Host.Outcome State Fault Refusal :=
  .next (s.loadLanes o.pol [.s o.a o.am, .v o.b o.bm] o.d o.ty fun s => s.gatherVas o.a o.b o.ty)
/-- VSCAT (R178): the D field is a source read with wait. -/
def execVscat (o : VGathO) (s : State) : Host.Outcome State Fault Refusal :=
  .next (s.storeLanes o.pol [.s o.a o.am, .v o.b o.bm, .v o.d .wait] o.d o.ty fun s => s.gatherVas o.a o.b o.ty)
/-- LDACQ (R196). -/
def execLdacq (o : LdacqO) (s : State) : Host.Outcome State Fault Refusal :=
  let n := if o.w32 then 4 else 8
  .next (s.issueP none [.s o.a o.am] (fun s => s.memChk .read (s.rd o.a).toNat n n) fun s =>
    let va := (s.rd o.a).toNat
    s.sendOp (.load (s.segsAt .read va n) (.scalar false n)) (.s o.d.val) none (some o.scope) (s.needsMq va) (s.rd o.a) 8)
/-- STREL (R196). -/
def execStrel (o : StrelO) (s : State) : Host.Outcome State Fault Refusal :=
  let n := if o.w32 then 4 else 8
  .next (s.issueP none [.s o.a o.am, .s o.b o.bm] (fun s => s.memChk .write (s.rd o.a).toNat n n) fun s =>
    let va := (s.rd o.a).toNat
    s.sendOp (.store (splitBytes (s.segsAt .write va n) (bytesOfNat n (s.rd o.b).toNat))) .none (some o.scope) none
      (s.needsMq va) (s.rd o.a) 8)

namespace State

/-- A fence issues in one turn and stays outstanding until it is performed (R195). -/
def fenceOp (kind : Nat) (rel acq : Option Scope) (s : State) : State :=
  s.issue [] fun s =>
    let s := s.sendOp (.fence kind) .none rel acq false 0 8
    if kind = 1 then s.modHere fun sl => { sl with ahead := [] } else s

end State

/-- FENCE (R160). -/
def execFence (o : FenceO) (s : State) : Host.Outcome State Fault Refusal :=
  .next (s.fenceOp 0 (some o.scope) (some o.scope))
/-- FENCE.acq (R160, R70): what the slot has fetched ahead is discarded. -/
def execFenceAcq (o : FenceO) (s : State) : Host.Outcome State Fault Refusal :=
  .next (s.fenceOp 1 none (some o.scope))
/-- FENCE.rel (R160). -/
def execFenceRel (o : FenceO) (s : State) : Host.Outcome State Fault Refusal :=
  .next (s.fenceOp 2 (some o.scope) none)
/-- FENCE.sc (R160, R164). -/
def execFenceSc (o : FenceO) (s : State) : Host.Outcome State Fault Refusal :=
  .next (s.fenceOp 3 (some o.scope) (some o.scope))

namespace State

/-- A piece of a store is performed, freely chosen among those that may come next; after the last one the store is complete, and a
release at package or system scope is pushed to its home (R154, R162, R178). Pending REDs to its sector go first (R161); a sector that
the store has written whole is sound (R326). -/
def storeStep (s : State) (o : OpRef) (q : Pend) (ws : List (Loc × List Byte)) : State :=
  let d := coreDie o.core
  let p := s.partOf ⟨o.core, o.slot⟩
  let ok := storeNext ws
  let (n, t) := s.chooseOf ok.length
  let i := ok.getD n 0
  let w := ws.getD i (.pad o.core 0, [])
  if s.segsInU d [⟨w.1, w.2.length⟩] then s.flushReds d [⟨w.1, w.2.length⟩]
  else if !s.writeLive d w.1 then t
  else
    let s := t.coreWrite ⟨o.core, o.slot⟩ p q.pol w.1 w.2
    let q' := storeWrote q w.1 w.2.length
    let s := if storeWhole q' w.1 then s.poisonLoc d p w.1 false else s
    if 1 < ws.length then s.modPend o fun q => { q with kind := .store (ws.eraseIdx i), got := q'.got }
    else
      let s := s.finishOp o
      match q.rel with
      | some .pkg | some .sys => s.pushAll d
      | _ => s

/-- A load has read all its pieces: its value is fixed; data of which some was poisoned gives its address, marked (R326). -/
def loadDecide (s : State) (o : OpRef) (q : Pend) (fin : LoadFin) (n : Nat) (got : Sparse (List Byte)) (bad : Bool) : State :=
  if bad then s.decideRes o q.va.toNat .poisoned
  else s.decideRes o (loadValue fin ((List.range n).flatMap fun i => Sparse.get [] got i)) .none
/-- The pieces of a load that it has not read yet. -/
def piecesLeft (q : Pend) (gs : List Seg) : List Nat := (List.range gs.length).filter fun i => (Sparse.get? q.got i).isNone
/-- A load reads one of its pieces, freely chosen (R154, R178); with the last one its value is fixed. `early` says that an acquire of
narrow scope is still outstanding before it, and whether of cluster scope: what it then reads stands unless another agent of
that scope writes, or acquires, before the load may be sent (R152). Pending REDs of its die to a sector go first (R161). -/
def loadStep (s : State) (o : OpRef) (q : Pend) (gs : List Seg) (fin : LoadFin) (refetch : Bool) (early : Option Bool) : State :=
  let d := coreDie o.core
  let p := s.partOf ⟨o.core, o.slot⟩
  let left := piecesLeft q gs
  if q.early.any fun e => e.2 != s.wroteIn o.core e.1 then s.modPend o fun q => { q with got := [], bad := false, early := none }
  else if left.isEmpty then (if early.isSome then s else s.loadDecide o q fin gs.length q.got q.bad)
  else
    let (n, t) := s.chooseOf left.length
    let i := left.getD n 0
    let g := gs.getD i ⟨.pad o.core 0, 0⟩
    if s.segsInU d [g] then s.flushReds d [g]
    else if !s.readLive d refetch [g] then t
    else
      let s := t.coreRead o.core p q.pol refetch g
      match s.pendAt o with
      | none => s
      | some q =>
        let q := { q with
          bad := q.bad || s.segPoisoned d p g || s.l1BadSeg o.core g
          got := Sparse.set i (s.segBytes d p [g]) q.got
          early := if q.early.isSome then q.early else early.map fun b => (b, s.wroteIn o.core b) }
        if (piecesLeft q gs).isEmpty && early.isNone then s.loadDecide o q fin gs.length q.got q.bad
        else s.modPend o fun _ => q

end State

/-- STORE_ACCEPTED (R154, R161, R175, R178): a piece of a store is written, at the home or in its die's L2, or in a bank. -/
def execStoreAccepted (o : OpRef) (s : State) : Host.Outcome State Fault Refusal :=
  .next (s.whenSent o fun q s => match q.kind with
    | .store ws => s.storeStep o q ws
    | _ => s)

namespace State

/-- What TLBINV invalidates for partition p, in every TLB and walker cache (R336). Selector 0 drops the page of the address
and every held page of a 512 MiB leaf around it. -/
def tlbInvalidate (s : State) (p : Nat) (va sel : Nat) : State :=
  let other := fun (e : TlbEntry) => if e.big then e.page / 8192 != va / 2 ^ 29 else e.page != va / 2 ^ 16
  let keep := fun (e : TlbEntry) => e.part != p || (sel == 0 && other e) || (sel == 1 && pteBit e.pte 5)
  let walks := fun (e : Nat × Nat × Nat × Nat) => e.1 != p || (sel == 0 && e.2.2.1 != walkPath e.2.1 va)
  let s := { s with
    cores := Sparse.mapVal (fun _ C => { C with tlb := C.tlb.filter keep }) s.cores
    clusters := Sparse.mapVal (fun _ K => { K with tlb := K.tlb.filter keep }) s.clusters
    dies := Sparse.mapVal (fun _ D => { D with walkCache := D.walkCache.filter walks }) s.dies }
  s.mapSlots fun r sl => if s.ownerOf r.slot = some p then { sl with walkFault := none, walked := [] } else sl

end State

/-- COMPLETION_DELIVERY (R94, R155): a load reads a piece and with the last one its value is fixed, a fence is performed, a TLBINV
is acknowledged, or a decided result is filled. -/
def execCompletionDelivery (d : DelivO) (s : State) : Host.Outcome State Fault Refusal :=
  let o := d.op
  .next (if !s.live (coreDie o.core) then s else match s.pendAt o with
    | none => s
    | some q =>
      if q.res.isSome then (if d.fill then s.land o else s)
      else match q.kind with
        | .load gs fin =>
          if s.mayGo o then
            let s := s.whenSent o fun q s => s.loadStep o q gs fin d.refetch none
            if d.fill then s.land o else s
          else match s.mayEarly o with
            | some b => s.loadStep o q gs fin d.refetch (some b)
            | none => s
        | .tlbinv va sel => s.whenSent o fun _ s =>
          let s := (s.tlbInvalidate (s.partOf ⟨o.core, o.slot⟩) va.toNat sel).decideRes o 0 .none
          if d.fill then s.land o else s
        | .fence k => s.whenSent o fun q s =>
          let s := (s.acquireOp o q).finishOp o
          if k = 1 then s.modSlot ⟨o.core, o.slot⟩ fun sl => { sl with ahead := [] } else s
        | _ => s)

end Sys2Proof.Machine
end

