-- ==== Sys2Proof/Machine/Mma.lean ====
section
/-! DEFINITION. Matrix jobs: MMA, EPIW, EPID, SPDZ and the events of the matrix engine (R202, R206, R207, R283 to R304). -/
namespace Sys2Proof.Machine

/-- Bytes of a row of K elements in an SFMT code (R286, R288). -/
def opRowBytes (fmt k : Nat) : Nat :=
  match fmt with
  | 1 => 40 * k / 64
  | 4 | 5 => 2 * k
  | 6 | 7 => 4 * k
  | _ => k
/-- The accepted pairs of formats, with the group G of R206 (R287). -/
def opGroup (fa fb : Nat) (pert : Bool) : Option Nat :=
  if pert then (if fb = 7 ∧ fa = 4 then some 8 else none)
  else if fa = 1 ∧ fb = 1 then some 32
  else if (fa = 2 ∨ fa = 3) ∧ (fb = 2 ∨ fb = 3) then some 16
  else if fa = fb ∧ (fa = 4 ∨ fa = 5) then some 8
  else none
/-- Bytes of a drained element. -/
def drainSize (t : Ty) : Nat := tyBits t / 8
/-- Address of row m of A (R286, R289). -/
def mmaRowA (j : MmaJob) (m : Nat) : Nat :=
  let rb := opRowBytes j.fa j.k
  (j.a + (if j.gath then j.idx.getD m 0 else m) * rb) % 2 ^ 64
/-- Address of row n of B, which is column n of the product (R286). -/
def mmaRowB (j : MmaJob) (n : Nat) : Nat := (j.b + n * opRowBytes j.fb j.k) % 2 ^ 64
/-- Compute cycles of a job (R292). -/
def mmaCycles (j : MmaJob) : Nat :=
  if j.pert && j.m == 64 then j.n / 64 * (j.k / 8) * 2 + 48
  else
    let kstep := match j.fb with
      | 1 => 32
      | 2 | 3 => 16
      | _ => 8
    j.m / 64 * (j.n / 64) * (j.k / kstep) + 48
/-- Key of an accumulator element. -/
def accKey (p set r c : Nat) : Nat := ((p * 4 + set) * 256 + r) * 256 + c

/-- Consecutive groups of g elements of two rows, as products. -/
def groupsOf (g : Nat) : Nat → List Num → List Num → List (List (Num × Num))
  | 0, _, _ => []
  | n + 1, as, bs => (as.take g).zip (bs.take g) :: groupsOf g n (as.drop g) (bs.drop g)
/-- acc of R206 for one element. -/
def accElem (g k : Nat) (as bs : List Num) (acc : Nat) : Nat := (groupsOf g (k / g) as bs).foldl (fun a ps => accGroup ps a) acc

/-- The descriptor of a row (R299). -/
def rowDesc (r : EpiRow) : Nat := (if r.last then 2 ^ 63 else 0) + r.cols % 2 ^ 16 * 2 ^ 32 + r.jobNo % 2 ^ 16 * 2 ^ 16 + r.row % 2 ^ 16

namespace State

/-- Offset of an address in the partition's scratchpad on a core, if all n bytes lie there (R286, R288). -/
def padSpan (s : State) (p c va n : Nat) : Option Nat :=
  match whereIs c va with
  | .win wc off => if wc = c ∧ off + n ≤ s.padSize p then some off else none
  | _ => none

/-- Check 2 of R288: A whole, with GATH each gathered row too, and B. -/
def mmaFits (s : State) (j : MmaJob) : Bool :=
  let ra := opRowBytes j.fa j.k
  (s.padSpan j.part j.core j.a (j.m * ra)).isSome
    && (!j.gath || (List.range j.m).all fun m => (s.padSpan j.part j.core (mmaRowA j m) ra).isSome)
    && (s.padSpan j.part j.core j.b (j.n * opRowBytes j.fb j.k)).isSome

/-- The job-start checks in their order (R288), ending in the places of C and of the band scales. -/
def mmaCheck (s : State) (k : Nat) (j : MmaJob) : State × (Nat ⊕ List Seg × List Seg) :=
  let sz := drainSize j.dfmt
  if ((s.part? j.part).map fun P => P.cfg.asets).getD 0 ≤ j.aset then (s, .inl 7)
  else if !s.mmaFits j then (s, .inl 7)
  else if j.a % 8 ≠ 0 ∨ j.b % 8 ≠ 0 ∨ (j.drain ∧ j.c % sz ≠ 0) ∨ (j.bands.any fun e => e % 16 != 0) then (s, .inl 4)
  else if (opGroup j.fa j.fb j.pert).isNone ∨ (j.fb = 1 ∧ j.k % 64 ≠ 0) then (s, .inl 8)
  else
    let len := j.m * j.n * sz
    let (s, c) : State × (BitVec 8 ⊕ List Seg) := if j.drain then s.engSegs k j.part j.core j.user .write (len / 65536 + 2) j.c len else (s, .inr [])
    match c with
    | .inl f => (s, .inl f.toNat)
    | .inr cs =>
      let (s, b) : State × (BitVec 8 ⊕ List Seg) := match j.bands with
        | some e => s.engSegs k j.part j.core j.user .plane 2 e 16
        | none => (s, .inr [])
      match b with
      | .inl f => (s, .inl f.toNat)
      | .inr bs =>
        let r : SlotRef := ⟨j.core, j.epislot⟩
        if j.epi && (s.ownerOf j.epislot != some j.part || (s.slotAt r).run == .free) then (s, .inl 18)
        else (s, .inr (cs, bs))

/-- The scratchpad sectors of a job's operands (R293). -/
def mmaSectors (s : State) (j : MmaJob) : List Nat :=
  let of := fun (va n : Nat) => match s.padSpan j.part j.core va 1 with
    | some off => sectorsOf off n
    | none => []
  ((List.range j.m).flatMap (fun m => of (mmaRowA j m) (opRowBytes j.fa j.k))
    ++ (List.range j.n).flatMap (fun n => of (mmaRowB j n) (opRowBytes j.fb j.k))).eraseDups
/-- n operand bytes from an address, of the sectors that the job has read. -/
def mmaBytes (s : State) (x : MmaRun) (va n : Nat) : List Byte :=
  let off := (s.padSpan x.job.part x.job.core va 1).getD 0
  (List.range n).map fun i => (engSector x.read (.pad x.job.core (off + i))).bytes.getD ((off + i) % 128) 0
/-- Elements of row m of A, as the job reads them. -/
def mmaElemsA (s : State) (x : MmaRun) (m : Nat) : List Num :=
  let j := x.job
  let bs := s.mmaBytes x (mmaRowA j m) (opRowBytes j.fa j.k)
  let f := (fmtOf j.fa).getD .raw
  (List.range j.k).map fun i => vldfElem f false 0 bs i
/-- Elements of column n of B; with PERT the perturbed weights (R208, R209, R290). -/
def mmaElemsB (s : State) (x : MmaRun) (n : Nat) : List Num :=
  let j := x.job
  let bs := s.mmaBytes x (mmaRowB j n) (opRowBytes j.fb j.k)
  if j.pert then
    (List.range j.k).map fun i => fmtBf16.decode
      (mlsWeight j.anti j.seed j.mem ((j.org / 2 ^ 24 + i) % 2 ^ 24) ((j.org + n) % 2 ^ 24) (natAt bs (4 * i) 4))
  else
    let f := (fmtOf j.fb).getD .raw
    (List.range j.k).map fun i => vldfElem f false 0 bs i

/-- Accumulator code of an element. -/
def accAt (s : State) (k p set r c : Nat) : Nat := (Sparse.get 0 (s.clusterAt k).acc (accKey p set r c) : BitVec 32).toNat
/-- Put the columns of one row into a set. -/
def accRow (s : State) (k p set r : Nat) (vs : List Nat) : State :=
  let lo := accKey p set r 0
  s.modCluster k fun K => { K with
    acc := (K.acc.filter fun e => decide (e.1 < lo)) ++ (vs.mapIdx fun c v => (lo + c, BitVec.ofNat 32 v))
      ++ (K.acc.filter fun e => decide (lo + vs.length ≤ e.1)) }

/-- Compute the products of a job into its set (R206, R285). -/
def mmaCompute (s : State) (k : Nat) (x : MmaRun) : State :=
  let j := x.job
  let g := (opGroup j.fa j.fb j.pert).getD 8
  let cols := (List.range j.n).map fun n => s.mmaElemsB x n
  let rows := (List.range j.m).map fun m =>
    let as := s.mmaElemsA x m
    cols.mapIdx fun n bs => accElem g j.k as bs (if j.acc then s.accAt k j.part j.aset m n else 0)
  (rows.mapIdx fun m vs => (m, vs)).foldl (fun s x => s.accRow k j.part j.aset x.1 x.2) s

/-- The bytes of drained row m (R207). -/
def mmaRowBytes (s : State) (k : Nat) (x : MmaRun) (m : Nat) : List Byte :=
  let j := x.job
  (List.range j.n).flatMap fun n =>
    bytesOfNat (drainSize j.dfmt)
      (drainElem (s.accAt k j.part j.aset m n) (x.bands.getD (m / 64) 0x3F80) (x.bands.getD (4 + n / 64) 0x3F80) j.dfmt)

/-- Change the running job. -/
def modRun (s : State) (k : Nat) (f : MmaRun → MmaRun) : State :=
  s.modCluster k fun K => { K with mmaRun := K.mmaRun.map f }
/-- The running job's last row has left and is written: the engine is free for the next one, the token still to fill (R284). -/
def mmaRetire (s : State) (k : Nat) : State :=
  s.modCluster k fun K => match K.mmaRun with
    | some x => if x.left = x.job.m ∧ x.cout.isEmpty then { K with mmaRun := none, mmaDone := K.mmaDone ++ [x] } else K
    | none => K

/-- Queue entries a partition holds at a cluster's matrix engine: of jobs whose tokens are still to fill (R283). -/
def mmaHeld (s : State) (k p : Nat) : Nat :=
  let K := s.clusterAt k
  (K.mmaQ.filter fun j => j.part == p).length
    + ((K.mmaRun.toList ++ K.mmaDone).filter fun x => x.job.part == p && !x.unseen && !x.told).length

/-- The bytes of row m go out to C, sector by sector (R154, R291). -/
def mmaOut (s : State) (k : Nat) (x : MmaRun) (m : Nat) (bs : List Byte) : State :=
  s.modRun k fun y => { y with cout := y.cout ++ splitBytes (sectorCut (State.subSegs x.cseg (m * bs.length) bs.length)) bs }
/-- A piece of a drained row is written, freely chosen among those that overlap no earlier one (R291, R371); REDs under way to its
sector go first. With the last one of its last row the job has left the drain. -/
def mmaWrite (s : State) (k : Nat) : State :=
  match (s.clusterAt k).mmaRun with
  | none => s
  | some x =>
    let ok := storeNext x.cout
    if ok.isEmpty || !s.live (k / 32) then s
    else
      let (n, t) := s.chooseOf ok.length
      let i := ok.getD n 0
      let w := x.cout.getD i (.pad x.job.core 0, [])
      if s.segsInU (k / 32) [⟨w.1, w.2.length⟩] then s.flushReds (k / 32) [⟨w.1, w.2.length⟩]
      else if !s.writeLive (k / 32) w.1 then t
      else ((t.engWrite x.job.core x.job.part 0 w.1 w.2).modRun k fun y => { y with cout := y.cout.eraseIdx i }).mmaRetire k
/-- The running job reads an operand sector, once and for all (R166, R293). -/
def mmaRead (s : State) (k sector : Nat) : State :=
  match (s.clusterAt k).mmaRun with
  | none => s
  | some x =>
    if x.computed || x.unseen || !s.live (k / 32) || !(s.mmaSectors x.job).contains sector then s
    else
      let (s, rs) := s.engRead x.job.core x.job.part 0 (.pad x.job.core (sector * 128)) x.read
      s.modRun k fun x => { x with read := rs }

/-- The engine has read every operand sector of a running job, those that it had not read included (R293). -/
def mmaReadAll (s : State) (x : MmaRun) : State × List SecRead :=
  (s.mmaSectors x.job).foldl (fun (y : State × List SecRead) k =>
    y.1.engRead x.job.core x.job.part 0 (.pad x.job.core (k * 128)) y.2) (s, x.read)

/-- A row is handed to an EPIW of slot r: v12 to v15 and the descriptor fill, the slot holds the row (R299). -/
def giveRow (s : State) (r : SlotRef) (o : OpRef) (row : EpiRow) : State :=
  let v := natOfBytes row.bytes
  let s := [0, 1, 2, 3].foldl (fun s i => s.fillReg r (.v (12 + i)) o.id (v / 2 ^ (2048 * i)) .none) s
  let s := s.modSlot r fun sl => { sl with held := some row }
  (s.decideRes o (rowDesc row) .none).land o

end State

/-- MMA (R296): operands, SEED, SPDCTL and the regions' formats are latched, and the job is queued. -/
def execMma (o : MmaO) (s : State) : Host.Outcome State Fault Refusal :=
  let m := 64 * (o.msz.toNat + 1)
  let vi : Nat → VField := fun i => Fin.ofNat 16 (o.i.val + i)
  let srcs : List Src := [.s o.a o.am, .s o.b o.bm] ++ (if o.drain then [.s o.c o.cm] else [])
    ++ (if o.e.val ≠ 0 then [.s o.e .wait] else []) ++ (if o.pert then [.s o.f .wait, .s o.g .wait] else [])
    ++ (if o.gath then (List.range (m / 64)).map fun i => .v (vi i) .wait else [])
  .next (s.issueP none srcs
    (fun s => if 2 * s.slotCount s.herePart ≤ s.mmaHeld (clusterOf s.cur.core) s.herePart then .stall .engineQueue else .ok)
    fun s =>
      let (id, s) := s.fresh
      let core := s.cur.core
      let p := s.herePart
      let k := clusterOf core
      let a := (s.rd o.a).toNat
      let b := (s.rd o.b).toNat
      let no := (Sparse.get 0 (s.clusterAt k).jobNo p : Nat)
      let job : MmaJob := ⟨id, s.cur, core, p, !s.here.mode.priv, no, a, b, if o.drain then (s.rd o.c).toNat else 0,
        if o.e.val ≠ 0 then some (s.rd o.e).toNat else none, s.sfmtOfVa core p a, s.sfmtOfVa core p b,
        if o.pert then (s.rd o.f).toNat % 2 ^ 48 else 0, if o.pert then (s.rd o.g).toNat % 2 ^ 16 else 0,
        if o.gath then (List.range m).map fun r => lane 32 (s.rdv (vi (r / 64))) (r % 64) else [],
        s.here.seed, m, 64 * (o.nsz.toNat + 1), 32 * (o.ksz.toNat + 1), o.acc, o.drain, o.epi, o.gath, o.pert,
        o.anti || s.here.spdAnti, o.aset.toNat, o.dfmt, o.epislot.toNat, o.scope, .s o.d.val⟩
      let s := s.await s.cur (.s o.d.val) id
      (s.modCluster k fun K => { K with
        mmaQ := K.mmaQ ++ [job], jobNo := Sparse.set p ((no + 1) % 65536) K.jobNo }).retire 8 16)

/-- EPIW (R299): cause 18 while a row is held; else takes the oldest row addressed to the slot, or parks for it. -/
def execEpiw (o : OneD) (s : State) : Host.Outcome State Fault Refusal :=
  .next (s.issueP none [] (fun s => match s.here.held with
      | some row => .trap 18 (BitVec.ofNat 64 (rowDesc row))
      | none => .ok) fun s =>
    match (s.cpAt s.cur.core s.herePart).epi.find? fun e => e.slot == s.cur.slot with
    | some row =>
      let v := natOfBytes row.bytes
      let s := ([12, 13, 14, 15] : List VField).foldl (fun (s : State) i => s.wrv i (BitVec.ofNat 2048 (v / 2 ^ (2048 * (i.val - 12))))) s
      let s := s.modHere fun sl => { sl with held := some row }
      (s.giveNow o.d (BitVec.ofNat 64 (rowDesc row)) .none).retire 8 8
    | none =>
      let (id, s) := s.launchOp .epiw (.s o.d.val) none none false 0
      let s := [12, 13, 14, 15].foldl (fun s i => s.await s.cur (.v i) id) s
      s.parkOn (.epiw id))

/-- EPID (R300): the held row leaves; with DRAIN it is written from v12 to v15; without a held row cause 18. -/
def execEpid (s : State) : Host.Outcome State Fault Refusal :=
  let run := ((s.clusterAt (clusterOf s.cur.core)).mmaRun).filter fun x => s.here.held.any fun h => h.jobId == x.job.id
  let drains := run.any fun x => x.job.drain
  let srcs : List Src := if drains then [12, 13, 14, 15].map fun i => .v i .wait else []
  .next (s.issueP none srcs (fun s => if s.here.held.isNone then .trap 18 0 else .ok) fun s =>
    let core := s.cur.core
    let k := clusterOf core
    match s.here.held with
    | none => s
    | some row =>
      let s := match run with
        | some x =>
          if x.job.drain then
            let n := x.job.n * drainSize x.job.dfmt
            let v := [12, 13, 14, 15].foldr (fun (i : VField) (a : Nat) => (s.rdv i).toNat + 2 ^ 2048 * a) 0
            s.mmaOut k x row.row (bytesOfNat n v)
          else s
        | none => s
      let s := s.modCp core s.herePart fun cp => { cp with epi := cp.epi.filter fun e => !(e.jobId == row.jobId && e.row == row.row) }
      let s := s.modHere fun sl => { sl with held := none }
      let s := if run.isSome then (s.modRun k fun x => { x with left := x.left + 1, fullSince := none }).mmaRetire k else s
      s.retire 8 8)

/-- SPDZ (R302). -/
def execSpdz (o : SpdzO) (s : State) : Host.Outcome State Fault Refusal :=
  .next (s.issue [.s o.a o.am, .s o.b o.bm] fun s =>
    let org := (s.rd o.a).toNat
    let mem := (s.rd o.b).toNat % 2 ^ 16
    let c0 := org % 2 ^ 24
    let r0 := org / 2 ^ 24 % 2 ^ 24
    let anti := o.anti || s.here.spdAnti
    let seed := s.here.seed
    let z := ofLanes 32 fun i =>
      if o.alongk then spindriftAnti anti seed mem ((r0 + i) % 2 ^ 24) c0 else spindriftAnti anti seed mem r0 ((c0 + i) % 2 ^ 24)
    (s.launchKnown .spdz (.v o.d.val) z.toNat).retire 8 12)

/-- MMA_JOB_START (R166, R202, R284, R288): the idle engine takes the oldest job of the partition the round robin serves next and
checks it; a job that fails a check does nothing but fill its token; the band scales of another are read. -/
def execMmaJobStart (cluster : Nat) (s : State) : Host.Outcome State Fault Refusal :=
  let K := s.clusterAt cluster
  .next (if K.mmaRun.isSome || !s.live (cluster / 32) then s
    else match drrPick s.weightOf (fun p => K.mmaQ.any fun j => j.part == p) K.mmaLast K.mmaCredit with
      | none => s
      | some (p, credit) => match K.mmaQ.find? fun j => j.part == p with
        | none => s
        | some j =>
          if s.jobMayStart j.ref j.id then
            let old := s
            let (s, chk) := s.mmaCheck cluster j
            let charge := mmaCycles j + (if j.drain || j.epi then j.m else 0)
            let bsegs := match chk with
              | .inl _ => []
              | .inr x => x.2
            if s.segsInU (cluster / 32) bsegs then s.flushReds (cluster / 32) bsegs
            else if chk == .inl 0 || !s.readLive (cluster / 32) false bsegs then old
            else
            let (s, rs) := bsegs.foldl (fun (x : State × List SecRead) g => x.1.engRead j.core p 0 g.loc x.2) (s, [])
            let bytes := bsegs.flatMap fun g => (List.range g.len).map fun i =>
              (State.engSector rs (locAdd g.loc i)).bytes.getD (locByteNo (locAdd g.loc i)) 0
            let bands := if j.bands.isSome then (List.range 8).map fun i => natAt bytes (2 * i) 2 else []
            let (run, charge) : MmaRun × Nat := match chk with
              | .inl c => (⟨j, true, 0, 0, some c, none, [], [], [], false, [], [], false⟩, 0)
              | .inr (cs, bs) => (⟨j, false, 0, 0, none, none, cs, bs, bands, false, rs, [], false⟩, charge)
            s.modCluster cluster fun K =>
              let q := K.mmaQ.filter fun x => x.id != j.id
              { K with
                mmaQ := q, mmaRun := some run, mmaLast := p
                mmaCredit := if q.any fun x => x.part == p then Sparse.set p (Sparse.get 0 credit p - charge) credit
                  else Sparse.erase p credit }
          else s)

/-- MMA_COMPUTE_END (R206, R285, R292, R293): the operand sectors not yet read are read, and the set holds the job's sums.
Poisoned operands make every touched element the canonical NaN and the job faults with cause 16 (R326), unless it has failed
already. After a partition reset nothing of it is seen (R294). -/
def execMmaComputeEnd (cluster : Nat) (s : State) : Host.Outcome State Fault Refusal :=
  .next (match (s.clusterAt cluster).mmaRun with
    | none => s
    | some x =>
      let j := x.job
      if x.computed || !s.live (cluster / 32) then s
      else if x.unseen then (s.modCluster cluster fun K => { K with mmaRun := none }).wakeEngine cluster
      else
        let (s, rs) := s.mmaReadAll x
        let x := { x with read := rs }
        let bad := rs.any fun r => r.bad
        let s := if bad then
            (List.range j.m).foldl (fun s m => s.accRow cluster j.part j.aset m (List.replicate j.n fmtF32.qnan)) s
          else s.mmaCompute cluster x
        if x.told then s.modCluster cluster fun K => { K with mmaRun := none }
        else s.modRun cluster fun y => { y with
          computed := true, read := rs, fault := if bad && y.fault.isNone then some 16 else y.fault })

/-- DRAIN_ROW (R291): the next row leaves the drain: to its epilogue buffer while that has room, else to C. -/
def execDrainRow (cluster : Nat) (s : State) : Host.Outcome State Fault Refusal :=
  .next (match (s.clusterAt cluster).mmaRun with
    | none => s
    | some x =>
      let j := x.job
      if !x.computed || x.fault.isSome || x.unseen || decide (j.m ≤ x.nextRow) || !s.live (cluster / 32) || !(j.drain || j.epi) then s
      else
        let m := x.nextRow
        let bs := s.mmaRowBytes cluster x m
        if j.epi then
          let buf := (s.cpAt j.core j.part).epi
          if 8 ≤ buf.length then s
          else
            let row : EpiRow := ⟨j.id, j.epislot, m, j.n, j.jobNo, m + 1 == j.m, bs⟩
            let s := s.modCp j.core j.part fun cp => { cp with epi := cp.epi ++ [row] }
            let now := s.cycleOf j.core
            let s := s.modRun cluster fun x => { x with
              nextRow := m + 1, fullSince := if buf.length + 1 = 8 then some now else none }
            let r : SlotRef := ⟨j.core, j.epislot⟩
            match (s.slotAt r).run with
            | .parked (.epiw id) => s.giveRow r ⟨r.core, r.slot, id⟩ row
            | _ => s
        else
          (s.mmaOut cluster x m bs).modRun cluster fun x => { x with nextRow := m + 1, left := m + 1 })

/-- EPILOGUE_TIMEOUT (R291): a buffer full for 65,536 cycles fails the job; its remaining rows are discarded. -/
def execEpilogueTimeout (cluster : Nat) (s : State) : Host.Outcome State Fault Refusal :=
  .next (match (s.clusterAt cluster).mmaRun with
    | none => s
    | some x =>
      let j := x.job
      if x.fault.isNone && (x.fullSince.any fun c => decide (c + 65536 ≤ s.cycleOf j.core)) && s.live (cluster / 32) then
        let s := s.modRun cluster fun x => { x with fault := some 18, fullSince := none }
        let s := s.modCp j.core j.part fun cp => { cp with epi := cp.epi.filter fun e => e.jobId != j.id }
        s.modSlot ⟨j.core, j.epislot⟩ fun sl => { sl with
          held := sl.held.filter fun h => h.jobId != j.id }
      else s)

/-- A job's token may fill: it has failed, or has nothing left to drain, and every row it wrote is written; a job that the epilogue
failed need not wait for its compute to end (R291, R292). -/
def MmaRun.over (x : MmaRun) : Bool :=
  !x.unseen && !x.told && x.cout.isEmpty && (x.fault == some 18 || (x.computed && (x.fault.isSome || !(x.job.drain || x.job.epi))))
/-- The value of a token (R292). -/
def MmaRun.token (x : MmaRun) : Nat :=
  match x.fault with
  | some c => 2 ^ 63 + (if c = 18 then x.left % 65536 * 2 ^ 32 else 0) + c
  | none => 0

namespace State

/-- The token of a job that is over fills and its queue entry is free. One that the epilogue failed while it computes has read its
operands by then, so that no store that follows the token is read (R292, R293). -/
def mmaFill (s : State) (k : Nat) (x : MmaRun) : State :=
  let j := x.job
  let v := x.token
  let (s, rs) := if x.computed then (s, x.read) else s.mmaReadAll x
  let s := s.deliver j.ref j.dest j.id v (faultMark v)
  let s := s.modCluster k fun K => { K with
    mmaDone := K.mmaDone.filter fun y => y.job.id != j.id
    mmaRun := if x.computed then K.mmaRun.filter fun y => y.job.id != j.id else
      K.mmaRun.map fun y => if y.job.id = j.id then { y with told := true, read := rs } else y }
  s.wakeEngine k

end State

/-- MMA_TOKEN_FILL (R157, R284, R291, R292): a token fills, freely chosen among those that may: of a job that is over once its writes
are performed at its scope, or of a discarded job once its release is met. -/
def execMmaTokenFill (cluster : Nat) (s : State) : Host.Outcome State Fault Refusal :=
  let K := s.clusterAt cluster
  let ended := K.mmaDone ++ K.mmaRun.toList.filter MmaRun.over
  let gone := K.gone.filter fun j => !j.copy
  let ready := ended.filter fun x => s.scopeDone (cluster / 32) x.job.scope
  let out := gone.filter (s.goneReady cluster)
  .next (if !s.live (cluster / 32) || (ended.isEmpty && gone.isEmpty) then s
    else if ready.isEmpty && out.isEmpty then s.pushAll (cluster / 32)
    else
      let (n, s) := s.chooseOf (ready.length + out.length)
      match ready[n]?, out[n - ready.length]? with
      | some x, _ => s.mmaFill cluster x
      | none, some j => s.goneFill cluster j
      | none, none => s)

end Sys2Proof.Machine
end

