-- ==== Sys2Proof/Machine/Nunatak.lean ====
section
/-! DEFINITION. From an eligible task to a running one and from an ended one to a free slot: release times and TIME (R29,
R30, R356), the placement firmware (R37, R38), dispatch (R39, R43, R44), and the freeing of a slot (R124, R335, R342). -/
namespace Sys2Proof.Machine
namespace State

/-! ## Release times and TIME (R29, R30, R356) -/

/-- A launch's release time has come. -/
def due (s : State) (L : Launch) : Bool := !L.fired && (L.release.any fun t => decide (t ≤ s.time))
/-- Every launch of a die that is due fires. -/
def fireDue (s : State) (d : Nat) : State :=
  s.modDie d fun D => { D with launches := Sparse.mapVal (fun _ L => if s.due L then L.fire else L) D.launches }
/-- Every launch that is due on a running die fires. -/
def fireAll (s : State) : State := [0, 1, 2, 3].foldl (fun (s : State) d => if s.live d then s.fireDue d else s) s
/-- A tagged launch whose release time lies ahead again waits for it anew; what is eligible stays so (R29, R30). -/
def Launch.unfire (time : Nat) (L : Launch) : Launch :=
  if !L.inputs.isEmpty && L.release.any fun t => decide (time < t) then { L with fired := false } else L
/-- TIME steps by an offset of nanoseconds (R30): what was due before the step has fired; after it the launches ahead of TIME
wait, and every launch then due on a running die fires. -/
def stepTime (s : State) (delta : Int) : State :=
  let s := s.fireAll
  let time := (((s.time : Int) + delta) % 2 ^ 64).toNat
  let s := { s with
    time := time
    dies := Sparse.mapVal (fun _ (D : Die) => { D with launches := Sparse.mapVal (fun _ L => Launch.unfire time L) D.launches }) s.dies }
  s.fireAll

/-! ## Placement (R37, R38) -/

/-- The bind record of a slot (R39). -/
def recAt (s : State) (r : SlotRef) : BindRec := Sparse.get default (s.dieAt (coreDie r.core)).slotTable (r.core % 256 * 16 + r.slot)
/-- Change the bind record of a slot. -/
def modRec (s : State) (r : SlotRef) (f : BindRec → BindRec) : State :=
  s.modDie (coreDie r.core) fun D => { D with slotTable := Sparse.modify default (r.core % 256 * 16 + r.slot) f D.slotTable }
/-- The firmware sees a slot as free: no task in it and no record waiting for it. -/
def slotOpen (s : State) (r : SlotRef) : Bool := (s.slotAt r).run == .free && !(s.recAt r).valid
/-- A partition's free slots on a core, in rising order. -/
def openOn (s : State) (p c : Nat) : List Nat := (List.range 16).filter fun i => s.ownerOf i == some p && s.slotOpen ⟨c, i⟩
/-- How many free slots a partition has on a cluster. -/
def openCluster (s : State) (p k : Nat) : Nat := ((List.range 8).map fun i => (s.openOn p (8 * k + i)).length).sum
/-- How many free slots a partition has on a die. -/
def openDie (s : State) (p d : Nat) : Nat := ((List.range 32).map fun i => s.openCluster p (32 * d + i)).sum

end State

/-- The lowest task index from t on that is not yet bound or ended; `fuel` is how many are left. -/
def Launch.nextUnbound (L : Launch) : Nat → Nat → Option Nat
  | 0, _ => none
  | n + 1, t => match L.st t with
    | .bound | .ended => L.nextUnbound n (t + 1)
    | _ => some t
/-- The lowest eligible task index from t on. -/
def Launch.nextEligible (L : Launch) : Nat → Nat → Option Nat
  | 0, _ => none
  | n + 1, t => if L.st t = .eligible then some t else L.nextEligible n (t + 1)
/-- The task of a launch that is next in line: eligible, lowest index first, and strictly in order with DET (R10, R37, R38). -/
def Launch.nextTask (L : Launch) : Option Nat :=
  if L.det then (L.nextUnbound L.taskN 0).filter fun t => L.st t == .eligible else L.nextEligible L.taskN 0

/-- A task that the firmware may place now: its launch's die, entry and data, its index. -/
structure Cand where
  die : Nat
  entry : Nat
  launch : Launch
  task : Nat
  deriving DecidableEq, Repr

/-- First core of the cluster that CLUHINT names, if it names one. -/
def Launch.hint (L : Launch) : Option Nat := if L.cluhint = 0xFFFF then none else some L.cluhint
/-- The core of task t of a DET launch (R38). -/
def Launch.detCore (L : Launch) (t : Nat) : Nat := (8 * L.hint.getD 0 + t) % 1024

namespace State

/-- The die whose Nunatak places a task: the hinted one when the partition has a free slot there, else the accepting one
(rule 4 of R37). -/
def placer (s : State) (e : Nat) (L : Launch) : Nat :=
  match L.hint with
  | some k => if !L.det && decide (0 < s.openDie L.part (k / 32)) then k / 32 else e
  | none => e
/-- A bind record of launch l of die e is written and not yet taken by dispatch. -/
def recordOut (s : State) (e l : Nat) : Bool :=
  s.dies.any fun x => x.2.slotTable.any fun b => b.2.valid && b.2.ldie == e && b.2.launch == l
/-- Some slot could take the task now; a DET launch's task waits until dispatch has taken the record of the one before, so
that a refusal binds none out of order (R38). -/
def placeable (s : State) (e l : Nat) (L : Launch) (t : Nat) : Bool :=
  if L.det then !s.recordOut e l && !(s.openOn L.part (L.detCore t)).isEmpty
  else [0, 1, 2, 3].any fun d => decide (0 < s.openDie L.part d)
/-- What the Nunatak of die d may place now; it asks the launch tables of the dies that run (R359). -/
def candidates (s : State) (d : Nat) : List Cand :=
  ([0, 1, 2, 3].filter s.live).flatMap fun e => (s.dieAt e).launches.filterMap fun x =>
    let L : Launch := x.2
    match L.nextTask with
    | some t => if s.placer e L == d && s.placeable e x.1 L t then some ⟨e, x.1, L, t⟩ else none
    | none => none

end State

/-- Order within a partition: higher PRIO, then acceptance (rule 3 of R37). -/
def Cand.before (a b : Cand) : Bool :=
  decide (b.launch.prio < a.launch.prio) || (a.launch.prio == b.launch.prio && decide (a.launch.order < b.launch.order))
/-- Order of due timed tasks: by release time first (rule 1 of R37). -/
def Cand.timedBefore (a b : Cand) : Bool :=
  let x := a.launch.release.getD 0
  let y := b.launch.release.getD 0
  decide (x < y) || (x == y && a.before b)
/-- The first of a list in an order. -/
def pickFirst (lt : Cand → Cand → Bool) : List Cand → Option Cand
  | [] => none
  | a :: t => match pickFirst lt t with
    | none => some a
    | some b => if lt b a then some b else some a

namespace State

/-- The partition to serve among those with a candidate, and how many it has then been served: round robin weighted by
slots owned (rule 2 of R37). -/
def pickPart (s : State) (d : Nat) (has : Nat → Bool) : Option (Nat × Nat) :=
  let D := s.dieAt d
  if has D.rrPart && decide (D.rrServed < s.slotCount D.rrPart) then some (D.rrPart, D.rrServed + 1)
  else (([1, 2, 3, 4].map fun i => (D.rrPart + i) % 4).find? has).map fun p => (p, 1)

/-- The task that the Nunatak of die d places next, with the round robin's state after it (R37). A due timed task uses up
none of its partition's turns in the round robin of rule 2: the manual does not say (DESIGN CHOICE, log 78). -/
def pickTask (s : State) (d : Nat) : Option (Cand × State) :=
  let cs := s.candidates d
  match pickFirst Cand.timedBefore (cs.filter fun c => c.launch.release.isSome) with
  | some c => some (c, s)
  | none => match s.pickPart d fun p => cs.any fun c => c.launch.part == p with
    | none => none
    | some (p, n) => (pickFirst Cand.before (cs.filter fun c => c.launch.part == p)).map fun c =>
        (c, s.modDie d fun D => { D with rrPart := p, rrServed := n })

/-- The cluster of die t that rule 5 gives to partition p, by the Nunatak of die d: exit e of its SPREAD context picks
among the clusters with a free slot. -/
def spreadCluster (s : State) (d p t : Nat) : Nat × State :=
  let cs := ((List.range 32).map fun i => 32 * t + i).filter fun k => decide (0 < s.openCluster p k)
  let e := Sparse.get 0 (s.dieAt d).spread (t * 4 + p)
  (cs.getD (e % cs.length) 0, s.modDie d fun D => { D with spread := Sparse.set (t * 4 + p) ((e + 1) % 32) D.spread })

/-- The die of rule 5: most free slots; ties to the accepting die, else the lowest. -/
def freestDie (s : State) (p e : Nat) : Nat :=
  [e, 0, 1, 2, 3].foldl (fun b d => if s.openDie p b < s.openDie p d then d else b) e

/-- The core of a cluster with the fewest occupied slots of the partition among those with a free one: since every core
gives the partition as many slots, the one with the most free (rule 6). -/
def coreIn (s : State) (p k : Nat) : Nat :=
  ((List.range 8).map fun i => 8 * k + i).foldl
    (fun b c => if (s.openOn p b).length < (s.openOn p c).length then c else b) (8 * k)

/-- The core that rules 4 to 6, or R38, give a task. -/
def pickCore (s : State) (d : Nat) (c : Cand) : Nat × State :=
  let p := c.launch.part
  if c.launch.det then (c.launch.detCore c.task, s)
  else
    let spread := fun (t : Nat) => let (k, s) := s.spreadCluster d p t; (s.coreIn p k, s)
    match c.launch.hint with
    | some k =>
      if 0 < s.openCluster p k then (s.coreIn p k, s)
      else if 0 < s.openDie p (k / 32) then spread (k / 32)
      else spread (s.freestDie p c.die)
    | none => spread (s.freestDie p c.die)

/-- Placing a task takes an exit of the SPREAD context (rule 5 of R37). -/
def usesSpread (s : State) (c : Cand) : Bool :=
  !c.launch.det && (match c.launch.hint with
    | some k => s.openCluster c.launch.part k == 0
    | none => true)
/-- Write the bind record of a task for a slot, VALID last (R39). -/
def bindTask (s : State) (c : Cand) (r : SlotRef) : State :=
  let L := c.launch
  let g := (L.sibling c.task).getD (0, 255)
  let s := s.modLaunch c.die c.entry fun L => L.put c.task .bound
  let s := if L.sibn = 0 then s
    else s.modGroup g.1 fun G => G.modMember g.2 fun m => { m with placed := true }
  s.modRec r fun b => { b with
    valid := true, ldie := c.die, launch := c.entry, part := L.part, sibgrp := g.1, member := g.2, scope := L.scope
    taskN := L.taskN, taskIdx := c.task, argv := L.arg, pc := L.entry, cpend := false }

end State

/-- RELEASE_TIME_REACHED (R29): a timed launch whose release time has come fires. -/
def execReleaseTimeReached (die launch : Nat) (s : State) : Host.Outcome State Fault Refusal :=
  .next (match s.launchAt die launch with
    | some L => if s.live die && s.due L then s.modLaunch die launch Launch.fire else s
    | none => s)
/-- TIME_STEP (R30, R356): a locked servo steps TIME by an offset above 1 µs. -/
def execTimeStep (delta : Int) (s : State) : Host.Outcome State Fault Refusal :=
  .next (if s.serac.ptp = .locked ∧ 1000 < delta.natAbs then s.stepTime delta else s)
/-- PTP_HOLDOVER (R356). -/
def execPtpHoldover (s : State) : Host.Outcome State Fault Refusal :=
  .next (if s.serac.ptp = .locked then { s with serac := { s.serac with ptp := .holdover } } else s)
/-- PTP_LOCK (R356): the servo gains lock; an offset above 1 µs is stepped, a smaller one is slewed, which `nanos` moves
stand for. -/
def execPtpLock (offset : Int) (s : State) : Host.Outcome State Fault Refusal :=
  .next (if s.serac.ptp = .locked then s
    else
      let s := { s with serac := { s.serac with ptp := .locked } }
      if 1000 < offset.natAbs then s.stepTime offset else s)

/-- NUNATAK_PLACEMENT (R37, R38): the firmware of a die places its next task. -/
def execNunatakPlacement (die : Nat) (s : State) : Host.Outcome State Fault Refusal :=
  .next (if !s.live die then s
    else match s.pickTask die with
      | none => s
      | some (c, s') =>
        let wire := (s.nunatakWire die).filter fun _ => s.usesSpread c
        if s.usesSpread c && wire.isNone then s
        else
        let (k, t) := s'.pickCore die c
        if !s.live (coreDie k) then s
        else
        let s := match wire with
          | some w => t.useWire die w
          | none => t
        match s.openOn c.launch.part k with
        | i :: _ => s.bindTask c ⟨k, i⟩
        | [] => s)

namespace State

/-- A refill waits at a core for a slot (R334). -/
def refillWaits (s : State) (r : SlotRef) : Bool :=
  (s.coreAt r.core).calvQ.any fun q => q.cmd == .refill && q.slot == r.slot

/-- Dispatch refuses a record: BSTAT is the code, VALID clears; the task stays eligible while its launch is live, but a
cancelled member counts as not placed and ends without starting (R39, R274). -/
def refuseBind (s : State) (r : SlotRef) (code : Nat) : State :=
  let b := s.recAt r
  let s := s.modRec r fun b => { b with valid := false, bstat := code, cpend := false }
  match s.launchAt b.ldie b.launch with
  | none => s
  | some L =>
    if L.part ≠ b.part then s
    else
      let gone := b.member ≠ 255 ∧ ((s.groupAt b.sibgrp).any fun g => (g.memberAt b.member).stat == 3) = true
      let s := if b.member = 255 then s
        else s.modGroup b.sibgrp fun g => g.modMember b.member fun m => { m with placed := false, due := false }
      if gone then s.endUnstarted b.ldie b.launch b.taskIdx false
      else s.modLaunch b.ldie b.launch fun L => L.put b.taskIdx .eligible

/-- Local-window address of a slot's payload area (R21). -/
def payloadAt (s : State) (p slot : Nat) : Nat := s.padSize p - 4096 + 256 * slot
/-- Copy an inline payload to the slot's payload area: 32 words, all full, zero past the payload (R21). Each word so set
full serves what waits at it, as a fill by FILLFE does: R180 does not name the payload (DESIGN CHOICE, log 76). -/
def copyPayload (s : State) (r : SlotRef) (p : Nat) (bs : List Byte) : State :=
  let w := s.payloadAt p r.slot / 8
  (List.range 32).foldl (fun (s : State) i =>
    (s.padSet r.core p (w + i) ⟨BitVec.ofNat 64 (msgNat bs (8 * i) 8), true, false⟩).bankRun r.core p (w + i)) s

/-- The slot as R44 has it at its task's first issue. -/
def launchSlot (s : State) (r : SlotRef) (b : BindRec) (L : Launch) : Slot :=
  let arg : Word := match L.payload with
    | some _ => BitVec.ofNat 64 (0xF0 * 2 ^ 48 + s.payloadAt b.part r.slot)
    | none => b.argv
  let reg := fun (v : Word) => (⟨v, true, .none, none, false⟩ : Reg 64)
  let t : Task := ⟨L.lseq, b.sibgrp, b.member, b.part, b.scope, b.ldie, b.launch, b.taskN, b.taskIdx, L.entry, L.handler⟩
  { Slot.init with
    run := .clearing none
    task := some t
    sregs := [(1, reg (BitVec.ofNat 64 b.taskIdx)), (2, reg (BitVec.ofNat 64 b.taskN)), (3, reg arg),
      (4, reg (BitVec.ofNat 64 b.scope)), (5, reg (if b.member = 255 then BitVec.allOnes 64 else BitVec.ofNat 64 b.member))]
    pc := b.pc
    mode := { Slot.init.mode with priv := L.super, cpend := b.cpend }
    evt := b.cpend }

/-- What the acquire of a dispatch receives (R35, R157): from the launch's spawner, from the publishers of the task's tags, and from the
tasks of its fallback scope. -/
def gateRel (s : State) (d : Nat) (b : BindRec) (L : Launch) : State :=
  let xs := L.inputs.map fun i => Chan.tag L.part (inputKey i b.taskIdx)
  let ys := if L.inputs.isEmpty then [] else [Chan.scope L.part L.fbscope]
  (Chan.launch b.ldie b.launch :: xs ++ ys).foldl (fun s x => s.recvRel d (some .pkg) x) s
/-- Dispatch of a record that has passed its checks (R35, R43, R44): BSTAT 1, the slot cleared and loaded; the gating
acquire drops the die's clean copies. -/
def dispatchTask (s : State) (r : SlotRef) (b : BindRec) (L : Launch) : State :=
  let s := s.modRec r fun b => { b with valid := false, bstat := 1, cpend := false }
  let s := match L.payload with
    | some bs => s.copyPayload r b.part bs
    | none => s
  let sl := s.launchSlot r b L
  (((s.modSlot r fun _ => sl).gateRel (coreDie r.core) b L).acquirePkg r.core).noteBy r

end State

/-- DISPATCH (R39, R43): a valid record is taken; its three checks are made in order. It waits for a frozen die's launch table (R359),
and while a slot of the cluster has an operation under way that has passed an annotation of a scope in which no other agent was
(R152). -/
def execDispatch (die entry : Nat) (s : State) : Host.Outcome State Fault Refusal :=
  let r : SlotRef := ⟨die * 256 + entry / 16, entry % 16⟩
  let b := s.recAt r
  .next (if !s.live die ∨ 4096 ≤ entry ∨ !b.valid ∨ !s.live b.ldie ∨ s.looseIn r.core then s
    else if s.ownerOf r.slot ≠ some b.part then s.refuseBind r 2
    else match s.launchAt b.ldie b.launch with
      | none => s.refuseBind r 4
      | some L =>
        if L.part ≠ b.part then s.refuseBind r 4
        else if (s.slotAt r).run ≠ .free ∨ s.refillWaits r then s.refuseBind r 3
        else s.dispatchTask r b L)

/-- CLEAR_COMPLETE (R43): the clear of a dispatched slot is over and the slot is ready; a refill's clear ends with
REFILL_COMPLETE. -/
def execClearComplete (r : SlotRef) (s : State) : Host.Outcome State Fault Refusal :=
  .next (
    let refill := (s.coreAt r.core).calving.any fun q => q.cmd == .refill && q.slot == r.slot
    if (s.slotAt r).run = .clearing none ∧ !refill ∧ s.live (coreDie r.core) then
      s.modSlot r fun sl => { sl with run := .active }
    else s)

namespace State

/-- The end of the task of a slot that has become Free: a record of kind 6, its sibling membership, its departure with a
release that covers its engine jobs, and its launch's count (R124, R335, R342 to R344, R348). -/
def endTask (s : State) (r : SlotRef) (how : EndHow) : State :=
  match (s.slotAt r).task with
  | none => s
  | some t =>
    let (err, fault) : Bool × Bool := match how with
      | .exit => (false, false)
      | .exitc _ _ => (true, false)
      | .kill => (false, true)
      | .doubleTrap => (true, true)
    let s := match how with
      | .exitc code pc => s.faultRecord t.part 6 0 0 t r.core r.slot pc (code.setWidth 64)
      | _ => s
    let jobs := s.jobsOf r
    let x : Depart := ⟨slotKey r, t.part, t.scope, t.ldie, t.lseq, err, fault, (coreDie r.core :: (s.slotAt r).olds).eraseDups, jobs,
      (s.slotAt r).killers.map fun k => k.1, (s.slotAt r).killers.map fun k => k.2⟩
    let s := s.retarget fun _ ref d => if ref = r then (⟨1024, 0⟩, .none) else (ref, d)
    let s := if (s.launchAt t.ldie t.launch).any fun L => L.lseq == t.lseq then s.taskEnded t.ldie t.launch t.taskIdx else s
    if t.member = 255 then { s with scopeQ := s.scopeQ ++ [.depart x] }
    else { s with memberQ := s.memberQ ++ [⟨t.sibgrp, t.member, (s.slotAt r).turns, true, x⟩] }

end State

/-- SLOT_FREE (R124, R335): a stopped slot whose requests are complete and whose die's stores are at their homes becomes
Free, and its task leaves its scope. -/
def execSlotFree (r : SlotRef) (s : State) : Host.Outcome State Fault Refusal :=
  .next (match (s.slotAt r).run with
    | .ending how =>
      if !(s.slotAt r).pend.isEmpty || !s.live (coreDie r.core) then s
      else if !s.pushedOut (coreDie r.core) then s.pushAll (coreDie r.core)
      else
        let s := (s.endTask r how).epilogueGone r (s.partOf r)
        s.modSlot r fun _ => Slot.init
    | _ => s)

end Sys2Proof.Machine
end

