-- ==== Sys2Proof/Machine/Priv.lean ====
section
/-! DEFINITION. The supervisor instructions and the Calving engine: ERET, TLBINV, SPILL, REFILL, SLOTKILL and their events
(R316 to R320, R329 to R337). -/
namespace Sys2Proof.Machine
namespace State

/-! ## Issue (R330) -/

/-- Core and slot that s[A] names (R330). -/
def calvTarget (a : Word) : SlotRef := ⟨field a.toNat 4 10, a.toNat % 16⟩

/-- The checks of R330 in order; `img` is the image address and its access, for SPILL and REFILL. -/
def calvChk (s : State) (a : Word) (img : Option (Word × Acc)) : Chk :=
  if s.ownerOf (calvTarget a).slot ≠ some s.herePart then .trap 7 a
  else match img with
    | none => .ok
    | some (b, acc) =>
      if !canonical b.toNat ∨ whereIs s.cur.core b.toNat ≠ .page then .trap 7 b
      else if b.toNat % 8192 ≠ 0 then .trap 4 b
      else s.xlChk false (s.xl acc b.toNat 8192)

/-- Physical address of an image that has passed its checks. -/
def imagePa (s : State) (b : Word) (acc : Acc) : Nat :=
  match s.xl acc b.toNat 8192 with
  | .ok (g :: _) => segPa g
  | _ => 0

/-- Send a request to a target's core; what waits for the thread's earlier operations is its image's access, or its
target's departure (R331). -/
def sendCalving (s : State) (cmd : CalvCmd) (a : Word) (pa : Nat) (va : Word) : State :=
  let t := calvTarget a
  s.sendOp (.calving cmd t.core t.slot pa) .none none none false va 8

/-- Who is told of a request's completion: the issuing task, in its slot (R331). -/
def wakerOf (s : State) (r : SlotRef) : Waker := .slot r (s.taskAt r)

end State

/-- ERET (R332). -/
def execEret (s : State) : Host.Outcome State Fault Refusal :=
  .next (s.issueP (some (insnWord .eret)) [] (fun _ => .ok) State.returnFromTrap)
/-- SPILL (R333): a slot that spills itself stops issuing with its PC behind the SPILL; what reaches its core before the SPILL starts
still meets it there (R330, R337). -/
def execSpill (o : ABO) (s : State) : Host.Outcome State Fault Refusal :=
  .next (s.issueP (some (insnWord (.spill o))) [.s o.a o.am, .s o.b o.bm]
      (fun s => s.calvChk (s.rd o.a) (some (s.rd o.b, .write))) fun s =>
    let me := State.calvTarget (s.rd o.a) = s.cur
    let s := s.sendCalving .spill (s.rd o.a) (s.imagePa (s.rd o.b) .write) (s.rd o.b)
    if me then s.modHere fun sl => { sl with run := .spilling } else s)
/-- REFILL (R334). -/
def execRefill (o : ABO) (s : State) : Host.Outcome State Fault Refusal :=
  .next (s.issueP (some (insnWord (.refill o))) [.s o.a o.am, .s o.b o.bm]
      (fun s => s.calvChk (s.rd o.a) (some (s.rd o.b, .read))) fun s =>
    s.sendCalving .refill (s.rd o.a) (s.imagePa (s.rd o.b) .read) (s.rd o.b))
/-- SLOTKILL (R335). -/
def execSlotkill (o : OneA) (s : State) : Host.Outcome State Fault Refusal :=
  .next (s.issueP (some (insnWord (.slotkill o))) [.s o.a o.am] (fun s => s.calvChk (s.rd o.a) none) fun s =>
    s.sendCalving .kill (s.rd o.a) 0 0)
/-- TLBINV (R336): selector 3 is answered at once. -/
def execTlbinv (o : RRR) (s : State) : Host.Outcome State Fault Refusal :=
  .next (s.issueP (some (insnWord (.tlbinv o))) [.s o.a o.am, .s o.b o.bm] (fun _ => .ok) fun s =>
    let sel := (s.rd o.b).toNat % 4
    if sel = 3 then (s.giveNow o.d 0x8000000000000001 .faulted).retire 8 8
    else s.sendOp (.tlbinv (s.rd o.a) sel) (.s o.d.val) (some .pkg) none false 0 8)

/-! ## The image (R317, R318) -/

/-- Code of a delivery mark (R317). -/
def markCode : Mark → Nat
  | .none => 0
  | .faulted => 1
  | .poisoned => 2
/-- A mark of a code. -/
def markOf (n : Nat) : Mark := if n = 1 then .faulted else if n = 2 then .poisoned else .none
/-- The 40 bytes of a task identity (R318). -/
def taskBytes (t : Task) : List Byte :=
  bytesOfNat 8 t.lseq ++ bytesOfNat 8 (t.launch % 4096 + t.ldie % 4 * 2 ^ 12 + t.scope % 256 * 2 ^ 16 + t.part % 4 * 2 ^ 24
    + t.member % 256 * 2 ^ 32 + (if t.member = 255 then 0 else t.sibgrp % 4096) * 2 ^ 48)
  ++ bytesOfNat 8 (t.taskIdx + t.taskN * 2 ^ 32) ++ bytesOfNat 8 t.entry.toNat ++ bytesOfNat 8 t.handler.toNat
/-- The special registers of an image, in their order (R317). -/
def imageCsrs (sl : Slot) : List Nat :=
  [sl.pc.toNat, (modeWord sl.mode).toNat, sl.epc.toNat, sl.cause.toNat, sl.tval.toNat, sl.sscratch.toNat, sl.lc.toNat,
   sl.ls.toNat, sl.le.toNat, sl.frm.toNat, sl.fflags.toNat, sl.seed.toNat, sl.spdAnti.toNat, sl.bto.toNat, sl.evt.toNat,
   sl.turns.toNat]
/-- The 8,192 bytes of an image with n pending-delivery entries (R317); the coding of the wait descriptor and of an entry's
first word is open (log 4). -/
def imageBytes (sl : Slot) (num n : Nat) : List Byte :=
  let S := fun i => Sparse.get (Reg.zero 64) sl.sregs i
  let V := fun i => Sparse.get (Reg.zero 2048) sl.vregs i
  let z := fun k => List.replicate k (0 : Byte)
  let free := fun i => bytesOfNat 8 (Config.imageWord num i).toNat
  (List.range 16).flatMap (fun i => bytesOfNat 256 (V i).val.toNat)
  ++ z 8 ++ (List.range 31).flatMap (fun i => bytesOfNat 8 (S (i + 1)).val.toNat)
  ++ (List.range 7).flatMap (fun i => bytesOfNat 32 (Sparse.get 0 sl.mregs (i + 1) : MWord).toNat)
  ++ bytesOfNat 8 (packLanes 1 ((List.range 32).map fun i => ((i == 0) || (S i).full).toNat)
      + packLanes 1 ((List.range 16).map fun i => (V i).full.toNat) * 2 ^ 32)
  ++ bytesOfNat 8 (packLanes 2 ((List.range 32).map fun i => if i = 0 then 0 else markCode (S i).mark))
  ++ bytesOfNat 8 (packLanes 2 ((List.range 16).map fun i => markCode (V i).mark)) ++ z 8
  ++ (imageCsrs sl).flatMap (bytesOfNat 8) ++ bytesOfNat 8 sl.loopMode.toNat ++ z 120
  ++ (List.range 8).flatMap free ++ z 64 ++ taskBytes (sl.task.getD default) ++ z 88
  ++ (List.range n).flatMap (fun i => bytesOfNat 8 (State.entryOut num i) ++ z 8) ++ z (3072 - 16 * n)
/-- The image of a slot without a task (R333). -/
def noTaskImage : List Byte := List.replicate 4608 0 ++ List.replicate 8 0xFF ++ List.replicate 3576 0

namespace State

/-! ## The engine's queue (R316, R333, R334) -/

/-- The earlier operations of the thread that issued o, as o arrives. -/
def priorOf (s : State) (o : OpRef) : Prior :=
  let before := (s.slotAt ⟨o.core, o.slot⟩).pend.takeWhile fun e => e.id != o.id
  ⟨coreDie o.core, (before.filter fun e => e.res.isNone && opOrders e.kind).map fun e => e.id⟩

/-- The request whose turn it is at a core: the first one, but for refills that wait for an occupied slot (R330, R334). -/
def calvNext (s : State) (c : Nat) : List CalvReq → Option CalvReq
  | [] => none
  | q :: t => if q.cmd == .refill && (s.slotAt ⟨c, q.slot⟩).run != .free then s.calvNext c t else some q
/-- The engine can start a request: a refill once the issuer's earlier operations are performed, the dies that hold its image run, and
no operation of the cluster stands that has passed a void annotation (R152, R331, R359); a spill unless its slot is in Clearing
(R333). -/
def calvReady (s : State) (c : Nat) (q : CalvReq) : Bool :=
  match q.cmd, (s.slotAt ⟨c, q.slot⟩).run with
  | .refill, _ => s.priorDone q.prior && s.devLive q.part q.pa 8192 && !s.looseIn c
  | _, .clearing _ => false
  | _, _ => true

/-- The wait of a parked slot, with a WFET's remaining cycles in place of its end (R123). EPIW is saved as not begun, since
it is reissued (R301). -/
def savedWait (s : State) (r : SlotRef) : Option Wait :=
  match (s.slotAt r).run with
  | .parked (.wfet id lim) => some (.wfet id (lim - s.cycleOf r.core))
  | .parked (.operand _) => none
  | .parked w => some w
  | _ => none

/-- A parked WFET whose limit ran out in an earlier cycle has ended (R123). -/
def wfetOver (s : State) (r : SlotRef) : State :=
  match (s.slotAt r).run with
  | .parked (.wfet id lim) => if lim < s.cycleOf r.core then s.endWfet r id 1 else s
  | _ => s
/-- A spill starts: the slot enters Saving; one that is Free or emptying gives a no-task image; one whose cancellation is due
is saved at that point with CPEND set (R316, R324, R333). -/
def spillBegin (s : State) (c : Nat) (q : CalvReq) : State :=
  let r : SlotRef := ⟨c, q.slot⟩
  let run_ := fun (s : State) (q : CalvReq) => s.modCore c fun C => { C with calving := some q }
  let s := s.wfetOver r
  match (s.slotAt r).run with
  | .free | .ending _ => run_ s { q with cmd := .spillNone }
  | .cancelDue epc => run_ (s.modSlot r fun sl => { sl with run := .saving none, pc := epc, ahead := [], penalty := none }) q
  | .parked (.epiw id) => run_ ((s.withdraw r id).modSlot r fun sl => { sl with run := .saving none }) q
  | _ =>
    let w := s.savedWait r
    run_ (s.modSlot r fun sl => { sl with run := .saving w, ahead := [], penalty := none }) q

/-- A word of an image. -/
def imageAt (s : State) (q : CalvReq) (off : Nat) : Nat := s.homeNat q.part (q.pa + off) 8
/-- The task identity in an image (R318). -/
def imageTask (s : State) (q : CalvReq) : Task :=
  let w := s.imageAt q 0x1388
  let n := s.imageAt q 0x1390
  { lseq := s.imageAt q 0x1380, sibgrp := field w 48 12, member := field w 32 8, part := field w 24 2
    scope := field w 16 8, ldie := field w 12 2, launch := field w 0 12, taskN := n / 2 ^ 32, taskIdx := n % 2 ^ 32
    entry := BitVec.ofNat 64 (s.imageAt q 0x1398), handler := BitVec.ofNat 32 (s.imageAt q 0x13A0) }
/-- The identity in an image is live (R318). -/
def imageLive (s : State) (q : CalvReq) (t : Task) : Bool :=
  (s.launchAt t.ldie t.launch).any fun L => L.part == q.part && L.lseq == t.lseq
/-- Some sector of an image is poisoned. -/
def imagePoisoned (s : State) (q : CalvReq) : Bool := (List.range 64).any fun i => s.poisonedAt q.part (q.pa + 128 * i)

/-- The slot an image gives (R317, R320, R334). -/
def imageSlot (s : State) (q : CalvReq) (t : Task) : Slot :=
  let w := s.imageAt q
  let b64 := fun off => BitVec.ofNat 64 (w off)
  let full := w 0x11E0
  let sm := w 0x11E8
  let vm := w 0x11F0
  let m := w 0x1208
  let frm := w 0x1248 % 8
  { Slot.init with
    run := .clearing none
    task := some t
    sregs := (List.range 31).map fun i => (i + 1,
      ⟨b64 (0x1000 + 8 * (i + 1)), full.testBit (i + 1), markOf (field sm (2 * (i + 1)) 2), none, false⟩)
    vregs := (List.range 16).map fun i => (i,
      ⟨BitVec.ofNat 2048 (s.homeNat q.part (q.pa + 256 * i) 256), full.testBit (32 + i), markOf (field vm (2 * i) 2), none, false⟩)
    mregs := (List.range 7).map fun i => (i + 1, BitVec.ofNat 256 (s.homeNat q.part (q.pa + 0x1100 + 32 * i) 32))
    pc := b64 0x1200
    mode := ⟨m.testBit 5, m.testBit 4, m.testBit 3, m.testBit 2, m.testBit 1, m.testBit 0⟩
    epc := b64 0x1210, cause := BitVec.ofNat 8 (w 0x1218), tval := b64 0x1220, sscratch := b64 0x1228
    lc := b64 0x1230, ls := b64 0x1238, le := b64 0x1240
    frm := if 5 ≤ frm then 0 else BitVec.ofNat 3 frm
    fflags := BitVec.ofNat 5 (w 0x1250), seed := b64 0x1258, spdAnti := (w 0x1260).testBit 0
    bto := BitVec.ofNat 32 (w 0x1268), evt := (w 0x1270).testBit 0, turns := b64 0x1278
    loopMode := (w 0x1280).testBit 0 }

/-- An operation taken up again at a new slot (R181, R276): a withdrawn one is to be sent anew, and a bank request finds
the window of the new core. A TAGWAIT that had been diverted is evaluated anew: R265 has it stay diverted until it fills, R276
withdrawn and reissued (DESIGN CHOICE, log 92). -/
def resend (r : SlotRef) (q : Pend) : Pend :=
  match q.kind with
  | .bank c off op data =>
    if op = .stsy then q
    else
      let (c, off) := match whereIs r.core q.va.toNat with
        | .win c off => (c, off)
        | _ => (c, off)
      { q with kind := .bank c off op data, arrived := false }
  | .tag k op arg => { q with kind := .tag k op arg, arrived := false, va := 0 }
  | .fswait n => { q with kind := .fswait n, arrived := false }
  | _ => q

/-- Word k of an image's wait descriptor is the one that record x's spill wrote (R317). -/
def waitMatches (s : State) (q : CalvReq) (x : Spilled) : Bool :=
  (List.range 8).all fun i => s.imageAt q (0x1300 + 8 * i) == (Config.imageWord x.num i).toNat
/-- The record that an image goes back to: by its wait descriptor, else by its identity (R319, R320). -/
def imageRecord (s : State) (q : CalvReq) (t : Task) : Option Spilled :=
  match s.spilled.find? fun x => x.task.part == q.part && s.waitMatches q x with
  | some x => some x
  | none => s.spilled.find? fun x => x.live && x.task == t

/-- Take up a pending-delivery entry of an image at slot r: a filled one loads its register; one whose delivery `out` still
stands for awaits it there; any other is ignored (R319, R320). A g register takes only what it still awaits (R94). -/
def entryLoad (s : State) (q : CalvReq) (num : Nat) (out : Nat → Option Nat) (r : SlotRef) (k id : Nat) (d : Dest) : State :=
  let w := s.imageAt q (0x1400 + 16 * k)
  let v := s.imageAt q (0x1408 + 16 * k)
  match [Mark.none, .faulted, .poisoned].find? fun m => w == entryFilled num k m with
  | some m => match d with
    | .s f =>
      if f < 32 then s.modS r f fun _ => ⟨BitVec.ofNat 64 v, true, m, none, false⟩
      else s.fillReg r d id v m
    | _ => s
  | none =>
  if w = entryOut num k then
    match out id, d with
    | some id', .s f => if f < 32 then s.modS r f fun g => { g with await := some id' } else s
    | some id', .v f => s.modV r f fun g => { g with await := some id' }
    | _, _ => s
  else s
/-- Take up every entry of a record's image. -/
def entriesLoad (s : State) (q : CalvReq) (x : Spilled) (out : Nat → Option Nat) (r : SlotRef) : State :=
  (x.entries.zip (List.range x.entries.length)).foldl (fun (s : State) e => s.entryLoad q x.num out r e.2 e.1.1 e.1.2) s

/-- Take operations of a spilled task out of the units that hold them (R181, R276). -/
def dropOps (s : State) (ids : List Nat) : State :=
  { s with
    coreParts := Sparse.mapVal (fun _ (cp : CorePart) => { cp with bankQ := cp.bankQ.filter fun b => !ids.contains b.id }) s.coreParts
    dies := Sparse.mapVal (fun _ (D : Die) => { D with wires := Sparse.mapVal (fun _ (w : Wire) =>
      { w with arrivals := w.arrivals.filter fun a => !ids.contains a.2.id }) D.wires }) s.dies }

/-- Reroute to slot r what a spilled task's record stands for (R319, R320): its operations, the registers of its entries,
its jobs' tokens, its BARW arrival and its STSYs. -/
def reroute (s : State) (q : CalvReq) (x : Spilled) (r : SlotRef) : State :=
  let own := fun (id : Nat) => x.ops.any fun q => q.id = id
  let s := s.modSlot r fun sl => { sl with pend := x.ops.map (resend r) }
  let s : State := { s with
    coreParts := Sparse.mapVal (fun _ (cp : CorePart) => { cp with bankQ := cp.bankQ.map fun b => if own b.id then { b with ref := r } else b }) s.coreParts
    dies := Sparse.mapVal (fun _ D => { D with wires := Sparse.mapVal (fun _ (w : Wire) =>
      { w with arrivals := w.arrivals.map fun a => if own a.2.id then (r.core, ⟨r.core, r.slot, a.2.id⟩) else a }) D.wires }) s.dies }
  let s := s.entriesLoad q x (fun id => if own id || s.jobLives id then some id else none) r
  s.retarget fun id ref d => if x.jobs.contains id then
      (r, ((x.entries.find? fun e => e.1 = id).map fun e => e.2).getD .none) else (ref, d)

/-- A BARW arrival left on another core is withdrawn with status 3 (R320). -/
def barwMoved (s : State) (x : Spilled) (r : SlotRef) (w : Option Wait) : State :=
  match w with
  | some (.barw id) =>
    let o : OpRef := ⟨r.core, r.slot, id⟩
    if x.core = r.core || (s.pendAt o).any fun q => q.res.isSome then s
    else (s.dropOps [id]).modPend o fun q => { q with res := some (0x8000000000000003, .none), arrived := true }
  | _ => s

/-- Operations of a spilled task that another copy of the task issues for itself: those that a refill sends anew, and a GBAR's
wait for its phase (R181, R276, R334). -/
def copyable (q : Pend) : Bool :=
  match q.kind with
  | .bank _ _ op _ => op != .stsy
  | .tag _ _ _ | .fswait _ | .wfet | .firn _ _ _ _ _ => true
  | _ => false
/-- A wait under another operation number. -/
def waitAs (f : Nat → Option Nat) : Wait → Option Wait
  | .operand on => some (.operand on)
  | .wfe => some .wfe
  | .wfet id n => (f id).map fun i => .wfet i n
  | .ldsy id => (f id).map .ldsy
  | .gbar id => (f id).map .gbar
  | .barw id => (f id).map .barw
  | .tagwait id => (f id).map .tagwait
  | .fswait id => (f id).map .fswait
  | .epiw id => (f id).map .epiw

/-- The dies on which a spilled task has run, the last one first. -/
def oldDies (x : Spilled) : List Nat := (coreDie x.core :: x.olds).eraseDups
/-- An image that has been refilled before starts another copy of its task (R334): what the first refill took with it is no
longer outstanding for it. -/
def reCopy (s : State) (q : CalvReq) (x : Spilled) (r : SlotRef) : State :=
  let ops := x.ops.filter copyable
  let new := fun (id : Nat) => (ops.findIdx? fun q => q.id = id).map fun i => s.nextId + i
  let mine := ops.map fun q => { resend r q with id := (new q.id).getD 0, res := none }
  let s : State := { s with nextId := s.nextId + ops.length }
  let s := (s.modSlot r fun sl => { sl with pend := mine }).entriesLoad q x new r
  let w := if s.waitMatches q x then x.wait.bind (waitAs new) else none
  s.modSlot r fun sl => { sl with run := .clearing w, olds := oldDies x }

/-- Resume a task from the record beside its image (R319, R320, R334): what is still outstanding is rerouted to slot r, and a
cancellation recorded against the task is delivered. A wait whose descriptor the image no longer holds is given up. -/
def resumeRecord (s : State) (q : CalvReq) (x : Spilled) (r : SlotRef) : State :=
  if x.live then
    let s : State := { s with spilled := s.spilled.map fun y =>
      if y.num = x.num then { y with live := false, cancel := false, jobs := [] } else y }
    let w := if s.waitMatches q x then x.wait else none
    let lost := if w.isNone then (x.wait.bind waitId).toList else []
    let x' := { x with ops := x.ops.filter fun q => !lost.contains q.id }
    let s := (s.dropOps lost).reroute q x' r
    let s := s.modSlot r fun sl => { sl with
      run := .clearing w, mode := { sl.mode with cpend := sl.mode.cpend || x.cancel }, evt := sl.evt || x.cancel
      olds := oldDies x }
    s.barwMoved x r w
  else s.reCopy q x r

/-- A task whose image is poisoned ends as killed, with a record of kind 3; what it still held outstanding is withdrawn or
discarded as a kill does (R334, R335). -/
def refillPoisoned (s : State) (r : SlotRef) (q : CalvReq) (t : Task) : State :=
  let pc := BitVec.ofNat 64 (s.imageAt q 0x1200)
  let s := s.faultRecord q.part 3 16 0 t r.core r.slot pc q.va
  let gone : List Spilled := s.spilled.filter fun x => x.live && x.task == t
  let jobs := gone.flatMap fun x => x.jobs
  let s := s.dropOps (gone.flatMap fun x => x.ops.map fun q => q.id)
  let s : State := { s with spilled := s.spilled.filter fun x => !(x.live && x.task == t) }
  let s := s.discardWhere (fun _ id _ => jobs.contains id) false
  let s := s.taskEnded t.ldie t.launch t.taskIdx
  let dies := (coreDie r.core :: gone.flatMap oldDies).eraseDups
  let x : Depart := ⟨slotKey r, t.part, t.scope, t.ldie, t.lseq, false, true, dies, jobs, [], []⟩
  if t.member = 255 then { s with scopeQ := s.scopeQ ++ [.depart x] }
  else { s with memberQ := s.memberQ ++ [⟨t.sibgrp, t.member, BitVec.ofNat 64 (s.imageAt q 0x1278), true, x⟩] }

/-- A refill starts: a no-task image, an identity that is not live and a poisoned image load nothing; else the slot is
loaded and passes through Clearing, and its die's clean copies go and it observes what the task had, so that the task finds the
stores it made on another die (R153, R320, R334). -/
def refillBegin (s : State) (c : Nat) (q : CalvReq) : State :=
  let r : SlotRef := ⟨c, q.slot⟩
  let s := s.modCore c fun C => { C with calving := some q }
  let t := s.imageTask q
  if s.imageAt q 0x1200 = 2 ^ 64 - 1 ∨ !s.imageLive q t then s
  else if s.imagePoisoned q then s.refillPoisoned r q t
  else
    let sl := s.imageSlot q t
    let x? := s.imageRecord q t
    let s := (q.pa :: x?.toList.map fun x => x.pa).foldl (fun (s : State) pa => s.recvRel (coreDie c) (some .pkg) (.image q.part pa))
      (s.modSlot r fun _ => sl)
    let s := (s.acquirePkg c).noteBy r
    match x? with
    | none => s
    | some x => s.resumeRecord q x r

/-- A kill reaches a slot (R335): it stops at once; a Free one completes the request; a Saving one keeps it for its completion. One
that is ending already keeps it too, and loses what a kill discards (R181); how its task ends stays as it was, of which the manual
says nothing (DESIGN CHOICE, log 92). A task that kills itself is told nothing. -/
def killSlot (s : State) (r : SlotRef) (k : Waker) (x : Prior) : State :=
  let mine : Bool := match k with
    | .slot x _ => x == r
    | .serac _ => false
  let keep := fun (s : State) => if mine then s else s.modSlot r fun sl => { sl with killers := sl.killers ++ [(k, x)] }
  match (s.slotAt r).run with
  | .free => s.wakeUp k
  | .saving _ => keep s
  | .ending _ =>
    ((s.withdrawAll r fun op => op == .stsy || op == .ldpk).discardJobs r false).modSlot r fun sl => { sl with
      killers := sl.killers ++ [(k, x)] }
  | _ => keep (s.stopSlot r .kill)

/-- Take a request out of a core's queue. -/
def calvTake (s : State) (c : Nat) (q : CalvReq) : State := s.modCore c fun C => { C with calvQ := C.calvQ.erase q }
/-- The kills whose turn has come act at once (R330, R335); `fuel` is how many requests wait. -/
def runKills (c : Nat) : Nat → State → State
  | 0, s => s
  | n + 1, s =>
    match s.calvNext c (s.coreAt c).calvQ with
    | some q => if q.cmd = .kill then runKills c n ((s.calvTake c q).killSlot ⟨c, q.slot⟩ q.by_ q.prior) else s
    | none => s
/-- Every kill whose turn has come at a core. -/
def killsDue (s : State) (c : Nat) : State := runKills c (s.coreAt c).calvQ.length s

/-- Start the engine's next request if it is of the kind `refill` says. -/
def calvStart (s : State) (c : Nat) (refill : Bool) : State :=
  let s := (s.coreAt c).calvQ.foldl (fun (s : State) q => s.pushPrior q.prior) s
  if !s.live (coreDie c) then s
  else
    let s := s.killsDue c
    if (s.coreAt c).calving.isSome then s
    else match s.calvNext c (s.coreAt c).calvQ with
      | none => s
      | some q =>
        if (q.cmd == .refill) != refill || !s.calvReady c q then s
        else
          let s := s.calvTake c q
          (if refill then s.refillBegin c q else s.spillBegin c q).killsDue c

/-- A request reaches its core's engine, or one that waits there starts. -/
def calvArrive (s : State) (e : CalvO) (refill : Bool) : State :=
  match e.op with
  | none => s.calvStart e.core refill
  | some o => match (s.pendAt o).map fun (p : Pend) => (p.kind, p.va) with
    | some (OpKind.calving cmd c n pa, va) =>
      if c ≠ e.core ∨ cmd ≠ (if refill then .refill else .spill) ∨ !s.live (coreDie c) then s
      else
        let r : SlotRef := ⟨o.core, o.slot⟩
        let q : CalvReq := ⟨cmd, n, s.partOf r, pa, va, s.wakerOf r, s.priorOf o⟩
        ((s.finishOp o).modCore c fun C => { C with calvQ := C.calvQ ++ [q] }).calvStart c refill
    | _ => s

/-- The operations of a Saving slot that stay with its image: its wait, waiting LDPKs, and STSYs that wait at their banks or behind one
that does (R168, R181, R276, R316). -/
def staysSpilled (ops : List Pend) (wid : Option Nat) (q : Pend) : Bool :=
  wid == some q.id || stsyQueued ops q || (q.res.isNone && (match q.kind with
    | .bank _ _ .ldpk _ => true
    | _ => false))

/-- Everything in flight of a Saving slot has been delivered; a GBAR's arrival is out of the network (R245, R316). Operations behind a
waiting LDPK, which its acquire holds, and fences behind a waiting STSY keep the spill waiting until that is served: R181 does not
speak of them (DESIGN CHOICE, log 92). -/
def spillReady (s : State) (r : SlotRef) (w : Option Wait) : Bool :=
  let wid := w.bind waitId
  (s.slotAt r).pend.all (staysSpilled (s.slotAt r).pend wid) && (match w with
    | some (.gbar id) => (s.pendAt ⟨r.core, r.slot, id⟩).any fun q => q.res.isSome ||
        ([0, 1, 2, 3].any fun d => (s.dieAt d).gbars.any fun g => g.id == id)
    | _ => true)

/-- A wait that is over when its slot is saved has completed: its register is filled and the PC is behind it. -/
def settleWait (s : State) (r : SlotRef) (w : Option Wait) : State × Option Wait :=
  match w.bind waitId with
  | none => (s, w)
  | some id =>
    let s := s.land ⟨r.core, r.slot, id⟩
    (s, match (s.slotAt r).run with
      | .saving w => w
      | _ => none)

/-- Withdraw from their units the operations that a refill sends anew, keeping their records (R181, R245, R276). -/
def unhand (s : State) (r : SlotRef) (ops : List Pend) : State :=
  let p := s.partOf r
  let gone := fun (id : Nat) => ops.any fun q => q.id == id && (match q.kind with
    | .bank _ _ op _ => op != .stsy
    | _ => false)
  let s := { s with coreParts := Sparse.mapVal (fun k cp => if k % 4 = p then { cp with bankQ := cp.bankQ.filter fun b => !gone b.id } else cp) s.coreParts }
  { s with dies := Sparse.mapVal (fun _ D => { D with gbars := D.gbars.filter fun g => !(ops.any fun q => q.id == g.id) }) s.dies }

/-- A BARW's timeout turned from a cycle into the cycles that remain, as of cycle `now` (R276). -/
def pauseBarw (now : Nat) (q : Pend) : Pend :=
  match q.kind with
  | .barw w lim => if lim = 0 then q else { q with kind := .barw w (max 1 (lim - now)) }
  | _ => q
/-- The same in the other direction. -/
def resumeBarw (now : Nat) (q : Pend) : Pend :=
  match q.kind with
  | .barw w n => if n = 0 then q else { q with kind := .barw w (now + n) }
  | _ => q

/-- A spill completes: the image is written, what the task still awaits is recorded beside it, and the slot is Free (R316
to R319); rows and jobs addressed to it fault (R301). -/
def spillEnd (s : State) (c : Nat) (q : CalvReq) (w : Option Wait) : State :=
  let r : SlotRef := ⟨c, q.slot⟩
  let (s, w) := s.settleWait r w
  let (num, s) := s.fresh
  let ops := (s.slotAt r).pend.map (pauseBarw (s.cycleOf c))
  let jobs := s.jobsOf r
  let awaited := fun (d : Dest) (id : Nat) => match d with
    | .none => false
    | .s f => (s.sreg r f).await == some id
    | .v f => (s.vreg r f).await == some id
  let jobDest := s.allJobs.map fun j => (j.1, j.2.2)
  let entries := ((jobDest.filter fun e => jobs.contains e.1) ++ (ops.map fun x => (x.id, x.dest))).filter fun e => awaited e.2 e.1
  let t := s.taskAt r
  let self_ : Bool := match q.by_ with
    | .slot x by_ => x == r && by_ == t
    | .serac _ => false
  let sl := s.slotAt r
  let img := imageBytes { sl with evt := sl.evt || self_ } num entries.length
  let s := (s.devWrites q.part q.pa img).unpoison q.part q.pa 8192
  let s := s.unhand r ops
  let s := s.retarget fun _ ref d => if ref = r then (⟨1024, 0⟩, .none) else (ref, d)
  let s := { s with spilled := s.spilled ++ [(⟨q.pa, t, num, w, entries, ops, jobs, false, c, sl.olds, true⟩ : Spilled)] }
  let s := s.sendRel (coreDie c) (some .pkg) (.image q.part q.pa)
  let s := sl.killers.foldl (fun (s : State) k => (s.wakeRel (coreDie c) k.1).wakeUp k.1) s
  let s := s.epilogueGone r q.part
  let s := (s.modSlot r fun _ => Slot.init).wakeMq r
  if self_ then s else (s.wakeRel (coreDie c) q.by_).wakeUp q.by_

/-- A refilled slot resumes: Active, or parked in its saved wait, which goes on or is already over (R320, R334); a pending
cancellation finds a user-mode park to be its point (R324). -/
def refillResume (s : State) (r : SlotRef) (w : Option Wait) : State :=
  let go := fun (s : State) (w : Wait) => s.modSlot r fun sl => { sl with run := .parked w }
  let cancel := fun (s : State) => match (s.slotAt r).run with
    | .parked _ => if (s.slotAt r).mode.cpend && !(s.slotAt r).mode.priv then s.cancelWait r else s
    | _ => s
  match w with
  | none | some (.operand _) => s.modSlot r fun sl => { sl with run := .active }
  | some .wfe =>
    let s := go s .wfe
    if (s.slotAt r).mode.cpend && !(s.slotAt r).mode.priv then cancel s
    else if (s.slotAt r).evt then (s.modSlot r fun sl => { sl with evt := false }).setLatch r else s
  | some (.wfet id n) =>
    let s := go s (.wfet id (s.cycleOf r.core + n))
    if (s.slotAt r).mode.cpend && !(s.slotAt r).mode.priv then cancel s
    else if (s.slotAt r).evt then (s.modSlot r fun sl => { sl with evt := false }).setLatch r else s
  | some (.gbar id) =>
    let o : OpRef := ⟨r.core, r.slot, id⟩
    let s := go s (.gbar id)
    cancel (match s.pendAt o with
      | none => s
      | some q => match q.kind with
        | .firn d ctx _ _ _ =>
          let tag : BitVec 32 := q.va.setWidth 32
          if q.res.isSome then s
          else if Sys2Proof.Machine.tagBelow tag (s.ctxAt d (ctx / 2 * 2)).phase then s.decideRes o tag.toNat .none
          else s.modDie d fun D => { D with gbars := D.gbars ++ [(⟨id, r, ctx / 2 * 2, tag⟩ : GbarWait)] }
        | _ => s)
  | some (.fswait id) =>
    cancel (go { s with scopeQ := s.scopeQ ++ [.op ⟨r.core, r.slot, id⟩] } (.fswait id))
  | some (.barw id) =>
    cancel (go (s.modPend ⟨r.core, r.slot, id⟩ (resumeBarw (s.cycleOf r.core))) (.barw id))
  | some (.tagwait id) => (cancel (go s (.tagwait id))).tagwaitEval ⟨r.core, r.slot, id⟩
  | some w => cancel (go s w)

end State

/-- SPILL_START (R333): a spill request reaches the target core's engine, or one waiting there starts. -/
def execSpillStart (e : CalvO) (s : State) : Host.Outcome State Fault Refusal := .next (s.calvArrive e false)
/-- REFILL_START (R334): a refill request reaches the target core's engine, or one waiting there starts on a Free slot. -/
def execRefillStart (e : CalvO) (s : State) : Host.Outcome State Fault Refusal := .next (s.calvArrive e true)

/-- SPILL_COMPLETE (R316, R331, R333): with everything in flight delivered, and the stores of the target's die at their homes,
the image is written. -/
def execSpillComplete (core : Nat) (s : State) : Host.Outcome State Fault Refusal :=
  .next (match (s.coreAt core).calving with
    | none => s
    | some q =>
      let done := fun (s : State) => s.modCore core fun C => { C with calving := none }
      let r : SlotRef := ⟨core, q.slot⟩
      if !s.live (coreDie core) then s
      else if !s.priorDone q.prior then s.pushPrior q.prior
      else if !s.pushedOut (coreDie core) then s.pushAll (coreDie core)
      else if !s.devLive q.part q.pa 8192 then s
      else
        match q.cmd, (s.slotAt r).run with
        | .spillNone, _ =>
          ((((done s).devWrites q.part q.pa noTaskImage).unpoison q.part q.pa 8192).wakeRel (coreDie core) q.by_).wakeUp q.by_
        | .spill, .saving w => if s.spillReady r w then (done s).spillEnd core q w else s
        | _, _ => s)

/-- REFILL_COMPLETE (R320, R334): the slot leaves Clearing, or nothing was loaded; the issuer is told. -/
def execRefillComplete (core : Nat) (s : State) : Host.Outcome State Fault Refusal :=
  .next (match (s.coreAt core).calving with
    | none => s
    | some q =>
      let r : SlotRef := ⟨core, q.slot⟩
      if q.cmd ≠ .refill ∨ !s.live (coreDie core) then s
      else
        let s := s.modCore core fun C => { C with calving := none }
        (match (s.slotAt r).run with
          | .clearing w => s.refillResume r w
          | _ => s) |>.wakeRel (coreDie core) q.by_ |>.wakeUp q.by_)

/-- SLOTKILL_ARRIVAL (R330, R335): the request reaches its target's core and acts in its turn among the requests there. -/
def execSlotkillArrival (o : OpRef) (s : State) : Host.Outcome State Fault Refusal :=
  .next (match (s.pendAt o).map fun (p : Pend) => p.kind with
    | some (OpKind.calving .kill c n _) =>
      if !s.live (coreDie c) then s
      else
        let r : SlotRef := ⟨o.core, o.slot⟩
        let q : CalvReq := ⟨.kill, n, s.partOf r, 0, 0, s.wakerOf r, s.priorOf o⟩
        ((s.finishOp o).modCore c fun C => { C with calvQ := C.calvQ ++ [q] }).killsDue c
    | _ => s)

/-- CALVING_COMPLETION_LATCH (R331): the issuing slot's latch is set if the issuing task still occupies it. -/
def execCalvingCompletionLatch (idx : Nat) (s : State) : Host.Outcome State Fault Refusal :=
  .next (match s.latchQ[idx]? with
    | none => s
    | some (r, t) =>
      if !s.live (coreDie r.core) then s
      else
      let s := { s with latchQ := s.latchQ.eraseIdx idx }
      if (s.slotAt r).task = some t then (s.recvRel (coreDie r.core) (some .pkg) (.latch r.core r.slot)).setLatch r else s)

end Sys2Proof.Machine
end

