-- ==== Sys2Proof/Machine/Resets.lean ====
section
/-! DEFINITION. Reset levels (R360), soft errors (R325 to R328), watchdogs and Nunatak restart (R361, R362), power and boot
(R363, R365). -/
namespace Sys2Proof.Machine
namespace State

/-- What leaves over the side-band port unasked. -/
def report (s : State) (code : Nat) : State := { s with outbox := s.outbox ++ [.report code] }

/-! ## Partition reset (R360) -/

/-- A cluster after partition p's reset: its copy jobs gone, its queued and draining matrix jobs gone, a computing one to
finish unseen, its sets +0 (R187, R285, R294). -/
def resetCluster (p : Nat) (k : Cluster) : Cluster :=
  { k with
    tlb := k.tlb.filter fun e => e.part != p
    copyQ := k.copyQ.filter fun j => j.part != p
    copyRun := k.copyRun.filter fun x => x.job.part != p
    copyCredit := Sparse.erase p k.copyCredit
    mmaQ := k.mmaQ.filter fun j => j.part != p
    mmaRun := (k.mmaRun.filter fun x => x.job.part != p || !x.computed).map fun x =>
      if x.job.part = p then { x with unseen := true } else x
    mmaDone := k.mmaDone.filter fun x => x.job.part != p
    mmaCredit := Sparse.erase p k.mmaCredit
    gone := k.gone.filter fun j => j.part != p
    jobNo := Sparse.erase p k.jobNo
    acc := k.acc.filter fun e => e.1 / 2 ^ 18 != p }

/-- A die after partition p's reset: the lines under its tag, its Firn contexts, requests and groups, its tags, wires, launches, the
waiting SPAWNs of operations `ids`, and bind records. -/
def resetDie (p : Nat) (range : Nat × Nat) (ids : List Nat) (D : Die) : Die :=
  let mine := fun (c : Nat) => decide (range.1 ≤ c) && decide (c < range.1 + range.2)
  { D with
    walkCache := D.walkCache.filter fun e => e.1 != p
    l2lines := D.l2lines.filter fun e => keyTag e.1 != p
    dirty := D.dirty.filter fun e => keyTag e.1 != p
    copies := D.copies.filter fun e => keyTag e.1 != p
    badCopies := D.badCopies.filter fun k => keyTag k != p
    badDirty := D.badDirty.filter fun k => keyTag k != p
    whole := D.whole.filter fun k => keyTag k != p
    reds := D.reds.filter fun q => q.part != p
    firn := D.firn.filter fun e => !mine e.1
    tokens := D.tokens.filter fun t => t.part != p
    port := D.port.filter fun h => h.part != p
    held := D.held.filter fun h => h.part != p
    gbars := D.gbars.filter fun g => !mine g.ctx
    rime := D.rime.filter fun e => e.1 / 2 ^ 48 != p
    wires := D.wires.filter fun e => e.1 / 33 != p
    launches := D.launches.filter fun e => e.2.part != p
    spawned := D.spawned.filter fun e => !ids.contains e.1
    slotTable := Sparse.mapVal (fun _ (b : BindRec) =>
      if b.valid ∧ b.part = p then { b with valid := false, bstat := 4, cpend := false } else b) D.slotTable }

/-- The partition's own record after its reset: the reply of a discarded SLAUNCH is its own matter (R353). -/
def resetPart (P : Partition) : Partition :=
  { P with
    varve := P.varve + 1, tvec := 0, ptbase := P.cfg.ptbase, spbase := 0, upds := [], features := 0, pins := []
    pendRecs := [], slaunch := P.slaunch && P.recs.any fun x => x.slaunch, fixed := false }

/-- A control reply of a discarded SLAUNCH: STATUS 3 (R353). -/
def slaunchLost (s : State) (p : Nat) : State :=
  match s.part? p with
  | none => s
  | some P =>
    if P.slaunch && !(P.recs.any fun x => x.slaunch) then
      let Q := s.queueAt P.cfg.cq
      { s with outbox := s.outbox ++ [.reply Q.target Q.buf 6 3 (List.replicate 56 0)] }
    else s

/-- Slots whose kill the Serac waits for, of a partition that is reset: the reset has ended their tasks (R358, R360). -/
def killedBy (s : State) (p : Nat) (x : SbWait) : Bool := x.cmd == 6 && s.ownerOf (x.target % 16) == some p

/-- The unit's state of a key of `State.relOf` is partition p's: its tag entry, scope, Firn context, scratchpad word, image, or the
latch of its slot. A launch's entry is cleared when it is next used. -/
def chanOf (s : State) (p : Nat) (cfg : PartCfg) (k : Nat) : Bool :=
  let n := k / 8
  match k % 8 with
  | 0 => n / 2 ^ 48 == p
  | 1 => n / 256 == p
  | 2 =>
    let (base, cnt) := cfg.firn.getD (n / 4096) (0, 0)
    decide (base ≤ n % 4096) && decide (n % 4096 < base + cnt)
  | 3 => n / 2 ^ 17 % 4 == p
  | 5 => n % 4 == p
  | 6 => s.ownerOf (n % 16) == some p
  | _ => false

/-- Partition reset (R360): exactly what the level lists. -/
def partReset (s : State) (p : Nat) : State :=
  match s.part? p with
  | none => s
  | some P =>
    let s := s.slaunchLost p
    let mineSlot := fun (i : Nat) => s.ownerOf i == some p
    let ids := (s.slots.filter fun e => mineSlot (e.1 % 16)).flatMap fun e => e.2.pend.map fun q => q.id
    let gone := (s.groups.filter fun e => e.2.part == p).map fun e => e.1
    let s := { s with
      slots := s.slots.filter fun e => !mineSlot (e.1 % 16)
      cores := Sparse.mapVal (fun _ (C : Core) => { C with
        tlb := C.tlb.filter fun e => e.part != p
        l1 := C.l1.filter fun e => keyTag e.1 != p
        icache := C.icache.filter fun e => keyTag e.1 != p
        calving := C.calving.filter fun q => q.part != p
        calvQ := C.calvQ.filter fun q => q.part != p }) s.cores
      coreParts := s.coreParts.filter fun e => e.1 % 4 != p
      clusters := Sparse.mapVal (fun _ k => resetCluster p k) s.clusters
      dies := Sparse.mapVal (fun d D => resetDie p (P.cfg.firn.getD d (0, 0)) ids D) s.dies
      l2 := s.l2.filter fun e => keyTag e.1 != p
      l2bad := s.l2bad.filter fun k => keyTag k != p
      relOf := s.relOf.filter fun e => !s.chanOf p P.cfg e.1
      shadows := s.shadows.filter fun x => x.tag != p
      inflight := s.inflight.filter fun q => q.part != p
      overflow := s.overflow.filter fun x => x / 65536 != p
      queues := Sparse.mapVal (fun q Q => if s.queueOwner q = some p then { Q with head := 0, entries := [], nextSeq := 0, waits := none } else Q)
        s.queues
      scopes := s.scopes.filter fun e => e.1 / 256 != p
      scopeLast := Sparse.erase p s.scopeLast
      scopeQ := s.scopeQ.filter fun c => match c with
        | .op o => !mineSlot o.slot
        | .depart x => x.part != p
      groups := s.groups.filter fun e => e.2.part != p
      memberQ := s.memberQ.filter fun e => !gone.contains e.group
      spilled := s.spilled.filter fun x => x.task.part != p
      latchQ := s.latchQ.filter fun e => !mineSlot e.1.slot }
    ((s.modPart p resetPart).reKeep p).sbDone (s.killedBy p)

/-! ## Die and package reset (R360) -/

/-- A die with nothing but its watchdogs' settings, which are the Serac's. -/
def dieBare (D : Die) : Die :=
  { Die.init with heartbeatMs := D.heartbeatMs, progressMs := D.progressMs, progressReset := D.progressReset }
/-- The die's record after a reset: sequence numbers run from package reset (R318), push numbers stay behind what other
dies have observed. -/
def dieInit (D : Die) : Die := { dieBare D with lseq := D.lseq, vec := D.vec, pushes := D.pushes }

/-- A partition is reset because a unit's state of it has failed: a record of kind 5, and a report (R328). -/
def stateReset (s : State) (unit : StateUnit) (p : Nat) : State :=
  let t : Task := { (default : Task) with part := p, member := 255 }
  ((s.partReset p).faultRecord p 5 0 0 t 0x3FF 0 0 0).report (match unit with
    | .firn => 0
    | .rime => 1
    | .scope => 2
    | .group => 3)
/-- A reset that was owed is so no longer. -/
def unowe (s : State) (x : OwedReset) : State := { s with serac := { s.serac with owed := s.serac.owed.filter fun y => y != x } }
/-- The resets that were owed and that a reset of die d does with its own: of every partition, and of the die (R360). -/
def absorb (s : State) (d : Nat) : State :=
  s.serac.owed.foldl (fun (s : State) x => match x with
    | .state unit p => if (s.part? p).isSome then (s.unowe x).stateReset unit p else s.unowe x
    | .progress b => if b = d then s.unowe x else s) s

/-- Die reset (R360): every partition is reset, then the die is reinitialised; what the device held back for it is written then. -/
def dieReset (s : State) (d : Nat) : State :=
  let s := [0, 1, 2, 3].foldl (fun (s : State) p => s.partReset p) (s.absorb d)
  let s := { s with
    slots := s.slots.filter fun e => e.1 / 4096 != d
    cores := s.cores.filter fun e => e.1 / 256 != d
    coreParts := s.coreParts.filter fun e => e.1 / 1024 != d
    clusters := s.clusters.filter fun e => e.1 / 32 != d }
  (s.modDie d dieInit).devDrain

/-- A slot is blocked behind die b: it is occupied and stands there, or has a request that waits for it (R359, R360; log 87). -/
def slotBehind (s : State) (b : Nat) (e : Nat × Slot) : Bool :=
  e.2.run != .free && (coreDie (e.1 / 16) == b || e.2.pend.any fun q => q.res.isNone && ((s.opDies q.kind).contains b
    || (opSegs q.kind).any fun g => match g.loc with
      | .paged pa home tag => (s.homeDies tag home (pa / 128)).contains b
      | .pad c _ => coreDie c == b))
/-- Some slot is blocked behind a frozen die other than d. -/
def blockedBehind (s : State) (d : Nat) : Bool :=
  [0, 1, 2, 3].any fun b => b != d && (s.dieAt b).frozen && s.slots.any (s.slotBehind b)
/-- A slot of partition p is blocked behind a frozen die. -/
def partBlocked (s : State) (p : Nat) : Bool :=
  [0, 1, 2, 3].any fun b => (s.dieAt b).frozen && s.slots.any fun e => s.ownerOf (e.1 % 16) == some p && s.slotBehind b e
/-- The resets that waited and whose slots are blocked no longer are done, the commands among them answered (R358, R360). -/
def resetsDue (s : State) : State :=
  let s := s.serac.waiting.foldl (fun (s : State) x =>
    if x.cmd = 8 ∧ !s.blockedBehind x.target then (s.dieReset x.target).sbDone fun y => y == x else s) s
  s.serac.owed.foldl (fun (s : State) x =>
    if !s.serac.owed.contains x then s
    else match x with
      | .state unit p => if s.partBlocked p then s else if (s.part? p).isSome then (s.unowe x).stateReset unit p else s.unowe x
      | .progress d => if s.blockedBehind d then s else (s.unowe x).dieReset d) s
/-- Serac owes a reset, once, until RESUME or a reset that absorbs it (R360). -/
def owe (s : State) (x : OwedReset) : State :=
  if s.serac.owed.contains x then s else { s with serac := { s.serac with owed := s.serac.owed ++ [x] } }
/-- A die reset by the progress watchdog, which waits while a slot is blocked behind another die that is frozen; with it the others
that then may be done are (R360, R362). -/
def dieResetOrWait (s : State) (d : Nat) : State := if s.blockedBehind d then s.owe (.progress d) else (s.dieReset d).resetsDue
/-- Every firmware image of the flash and the configuration record verify (R363). -/
def bootVerifies (s : State) : Bool :=
  (s.serac.image :: s.serac.others).all Config.imageVerifies && Config.imageVerifies Config.bootRecord

/-- Package reset (R356, R360, R374): every die and HBM stack is reinitialised and no partition is left; the Serac with its
counters and watchdog settings stays, TIME counts from 0 until the next lock, the SRAM split is the configuration record's, and boot
runs (R363). Commands that waited are absorbed in it. -/
def pkgReset (s : State) : State :=
  ({ State.reset with
    cur := s.cur, agenda := s.agenda, draws := s.draws, nextId := s.nextId, outbox := s.outbox
    dies := Sparse.mapVal (fun _ D => dieBare D) s.dies
    serac := { s.serac with
      ptp := .unlocked, split512 := Config.bootSplit512, owed := []
      power := if s.bootVerifies then .on else .bootFailed } } : State).sbDone
    fun _ => true

/-! ## Nunatak restart (R361) -/

/-- The firmware of a die starts afresh; launches, queues, tasks and bind records are untouched. -/
def nunRestart (s : State) (d : Nat) : State :=
  s.modDie d fun D => { D with rrPart := Die.init.rrPart, rrServed := Die.init.rrServed, lastBeat := D.cycle }

/-- A watchdog has fired (R362). -/
def countFiring (s : State) : State := { s with serac := { s.serac with wdogFirings := s.serac.wdogFirings + 1 } }
/-- Cycles of a period in milliseconds at the present arithmetic clock. -/
def msCycles (s : State) (ms : Nat) : Nat := ms * s.serac.clockMhz * 1000

end State

/-- SCRUB (R325): single-bit errors are corrected and counted; no value changes. -/
def execScrub (die : Nat) (s : State) : Host.Outcome State Fault Refusal :=
  let (n, s) := s.fresh
  .next (if die < 4 ∧ s.serac.power = .on then { s with serac := { s.serac with corrected := s.serac.corrected + Config.scrubFound n } } else s)

namespace State

/-- Die d's L2 holds a sector: of a line homed there, or its copy or its own bytes of a remote-homed one. -/
def l2Holds (s : State) (d key sec : Nat) : Bool :=
  s.l2Dirty d key sec || ((Sparse.get? (s.dieAt d).l2lines key).any fun l => l.secs.contains sec)
    || (Sparse.get? (s.dieAt d).copies (lineKey (keyNum key * 4 + sec) (keyTag key) (keyHome key))).isSome
/-- An L2's copy of a sector is uncorrectable: it becomes poisoned (R326); of a SHR page, whose lines are clean, it goes and is
fetched again without any visible effect (R327). -/
def cacheError (s : State) (d k tag home : Nat) : State :=
  let key := lineKey (k / 4) tag home
  if !s.l2Holds d key (k % 4) then s
  else if tag = 4 then
    (s.dropCopy d tag home (k * 128)).modDie d fun D => { D with l2lines := dropSector key (k % 4) D.l2lines }
  else
    let s := s.diePoison d tag home k true
    { s with serac := { s.serac with poisoned := s.serac.poisoned + 1 } }
/-- An L1's copy of a sector is uncorrectable (R326): dirty there, it is its die's newest copy and is poisoned; clean, it is poisoned
in that L1 alone, until the sector leaves it; of a SHR page it goes and is fetched again (R327). -/
def l1Error (s : State) (c k tag home : Nat) : State :=
  let key := lineKey (k / 4) tag home
  match (Sparse.get? (s.coreAt c).l1 key).filter fun l => l.gen == s.lineGen tag && l.secs.contains (k % 4) with
  | none => s
  | some l =>
    if tag = 4 then s.modCore c fun C => { C with l1 := dropSector key (k % 4) C.l1 }
    else
      let s : State := { s with serac := { s.serac with poisoned := s.serac.poisoned + 1 } }
      if l.dirty.contains (k % 4) then s.diePoison (coreDie c) tag home k true
      else s.modCore c fun C => { C with l1 := Sparse.set key { l with bad := State.mark (k % 4) true l.bad } C.l1 }

end State

/-- UNCORRECTABLE_ERROR (R326, R327): poison of the sector that it affects, in HBM, in a die's L2, in an L1 or in a scratchpad, or a
register's parity; a clean cached copy of a SHR page is fetched again from HBM, and only a bad HBM copy poisons it, its frame
reported over the side-band port. -/
def execUncorrectableError (loc : ErrLoc) (s : State) : Host.Outcome State Fault Refusal :=
  let bad := fun (s : State) => { s with serac := { s.serac with poisoned := s.serac.poisoned + 1 } }
  .next (match loc with
    | .memSector k => bad { s with poison := State.mark k true s.poison }
    | .cacheSector d k tag home => if d < 4 ∧ tag < 5 ∧ home < 4 then s.cacheError d k tag home else s
    | .l1Sector c k tag home => if c < 1024 ∧ tag < 5 ∧ home < 4 then s.l1Error c k tag home else s
    | .cachedShr k hbmBad => if hbmBad then (bad { s with poison := State.mark k true s.poison }).report k else s
    | .padSector c p k =>
      if c < 1024 ∧ k * 128 < s.padSize p then bad (s.padPoison c p k true) else s
    | .sreg r f => if f < 48 ∧ r.core < 1024 ∧ r.slot < 16 then s.modS r f fun x => { x with parity := true } else s
    | .vreg r f => if f < 16 ∧ r.core < 1024 ∧ r.slot < 16 then s.modV r f fun x => { x with parity := true } else s
    | .mreg r f =>
      if 1 ≤ f ∧ f < 8 ∧ r.core < 1024 ∧ r.slot < 16 then
        s.modSlot r fun sl => { sl with mparity := State.mark f true sl.mparity }
      else s)

/-- The clocks of a unit run: the scope unit and the Cirque are die 0's; a Firn plane and a part of the Rime table every die has
(R2, R359). -/
def unitRuns (s : State) : StateUnit → Bool
  | .scope | .group => s.live 0
  | .firn | .rime => [0, 1, 2, 3].any s.live
/-- STATE_ERROR_PARTITION_STOP (R328): the owner of a bad Firn context, Rime entry, scope or group is reset, which waits for RESUME
while a slot of it is blocked behind a frozen die (R360); a record of kind 5 follows, and a report. -/
def execStateErrorPartitionStop (unit : StateUnit) (part : Nat) (s : State) : Host.Outcome State Fault Refusal :=
  .next (if (s.part? part).isNone ∨ !unitRuns s unit then s
    else if s.partBlocked part then s.owe (.state unit part)
    else s.stateReset unit part)

/-- NUNATAK_HEARTBEAT_WATCHDOG (R362): no heartbeat for its period restarts the die's firmware. -/
def execNunatakHeartbeatWatchdog (die : Nat) (s : State) : Host.Outcome State Fault Refusal :=
  .next (let D := s.dieAt die
    if s.live die ∧ D.lastBeat + s.msCycles D.heartbeatMs ≤ D.cycle then s.countFiring.nunRestart die else s)
/-- DIE_PROGRESS_WATCHDOG (R362): a die with accepted launches and Active slots that has issued nothing for its period; a
report, or a die reset where WDOG has raised the action. -/
def execDieProgressWatchdog (die : Nat) (s : State) : Host.Outcome State Fault Refusal :=
  .next (let D := s.dieAt die
    let active := s.slots.any fun e => e.1 / 4096 == die && e.2.run == .active
    if s.live die ∧ active ∧ !D.launches.isEmpty ∧ D.lastIssue + s.msCycles D.progressMs ≤ D.cycle then
      if D.progressReset then s.countFiring.dieResetOrWait die else s.countFiring.report (4 + die)
    else s)
/-- SERAC_CORE_WATCHDOG (R362): a management core is restarted by the other; the compute dies do not notice. -/
def execSeracCoreWatchdog (core : Nat) (s : State) : Host.Outcome State Fault Refusal :=
  .next (if core < 2 then s.countFiring else s)

/-- POWER_UP_BOOT (R363): at power-up the flash is read, which `flashOk` says has gone well, every firmware image and the
configuration record are verified; only then are the dies brought up, as after a package reset. -/
def execPowerUpBoot (flashOk : Bool) (s : State) : Host.Outcome State Fault Refusal :=
  .next (if s.serac.power = .disconnected ∨ s.serac.power = .bootFailed then
      { State.reset with
        cur := s.cur, agenda := s.agenda, draws := s.draws, nextId := s.nextId, outbox := s.outbox
        serac := { Serac.init with
          image := s.serac.image, others := s.serac.others, keys := s.serac.keys, keySeq := s.serac.keySeq
          power := if flashOk && s.bootVerifies then .on else .bootFailed } }
    else s)
/-- THERMAL_THROTTLE (R362, R365): a limit's watchdog fires: the arithmetic clock goes down 100 MHz, not below 1.2 GHz. -/
def execThermalThrottle (s : State) : Host.Outcome State Fault Refusal :=
  .next (if s.serac.power ≠ .on then s
    else
      let s := s.countFiring
      if 1300 ≤ s.serac.clockMhz then { s with serac := { s.serac with clockMhz := s.serac.clockMhz - 100 } }
      else s)
/-- ARITHMETIC_CLOCK_RAISE (R365): a lowered clock goes up again. -/
def execArithmeticClockRaise (s : State) : Host.Outcome State Fault Refusal :=
  .next (if s.serac.power = .on ∧ s.serac.clockMhz < 1800 then
      { s with serac := { s.serac with clockMhz := s.serac.clockMhz + 100 } }
    else s)
/-- UNDERVOLTAGE_POWER_OFF (R362, R365): the compute dies are powered off. -/
def execUndervoltagePowerOff (s : State) : Host.Outcome State Fault Refusal :=
  .next (if s.serac.power = .on then { s.countFiring with serac := { s.countFiring.serac with power := .off } } else s)
/-- OVERVOLTAGE_DISCONNECT (R362, R365): the package disconnects its input. -/
def execOvervoltageDisconnect (s : State) : Host.Outcome State Fault Refusal :=
  .next (if s.serac.power = .disconnected then s
    else { s.countFiring with serac := { s.countFiring.serac with power := .disconnected } })
/-- LIMITS_RESTORED (R365): the limits are met again after a power-off, and a package reset follows. -/
def execLimitsRestored (s : State) : Host.Outcome State Fault Refusal :=
  .next (if s.serac.power = .off then s.pkgReset else s)

end Sys2Proof.Machine
end

