-- ==== Sys2Proof/Machine/ScalarFp.lean ====
section
/-! DEFINITION. The meanings of the scalar floating-point instructions, opcodes 0x18 and 0x19 (R131 to R133). -/
namespace Sys2Proof.Machine

/-- FADD (R132). -/
def execFadd (o : FP2) (s : State) : Host.Outcome State Fault Refusal := .next (s.fp2 o 8 fpAdd)
/-- FSUB (R132). -/
def execFsub (o : FP2) (s : State) : Host.Outcome State Fault Refusal := .next (s.fp2 o 8 fpSub)
/-- FMUL (R132). -/
def execFmul (o : FP2) (s : State) : Host.Outcome State Fault Refusal := .next (s.fp2 o 8 fpMul)
/-- FDIV (R132, R90). -/
def execFdiv (o : FP2) (s : State) : Host.Outcome State Fault Refusal := .next (s.fp2 o 32 fpDiv)
/-- FSQRT (R132, R90). -/
def execFsqrt (o : FP1) (s : State) : Host.Outcome State Fault Refusal := .next (s.fp1 o 32 fpSqrt)
/-- FMIN (R132). -/
def execFmin (o : FP2) (s : State) : Host.Outcome State Fault Refusal :=
  .next (s.fp2 o 8 fun f _ a b => fpMinMax f false a b)
/-- FMAX (R132). -/
def execFmax (o : FP2) (s : State) : Host.Outcome State Fault Refusal :=
  .next (s.fp2 o 8 fun f _ a b => fpMinMax f true a b)
/-- FEQ (R132). -/
def execFeq (o : FP2) (s : State) : Host.Outcome State Fault Refusal :=
  .next (s.fp2 o 8 fun f _ a b => State.cmpRes (fpEq f a b))
/-- FLT (R132). -/
def execFlt (o : FP2) (s : State) : Host.Outcome State Fault Refusal :=
  .next (s.fp2 o 8 fun f _ a b => State.cmpRes (fpLt f a b))
/-- FLE (R132). -/
def execFle (o : FP2) (s : State) : Host.Outcome State Fault Refusal :=
  .next (s.fp2 o 8 fun f _ a b => State.cmpRes (fpLe f a b))
/-- FCVTI (R133): to i64, or n64 with U. -/
def execFcvti (o : FPC) (s : State) : Host.Outcome State Fault Refusal :=
  .next (s.issue [.s o.a o.am] fun s =>
    s.fpDone o.d (fpToInt (fpOf o.dbl) (s.rmNow o.rm) 64 (!o.u) (fpArg o.dbl (s.rd o.a))) 8 8)
/-- FCVTF (R132): from i64, or n64 with U. -/
def execFcvtf (o : FPC) (s : State) : Host.Outcome State Fault Refusal :=
  .next (s.issue [.s o.a o.am] fun s =>
    s.fpDone o.d (intToFp (fpOf o.dbl) (s.rmNow o.rm) false 64 (!o.u) (s.rd o.a).toNat) 8 8)
/-- FCVTW (R132): f64 to f32, or with H f32 to f64. -/
def execFcvtw (o : FP1) (s : State) : Host.Outcome State Fault Refusal :=
  .next (s.issue [.s o.a o.am] fun s =>
    s.fpDone o.d (fpConv (fpOf (!o.dbl)) (fpOf o.dbl) (s.rmNow o.rm) false (fpArg (!o.dbl) (s.rd o.a))) 8 8)
/-- FFMA (R132). -/
def execFfma (o : FP3) (s : State) : Host.Outcome State Fault Refusal :=
  .next (s.issue [.s o.a o.am, .s o.b o.bm, .s o.c o.cm] fun s =>
    s.fpDone o.d (fpFma (fpOf o.dbl) (s.rmNow o.rm) false false (fpArg o.dbl (s.rd o.a)) (fpArg o.dbl (s.rd o.b))
      (fpArg o.dbl (s.rd o.c))) 8 12)

end Sys2Proof.Machine
end

