-- ==== Sys2Proof/Machine/ScalarInt.lean ====
section
/-! DEFINITION. The meanings of the integer instructions of opcodes 0x10 to 0x14 (R125 to R130). -/
namespace Sys2Proof.Machine

/-- Leading zero bits; 64 for 0 (R128). -/
def clz64 (a : Word) : Nat := 64 - (if a = 0 then 0 else a.toNat.log2 + 1)
/-- Trailing zero bits; 64 for 0 (R128). -/
def ctz64 (a : Word) : Nat := ((List.range 64).find? fun i => a.getLsbD i).getD 64
/-- Signed quotient with the edge cases of R126. -/
def divS (a b : Word) : Word := if b = 0 then BitVec.allOnes 64 else BitVec.ofInt 64 (Int.tdiv a.toInt b.toInt)
/-- Signed remainder with the edge cases of R126. -/
def remS (a b : Word) : Word := if b = 0 then a else BitVec.ofInt 64 (Int.tmod a.toInt b.toInt)
/-- Unsigned quotient (R126). -/
def divU (a b : Word) : Word := if b = 0 then BitVec.allOnes 64 else BitVec.ofNat 64 (a.toNat / b.toNat)
/-- Unsigned remainder (R126). -/
def remU (a b : Word) : Word := if b = 0 then a else BitVec.ofNat 64 (a.toNat % b.toNat)
/-- High half of the signed product (R125). -/
def mulHi (a b : Word) : Word := BitVec.ofInt 64 ((a.toInt * b.toInt) / 2 ^ 64)
/-- High half of the unsigned product (R125). -/
def mulHiU (a b : Word) : Word := BitVec.ofNat 64 (a.toNat * b.toNat / 2 ^ 64)
/-- SignExt(a, w) (R7, R128). -/
def sextW (a : Word) (w : Nat) : Word := sext64 w a.toNat
/-- ZeroExt(a, w) (R7, R128). -/
def zextW (a : Word) (w : Nat) : Word := BitVec.ofNat 64 (a.toNat % 2 ^ w)

/-- ADD (R125). -/
def execAdd (o : RRR) (s : State) : Host.Outcome State Fault Refusal :=
  .next (s.aluRRR o 8 fun a b => a + b)

/-- SUB (R125). -/
def execSub (o : RRR) (s : State) : Host.Outcome State Fault Refusal :=
  .next (s.aluRRR o 8 fun a b => a - b)

/-- AND (R125). -/
def execAnd (o : RRR) (s : State) : Host.Outcome State Fault Refusal :=
  .next (s.aluRRR o 8 fun a b => a &&& b)

/-- OR (R125). -/
def execOr (o : RRR) (s : State) : Host.Outcome State Fault Refusal :=
  .next (s.aluRRR o 8 fun a b => a ||| b)

/-- XOR (R125). -/
def execXor (o : RRR) (s : State) : Host.Outcome State Fault Refusal :=
  .next (s.aluRRR o 8 fun a b => a ^^^ b)

/-- SHL (R125). -/
def execShl (o : RRR) (s : State) : Host.Outcome State Fault Refusal :=
  .next (s.aluRRR o 8 fun a b => a <<< (b.toNat % 64))

/-- SHR (R125). -/
def execShr (o : RRR) (s : State) : Host.Outcome State Fault Refusal :=
  .next (s.aluRRR o 8 fun a b => a >>> (b.toNat % 64))

/-- SRA (R125). -/
def execSra (o : RRR) (s : State) : Host.Outcome State Fault Refusal :=
  .next (s.aluRRR o 8 fun a b => a.sshiftRight (b.toNat % 64))

/-- MUL (R125). -/
def execMul (o : RRR) (s : State) : Host.Outcome State Fault Refusal :=
  .next (s.aluRRR o 8 fun a b => a * b)

/-- MULH (R125). -/
def execMulh (o : RRR) (s : State) : Host.Outcome State Fault Refusal :=
  .next (s.aluRRR o 8 fun a b => mulHi a b)

/-- MULHN (R125). -/
def execMulhn (o : RRR) (s : State) : Host.Outcome State Fault Refusal :=
  .next (s.aluRRR o 8 fun a b => mulHiU a b)

/-- DIV (R125, R126). -/
def execDiv (o : RRR) (s : State) : Host.Outcome State Fault Refusal :=
  .next (s.aluRRR o 32 fun a b => divS a b)

/-- DIVN (R125, R126). -/
def execDivn (o : RRR) (s : State) : Host.Outcome State Fault Refusal :=
  .next (s.aluRRR o 32 fun a b => divU a b)

/-- REM (R125, R126). -/
def execRem (o : RRR) (s : State) : Host.Outcome State Fault Refusal :=
  .next (s.aluRRR o 32 fun a b => remS a b)

/-- REMN (R125, R126). -/
def execRemn (o : RRR) (s : State) : Host.Outcome State Fault Refusal :=
  .next (s.aluRRR o 32 fun a b => remU a b)

/-- ANDN (R125). -/
def execAndn (o : RRR) (s : State) : Host.Outcome State Fault Refusal :=
  .next (s.aluRRR o 8 fun a b => a &&& ~~~b)

/-- SLT (R128). -/
def execSlt (o : RRR) (s : State) : Host.Outcome State Fault Refusal :=
  .next (s.aluRRR o 8 fun a b => b2w (a.slt b))

/-- SLTN (R128). -/
def execSltn (o : RRR) (s : State) : Host.Outcome State Fault Refusal :=
  .next (s.aluRRR o 8 fun a b => b2w (a.ult b))

/-- SEQ (R128). -/
def execSeq (o : RRR) (s : State) : Host.Outcome State Fault Refusal :=
  .next (s.aluRRR o 8 fun a b => b2w (a == b))

/-- SNE (R128). -/
def execSne (o : RRR) (s : State) : Host.Outcome State Fault Refusal :=
  .next (s.aluRRR o 8 fun a b => b2w (a != b))

/-- MIN (R128). -/
def execMin (o : RRR) (s : State) : Host.Outcome State Fault Refusal :=
  .next (s.aluRRR o 8 fun a b => if a.slt b then a else b)

/-- MAX (R128). -/
def execMax (o : RRR) (s : State) : Host.Outcome State Fault Refusal :=
  .next (s.aluRRR o 8 fun a b => if a.slt b then b else a)

/-- MINN (R128). -/
def execMinn (o : RRR) (s : State) : Host.Outcome State Fault Refusal :=
  .next (s.aluRRR o 8 fun a b => if a.ult b then a else b)

/-- MAXN (R128). -/
def execMaxn (o : RRR) (s : State) : Host.Outcome State Fault Refusal :=
  .next (s.aluRRR o 8 fun a b => if a.ult b then b else a)

/-- ADDI (R127). -/
def execAddi (o : RRI) (s : State) : Host.Outcome State Fault Refusal :=
  .next (s.aluRRI o fun a i => a + i)

/-- ANDI (R127). -/
def execAndi (o : RRI) (s : State) : Host.Outcome State Fault Refusal :=
  .next (s.aluRRI o fun a i => a &&& i)

/-- ORI (R127). -/
def execOri (o : RRI) (s : State) : Host.Outcome State Fault Refusal :=
  .next (s.aluRRI o fun a i => a ||| i)

/-- XORI (R127). -/
def execXori (o : RRI) (s : State) : Host.Outcome State Fault Refusal :=
  .next (s.aluRRI o fun a i => a ^^^ i)

/-- MULI (R127). -/
def execMuli (o : RRI) (s : State) : Host.Outcome State Fault Refusal :=
  .next (s.aluRRI o fun a i => a * i)

/-- SHLI (R127). -/
def execShli (o : RRSh) (s : State) : Host.Outcome State Fault Refusal :=
  .next (s.aluRRSh o fun a k => a <<< k)

/-- SHRI (R127). -/
def execShri (o : RRSh) (s : State) : Host.Outcome State Fault Refusal :=
  .next (s.aluRRSh o fun a k => a >>> k)

/-- SRAI (R127). -/
def execSrai (o : RRSh) (s : State) : Host.Outcome State Fault Refusal :=
  .next (s.aluRRSh o fun a k => a.sshiftRight k)

/-- CLZ (R128). -/
def execClz (o : RRO) (s : State) : Host.Outcome State Fault Refusal :=
  .next (s.aluRR o fun a => BitVec.ofNat 64 (clz64 a))

/-- CTZ (R128). -/
def execCtz (o : RRO) (s : State) : Host.Outcome State Fault Refusal :=
  .next (s.aluRR o fun a => BitVec.ofNat 64 (ctz64 a))

/-- POPC (R128). -/
def execPopc (o : RRO) (s : State) : Host.Outcome State Fault Refusal :=
  .next (s.aluRR o fun a => BitVec.ofNat 64 (popcount 64 a))

/-- SEXT (R128). -/
def execSext (o : RRW) (s : State) : Host.Outcome State Fault Refusal :=
  .next (s.aluRRW o fun a w => sextW a w)

/-- ZEXT (R128). -/
def execZext (o : RRW) (s : State) : Host.Outcome State Fault Refusal :=
  .next (s.aluRRW o fun a w => zextW a w)

/-- SEL (R129). -/
def execSel (o : RRRR) (s : State) : Host.Outcome State Fault Refusal :=
  .next (s.aluRRRR o fun a b c => if c ≠ 0 then a else b)

/-- MADD (R129). -/
def execMadd (o : RRRR) (s : State) : Host.Outcome State Fault Refusal :=
  .next (s.aluRRRR o fun a b c => a * b + c)

/-- MOVI (R130). -/
def execMovi (o : MoviO) (s : State) : Host.Outcome State Fault Refusal :=
  .next (s.aluImm o.d (o.imm.signExtend 64) 12)

/-- MOVL (R130). -/
def execMovl (o : MovlO) (s : State) : Host.Outcome State Fault Refusal :=
  .next (s.aluImm o.d o.imm 16)

end Sys2Proof.Machine
end

