-- ==== Sys2Proof/Machine/Sideband.lean ====
section
/-! DEFINITION. The side-band commands (R357, R358) and PARTCFG (R40, R41, R374). -/
namespace Sys2Proof.Machine
namespace State

/-- Some die is frozen. -/
def anyFrozen (s : State) : Bool := [0, 1, 2, 3].any fun d => (s.dieAt d).frozen

/-- Reply to a request (R357). -/
def sbReply (s : State) (q : SbReq) (status : Nat) (args : List Byte) : State := s.sbSend q.seq q.cmd status args
/-- A request waits while an earlier command is not complete, since they are executed one at a time in arrival order (R358); but
what can end a freeze that the earlier one waits for is let through: RESUME, DIERESET and PKGRESET (DESIGN CHOICE, log 87). -/
def sbBusy (s : State) (cmd : Nat) : Bool :=
  !s.serac.waiting.isEmpty && !(s.anyFrozen && (cmd == 5 || cmd == 8 || cmd == 9))
/-- A header or length that R357 does not allow: a set reserved bit, an ARGLEN that is not the count of the argument bytes, or more
of them than 1,024; STATUS 5 (DESIGN CHOICE, log 88: R358 lists arguments, not the header's other fields). -/
def sbMalformed (q : SbReq) : Bool := q.reserved != 0 || q.arglen != q.args.length || decide (1024 < q.args.length)

/-- Checks 1 and 2 of R358. -/
def sbFirst (s : State) (q : SbReq) : Nat :=
  if !q.sigOk ∨ 3 < q.keyid ∨ !s.serac.keys.contains q.keyid ∨ q.magic ≠ 0x4B58 ∨ q.ver ≠ 1 then 1
  else if q.seq + 1 ≤ Sparse.get 0 s.serac.keySeq q.keyid then 2
  else 0

/-- A request has passed its checks: its SEQ is the last of its key. -/
def sbAccept (s : State) (q : SbReq) : State :=
  { s with serac := { s.serac with keySeq := Sparse.set q.keyid (q.seq + 1) s.serac.keySeq } }

/-- Execute a request of command `cmd` when its row is that command's: the checks of R358 in order, of which `check` makes
the later ones (0 for none), then `act`, which answers the reply's arguments, or none where the reply comes later. With
the compute dies unpowered only HEALTH, FWLOAD and ATTEST are served (R363); with the input disconnected nothing is. -/
def sbRun (s : State) (q : SbReq) (cmd : Nat) (check : Nat) (act : State → Option (List Byte) × State) : State :=
  if q.cmd ≠ cmd ∨ s.serac.power = .disconnected ∨ s.sbBusy cmd then s
  else
    let f := s.sbFirst q
    let st := if f ≠ 0 then f
      else if (s.serac.power ≠ .on ∧ cmd ≠ 1 ∧ cmd ≠ 10 ∧ cmd ≠ 13) ∨ check = 4 then 4
      else if sbMalformed q then 5
      else check
    if st ≠ 0 then s.sbReply q st []
    else match act (s.sbAccept q) with
      | (some args, s) => s.sbReply q 0 args
      | (none, s) => s

/-- A TARGET that names a die (R357). -/
def tgtDie (t : Nat) : Option Nat := if t % 256 = 0 ∧ t / 256 < 4 then some (t / 256) else none
/-- The dies that a die or package target names. -/
def tgtDies (t : Nat) : List Nat := if t = 0xFF then [0, 1, 2, 3] else (tgtDie t).toList

/-- The first failure of a list of (fails, STATUS); 0 for none. -/
def sbChecks : List (Bool × Nat) → Nat
  | [] => 0
  | (b, n) :: t => if b then n else sbChecks t

/-! ## Freeze and resume (R359) -/

/-- Stop a die's clocks; what was due before stays on time. -/
def freezeDie (s : State) (d : Nat) : State :=
  if (s.dieAt d).frozen then s
  else (s.fireDue d).modDie d fun D => { D with frozen := true }
/-- Launches of a die that came due while it was frozen fire with LATE (R30). One whose release time lies ahead again at RESUME, TIME
having been stepped back meanwhile, neither fires nor has LATE (DESIGN CHOICE, log 91). -/
def fireLate (s : State) (d : Nat) : State :=
  (s.dieAt d).launches.foldl (fun (s : State) e =>
    let L : Launch := e.2
    if s.due L then
      (s.modLaunch d e.1 Launch.fire).modPart L.part fun P => { P with
        pendRecs := P.pendRecs.map fun x => if x.die = d ∧ x.lseq = L.lseq then { x with late := true } else x }
    else s) s
/-- Restart a frozen die's clocks. -/
def resumeDie (s : State) (d : Nat) : State :=
  if (s.dieAt d).frozen then (s.fireLate d).modDie d fun D => { D with frozen := false } else s

end State

/-- HEALTH (R358): counters and states, with the readings of the sensors. -/
def execHealth (q : SbReq) (s : State) : Host.Outcome State Fault Refusal :=
  .next (s.sbRun q 1 0 fun s =>
    let (n, s) := s.fresh
    let v := s.serac
    let ptp := match v.ptp with
      | .unlocked => 0
      | .locked => 1
      | .holdover => 2
    let dogs := [0, 1, 2, 3].flatMap fun d => [(s.dieAt d).heartbeatMs, (s.dieAt d).progressMs, (s.dieAt d).progressReset.toNat]
    (some (Config.healthReport n ([v.drops, v.recDrops, v.ringDrops, v.corrected, v.poisoned, v.wdogFirings, ptp, v.clockMhz]
      ++ dogs)), s))
/-- WDOG (R362): a watchdog's period, within its range, and the progress watchdog's action. -/
def execWdog (q : SbReq) (s : State) : Host.Outcome State Fault Refusal :=
  let (which, ms, rst) := Config.wdogArgs q.args
  let lo := if which = 0 then 10 else 100
  let hi := if which = 0 then 1000 else 60000
  .next (s.sbRun q 2 (State.sbChecks
      [((State.tgtDie q.target).isNone, 5), (decide (1 < which ∨ ms < lo ∨ hi < ms ∨ (which = 0 ∧ rst)), 5)]) fun s =>
    let d := (State.tgtDie q.target).getD 0
    (some [], s.modDie d fun D =>
      if which = 0 then { D with heartbeatMs := ms } else { D with progressMs := ms, progressReset := rst }))
/-- FREEZE (R359). -/
def execFreeze (q : SbReq) (s : State) : Host.Outcome State Fault Refusal :=
  .next (s.sbRun q 3 (State.sbChecks [((State.tgtDies q.target).isEmpty, 5)]) fun s =>
    (some [], (State.tgtDies q.target).foldl (fun (s : State) d => s.freezeDie d) s))
/-- READOUT (R358): up to 1,024 bytes of a frozen die's scan state. -/
def execReadout (q : SbReq) (s : State) : Host.Outcome State Fault Refusal :=
  let d := State.tgtDie q.target
  .next (s.sbRun q 4 (State.sbChecks [(d.any fun d => !(s.dieAt d).frozen, 4), (d.isNone, 5)]) fun s =>
    let (n, s) := s.fresh
    (some ((List.range 1024).map fun i => Config.readByte n (Config.readoutOffset q.args + i)), s))
/-- RESUME (R359); what the device held back for the dies is written, and resets that waited for it are done (R360). -/
def execResume (q : SbReq) (s : State) : Host.Outcome State Fault Refusal :=
  .next (s.sbRun q 5 (State.sbChecks [((State.tgtDies q.target).isEmpty, 5)]) fun s =>
    (some [], ((State.tgtDies q.target).foldl (fun (s : State) d => s.resumeDie d) s).devDrain.resetsDue))
/-- SLOTKILL over the side-band port (R335, R358): the request goes to the slot's core, in its turn among those there; the reply is
sent once the kill is complete. A slot number that no partition owns is Free. -/
def execSidebandSlotkill (q : SbReq) (s : State) : Host.Outcome State Fault Refusal :=
  let r : SlotRef := ⟨q.target / 16, q.target % 16⟩
  .next (s.sbRun q 6 (State.sbChecks
      [(decide (r.core < 1024) && (s.dieAt (coreDie r.core)).frozen, 4), (decide (1024 ≤ r.core) || !q.args.isEmpty, 5)]) fun s =>
    let s : State := { s with serac := { s.serac with waiting := s.serac.waiting ++ [⟨q.seq, 6, q.target⟩] } }
    (none, match s.ownerOf r.slot with
      | none => s.wakeUp (.serac q.seq)
      | some p =>
        let k : CalvReq := ⟨.kill, r.slot, p, 0, 0, .serac q.seq, ⟨4, []⟩⟩
        (s.modCore r.core fun C => { C with calvQ := C.calvQ ++ [k] }).killsDue r.core))
/-- PARTRESET (R360). -/
def execPartreset (q : SbReq) (s : State) : Host.Outcome State Fault Refusal :=
  .next (s.sbRun q 7 (State.sbChecks [(s.anyFrozen, 4), (decide (3 < q.target) || (s.part? q.target).isNone || !q.args.isEmpty, 5)])
    fun s => (some [], s.partReset q.target))
/-- DIERESET (R360): while a slot is blocked behind another die that is frozen, it waits, and so does its reply. -/
def execDiereset (q : SbReq) (s : State) : Host.Outcome State Fault Refusal :=
  .next (s.sbRun q 8 (State.sbChecks [((State.tgtDie q.target).isNone || !q.args.isEmpty, 5)]) fun s =>
    let d := (State.tgtDie q.target).getD 0
    if s.blockedBehind d then (none, { s with serac := { s.serac with waiting := s.serac.waiting ++ [⟨q.seq, 8, d⟩] } })
    else (some [], (s.dieReset d).resetsDue))
/-- PKGRESET (R360). -/
def execPkgreset (q : SbReq) (s : State) : Host.Outcome State Fault Refusal :=
  .next (s.sbRun q 9 (State.sbChecks [(decide (q.target ≠ 0xFF) || !q.args.isEmpty, 5)]) fun s => (some [], s.pkgReset))
/-- FWLOAD (R363): a chunk goes to flash staging; the final one activates the image if it verifies, and else changes
nothing. -/
def execFwload (q : SbReq) (s : State) : Host.Outcome State Fault Refusal :=
  let (off, final, chunk) := Config.fwChunk q.args
  let staged := (chunk.zip (List.range chunk.length)).foldl (fun (m : Sparse Byte) e => Sparse.set (off + e.2) e.1 m) s.serac.staging
  let image := staged.map fun e => e.2
  .next (s.sbRun q 10 (State.sbChecks [(final && !Config.imageVerifies image, 5)]) fun s =>
    (some [], { s with serac :=
      if final then { s.serac with staging := [], image := image } else { s.serac with staging := staged } }))
/-- NUNRESTART (R361). -/
def execNunrestart (q : SbReq) (s : State) : Host.Outcome State Fault Refusal :=
  let d := State.tgtDie q.target
  .next (s.sbRun q 11 (State.sbChecks [(d.any fun d => (s.dieAt d).frozen, 4), (d.isNone || !q.args.isEmpty, 5)]) fun s =>
    (some [], s.nunRestart (d.getD 0)))

/-! ## PARTCFG (R374) -/

/-- The configuration that the layout of R374 holds. -/
def cfgParse (a : List Byte) : PartCfg where
  slotMask := BitVec.ofNat 16 (msgNat a 8 2)
  spMask := BitVec.ofNat 64 (msgNat a 16 8)
  l1Ways := BitVec.ofNat 16 (msgNat a 24 2)
  l2Ways := BitVec.ofNat 16 (msgNat a 26 2)
  hbmShare := (List.range 8).map fun i => msgNat a (32 + i) 1
  asets := msgNat a 40 1
  weight := msgNat a 41 1
  det := (msgNat a 42 1).testBit 0
  rimeQ := (List.range 4).map fun d => msgNat a (48 + 4 * d) 4
  firn := (List.range 4).map fun p => (msgNat a (64 + 4 * p) 2, msgNat a (66 + 4 * p) 2)
  ptbase := BitVec.ofNat 64 (msgNat a 80 8 / 65536 * 65536)
  cq := msgNat a 88 2
  cqClass := msgNat a 90 1
  cqJ := msgNat a 91 1
  cqBase := msgNat a 96 8
  cqTarget := (a.drop 104).take 16
  cqBuf := BitVec.ofNat 64 (msgNat a 120 8)
  jobs := (List.range (msgNat a 128 1)).map fun i => msgNat a (136 + 4 * i) 4
  wins := (List.range (msgNat a 200 1)).map fun i =>
    let f := msgNat a (224 + 24 * i) 8
    ⟨msgNat a (208 + 24 * i) 8, msgNat a (216 + 24 * i) 8, f.testBit 0, f.testBit 1, f.testBit 2⟩
  qranges := (List.range (msgNat a 592 2)).map fun i => (msgNat a (600 + 8 * i) 2, msgNat a (602 + 8 * i) 4)

/-- A queue lies in some of the ranges. -/
def inRanges (rs : List (Nat × Nat)) (q : Nat) : Bool := rs.any fun x => decide (x.1 ≤ q) && decide (q < x.1 + x.2)
/-- Fields in range and unnamed bytes zero (R374). -/
def cfgFields (a : List Byte) : Bool :=
  let c := cfgParse a
  let z := fun (at_ n : Nat) => msgNat a at_ n == 0
  let nj := msgNat a 128 1
  let nw := msgNat a 200 1
  let nq := msgNat a 592 2
  z 10 6 && z 28 4 && z 43 5 && z 92 4 && z 129 7 && z 201 7 && z 594 6 && decide (msgNat a 42 1 < 2)
    && (c.hbmShare.all fun x => decide (x ≤ 64)) && decide (c.asets ≤ 4) && decide (1 ≤ c.weight) && decide (c.cqClass ≤ 3)
    && decide (4 ≤ c.cqJ) && decide (c.cqJ ≤ 16) && c.cqBase % (256 * 2 ^ c.cqJ) == 0 && decide (c.cqBase < 2 ^ 39)
    && decide (nj ≤ 16) && z (136 + 4 * nj) (64 - 4 * nj) && decide (nw ≤ 16) && z (208 + 24 * nw) (384 - 24 * nw)
    && decide (nq ≤ 53) && z (600 + 8 * nq) (424 - 8 * nq)
    && ((List.range nw).all fun i => msgNat a (208 + 24 * i) 2 == 0 && msgNat a (216 + 24 * i) 2 == 0
      && decide (msgNat a (224 + 24 * i) 8 < 8))
    && ((List.range nq).all fun i => z (606 + 8 * i) 2)
    && (c.qranges.all fun x => decide (x.1 + x.2 ≤ 65536)) && inRanges c.qranges c.cq

/-- Two ranges (base, count) meet. -/
def rangesMeet (x y : Nat × Nat) : Bool :=
  decide (x.1 < y.1 + y.2) && decide (y.1 < x.1 + x.2) && decide (0 < x.2) && decide (0 < y.2)
/-- The constraints of R41, and of R351 and R374 on windows and queues, against the other partitions. -/
def cfgAllowed (c : PartCfg) (others : List PartCfg) : Bool :=
  let sum := fun (f : PartCfg → Nat) => others.foldl (fun n o => n + f o) (f c)
  let phys := fun (x : PartCfg) => (x.wins.filter fun w => w.physical).map fun w => (w.base, w.len)
  c.slotMask != 0 && c.spMask != 0 && c.l1Ways != 0 && c.l2Ways != 0
    && (others.all fun o => o.slotMask &&& c.slotMask == 0 && o.spMask &&& c.spMask == 0 && o.l1Ways &&& c.l1Ways == 0
      && o.l2Ways &&& c.l2Ways == 0
      && ([0, 1, 2, 3].all fun d => !rangesMeet (o.firn.getD d (0, 0)) (c.firn.getD d (0, 0)))
      && (c.qranges.all fun x => o.qranges.all fun y => !rangesMeet x y)
      && ((phys c).all fun x => (phys o).all fun y => !rangesMeet x y))
    && (c.firn.all fun x => decide (x.1 + x.2 ≤ 4032))
    && ((List.range 8).all fun i => decide (sum (fun o => o.hbmShare.getD i 0) ≤ 64))
    && ([0, 1, 2, 3].all fun d => decide (sum (fun o => o.rimeQ.getD d 0) ≤ 65536)) && decide (sum (fun o => o.asets) ≤ 4)

namespace State

/-- Configurations of the other partitions. -/
def otherCfgs (s : State) (p : Nat) : List PartCfg := (s.parts.filter fun e => e.1 != p).map fun e => e.2.cfg

/-- Frames of a physically contiguous ring (R352). -/
def physFrames (base n : Nat) : List Nat := (List.range ((base % 65536 + n + 65535) / 65536)).map fun i => base / 65536 * 65536 + 65536 * i

/-- PARTCFG's effect (R40, R41, R352, R355): the partition exists with the configuration; a queue that it no longer owns, or
did not own before, has no ring; its control queue has the ring given. Lines of shared pages that stood in its old ways leave. -/
def partConfigure (s : State) (p : Nat) (c : PartCfg) : State :=
  let s := s.evictPart p
  let old := s.part? p
  let P : Partition := match old with
    | some P => { P with cfg := c, ptbase := c.ptbase }
    | none => ⟨c, 0, 0, c.ptbase, 0, [], 0, none, [], [], [], false, true⟩
  let had := fun (q : Nat) => old.any fun P => inRanges P.cfg.qranges q && P.cfg.cq != q
  let n := 256 * 2 ^ c.cqJ
  let Q : Queue := ⟨true, c.cqBase, physFrames c.cqBase n, c.cqJ, c.cqClass, c.cqTarget, c.cqBuf, 0, [], 0, none⟩
  let kept := s.queues.filter fun e => !inRanges c.qranges e.1 && !had e.1 || inRanges c.qranges e.1 && had e.1
  { s with parts := Sparse.set p P s.parts, queues := Sparse.set c.cq Q kept }

/-- The completion records and SLAUNCH replies that a partition still owes at its removal are written first (R28, R353). -/
def recordsOut (s : State) (p : Nat) : State :=
  match s.part? p with
  | none => s
  | some P => P.recs.foldl (fun (s : State) x =>
      let Q := s.queueAt (if x.slaunch then P.cfg.cq else x.queue)
      { s with outbox := s.outbox ++ [if x.slaunch then .reply Q.target Q.buf 6 0 (recBytes p x ++ List.replicate 24 (0 : Byte))
        else .record Q.target Q.buf (recBytes p x)] }) s
/-- Removal (R40): a partition reset, then its resources are owned by nobody; its ways hold no line any more, and what the device still
was to write for it is dropped. -/
def partRemove (s : State) (p : Nat) : State :=
  match s.part? p with
  | none => s
  | some P =>
    let s := ((s.partReset p).recordsOut p).evictPart p
    { s with
      devOut := s.devOut.filter fun x => x.part != p
      queues := s.queues.filter fun e => !inRanges P.cfg.qranges e.1
      parts := Sparse.erase p s.parts }

end State

/-- PARTCFG OP 0, and any OP that is none (R374): the partition does not exist, or has been reset and has accepted no launch
since (R40). -/
def execPartcfgConfigure (q : SbReq) (s : State) : Host.Outcome State Fault Refusal :=
  let op := msgNat q.args 0 8
  let p := q.target
  let c := cfgParse q.args
  .next (if op = 1 ∨ op = 2 then s
    else s.sbRun q 12 (State.sbChecks
        [(s.anyFrozen || (op == 0 && (s.part? p).any fun P => P.fixed), 4),
         (decide (op ≠ 0 ∨ 3 < p ∨ q.args.length ≠ 1024) || !cfgFields q.args, 5), (!cfgAllowed c (s.otherCfgs p), 6)])
      fun s => (some [], s.partConfigure p c))
/-- PARTCFG OP 1 (R40, R374). -/
def execPartcfgRemove (q : SbReq) (s : State) : Host.Outcome State Fault Refusal :=
  .next (if msgNat q.args 0 8 ≠ 1 then s
    else s.sbRun q 12 (State.sbChecks
        [(s.anyFrozen, 4), (decide (3 < q.target ∨ q.args.length ≠ 8) || (s.part? q.target).isNone, 5)])
      fun s => (some [], s.partRemove q.target))
/-- PARTCFG OP 2 (R40, R374): only while no partition exists. -/
def execPartcfgSramSplit (q : SbReq) (s : State) : Host.Outcome State Fault Refusal :=
  .next (if msgNat q.args 0 8 ≠ 2 then s
    else s.sbRun q 12 (State.sbChecks
        [(s.anyFrozen || !s.parts.isEmpty, 4), (decide (q.target ≠ 0xFF ∨ q.args.length ≠ 16 ∨ 1 < msgNat q.args 8 8), 5)])
      fun s => (some [], { s with serac := { s.serac with split512 := decide (msgNat q.args 8 8 = 1) } }))

/-- A configuration as numbers, for the attestation report. -/
def cfgNats (p : Nat) (c : PartCfg) : List Nat :=
  [p, c.slotMask.toNat, c.spMask.toNat, c.l1Ways.toNat, c.l2Ways.toNat, c.asets, c.weight, c.det.toNat, c.ptbase.toNat, c.cq,
   c.cqClass, c.cqJ, c.cqBase, c.cqBuf.toNat] ++ c.hbmShare ++ c.rimeQ ++ c.firn.flatMap (fun x => [x.1, x.2])
  ++ c.cqTarget.map (fun b => b.toNat) ++ c.jobs
  ++ c.wins.flatMap (fun w => [w.base, w.len, w.read.toNat, w.write.toNat, w.physical.toNat])
  ++ c.qranges.flatMap (fun x => [x.1, x.2])

/-- ATTEST (R364): a report over the 32-byte nonce with the digests of every active image, signed with the identity key. -/
def execAttest (q : SbReq) (s : State) : Host.Outcome State Fault Refusal :=
  .next (s.sbRun q 13 (State.sbChecks [(decide (q.args.length ≠ 32), 5)]) fun s =>
    let ptp := match s.serac.ptp with
      | .unlocked => 0
      | .locked => 1
      | .holdover => 2
    let body := Config.attestBody q.args Config.identityKey ((s.serac.image :: s.serac.others).map Config.digest) (Config.digest Config.bootRecord)
      (s.parts.flatMap fun e => cfgNats e.1 e.2.cfg) ptp
    (some (body ++ Config.sign body), s))

/-- SIDEBAND_UNKNOWN_CMD (R358): STATUS 3, after checks 1 and 2. -/
def execSidebandUnknownCmd (q : SbReq) (s : State) : Host.Outcome State Fault Refusal :=
  .next (if (1 ≤ q.cmd ∧ q.cmd ≤ 13) ∨ s.serac.power = .disconnected ∨ s.sbBusy q.cmd then s
    else
      let f := s.sbFirst q
      s.sbReply q (if f ≠ 0 then f else 3) [])

end Sys2Proof.Machine
end

