-- ==== Sys2Proof/Machine/VecInt.lean ====
section
/-! DEFINITION. The meanings of the integer vector, lane and reduction instructions and of the mask instructions,
opcodes 0x40 to 0x44 (R216 to R223). -/
namespace Sys2Proof.Machine

/-- VMULH's lane: the high half of the double-width product, signed for i types (R216). -/
def laneMulh (t : Ty) (a b : Nat) : Nat := tyCode t (tyVal t a * tyVal t b / 2 ^ tyBits t)
/-- VSRA's lane: filled with the top bit, for n types as well (R216). -/
def laneSra (t : Ty) (a b : Nat) : Nat :=
  ((signedVal (tyBits t) a / 2 ^ (b % tyBits t)) % 2 ^ tyBits t).toNat
/-- VMIN's lane (R216). -/
def laneMin (t : Ty) (a b : Nat) : Nat := if tyVal t a ≤ tyVal t b then a else b
/-- VMAX's lane (R216). -/
def laneMax (t : Ty) (a b : Nat) : Nat := if tyVal t a ≤ tyVal t b then b else a

/-- VADD (R216). -/
def execVadd (o : VI2) (s : State) : Host.Outcome State Fault Refusal :=
  .next (s.vi2 o fun t a b => tyCode t (tyVal t a + tyVal t b))
/-- VSUB (R216). -/
def execVsub (o : VI2) (s : State) : Host.Outcome State Fault Refusal :=
  .next (s.vi2 o fun t a b => tyCode t (tyVal t a - tyVal t b))
/-- VMUL (R216). -/
def execVmul (o : VI2) (s : State) : Host.Outcome State Fault Refusal :=
  .next (s.vi2 o fun t a b => tyCode t (tyVal t a * tyVal t b))
/-- VMULH (R216). -/
def execVmulh (o : VI2) (s : State) : Host.Outcome State Fault Refusal :=
  .next (s.vi2 o fun t a b => laneMulh t a b)
/-- VAND (R216). -/
def execVand (o : VI2) (s : State) : Host.Outcome State Fault Refusal :=
  .next (s.vi2 o fun _ a b => a &&& b)
/-- VOR (R216). -/
def execVor (o : VI2) (s : State) : Host.Outcome State Fault Refusal :=
  .next (s.vi2 o fun _ a b => a ||| b)
/-- VXOR (R216). -/
def execVxor (o : VI2) (s : State) : Host.Outcome State Fault Refusal :=
  .next (s.vi2 o fun _ a b => a ^^^ b)
/-- VSHL (R216). -/
def execVshl (o : VI2) (s : State) : Host.Outcome State Fault Refusal :=
  .next (s.vi2 o fun t a b => a <<< (b % tyBits t))
/-- VSHR (R216). -/
def execVshr (o : VI2) (s : State) : Host.Outcome State Fault Refusal :=
  .next (s.vi2 o fun t a b => a >>> (b % tyBits t))
/-- VSRA (R216). -/
def execVsra (o : VI2) (s : State) : Host.Outcome State Fault Refusal :=
  .next (s.vi2 o fun t a b => laneSra t a b)
/-- VMIN (R216). -/
def execVmin (o : VI2) (s : State) : Host.Outcome State Fault Refusal :=
  .next (s.vi2 o fun t a b => laneMin t a b)
/-- VMAX (R216). -/
def execVmax (o : VI2) (s : State) : Host.Outcome State Fault Refusal :=
  .next (s.vi2 o fun t a b => laneMax t a b)
/-- VADDS (R216). -/
def execVadds (o : VI2) (s : State) : Host.Outcome State Fault Refusal :=
  .next (s.vi2 o fun t a b => tyCode t (tyClamp t (tyVal t a + tyVal t b)))
/-- VSUBS (R216). -/
def execVsubs (o : VI2) (s : State) : Host.Outcome State Fault Refusal :=
  .next (s.vi2 o fun t a b => tyCode t (tyClamp t (tyVal t a - tyVal t b)))
/-- VAVG (R216). -/
def execVavg (o : VI2) (s : State) : Host.Outcome State Fault Refusal :=
  .next (s.vi2 o fun t a b => tyCode t ((tyVal t a + tyVal t b + 1) / 2))
/-- VABS (R216). -/
def execVabs (o : VI1) (s : State) : Host.Outcome State Fault Refusal :=
  .next (s.issue ([.v o.a o.am] ++ State.mergeSrc o.d o.mask) fun s =>
    let w := tyBits o.ty
    (s.wrMerge o.d o.mask w fun i => tyCode o.ty (tyVal o.ty (lane w (s.rdv o.a) i)).natAbs).retire 8 8)

/-- VCMP.eq (R217). -/
def execVcmpEq (o : VCmpO) (s : State) : Host.Outcome State Fault Refusal :=
  .next (s.vcmp o fun a b => a == b)
/-- VCMP.ne (R217). -/
def execVcmpNe (o : VCmpO) (s : State) : Host.Outcome State Fault Refusal :=
  .next (s.vcmp o fun a b => a != b)
/-- VCMP.lt (R217). -/
def execVcmpLt (o : VCmpO) (s : State) : Host.Outcome State Fault Refusal :=
  .next (s.vcmp o fun a b => decide (a < b))
/-- VCMP.le (R217). -/
def execVcmpLe (o : VCmpO) (s : State) : Host.Outcome State Fault Refusal :=
  .next (s.vcmp o fun a b => decide (a ≤ b))
/-- VCMP.gt (R217). -/
def execVcmpGt (o : VCmpO) (s : State) : Host.Outcome State Fault Refusal :=
  .next (s.vcmp o fun a b => decide (b < a))
/-- VCMP.ge (R217). -/
def execVcmpGe (o : VCmpO) (s : State) : Host.Outcome State Fault Refusal :=
  .next (s.vcmp o fun a b => decide (b ≤ a))

/-- VMOV (R218). -/
def execVmov (o : VI1) (s : State) : Host.Outcome State Fault Refusal :=
  .next (s.issue ([.v o.a o.am] ++ State.mergeSrc o.d o.mask) fun s =>
    let w := tyBits o.ty
    (s.wrMerge o.d o.mask w fun i => lane w (s.rdv o.a) i).retire 8 8)
/-- VSPLAT (R218). -/
def execVsplat (o : VSplatO) (s : State) : Host.Outcome State Fault Refusal :=
  .next (s.issue ([.s o.a o.am] ++ State.mergeSrc o.d o.mask) fun s =>
    (s.wrMerge o.d o.mask (tyBits o.ty) fun _ => (s.rd o.a).toNat).retire 8 8)
/-- VSEL (R218): the mask selects, every lane is written. -/
def execVsel (o : VV3) (s : State) : Host.Outcome State Fault Refusal :=
  .next (s.issue [.v o.a o.am, .v o.b o.bm, .m o.mask] fun s =>
    let w := tyBits o.ty
    (s.wrv o.d (mergeLanes w (s.rdm o.mask) (s.rdv o.b) fun i => lane w (s.rdv o.a) i)).retire 8 8)
/-- VEXT (R219). -/
def execVext (o : VExtO) (s : State) : Host.Outcome State Fault Refusal :=
  .next (s.issue [.v o.a o.am, .s o.b o.bm] fun s =>
    let w := tyBits o.ty
    let j := (s.rd o.b).toNat
    let x := lane w (s.rdv o.a) j
    (s.wr o.d (if tyLanes o.ty ≤ j then 0 else if o.ty.isSignedInt then sext64 w x else BitVec.ofNat 64 x)).retire 8 8)
/-- VINS (R219): reads vD with wait. -/
def execVins (o : VInsO) (s : State) : Host.Outcome State Fault Refusal :=
  .next (s.issue [.s o.a o.am, .s o.b o.bm, .v o.d .wait] fun s =>
    let w := tyBits o.ty
    (s.wrv o.d (ofLanes w fun i => if i = (s.rd o.b).toNat then (s.rd o.a).toNat else lane w (s.rdv o.d) i)).retire 8 8)
/-- VPERM (R220). -/
def execVperm (o : VV3) (s : State) : Host.Outcome State Fault Refusal :=
  .next (s.issue ([.v o.a o.am, .v o.b o.bm] ++ State.mergeSrc o.d o.mask) fun s =>
    let w := tyBits o.ty
    (s.wrMerge o.d o.mask w fun i =>
      let j := lane w (s.rdv o.b) i
      if tyLanes o.ty ≤ j then 0 else lane w (s.rdv o.a) j).retire 8 8)
/-- VSLIDEUP (R220). -/
def execVslideup (o : VSlideO) (s : State) : Host.Outcome State Fault Refusal :=
  .next (s.issue ([.v o.a o.am, .s o.b o.bm] ++ State.mergeSrc o.d o.mask) fun s =>
    let w := tyBits o.ty
    let k := (s.rd o.b).toNat
    (s.wrMerge o.d o.mask w fun i => if k ≤ i then lane w (s.rdv o.a) (i - k) else 0).retire 8 8)
/-- VSLIDEDN (R220). -/
def execVslidedn (o : VSlideO) (s : State) : Host.Outcome State Fault Refusal :=
  .next (s.issue ([.v o.a o.am, .s o.b o.bm] ++ State.mergeSrc o.d o.mask) fun s =>
    let w := tyBits o.ty
    let k := (s.rd o.b).toNat
    (s.wrMerge o.d o.mask w fun i => if i + k < tyLanes o.ty then lane w (s.rdv o.a) (i + k) else 0).retire 8 8)
/-- VIOTA (R221): each active lane gets the number of active lanes below it. -/
def execViota (o : VIotaO) (s : State) : Host.Outcome State Fault Refusal :=
  .next (s.issue (State.mergeSrc o.d o.mask) fun s =>
    (s.wrMerge o.d o.mask (tyBits o.ty) fun i => countTo i fun j => (s.rdm o.mask).getLsbD j).retire 8 8)
/-- VCOMPRESS (R221): active lanes packed from lane 0, zeros above. -/
def execVcompress (o : VI1) (s : State) : Host.Outcome State Fault Refusal :=
  .next (s.issue [.v o.a o.am, .m o.mask] fun s =>
    let w := tyBits o.ty
    let xs := (activeLanes w (s.rdm o.mask)).map fun i => lane w (s.rdv o.a) i
    (s.wrv o.d (BitVec.ofNat 2048 (packLanes w xs))).retire 8 8)

/-- Running sums over the lanes that a mask has active (R221). -/
def scanLanes (w : Nat) (mk : MWord) (v : VWord) : List Nat → Nat → List Nat
  | [], _ => []
  | i :: t, acc =>
    let acc := if mk.getLsbD i then (acc + lane w v i) % 2 ^ w else acc
    acc :: scanLanes w mk v t acc

/-- VSCAN (R221): inclusive running sums in every lane. -/
def execVscan (o : VI1) (s : State) : Host.Outcome State Fault Refusal :=
  .next (s.issue [.v o.a o.am, .m o.mask] fun s =>
    let w := tyBits o.ty
    (s.wrv o.d (BitVec.ofNat 2048 (packLanes w (scanLanes w (s.rdm o.mask) (s.rdv o.a) (List.range (2048 / w)) 0)))).retire 8 8)

/-- A scalar from an integer lane result (R222). -/
def redWord (t : Ty) (x : Nat) : Word := if t.isSignedInt then sext64 (tyBits t) x else BitVec.ofNat 64 x
/-- A float reduction in ascending order from the first number on: NaN lanes give way to numbers, alone they give the
canonical NaN, a signalling one is NV; a NaN that arithmetic makes stays (R222). -/
def redFloat (f : FpFmt) (op : Nat → Nat → Nat × Fl) (ident : Nat) (xs : List Nat) : Nat × Fl :=
  let fl := xs.foldl (fun (g : Fl) x => g ||| snanFl (f.decode x)) 0
  match xs, xs.filter fun x => !(f.decode x).isNan with
  | [], _ => (ident, 0)
  | _, [] => (f.qnan, fl)
  | _, y :: ys => ys.foldl (fun (acc : Nat × Fl) y => let z := op acc.1 y; (z.1, acc.2 ||| z.2)) (y, fl)

namespace State

/-- The shape of VREDADD, VREDMIN and VREDMAX: an integer fold from its identity, or a float reduction (R222). -/
def vred (o : VRedO) (int : Nat → Nat → Nat) (id0 : Int) (flt : FpFmt → Rm → Nat → Nat → Nat × Fl) (idF : FpFmt → Nat)
    (s : State) : State :=
  s.issue [.v o.a o.am, .m o.mask] fun s =>
    let w := tyBits o.ty
    let xs := (activeLanes w (s.rdm o.mask)).map fun i => lane w (s.rdv o.a) i
    if o.ty.isInt then (s.wr o.d (redWord o.ty (xs.foldl int (tyCode o.ty id0)))).retire 8 8
    else
      let f := tyFp o.ty
      s.fpDone o.d (redFloat f (flt f (s.rmNow o.rm)) (idF f) xs) 8 8

end State

/-- VREDADD (R222). -/
def execVredadd (o : VRedO) (s : State) : Host.Outcome State Fault Refusal :=
  .next (s.vred o (fun a b => (a + b) % 2 ^ tyBits o.ty) 0 fpAdd fun _ => 0)
/-- VREDMIN (R222). -/
def execVredmin (o : VRedO) (s : State) : Host.Outcome State Fault Refusal :=
  .next (s.vred o (laneMin o.ty) (tyMax o.ty) (fun f _ a b => fpMinMax f false a b) fun f => f.infBits false)
/-- VREDMAX (R222). -/
def execVredmax (o : VRedO) (s : State) : Host.Outcome State Fault Refusal :=
  .next (s.vred o (laneMax o.ty) (tyMin o.ty) (fun f _ a b => fpMinMax f true a b) fun f => f.infBits true)

/-- MAND (R223). -/
def execMand (o : M3) (s : State) : Host.Outcome State Fault Refusal :=
  .next (s.issue [.m o.a, .m o.b] fun s =>
    let a := s.rdm o.a
    let b := s.rdm o.b
    (s.wrm o.d (a &&& b)).retire 8 8)
/-- MOR (R223). -/
def execMor (o : M3) (s : State) : Host.Outcome State Fault Refusal :=
  .next (s.issue [.m o.a, .m o.b] fun s =>
    let a := s.rdm o.a
    let b := s.rdm o.b
    (s.wrm o.d (a ||| b)).retire 8 8)
/-- MXOR (R223). -/
def execMxor (o : M3) (s : State) : Host.Outcome State Fault Refusal :=
  .next (s.issue [.m o.a, .m o.b] fun s =>
    let a := s.rdm o.a
    let b := s.rdm o.b
    (s.wrm o.d (a ^^^ b)).retire 8 8)
/-- MANDN (R223). -/
def execMandn (o : M3) (s : State) : Host.Outcome State Fault Refusal :=
  .next (s.issue [.m o.a, .m o.b] fun s =>
    let a := s.rdm o.a
    let b := s.rdm o.b
    (s.wrm o.d (a &&& ~~~b)).retire 8 8)
/-- MNOT (R223). -/
def execMnot (o : M2) (s : State) : Host.Outcome State Fault Refusal :=
  .next (s.issue [.m o.a] fun s => (s.wrm o.d (~~~(s.rdm o.a))).retire 8 8)
/-- MPOPC (R223). -/
def execMpopc (o : MSO) (s : State) : Host.Outcome State Fault Refusal :=
  .next (s.issue [.m o.a] fun s => (s.wr o.d (BitVec.ofNat 64 (popcount 256 (s.rdm o.a)))).retire 8 8)
/-- MFIRST (R223): 256 when the mask is zero. -/
def execMfirst (o : MSO) (s : State) : Host.Outcome State Fault Refusal :=
  .next (s.issue [.m o.a] fun s =>
    (s.wr o.d (BitVec.ofNat 64 (((List.range 256).find? fun i => (s.rdm o.a).getLsbD i).getD 256))).retire 8 8)
/-- MFROM (R223). -/
def execMfrom (o : MFromO) (s : State) : Host.Outcome State Fault Refusal :=
  .next (s.issue [.v o.a o.am] fun s => (s.wrm o.d ((s.rdv o.a).setWidth 256)).retire 8 8)
/-- MTO (R223). -/
def execMto (o : MToO) (s : State) : Host.Outcome State Fault Refusal :=
  .next (s.issue [.m o.a] fun s => (s.wrv o.d ((s.rdm o.a).setWidth 2048)).retire 8 8)

end Sys2Proof.Machine
end

