-- ==== Sys2Proof/Machine/VecFp.lean ====
section
/-! DEFINITION. The meanings of the floating vector instructions, conversions and block packing, opcodes 0x48 to 0x4B
(R224 to R229). -/
namespace Sys2Proof.Machine

/-- VFADD (R224). -/
def execVfadd (o : VF2) (s : State) : Host.Outcome State Fault Refusal := .next (s.vf2 o 8 fpAdd)
/-- VFSUB (R224). -/
def execVfsub (o : VF2) (s : State) : Host.Outcome State Fault Refusal := .next (s.vf2 o 8 fpSub)
/-- VFMUL (R224). -/
def execVfmul (o : VF2) (s : State) : Host.Outcome State Fault Refusal := .next (s.vf2 o 8 fpMul)
/-- VFDIV (R224). -/
def execVfdiv (o : VF2) (s : State) : Host.Outcome State Fault Refusal := .next (s.vf2 o 32 fpDiv)
/-- VFSQRT (R224). -/
def execVfsqrt (o : VF1) (s : State) : Host.Outcome State Fault Refusal := .next (s.vf1 o 32 fpSqrt)
/-- VFMIN (R224). -/
def execVfmin (o : VF2) (s : State) : Host.Outcome State Fault Refusal := .next (s.vf2 o 8 fun f _ a b => fpMinMax f false a b)
/-- VFMAX (R224). -/
def execVfmax (o : VF2) (s : State) : Host.Outcome State Fault Refusal := .next (s.vf2 o 8 fun f _ a b => fpMinMax f true a b)
/-- VFEXP2 (R225). -/
def execVfexp2 (o : VF1) (s : State) : Host.Outcome State Fault Refusal := .next (s.vf1 o 8 fun f _ a => fpExp2 f a)
/-- VFLOG2 (R225). -/
def execVflog2 (o : VF1) (s : State) : Host.Outcome State Fault Refusal := .next (s.vf1 o 8 fun f _ a => fpLog2 f a)
/-- VFRCP (R225). -/
def execVfrcp (o : VF1) (s : State) : Host.Outcome State Fault Refusal := .next (s.vf1 o 8 fun f _ a => fpRcp f a)
/-- VFRSQ (R225). -/
def execVfrsq (o : VF1) (s : State) : Host.Outcome State Fault Refusal := .next (s.vf1 o 8 fun f _ a => fpRsq f a)
/-- VFABS (R224). -/
def execVfabs (o : VF1) (s : State) : Host.Outcome State Fault Refusal := .next (s.vf1 o 8 fun f _ a => (a % 2 ^ (f.ebits + f.fbits), 0))
/-- VFNEG (R224). -/
def execVfneg (o : VF1) (s : State) : Host.Outcome State Fault Refusal := .next (s.vf1 o 8 fun f _ a => (f.negate a, 0))
/-- VFMA (R226). -/
def execVfma (o : VF3) (s : State) : Host.Outcome State Fault Refusal := .next (s.vf3 o false false)
/-- VFMS (R226). -/
def execVfms (o : VF3) (s : State) : Host.Outcome State Fault Refusal := .next (s.vf3 o false true)
/-- VFNMA (R226). -/
def execVfnma (o : VF3) (s : State) : Host.Outcome State Fault Refusal := .next (s.vf3 o true false)
/-- VFCMP.eq (R227). -/
def execVfcmpEq (o : VCmpO) (s : State) : Host.Outcome State Fault Refusal := .next (s.vfcmp o fpEq)
/-- VFCMP.ne (R227). -/
def execVfcmpNe (o : VCmpO) (s : State) : Host.Outcome State Fault Refusal := .next (s.vfcmp o (fun f a b => let r := fpEq f a b; (!r.1, r.2)))
/-- VFCMP.lt (R227). -/
def execVfcmpLt (o : VCmpO) (s : State) : Host.Outcome State Fault Refusal := .next (s.vfcmp o fpLt)
/-- VFCMP.le (R227). -/
def execVfcmpLe (o : VCmpO) (s : State) : Host.Outcome State Fault Refusal := .next (s.vfcmp o fpLe)
/-- VFCMP.uno (R227). -/
def execVfcmpUno (o : VCmpO) (s : State) : Host.Outcome State Fault Refusal := .next (s.vfcmp o fpUno)

/-- One lane of VCVT (R228). -/
def cvtLane (dst src : Ty) (rm : Rm) (sat : Bool) (x : Nat) : Nat × Fl :=
  if src.isInt then
    if dst.isInt then (tyCode dst (if sat then tyClamp dst (tyVal src x) else tyVal src x), 0)
    else intToFp (tyFp dst) rm sat (tyBits src) src.isSignedInt x
  else if dst.isInt then fpToInt (tyFp src) rm (tyBits dst) dst.isSignedInt x
  else fpConv (tyFp src) (tyFp dst) rm sat x

/-- VCVT (R228): lanes at or above the smaller lane count become 0. -/
def execVcvt (o : VCvtO) (s : State) : Host.Outcome State Fault Refusal :=
  .next (s.issue ([.v o.a o.am] ++ State.mergeSrc o.d o.mask) fun s =>
    let n := min (tyLanes o.src) (tyLanes o.dst)
    (s.wrMergeFl o.d o.mask (tyBits o.dst) fun i =>
      if i < n then cvtLane o.dst o.src (s.rmNow o.rm) o.sat (lane (tyBits o.src) (s.rdv o.a) i) else (0, 0)).retire 8 8)

/-- VPACKB (R229): 64 f32 lanes to one f4b8 group in bytes 0 to 39. -/
def execVpackb (o : VPkO) (s : State) : Host.Outcome State Fault Refusal :=
  .next (s.issue [.v o.a o.am] fun s =>
    let bs := (List.range 8).map fun b => packBlock ((List.range 8).map fun i => lane 32 (s.rdv o.a) (8 * b + i))
    let nibs := packLanes 4 (bs.flatMap fun b => b.1)
    let scales := packLanes 8 (bs.map fun b => b.2.1)
    let fl := bs.foldl (fun (f : Fl) b => f ||| b.2.2) 0
    ((s.wrv o.d (BitVec.ofNat 2048 (nibs + scales * 2 ^ 256))).raise fl).retire 8 8)

/-- VUNPACKB (R229): one group to 64 f32 lanes, exactly. -/
def execVunpackb (o : VPkO) (s : State) : Host.Outcome State Fault Refusal :=
  .next (s.issue [.v o.a o.am] fun s =>
    let v := s.rdv o.a
    (s.wrv o.d (ofLanes 32 fun j => (fmtF32.deliver .rne false (f4b8Num (lane 4 v j) (lane 8 v (32 + j / 8)))).1)).retire 8 8)

end Sys2Proof.Machine
end

