-- ==== Sys2Proof/Machine/Dispatch.lean ====
section
/-! DEFINITION. One arm for each instruction and event: the meaning it calls. -/
namespace Sys2Proof.Machine

/-- What an instruction or event does to the machine. -/
def exec (i : Instr) (s : State) : Host.Outcome State Fault Refusal :=
  match i with
  | .nop8 => Sys2Proof.Machine.execNop8 s
  | .nop12 => Sys2Proof.Machine.execNop12 s
  | .nop16 => Sys2Proof.Machine.execNop16 s
  | .br o => Sys2Proof.Machine.execBr o s
  | .jal o => Sys2Proof.Machine.execJal o s
  | .jr o => Sys2Proof.Machine.execJr o s
  | .jalr o => Sys2Proof.Machine.execJalr o s
  | .beq o => Sys2Proof.Machine.execBeq o s
  | .bne o => Sys2Proof.Machine.execBne o s
  | .blt o => Sys2Proof.Machine.execBlt o s
  | .bge o => Sys2Proof.Machine.execBge o s
  | .bltn o => Sys2Proof.Machine.execBltn o s
  | .bgen o => Sys2Proof.Machine.execBgen o s
  | .loop o => Sys2Proof.Machine.execLoop o s
  | .lbrk => Sys2Proof.Machine.execLbrk s
  | .trap o => Sys2Proof.Machine.execTrap o s
  | .brk => Sys2Proof.Machine.execBrk s
  | .cpoint => Sys2Proof.Machine.execCpoint s
  | .csrr o => Sys2Proof.Machine.execCsrr o s
  | .csrw o => Sys2Proof.Machine.execCsrw o s
  | .csrs o => Sys2Proof.Machine.execCsrs o s
  | .csrc o => Sys2Proof.Machine.execCsrc o s
  | .csrx o => Sys2Proof.Machine.execCsrx o s
  | .wfe => Sys2Proof.Machine.execWfe s
  | .sev o => Sys2Proof.Machine.execSev o s
  | .wfet o => Sys2Proof.Machine.execWfet o s
  | .exit => Sys2Proof.Machine.execExit s
  | .exitc o => Sys2Proof.Machine.execExitc o s
  | .add o => Sys2Proof.Machine.execAdd o s
  | .sub o => Sys2Proof.Machine.execSub o s
  | .and o => Sys2Proof.Machine.execAnd o s
  | .or o => Sys2Proof.Machine.execOr o s
  | .xor o => Sys2Proof.Machine.execXor o s
  | .shl o => Sys2Proof.Machine.execShl o s
  | .shr o => Sys2Proof.Machine.execShr o s
  | .sra o => Sys2Proof.Machine.execSra o s
  | .mul o => Sys2Proof.Machine.execMul o s
  | .mulh o => Sys2Proof.Machine.execMulh o s
  | .mulhn o => Sys2Proof.Machine.execMulhn o s
  | .div o => Sys2Proof.Machine.execDiv o s
  | .divn o => Sys2Proof.Machine.execDivn o s
  | .rem o => Sys2Proof.Machine.execRem o s
  | .remn o => Sys2Proof.Machine.execRemn o s
  | .andn o => Sys2Proof.Machine.execAndn o s
  | .addi o => Sys2Proof.Machine.execAddi o s
  | .andi o => Sys2Proof.Machine.execAndi o s
  | .ori o => Sys2Proof.Machine.execOri o s
  | .xori o => Sys2Proof.Machine.execXori o s
  | .shli o => Sys2Proof.Machine.execShli o s
  | .shri o => Sys2Proof.Machine.execShri o s
  | .srai o => Sys2Proof.Machine.execSrai o s
  | .muli o => Sys2Proof.Machine.execMuli o s
  | .slt o => Sys2Proof.Machine.execSlt o s
  | .sltn o => Sys2Proof.Machine.execSltn o s
  | .seq o => Sys2Proof.Machine.execSeq o s
  | .sne o => Sys2Proof.Machine.execSne o s
  | .min o => Sys2Proof.Machine.execMin o s
  | .max o => Sys2Proof.Machine.execMax o s
  | .minn o => Sys2Proof.Machine.execMinn o s
  | .maxn o => Sys2Proof.Machine.execMaxn o s
  | .clz o => Sys2Proof.Machine.execClz o s
  | .ctz o => Sys2Proof.Machine.execCtz o s
  | .popc o => Sys2Proof.Machine.execPopc o s
  | .sext o => Sys2Proof.Machine.execSext o s
  | .zext o => Sys2Proof.Machine.execZext o s
  | .sel o => Sys2Proof.Machine.execSel o s
  | .madd o => Sys2Proof.Machine.execMadd o s
  | .movi o => Sys2Proof.Machine.execMovi o s
  | .movl o => Sys2Proof.Machine.execMovl o s
  | .fadd o => Sys2Proof.Machine.execFadd o s
  | .fsub o => Sys2Proof.Machine.execFsub o s
  | .fmul o => Sys2Proof.Machine.execFmul o s
  | .fdiv o => Sys2Proof.Machine.execFdiv o s
  | .fsqrt o => Sys2Proof.Machine.execFsqrt o s
  | .fmin o => Sys2Proof.Machine.execFmin o s
  | .fmax o => Sys2Proof.Machine.execFmax o s
  | .feq o => Sys2Proof.Machine.execFeq o s
  | .flt o => Sys2Proof.Machine.execFlt o s
  | .fle o => Sys2Proof.Machine.execFle o s
  | .fcvti o => Sys2Proof.Machine.execFcvti o s
  | .fcvtf o => Sys2Proof.Machine.execFcvtf o s
  | .fcvtw o => Sys2Proof.Machine.execFcvtw o s
  | .ffma o => Sys2Proof.Machine.execFfma o s
  | .vadd o => Sys2Proof.Machine.execVadd o s
  | .vsub o => Sys2Proof.Machine.execVsub o s
  | .vmul o => Sys2Proof.Machine.execVmul o s
  | .vmulh o => Sys2Proof.Machine.execVmulh o s
  | .vand o => Sys2Proof.Machine.execVand o s
  | .vor o => Sys2Proof.Machine.execVor o s
  | .vxor o => Sys2Proof.Machine.execVxor o s
  | .vshl o => Sys2Proof.Machine.execVshl o s
  | .vshr o => Sys2Proof.Machine.execVshr o s
  | .vsra o => Sys2Proof.Machine.execVsra o s
  | .vmin o => Sys2Proof.Machine.execVmin o s
  | .vmax o => Sys2Proof.Machine.execVmax o s
  | .vabs o => Sys2Proof.Machine.execVabs o s
  | .vadds o => Sys2Proof.Machine.execVadds o s
  | .vsubs o => Sys2Proof.Machine.execVsubs o s
  | .vavg o => Sys2Proof.Machine.execVavg o s
  | .vcmpEq o => Sys2Proof.Machine.execVcmpEq o s
  | .vcmpNe o => Sys2Proof.Machine.execVcmpNe o s
  | .vcmpLt o => Sys2Proof.Machine.execVcmpLt o s
  | .vcmpLe o => Sys2Proof.Machine.execVcmpLe o s
  | .vcmpGt o => Sys2Proof.Machine.execVcmpGt o s
  | .vcmpGe o => Sys2Proof.Machine.execVcmpGe o s
  | .vmov o => Sys2Proof.Machine.execVmov o s
  | .vsplat o => Sys2Proof.Machine.execVsplat o s
  | .vext o => Sys2Proof.Machine.execVext o s
  | .vins o => Sys2Proof.Machine.execVins o s
  | .viota o => Sys2Proof.Machine.execViota o s
  | .vsel o => Sys2Proof.Machine.execVsel o s
  | .vperm o => Sys2Proof.Machine.execVperm o s
  | .vslideup o => Sys2Proof.Machine.execVslideup o s
  | .vslidedn o => Sys2Proof.Machine.execVslidedn o s
  | .vredadd o => Sys2Proof.Machine.execVredadd o s
  | .vredmin o => Sys2Proof.Machine.execVredmin o s
  | .vredmax o => Sys2Proof.Machine.execVredmax o s
  | .vcompress o => Sys2Proof.Machine.execVcompress o s
  | .vscan o => Sys2Proof.Machine.execVscan o s
  | .mand o => Sys2Proof.Machine.execMand o s
  | .mor o => Sys2Proof.Machine.execMor o s
  | .mxor o => Sys2Proof.Machine.execMxor o s
  | .mandn o => Sys2Proof.Machine.execMandn o s
  | .mnot o => Sys2Proof.Machine.execMnot o s
  | .mpopc o => Sys2Proof.Machine.execMpopc o s
  | .mfirst o => Sys2Proof.Machine.execMfirst o s
  | .mfrom o => Sys2Proof.Machine.execMfrom o s
  | .mto o => Sys2Proof.Machine.execMto o s
  | .vfadd o => Sys2Proof.Machine.execVfadd o s
  | .vfsub o => Sys2Proof.Machine.execVfsub o s
  | .vfmul o => Sys2Proof.Machine.execVfmul o s
  | .vfdiv o => Sys2Proof.Machine.execVfdiv o s
  | .vfsqrt o => Sys2Proof.Machine.execVfsqrt o s
  | .vfmin o => Sys2Proof.Machine.execVfmin o s
  | .vfmax o => Sys2Proof.Machine.execVfmax o s
  | .vfexp2 o => Sys2Proof.Machine.execVfexp2 o s
  | .vflog2 o => Sys2Proof.Machine.execVflog2 o s
  | .vfrcp o => Sys2Proof.Machine.execVfrcp o s
  | .vfrsq o => Sys2Proof.Machine.execVfrsq o s
  | .vfabs o => Sys2Proof.Machine.execVfabs o s
  | .vfneg o => Sys2Proof.Machine.execVfneg o s
  | .vfma o => Sys2Proof.Machine.execVfma o s
  | .vfms o => Sys2Proof.Machine.execVfms o s
  | .vfnma o => Sys2Proof.Machine.execVfnma o s
  | .vfcmpEq o => Sys2Proof.Machine.execVfcmpEq o s
  | .vfcmpNe o => Sys2Proof.Machine.execVfcmpNe o s
  | .vfcmpLt o => Sys2Proof.Machine.execVfcmpLt o s
  | .vfcmpLe o => Sys2Proof.Machine.execVfcmpLe o s
  | .vfcmpUno o => Sys2Proof.Machine.execVfcmpUno o s
  | .vcvt o => Sys2Proof.Machine.execVcvt o s
  | .vpackb o => Sys2Proof.Machine.execVpackb o s
  | .vunpackb o => Sys2Proof.Machine.execVunpackb o s
  | .ldI8 o => Sys2Proof.Machine.execLdI8 o s
  | .ldN8 o => Sys2Proof.Machine.execLdN8 o s
  | .ldI16 o => Sys2Proof.Machine.execLdI16 o s
  | .ldN16 o => Sys2Proof.Machine.execLdN16 o s
  | .ldI32 o => Sys2Proof.Machine.execLdI32 o s
  | .ldN32 o => Sys2Proof.Machine.execLdN32 o s
  | .ldI64 o => Sys2Proof.Machine.execLdI64 o s
  | .st8 o => Sys2Proof.Machine.execSt8 o s
  | .st16 o => Sys2Proof.Machine.execSt16 o s
  | .st32 o => Sys2Proof.Machine.execSt32 o s
  | .st64 o => Sys2Proof.Machine.execSt64 o s
  | .vld o => Sys2Proof.Machine.execVld o s
  | .vst o => Sys2Proof.Machine.execVst o s
  | .vldf o => Sys2Proof.Machine.execVldf o s
  | .vlds o => Sys2Proof.Machine.execVlds o s
  | .vsts o => Sys2Proof.Machine.execVsts o s
  | .vgath o => Sys2Proof.Machine.execVgath o s
  | .vscat o => Sys2Proof.Machine.execVscat o s
  | .ldsy o => Sys2Proof.Machine.execLdsy o s
  | .ldpk o => Sys2Proof.Machine.execLdpk o s
  | .stsy o => Sys2Proof.Machine.execStsy o s
  | .stfl o => Sys2Proof.Machine.execStfl o s
  | .stem o => Sys2Proof.Machine.execStem o s
  | .ldfe o => Sys2Proof.Machine.execLdfe o s
  | .copy o => Sys2Proof.Machine.execCopy o s
  | .copy2 o => Sys2Proof.Machine.execCopy2 o s
  | .kvgath o => Sys2Proof.Machine.execKvgath o s
  | .pref o => Sys2Proof.Machine.execPref o s
  | .flush o => Sys2Proof.Machine.execFlush o s
  | .invl o => Sys2Proof.Machine.execInvl o s
  | .pin o => Sys2Proof.Machine.execPin o s
  | .unpin o => Sys2Proof.Machine.execUnpin o s
  | .amoAdd o => Sys2Proof.Machine.execAmoAdd o s
  | .amoAnd o => Sys2Proof.Machine.execAmoAnd o s
  | .amoOr o => Sys2Proof.Machine.execAmoOr o s
  | .amoXor o => Sys2Proof.Machine.execAmoXor o s
  | .amoMin o => Sys2Proof.Machine.execAmoMin o s
  | .amoMax o => Sys2Proof.Machine.execAmoMax o s
  | .amoMinn o => Sys2Proof.Machine.execAmoMinn o s
  | .amoMaxn o => Sys2Proof.Machine.execAmoMaxn o s
  | .amoSwap o => Sys2Proof.Machine.execAmoSwap o s
  | .amoFadd o => Sys2Proof.Machine.execAmoFadd o s
  | .cas o => Sys2Proof.Machine.execCas o s
  | .redAdd o => Sys2Proof.Machine.execRedAdd o s
  | .redFadd o => Sys2Proof.Machine.execRedFadd o s
  | .redMin o => Sys2Proof.Machine.execRedMin o s
  | .redMax o => Sys2Proof.Machine.execRedMax o s
  | .redOr o => Sys2Proof.Machine.execRedOr o s
  | .fence o => Sys2Proof.Machine.execFence o s
  | .fenceAcq o => Sys2Proof.Machine.execFenceAcq o s
  | .fenceRel o => Sys2Proof.Machine.execFenceRel o s
  | .fenceSc o => Sys2Proof.Machine.execFenceSc o s
  | .ldacq o => Sys2Proof.Machine.execLdacq o s
  | .strel o => Sys2Proof.Machine.execStrel o s
  | .finc o => Sys2Proof.Machine.execFinc o s
  | .fdec o => Sys2Proof.Machine.execFdec o s
  | .fcan o => Sys2Proof.Machine.execFcan o s
  | .fpeek o => Sys2Proof.Machine.execFpeek o s
  | .fcfg o => Sys2Proof.Machine.execFcfg o s
  | .join o => Sys2Proof.Machine.execJoin o s
  | .leave o => Sys2Proof.Machine.execLeave o s
  | .gbar o => Sys2Proof.Machine.execGbar o s
  | .barw o => Sys2Proof.Machine.execBarw o s
  | .tagpub o => Sys2Proof.Machine.execTagpub o s
  | .tagwait o => Sys2Proof.Machine.execTagwait o s
  | .tagqry o => Sys2Proof.Machine.execTagqry o s
  | .tagret o => Sys2Proof.Machine.execTagret o s
  | .spawn o => Sys2Proof.Machine.execSpawn o s
  | .fsopen o => Sys2Proof.Machine.execFsopen o s
  | .fsclose o => Sys2Proof.Machine.execFsclose o s
  | .fswait o => Sys2Proof.Machine.execFswait o s
  | .gpost o => Sys2Proof.Machine.execGpost o s
  | .gstat o => Sys2Proof.Machine.execGstat o s
  | .mma o => Sys2Proof.Machine.execMma o s
  | .epiw o => Sys2Proof.Machine.execEpiw o s
  | .epid => Sys2Proof.Machine.execEpid s
  | .spdz o => Sys2Proof.Machine.execSpdz o s
  | .eret => Sys2Proof.Machine.execEret s
  | .spill o => Sys2Proof.Machine.execSpill o s
  | .refill o => Sys2Proof.Machine.execRefill o s
  | .slotkill o => Sys2Proof.Machine.execSlotkill o s
  | .tlbinv o => Sys2Proof.Machine.execTlbinv o s
  | .queueMessage m => Sys2Proof.Machine.execQueueMessage m s
  | .packetCheck p => Sys2Proof.Machine.execPacketCheck p s
  | .completionRecordWrite part => Sys2Proof.Machine.execCompletionRecordWrite part s
  | .recordTransportFailure part => Sys2Proof.Machine.execRecordTransportFailure part s
  | .rmaWrite r => Sys2Proof.Machine.execRmaWrite r s
  | .rmaRead r => Sys2Proof.Machine.execRmaRead r s
  | .qset part => Sys2Proof.Machine.execQset part s
  | .fring part => Sys2Proof.Machine.execFring part s
  | .foffer part => Sys2Proof.Machine.execFoffer part s
  | .faccept part => Sys2Proof.Machine.execFaccept part s
  | .sresume part => Sys2Proof.Machine.execSresume part s
  | .slaunch part => Sys2Proof.Machine.execSlaunch part s
  | .slaunchReply part => Sys2Proof.Machine.execSlaunchReply part s
  | .releaseTimeReached die launch => Sys2Proof.Machine.execReleaseTimeReached die launch s
  | .timeStep delta => Sys2Proof.Machine.execTimeStep delta s
  | .ptpHoldover => Sys2Proof.Machine.execPtpHoldover s
  | .nunatakPlacement die => Sys2Proof.Machine.execNunatakPlacement die s
  | .dispatch die entry => Sys2Proof.Machine.execDispatch die entry s
  | .clearComplete r => Sys2Proof.Machine.execClearComplete r s
  | .icacheFill r => Sys2Proof.Machine.execIcacheFill r s
  | .issueIntervalEnd r => Sys2Proof.Machine.execIssueIntervalEnd r s
  | .branchPenaltyEnd r => Sys2Proof.Machine.execBranchPenaltyEnd r s
  | .completionDelivery d => Sys2Proof.Machine.execCompletionDelivery d s
  | .storeAccepted o => Sys2Proof.Machine.execStoreAccepted o s
  | .pageWalk r => Sys2Proof.Machine.execPageWalk r s
  | .pushApply idx => Sys2Proof.Machine.execPushApply idx s
  | .atomicAtHome o => Sys2Proof.Machine.execAtomicAtHome o s
  | .redApply o => Sys2Proof.Machine.execRedApply o s
  | .bankSyncRequest o => Sys2Proof.Machine.execBankSyncRequest o s
  | .cancellationDelivery group member => Sys2Proof.Machine.execCancellationDelivery group member s
  | .cancellationTaken r => Sys2Proof.Machine.execCancellationTaken r s
  | .sevDelivery o => Sys2Proof.Machine.execSevDelivery o s
  | .wfetTimeout r => Sys2Proof.Machine.execWfetTimeout r s
  | .slotFree r => Sys2Proof.Machine.execSlotFree r s
  | .copyJobStart cluster => Sys2Proof.Machine.execCopyJobStart cluster s
  | .copySectorMove cluster sector => Sys2Proof.Machine.execCopySectorMove cluster sector s
  | .copyTokenFill cluster => Sys2Proof.Machine.execCopyTokenFill cluster s
  | .mmaJobStart cluster => Sys2Proof.Machine.execMmaJobStart cluster s
  | .mmaComputeEnd cluster => Sys2Proof.Machine.execMmaComputeEnd cluster s
  | .drainRow cluster => Sys2Proof.Machine.execDrainRow cluster s
  | .epilogueTimeout cluster => Sys2Proof.Machine.execEpilogueTimeout cluster s
  | .mmaTokenFill cluster => Sys2Proof.Machine.execMmaTokenFill cluster s
  | .firnPlaneAdmission o => Sys2Proof.Machine.execFirnPlaneAdmission o s
  | .balancerStep die id => Sys2Proof.Machine.execBalancerStep die id s
  | .firnExitStage die id => Sys2Proof.Machine.execFirnExitStage die id s
  | .fcfgApply die id => Sys2Proof.Machine.execFcfgApply die id s
  | .barwArrivalCounted o => Sys2Proof.Machine.execBarwArrivalCounted o s
  | .barwTimeout o => Sys2Proof.Machine.execBarwTimeout o s
  | .tagHomeRequest o => Sys2Proof.Machine.execTagHomeRequest o s
  | .scopeUnitChange idx => Sys2Proof.Machine.execScopeUnitChange idx s
  | .cirquePost o => Sys2Proof.Machine.execCirquePost o s
  | .cirqueMemberEnd idx => Sys2Proof.Machine.execCirqueMemberEnd idx s
  | .spillStart core => Sys2Proof.Machine.execSpillStart core s
  | .spillComplete core => Sys2Proof.Machine.execSpillComplete core s
  | .refillStart core => Sys2Proof.Machine.execRefillStart core s
  | .refillComplete core => Sys2Proof.Machine.execRefillComplete core s
  | .slotkillArrival core => Sys2Proof.Machine.execSlotkillArrival core s
  | .calvingCompletionLatch idx => Sys2Proof.Machine.execCalvingCompletionLatch idx s
  | .bjoinWrite e => Sys2Proof.Machine.execBjoinWrite e s
  | .evtWrite e => Sys2Proof.Machine.execEvtWrite e s
  | .lcWrite e => Sys2Proof.Machine.execLcWrite e s
  | .lsLeWrite e => Sys2Proof.Machine.execLsLeWrite e s
  | .frmWrite e => Sys2Proof.Machine.execFrmWrite e s
  | .sfmtWrite e => Sys2Proof.Machine.execSfmtWrite e s
  | .csrRegisterWrite e => Sys2Proof.Machine.execCsrRegisterWrite e s
  | .partitionCsrPropagation part => Sys2Proof.Machine.execPartitionCsrPropagation part s
  | .scrub die => Sys2Proof.Machine.execScrub die s
  | .uncorrectableError loc => Sys2Proof.Machine.execUncorrectableError loc s
  | .stateErrorPartitionStop unit part => Sys2Proof.Machine.execStateErrorPartitionStop unit part s
  | .health q => Sys2Proof.Machine.execHealth q s
  | .wdog q => Sys2Proof.Machine.execWdog q s
  | .freeze q => Sys2Proof.Machine.execFreeze q s
  | .readout q => Sys2Proof.Machine.execReadout q s
  | .resume q => Sys2Proof.Machine.execResume q s
  | .sidebandSlotkill q => Sys2Proof.Machine.execSidebandSlotkill q s
  | .partreset q => Sys2Proof.Machine.execPartreset q s
  | .diereset q => Sys2Proof.Machine.execDiereset q s
  | .pkgreset q => Sys2Proof.Machine.execPkgreset q s
  | .fwload q => Sys2Proof.Machine.execFwload q s
  | .nunrestart q => Sys2Proof.Machine.execNunrestart q s
  | .partcfgConfigure q => Sys2Proof.Machine.execPartcfgConfigure q s
  | .partcfgRemove q => Sys2Proof.Machine.execPartcfgRemove q s
  | .partcfgSramSplit q => Sys2Proof.Machine.execPartcfgSramSplit q s
  | .attest q => Sys2Proof.Machine.execAttest q s
  | .powerUpBoot flashOk => Sys2Proof.Machine.execPowerUpBoot flashOk s
  | .nunatakHeartbeatWatchdog die => Sys2Proof.Machine.execNunatakHeartbeatWatchdog die s
  | .dieProgressWatchdog die => Sys2Proof.Machine.execDieProgressWatchdog die s
  | .seracCoreWatchdog core => Sys2Proof.Machine.execSeracCoreWatchdog core s
  | .thermalThrottle => Sys2Proof.Machine.execThermalThrottle s
  | .undervoltagePowerOff => Sys2Proof.Machine.execUndervoltagePowerOff s
  | .overvoltageDisconnect => Sys2Proof.Machine.execOvervoltageDisconnect s
  | .limitsRestored => Sys2Proof.Machine.execLimitsRestored s
  | .illegalEncoding word => Sys2Proof.Machine.execIllegalEncoding word s
  | .fetchFault cause => Sys2Proof.Machine.execFetchFault cause s
  | .ptpLock offset => Sys2Proof.Machine.execPtpLock offset s
  | .transportPacketDrop => Sys2Proof.Machine.execTransportPacketDrop s
  | .controlUnknownCmd part => Sys2Proof.Machine.execControlUnknownCmd part s
  | .sidebandUnknownCmd q => Sys2Proof.Machine.execSidebandUnknownCmd q s
  | .arithmeticClockRaise => Sys2Proof.Machine.execArithmeticClockRaise s

end Sys2Proof.Machine
end

