-- ==== Sys2Proof/Machine/Moves.lean ====
section
/-! DEFINITION. The moves that are no row of the opcode table: a cycle, TIME, a core's turn, replacement in L2 and TLBs;
and which instructions are events. -/
namespace Sys2Proof.Machine

/-- The rows of the opcode table that are events: they have no encoding. -/
def isEvent (i : Instr) : Bool := (encodeEnc i).isNone

/-- The events that may come about by themselves: all but those that an instruction's own step, or a turn, brings about
(CSR writes, illegal encodings, fetch faults). -/
def isFreeEvent (i : Instr) : Bool :=
  isEvent i && (match i with
    | .bjoinWrite _ | .evtWrite _ | .lcWrite _ | .lsLeWrite _ | .frmWrite _ | .sfmtWrite _ | .csrRegisterWrite _
    | .illegalEncoding _ | .fetchFault _ => false
    | _ => true)

namespace State

/-- A die has accepted launches and an Active slot, and so is expected to issue (R362). -/
def dieBusy (s : State) (d : Nat) : Bool :=
  !(s.dieAt d).launches.isEmpty && s.slots.any fun e => e.1 / 4096 == d && e.2.run == .active
/-- One cycle passes on every die whose clocks run (R90, R359), and the writes of the slots whose intervals end with it land (R91, R96,
R120); the progress watchdog counts from the last cycle in which the die
issued or had nothing to issue (R362). -/
def tick (s : State) : State :=
  landAll <| [0, 1, 2, 3].foldl (fun s d =>
    if s.live d then s.modDie d fun D => { D with
      cycle := D.cycle + 1, lastIssue := if s.dieBusy d then D.lastIssue else D.cycle + 1 }
    else s) { s with ticks := s.ticks + 1 }
/-- The Nunatak of a die writes its heartbeat (R362). -/
def beat (s : State) (d : Nat) : State := if s.live d then s.modDie d fun D => { D with lastBeat := D.cycle } else s

/-- TIME counts n nanoseconds; it never stops during a freeze (R356). -/
def nanos (s : State) (n : Nat) : State := { s with time := (s.time + n) % 2 ^ 64 }

/-- A line leaves a die's L2, unless it is a retained one that may not (R147), or the die's clocks stand (R359). -/
def evict (s : State) (d key : Nat) : State := if s.live d && s.mayEvict d key then s.evictLine d key else s

/-- A core's TLB replaces its entry for a page (R148). -/
def tlbDrop (s : State) (c page : Nat) : State :=
  if s.live (coreDie c) then s.modCore c fun C => { C with tlb := C.tlb.filter fun e => e.page != page } else s
/-- A cluster's TLB replaces its entry for a page (R148). -/
def clusterTlbDrop (s : State) (k page : Nat) : State :=
  if s.live (k / 32) then s.modCluster k fun K => { K with tlb := K.tlb.filter fun e => e.page != page } else s
/-- A die's walker cache replaces its entries for an address path of a level (R148). -/
def walkDrop (s : State) (d level path : Nat) : State :=
  if s.live d then s.modDie d fun D => { D with walkCache := D.walkCache.filter fun e => !(e.2.1 == level && e.2.2.1 == path) } else s
/-- A write of a g register lands within its slot's interval (R94), unless the clocks stand. -/
def landEarly (s : State) (c p k : Nat) : State := if s.live (coreDie c) then s.landG c p k else s

/-- A core's turn in its die's present cycle: which slot has it and what that slot is to run (R42, R88, R90). A core uses
one turn a cycle; a PC that is not a multiple of 4 is never fetched and traps with cause 4 (R68, R334). -/
def turnOf (s : State) (c : Nat) : State × Option Turn :=
  if !(s.live (coreDie c)) || (s.coreAt c).lastTurn == s.cycleOf c + 1 then (s, none)
  else
    let s := (s.landCore c).stallFetch c
    match s.turnSlot c with
    | none => (s, none)
    | some n =>
      let r : SlotRef := ⟨c, n⟩
      let pc := (s.slotAt r).pc
      if pc.toNat % 4 ≠ 0 then (s.beginTurn r, some (.trap 4 pc))
      else
        let f := s.fetch r
        (s.beginTurn r, some (decodeTurn pc f))

end State
end Sys2Proof.Machine
end

