-- ==== Sys2Proof/Machine/Step.lean ====
section
/-! DEFINITION. One step of the machine: the next move of its agenda, or a free one (log 1). -/
namespace Sys2Proof.Machine

/-- A core's issue turn: the slot chosen by R42 runs what it has fetched and decoded; no slot, no effect. -/
def turnStep (c : Nat) (s : State) : Host.Outcome State Fault Refusal :=
  match s.turnOf c with
  | (s, none) => .next s
  | (s, some (.run i)) => Sys2Proof.Machine.exec i s
  | (s, some (.illegal w)) => Sys2Proof.Machine.execIllegalEncoding w s
  | (s, some (.fetchFault f)) => Sys2Proof.Machine.execFetchFault f s
  | (s, some (.trap cause tval)) => .next (s.trap cause tval)

/-- One move. -/
def moveStep (m : Move) (s : State) : Host.Outcome State Fault Refusal :=
  match m with
  | .turn c => turnStep c s
  | .event i => if isFreeEvent i then Sys2Proof.Machine.exec i s else .next s
  | .tick => .next s.tick
  | .nanos n => .next (s.nanos n)
  | .evict d k => .next (s.evict d k)
  | .tlbDrop c p => .next (s.tlbDrop c p)
  | .clusterTlbDrop k p => .next (s.clusterTlbDrop k p)
  | .walkDrop d l x => .next (s.walkDrop d l x)
  | .mmaRead k x => .next (s.mmaRead k x)
  | .mmaWrite k => .next (s.mmaWrite k)
  | .beat d => .next (s.beat d)
  | .landG c p k => .next (s.landEarly c p k)
  | .fetchAhead c n va => .next (s.fetchAhead ⟨c, n⟩ va)

/-- One step: the head of the agenda, or the next free move. -/
def step (s : State) : Host.Outcome State Fault Refusal :=
  match s.agenda with
  | m :: rest => moveStep m { s with agenda := rest }
  | [] => moveStep (Config.freeMove s.draws) { s with draws := s.draws + 1 }

/-- The state in which the next step fetches and runs the instruction whose bits are `w`. -/
def State.withFetchWord (s : State) (nbits w : Nat) : State := s.placeBlock (leBytes 16 (w % 2 ^ nbits) ++ leBytes 16 0)

end Sys2Proof.Machine
end

