-- ==== Sys2Proof/Safety.lean ====
section
/-! DEFINITION. What counts as a safe run in this model, no step of which stops, and the vocabulary of the statements. -/
namespace Sys2Proof

/-- The machine goes on for n steps from s. -/
def Safe (n : Nat) (s : Machine.State) : Prop := ∃ t, core.run n s = .next t

/-- One outcome is a next state. -/
def goesOn {α φ ρ : Type} : Host.Outcome α φ ρ → Bool
  | .next _ => true
  | _ => false

end Sys2Proof

/-! # The vocabulary of the statements: what an instruction may rely on to complete, what it writes, and what it leaves
alone. -/
namespace Sys2Proof.Claims
open Sys2Proof Sys2Proof.Machine

/-! ## Vocabulary -/

/-- A source is no obstacle to issue: read with peek, or full, not poisoned, its parity good, and not faulted while
TRAPASYNC is set (R79, R312, R326). -/
abbrev Usable (s : State) (x : Src) : Prop :=
  State.srcMd x = .peek ∨ (s.srcFull x = true ∧ s.srcMark x ≠ .poisoned ∧ s.srcParity x = false
    ∧ (s.srcMark x = .faulted → s.here.mode.trapAsync = false))

/-- The running slot is Active and every source of its instruction is usable. -/
abbrev CanIssue (xs : List Src) (s : State) : Prop := s.here.run = .active ∧ ∀ x ∈ xs, Usable s x

/-- No cancellation is due at a cancellation point of the running slot (R321, R322). -/
abbrev NoCancel (s : State) : Prop := s.here.mode.cpend = false ∨ s.here.mode.priv = true

/-- What an instruction does when it completes, as its rule gives it: its sources in field order; the scalar, vector and
mask register it writes; the flags it raises; the registers that now wait for delivery `s.nextId`; the operation of that
number it has outstanding; the wait it parks in; its interval and its length; what else it does to its own slot and to the
package. `gives` is a register that is emptied and filled in the same step, for every slot that sees it (R79, R94). -/
structure Effect where
  srcs : List Src := []
  ws : Option (SField × Word) := none
  gives : Option (SField × Word) := none
  wv : List (VField × VWord) := []
  wm : Option (MField × MWord) := none
  fl : Fl := 0
  awaits : List Dest := []
  numbered : Bool := false
  pend : Option Pend := none
  park : Option Wait := none
  n : Nat := 8
  len : Nat := 8
  slot : Slot → Slot := id
  also : State → State := id

/-- A scalar register is read with consume. -/
def takesS (xs : List Src) (f : Nat) : Bool := xs.any fun x => match x with
  | .s g .consume => g.val == f
  | _ => false
/-- A vector register is read with consume. -/
def takesV (xs : List Src) (f : Nat) : Bool := xs.any fun x => match x with
  | .v g .consume => g.val == f
  | _ => false

/-- Scalar register f of the running slot after the instruction: s0 never changes; a consumed source is empty and keeps its
value; a written register is full and unmarked; a register that waits is empty and keeps its value (R79, R91, R94, R97). -/
def sAfter (e : Effect) (s : State) (f : Nat) : Reg 64 :=
  let x := s.sreg s.cur f
  if f = 0 then x
  else
    let x := if takesS e.srcs f then { x with full := false } else x
    let x := match e.ws with
      | some (d, v) => if d.val = f then ⟨v, true, .none, none, false⟩ else x
      | none => x
    let x := match e.gives with
      | some (d, v) => if d.val = f then ⟨v, true, .none, none, false⟩ else x
      | none => x
    if e.awaits.contains (.s f) then { x with full := false, await := some s.nextId } else x
/-- Vector register f of the running slot after the instruction. -/
def vAfter (e : Effect) (s : State) (f : Nat) : Reg 2048 :=
  let x := s.vreg s.cur f
  let x := if takesV e.srcs f then { x with full := false } else x
  let x := match e.wv.find? fun w => w.1.val == f with
    | some w => ⟨w.2, true, .none, none, false⟩
    | none => x
  if e.awaits.contains (.v f) then { x with full := false, await := some s.nextId } else x
/-- Mask register f after the instruction; a write to m0 is discarded (R97). -/
def mAfter (e : Effect) (s : State) (f : MField) : MWord :=
  match e.wm with
  | some (d, v) => if d = f ∧ f.val ≠ 0 then v else s.rdm f
  | none => s.rdm f

/-- The mask registers whose parity fails after the instruction: one that is written is sound (R325, R326). -/
def pAfter (e : Effect) (s : State) : List Nat :=
  match e.wm with
  | some (d, _) => if d.val = 0 then s.here.mparity else s.here.mparity.filter fun k => k != d.val
  | none => s.here.mparity

/-- Where a slot goes from an instruction of `len` bytes (R91, R101, R112): at the end of an active loop's body back to LS
with LC one less, or on with LC 0 in the last pass; else to the next instruction. -/
def Follows (old new : Slot) (len : Nat) : Prop :=
  if old.lc ≠ 0 ∧ old.pc + BitVec.ofNat 64 len = old.le ∧ old.mode.priv = old.loopMode then
    if old.lc = 1 then new.lc = 0 ∧ new.pc = old.le ∧ new.run = .active
    else new.lc = old.lc - 1 ∧ new.pc = old.ls
      ∧ new.run = (if old.mode.cpend = true ∧ old.mode.priv = false then .cancelDue old.ls else .active)
  else new.lc = old.lc ∧ new.pc = old.pc + BitVec.ofNat 64 len ∧ new.run = .active

/-- Slot r is parked on empty registers of which g register f was the last that was empty, so that it wakes where the running slot's
instruction fills that one (R79, R93). -/
abbrev Wakes (s t : State) (f : SField) (r : SlotRef) : Prop :=
  32 ≤ f.val ∧ r.core = s.cur.core ∧ s.ownerOf r.slot = s.ownerOf s.cur.slot
    ∧ ∃ on, (s.slotAt r).run = .parked (.operand on) ∧ on.all (t.isFull r) = true
/-- The slots and the registers after an instruction that had effect `e` in state s: its registers as its own slot reads them, what
the other slots read in a g register that it only writes (the old value, until the write lands within the interval: R91, R94;
log 79) and in one that it empties and fills (the new value, which wakes those parked on it), its slot, the other slots, and the
cores' shares of the partitions. -/
structure Ran (e : Effect) (s t : State) : Prop where
  scalars : ∀ f, t.sreg s.cur f = sAfter e s f
  vectors : ∀ f, t.vreg s.cur f = vAfter e s f
  masks : ∀ f : MField, t.rdm f = mAfter e s f
  parities : t.here.mparity = pAfter e s
  unseen : ∀ r f, r.slot < 16 → slotKey r ≠ slotKey s.cur → takesS e.srcs f = false → e.awaits.contains (.s f) = false →
    (∀ d v, e.gives = some (d, v) → d.val ≠ f) → t.sreg r f = { s.sreg r f with await := (t.sreg r f).await }
  seen : ∀ d v r, e.gives = some (d, v) → 32 ≤ d.val → r.slot < 16 → r.core = s.cur.core → s.ownerOf r.slot = s.ownerOf s.cur.slot →
    t.sreg r d.val = ⟨v, true, .none, none, false⟩
  slot : t.here = { (e.slot s.here) with
    sregs := t.here.sregs, vregs := t.here.vregs, mregs := t.here.mregs, mparity := t.here.mparity
    fflags := s.here.fflags ||| e.fl, turns := s.here.turns + 1
    interval := some (s.cycleOf s.cur.core + e.n), walkFault := none, walked := []
    pend := s.here.pend ++ e.pend.toList, lc := t.here.lc, pc := t.here.pc, run := t.here.run }
  goes : match e.park with
    | some w => t.here.lc = s.here.lc ∧ t.here.pc = s.here.pc ∧ t.here.run = .parked w
    | none => Follows s.here t.here e.len
  others : ∀ r, r.slot < 16 → slotKey r ≠ slotKey s.cur →
    (t.slotAt r = s.slotAt r ∧ ∀ d v, e.gives = some (d, v) → ¬ Wakes s t d r)
    ∨ (t.slotAt r = { s.slotAt r with run := .active } ∧ ∃ d v, e.gives = some (d, v) ∧ Wakes s t d r)
  shares : ∀ c p, p < 4 → t.cpAt c p = { s.cpAt c p with gregs := (t.cpAt c p).gregs, gwrites := (t.cpAt c p).gwrites }
    ∧ ((c, p) ≠ (s.cur.core, s.herePart) → t.cpAt c p = s.cpAt c p)
/-- The whole package after an instruction that had effect `e` in state s: the slots and registers as `Ran` has them, the dies, and
everything else (memory, caches, queues, engines, tables, outputs), which stays as it is but for `e.also`. -/
structure Completed (e : Effect) (s t : State) : Prop where
  ran : Ran e s t
  dies : ∀ d, t.dieAt d = if d = coreDie s.cur.core then { s.dieAt d with lastIssue := s.cycleOf s.cur.core } else s.dieAt d
  rest : t = { (e.also s) with
    slots := t.slots, coreParts := t.coreParts, dies := t.dies
    nextId := if e.numbered then s.nextId + 1 else s.nextId }

/-- Instruction i completes in state s with effect e. -/
def Does (i : Instr) (s : State) (e : Effect) : Prop := ∃ t, exec i s = .next t ∧ Completed e s t

/-! ## Scalar integer instructions (R125 to R130) -/

/-- D, A, B. -/
def rrr (o : RRR) (n : Nat) (v : Word) : Effect := { srcs := [.s o.a o.am, .s o.b o.bm], ws := some (o.d, v), n := n }
/-- D, A, immediate. -/
def rri (o : RRI) (v : Word) : Effect := { srcs := [.s o.a o.am], ws := some (o.d, v) }
/-- D, A, shift. -/
def rrsh (o : RRSh) (v : Word) : Effect := { srcs := [.s o.a o.am], ws := some (o.d, v) }
/-- D, A, width. -/
def rrw (o : RRW) (v : Word) : Effect := { srcs := [.s o.a o.am], ws := some (o.d, v) }
/-- D, A. -/
def rr (o : RRO) (v : Word) : Effect := { srcs := [.s o.a o.am], ws := some (o.d, v) }
/-- D, A, B, C in 12 bytes. -/
def rrrr (o : RRRR) (v : Word) : Effect :=
  { srcs := [.s o.a o.am, .s o.b o.bm, .s o.c o.cm], ws := some (o.d, v), len := 12 }

/-- The effects of the integer instructions with sources D, A, B (R125, R126, R128): 64-bit results mod 2^64, shift counts
mod 64, high halves of the 128-bit products, quotients toward zero, an interval of 32 for the divisions (R90). -/
def intRegs (s : State) : Instr → Option Effect
  | .add o => some (rrr o 8 (s.rd o.a + s.rd o.b))
  | .sub o => some (rrr o 8 (s.rd o.a - s.rd o.b))
  | .and o => some (rrr o 8 (s.rd o.a &&& s.rd o.b))
  | .or o => some (rrr o 8 (s.rd o.a ||| s.rd o.b))
  | .xor o => some (rrr o 8 (s.rd o.a ^^^ s.rd o.b))
  | .andn o => some (rrr o 8 (s.rd o.a &&& ~~~(s.rd o.b)))
  | .shl o => some (rrr o 8 (s.rd o.a <<< (s.rd o.b % 64)))
  | .shr o => some (rrr o 8 (s.rd o.a >>> (s.rd o.b % 64)))
  | .sra o => some (rrr o 8 ((s.rd o.a).sshiftRight' (s.rd o.b % 64)))
  | .mul o => some (rrr o 8 (s.rd o.a * s.rd o.b))
  | .mulh o => some (rrr o 8 (((s.rd o.a).signExtend 128 * (s.rd o.b).signExtend 128).extractLsb' 64 64))
  | .mulhn o => some (rrr o 8 (((s.rd o.a).setWidth 128 * (s.rd o.b).setWidth 128).extractLsb' 64 64))
  | .div o => some (rrr o 32 (if s.rd o.b = 0 then -1 else (s.rd o.a).sdiv (s.rd o.b)))
  | .divn o => some (rrr o 32 (if s.rd o.b = 0 then -1 else s.rd o.a / s.rd o.b))
  | .rem o => some (rrr o 32 (if s.rd o.b = 0 then s.rd o.a else (s.rd o.a).srem (s.rd o.b)))
  | .remn o => some (rrr o 32 (if s.rd o.b = 0 then s.rd o.a else s.rd o.a % s.rd o.b))
  | .slt o => some (rrr o 8 (if (s.rd o.a).toInt < (s.rd o.b).toInt then 1 else 0))
  | .sltn o => some (rrr o 8 (if (s.rd o.a).toNat < (s.rd o.b).toNat then 1 else 0))
  | .seq o => some (rrr o 8 (if s.rd o.a = s.rd o.b then 1 else 0))
  | .sne o => some (rrr o 8 (if s.rd o.a = s.rd o.b then 0 else 1))
  | .min o => some (rrr o 8 (if (s.rd o.a).toInt ≤ (s.rd o.b).toInt then s.rd o.a else s.rd o.b))
  | .max o => some (rrr o 8 (if (s.rd o.a).toInt ≤ (s.rd o.b).toInt then s.rd o.b else s.rd o.a))
  | .minn o => some (rrr o 8 (if (s.rd o.a).toNat ≤ (s.rd o.b).toNat then s.rd o.a else s.rd o.b))
  | .maxn o => some (rrr o 8 (if (s.rd o.a).toNat ≤ (s.rd o.b).toNat then s.rd o.b else s.rd o.a))
  | _ => none

/-- The effects of the other integer instructions (R127 to R130): immediates sign-extended, 64 for the zero count of zero,
field extension from the low w bits, select and multiply-add in format W, the moves of immediates, the NOPs (R108). -/
def intOthers (s : State) : Instr → Option Effect
  | .addi o => some (rri o (s.rd o.a + o.imm.signExtend 64))
  | .andi o => some (rri o (s.rd o.a &&& o.imm.signExtend 64))
  | .ori o => some (rri o (s.rd o.a ||| o.imm.signExtend 64))
  | .xori o => some (rri o (s.rd o.a ^^^ o.imm.signExtend 64))
  | .muli o => some (rri o (s.rd o.a * o.imm.signExtend 64))
  | .shli o => some (rrsh o (s.rd o.a <<< o.sh))
  | .shri o => some (rrsh o (s.rd o.a >>> o.sh))
  | .srai o => some (rrsh o ((s.rd o.a).sshiftRight' o.sh))
  | .clz o => some (rr o (s.rd o.a).clz)
  | .ctz o => some (rr o (s.rd o.a).reverse.clz)
  | .popc o => some (rr o (BitVec.ofNat 64 ((List.range 64).countP fun i => (s.rd o.a).getLsbD i)))
  | .sext o => some (rrw o (((s.rd o.a).setWidth o.w.toNat).signExtend 64))
  | .zext o => some (rrw o (((s.rd o.a).setWidth o.w.toNat).setWidth 64))
  | .sel o => some (rrrr o (if s.rd o.c = 0 then s.rd o.b else s.rd o.a))
  | .madd o => some (rrrr o (s.rd o.a * s.rd o.b + s.rd o.c))
  | .movi o => some { ws := some (o.d, o.imm.signExtend 64), len := 12 }
  | .movl o => some { ws := some (o.d, o.imm), len := 16 }
  | .nop8 => some {}
  | .nop12 => some { len := 12 }
  | .nop16 => some { len := 16 }
  | _ => none

/-! ## Scalar floating point (R131 to R133) -/

/-- A floating result and its flags. -/
def fp (xs : List Src) (d : SField) (r : Nat × Fl) (n len : Nat) : Effect :=
  { srcs := xs, ws := some (d, BitVec.ofNat 64 r.1), fl := r.2, n := n, len := len }
/-- Two sources in the format H names and the mode in force. -/
def fpTwo (s : State) (o : FP2) (n : Nat) (f : FpFmt → Rm → Nat → Nat → Nat × Fl) : Effect :=
  fp [.s o.a o.am, .s o.b o.bm] o.d (f (fpOf o.dbl) (s.rmNow o.rm) (fpArg o.dbl (s.rd o.a)) (fpArg o.dbl (s.rd o.b))) n 8

/-- The effects of the scalar floating-point instructions. -/
def fpRegs (s : State) : Instr → Option Effect
  | .fadd o => some (fpTwo s o 8 fpAdd)
  | .fsub o => some (fpTwo s o 8 fpSub)
  | .fmul o => some (fpTwo s o 8 fpMul)
  | .fdiv o => some (fpTwo s o 32 fpDiv)
  | .fmin o => some (fpTwo s o 8 fun f _ a b => fpMinMax f false a b)
  | .fmax o => some (fpTwo s o 8 fun f _ a b => fpMinMax f true a b)
  | .feq o => some (fpTwo s o 8 fun f _ a b => ((fpEq f a b).1.toNat, (fpEq f a b).2))
  | .flt o => some (fpTwo s o 8 fun f _ a b => ((fpLt f a b).1.toNat, (fpLt f a b).2))
  | .fle o => some (fpTwo s o 8 fun f _ a b => ((fpLe f a b).1.toNat, (fpLe f a b).2))
  | .fsqrt o => some (fp [.s o.a o.am] o.d (fpSqrt (fpOf o.dbl) (s.rmNow o.rm) (fpArg o.dbl (s.rd o.a))) 32 8)
  | .fcvti o => some (fp [.s o.a o.am] o.d
      (fpToInt (fpOf o.dbl) (s.rmNow o.rm) 64 (!o.u) (fpArg o.dbl (s.rd o.a))) 8 8)
  | .fcvtf o => some (fp [.s o.a o.am] o.d (intToFp (fpOf o.dbl) (s.rmNow o.rm) false 64 (!o.u) (s.rd o.a).toNat) 8 8)
  | .fcvtw o => some (fp [.s o.a o.am] o.d
      (fpConv (fpOf (!o.dbl)) (fpOf o.dbl) (s.rmNow o.rm) false (fpArg (!o.dbl) (s.rd o.a))) 8 8)
  | .ffma o => some (fp [.s o.a o.am, .s o.b o.bm, .s o.c o.cm] o.d (fpFma (fpOf o.dbl) (s.rmNow o.rm) false false
      (fpArg o.dbl (s.rd o.a)) (fpArg o.dbl (s.rd o.b)) (fpArg o.dbl (s.rd o.c))) 8 12)
  | _ => none

/-! ## Exact arithmetic and its rounding (R197, R204, R205) -/

/-- The real number that a finite datum is. -/
noncomputable def realOf : Machine.Num → ℝ
  | .fin neg m e => (if neg then -1 else 1) * (m * (2 : ℝ) ^ e)
  | _ => 0
/-- A datum is finite. -/
def isFin : Machine.Num → Bool
  | .fin _ _ _ => true
  | _ => false
/-- The value that comparisons see: that of a finite datum, or an infinity (R132, R227). -/
noncomputable def valOf : Machine.Num → EReal
  | .inf true => ⊥
  | .inf false => ⊤
  | x => (realOf x : EReal)
/-- k is the integer that mode rm selects for x (R133, R204). -/
def SelectedInt (rm : Rm) (x : ℝ) (k : Int) : Prop :=
  match rm with
  | .rtz => k = if 0 ≤ x then ⌊x⌋ else ⌈x⌉
  | .rup => k = ⌈x⌉
  | .rdn => k = ⌊x⌋
  | .rna => |x - k| ≤ 1 / 2 ∧ (|x - k| = 1 / 2 → |x| < |(k : ℝ)|)
  | _ => |x - k| ≤ 1 / 2 ∧ (|x - k| = 1 / 2 → k % 2 = 0)
/-- The value of an E3M5 scale byte (R200). -/
noncomputable def scaleOf (b : Nat) : ℝ :=
  let m : ℝ := (b % 32 : Nat)
  let e : Int := (b / 32 : Nat)
  if e = 0 then (2 : ℝ) ^ (-2 : Int) * (m / 32) else (2 : ℝ) ^ (e - 3) * (1 + m / 32)
/-- The sign bit of a datum. -/
def signOf : Machine.Num → Bool
  | .fin neg _ _ => neg
  | .inf neg => neg
  | .nan _ => false
/-- The least exponent of a format's last place. -/
def lastPlace (f : FpFmt) : Int := 1 - f.bias - f.fbits
/-- y is a magnitude of format f, its range taken as unbounded above, and below unless `low` (R204, R205). -/
def OnGrid (f : FpFmt) (low : Bool) (y : ℝ) : Prop :=
  ∃ (k : Nat) (q : Int), k < 2 ^ (f.fbits + 1) ∧ (low = true → lastPlace f ≤ q) ∧ y = k * (2 : ℝ) ^ q
/-- Such a magnitude has an even last fraction bit. -/
def LastBitEven (f : FpFmt) (low : Bool) (y : ℝ) : Prop :=
  ∃ (k : Nat) (q : Int), k < 2 ^ (f.fbits + 1) ∧ (low = true → lastPlace f ≤ q) ∧ y = k * (2 : ℝ) ^ q ∧ k % 2 = 0
    ∧ (2 ^ f.fbits ≤ k ∨ (low = true ∧ q = lastPlace f))
/-- y is what mode rm selects for x: x itself where f has it, else one of its two neighbours in f (R204). -/
def Selected (f : FpFmt) (low : Bool) (rm : Rm) (x y : ℝ) : Prop :=
  OnGrid f low |y| ∧ (OnGrid f low |x| → y = x) ∧ (¬ OnGrid f low |x| →
    (∀ z : ℝ, OnGrid f low |z| → ¬ (min x y < z ∧ z < max x y))
    ∧ match rm with
      | .rtz => |y| < |x|
      | .rup => x < y
      | .rdn => y < x
      | .rna => ∀ z : ℝ, OnGrid f low |z| → |x - y| ≤ |x - z| ∧ (|x - y| = |x - z| → |z| ≤ |y|)
      | _ => ∀ z : ℝ, OnGrid f low |z| → |x - y| ≤ |x - z| ∧ (|x - y| = |x - z| → z ≠ y → LastBitEven f low |y|))
/-- What stands for an infinite result, with its flag: e4m3 has no infinity, and SAT gives ±448 or ±57,344 (R204). -/
def infinity (f : FpFmt) (sat neg : Bool) : Nat × Fl :=
  if f = fmtE4m3 then (if sat then (f.sgn neg + 0x7E, 0) else (0x7F, NV))
  else if f = fmtE5m2 ∧ sat = true then (f.sgn neg + 0x7B, 0)
  else (f.infBits neg, 0)
/-- r is the result, a code with its flags, that format f delivers in mode rm for the exact result x, which is not 0: the value of
R204 with the flags of R205. `y` is x rounded in f, and `u` is x rounded as if the exponent range were unbounded. -/
def Delivers (f : FpFmt) (rm : Rm) (sat : Bool) (x : ℝ) (r : Nat × Fl) : Prop :=
  ∃ (y u : ℝ) (neg : Bool), Selected f true rm x y ∧ Selected f false rm x u ∧ (neg = true ↔ x < 0) ∧ r.1 < 2 ^ f.width
    ∧ (|y| ≤ realOf (f.decode f.maxBits) →
        isFin (f.decode r.1) = true ∧ signOf (f.decode r.1) = neg ∧ realOf (f.decode r.1) = y
        ∧ (y = x → r.2 = 0)
        ∧ (y ≠ x → |u| < (2 : ℝ) ^ (1 - f.bias) → r.2 = UF ||| NX)
        ∧ (y ≠ x → (2 : ℝ) ^ (1 - f.bias) ≤ |u| → r.2 = NX))
    ∧ (realOf (f.decode f.maxBits) < |y| →
        r = if rm = .rtz ∨ (rm = .rup ∧ neg = true) ∨ (rm = .rdn ∧ neg = false) then (f.sgn neg + f.maxBits, OF ||| NX)
          else ((infinity f sat neg).1, (infinity f sat neg).2 ||| OF ||| NX))

/-! ## Vectors and masks (R211 to R229) -/

/-- A vector with lanes of width w: lane i is f i (R211). -/
def IsLanes (w : Nat) (v : VWord) (f : Nat → Nat) : Prop := ∀ i, i < 2048 / w → lane w v i = f i % 2 ^ w
/-- The vector whose lanes of width w are f. -/
def vecOf (w : Nat) (f : Nat → Nat) : VWord := ofLanes w f

/-- An integer vector result: the lanes that the mask has active get f, the others keep the destination's, which is then a
source read with wait, and the mask a source (R213). -/
def vmerge (s : State) (srcs : List Src) (d : VField) (mk : MField) (w : Nat) (f : Nat → Nat) : Effect :=
  { srcs := srcs ++ (if mk.val = 0 then [] else [.m mk, .v d .wait])
    wv := [(d, vecOf w fun i => if (s.rdm mk).getLsbD i then f i else lane w (s.rdv d) i)] }
/-- Lane i of B: of a vector, or a scalar's low bits (R212). -/
def laneB (s : State) (b : VB) (w i : Nat) : Nat :=
  match b with
  | .v r => lane w (s.rdv r) i
  | .s r => (s.rd r).toNat % 2 ^ w
/-- B read with its modifier. -/
def srcB (b : VB) (m : Md) : Src :=
  match b with
  | .v r => .v r m
  | .s r => .s r m
/-- Two integer lanes by value, the exact result wrapped (R216). -/
def vint (s : State) (o : VI2) (f : Int → Int → Int) : Effect :=
  vmerge s [.v o.a o.am, srcB o.b o.bm] o.d o.mask (tyBits o.ty) fun i =>
    (f (tyVal o.ty (lane (tyBits o.ty) (s.rdv o.a) i)) (tyVal o.ty (laneB s o.b (tyBits o.ty) i)) % 2 ^ tyBits o.ty).toNat
/-- Two integer lanes by their bits. -/
def vbits (s : State) (o : VI2) (f : Nat → Nat → Nat) : Effect :=
  vmerge s [.v o.a o.am, srcB o.b o.bm] o.d o.mask (tyBits o.ty) fun i =>
    f (lane (tyBits o.ty) (s.rdv o.a) i) (laneB s o.b (tyBits o.ty) i)
/-- A value clamped to the range of an integer type. -/
def sat (t : Ty) (v : Int) : Int := max (tyMin t) (min (tyMax t) v)
/-- A comparison of integer lanes by value (R217): inactive lanes give 0. -/
def vrel (s : State) (o : VCmpO) (f : Int → Int → Bool) : Effect :=
  { srcs := [.v o.a o.am, srcB o.b o.bm, .m o.mask]
    wm := some (o.d, ofBits (tyBits o.ty) fun i => (s.rdm o.mask).getLsbD i
      && f (tyVal o.ty (lane (tyBits o.ty) (s.rdv o.a) i)) (tyVal o.ty (laneB s o.b (tyBits o.ty) i))) }

/-- The effects of the integer vector instructions of opcodes 0x40 and 0x42 (R216, R217). -/
def vecInt (s : State) : Instr → Option Effect
  | .vadd o => some (vint s o fun a b => a + b)
  | .vsub o => some (vint s o fun a b => a - b)
  | .vmul o => some (vint s o fun a b => a * b)
  | .vmulh o => some (vint s o fun a b => a * b / 2 ^ tyBits o.ty)
  | .vand o => some (vbits s o fun a b => a &&& b)
  | .vor o => some (vbits s o fun a b => a ||| b)
  | .vxor o => some (vbits s o fun a b => a ^^^ b)
  | .vshl o => some (vbits s o fun a b => a * 2 ^ (b % tyBits o.ty))
  | .vshr o => some (vbits s o fun a b => a / 2 ^ (b % tyBits o.ty))
  | .vsra o => some (vbits s o fun a b => (signedVal (tyBits o.ty) a / 2 ^ (b % tyBits o.ty) % 2 ^ tyBits o.ty).toNat)
  | .vmin o => some (vint s o fun a b => min a b)
  | .vmax o => some (vint s o fun a b => max a b)
  | .vadds o => some (vint s o fun a b => sat o.ty (a + b))
  | .vsubs o => some (vint s o fun a b => sat o.ty (a - b))
  | .vavg o => some (vint s o fun a b => (a + b + 1) / 2)
  | .vabs o => some (vmerge s [.v o.a o.am] o.d o.mask (tyBits o.ty) fun i =>
      (tyVal o.ty (lane (tyBits o.ty) (s.rdv o.a) i)).natAbs)
  | .vcmpEq o => some (vrel s o fun a b => decide (a = b))
  | .vcmpNe o => some (vrel s o fun a b => decide (a ≠ b))
  | .vcmpLt o => some (vrel s o fun a b => decide (a < b))
  | .vcmpLe o => some (vrel s o fun a b => decide (a ≤ b))
  | .vcmpGt o => some (vrel s o fun a b => decide (a > b))
  | .vcmpGe o => some (vrel s o fun a b => decide (a ≥ b))
  | _ => none

/-- The number of lanes below i that a mask has active (R221). -/
def activeBelow (m : MWord) (i : Nat) : Nat := ((List.range i).filter fun j => m.getLsbD j).length
/-- The sum of the lanes up to i that a mask has active (R221). -/
def sumTo (w : Nat) (m : MWord) (v : VWord) (i : Nat) : Nat :=
  (((List.range (i + 1)).filter fun j => m.getLsbD j).map fun j => lane w v j).sum
/-- Lane i of the active lanes packed from lane 0 (R221). -/
def packed (w : Nat) (m : MWord) (v : VWord) (i : Nat) : Nat :=
  (((List.range (2048 / w)).filter fun j => m.getLsbD j).map fun j => lane w v j).getD i 0

/-- The effects of the lane instructions of opcode 0x43 (R218 to R221). -/
def vecLanes (s : State) : Instr → Option Effect
  | .vmov o => some (vmerge s [.v o.a o.am] o.d o.mask (tyBits o.ty) fun i => lane (tyBits o.ty) (s.rdv o.a) i)
  | .vsplat o => some (vmerge s [.s o.a o.am] o.d o.mask (tyBits o.ty) fun _ => (s.rd o.a).toNat)
  | .vsel o => some { srcs := [.v o.a o.am, .v o.b o.bm, .m o.mask]
                      wv := [(o.d, vecOf (tyBits o.ty) fun i =>
                        if (s.rdm o.mask).getLsbD i then lane (tyBits o.ty) (s.rdv o.a) i else lane (tyBits o.ty) (s.rdv o.b) i)] }
  | .vext o => some { srcs := [.v o.a o.am, .s o.b o.bm]
                      ws := some (o.d, if 2048 / tyBits o.ty ≤ (s.rd o.b).toNat then 0
                        else if o.ty.isSignedInt then
                          ((s.rdv o.a).extractLsb' ((s.rd o.b).toNat * tyBits o.ty) (tyBits o.ty)).signExtend 64
                        else ((s.rdv o.a).extractLsb' ((s.rd o.b).toNat * tyBits o.ty) (tyBits o.ty)).setWidth 64) }
  | .vins o => some { srcs := [.s o.a o.am, .s o.b o.bm, .v o.d .wait]
                      wv := [(o.d, vecOf (tyBits o.ty) fun i =>
                        if i = (s.rd o.b).toNat then (s.rd o.a).toNat else lane (tyBits o.ty) (s.rdv o.d) i)] }
  | .vperm o => some (vmerge s [.v o.a o.am, .v o.b o.bm] o.d o.mask (tyBits o.ty) fun i =>
      let j := lane (tyBits o.ty) (s.rdv o.b) i
      if j < 2048 / tyBits o.ty then lane (tyBits o.ty) (s.rdv o.a) j else 0)
  | .vslideup o => some (vmerge s [.v o.a o.am, .s o.b o.bm] o.d o.mask (tyBits o.ty) fun i =>
      if i < (s.rd o.b).toNat then 0 else lane (tyBits o.ty) (s.rdv o.a) (i - (s.rd o.b).toNat))
  | .vslidedn o => some (vmerge s [.v o.a o.am, .s o.b o.bm] o.d o.mask (tyBits o.ty) fun i =>
      if i + (s.rd o.b).toNat < 2048 / tyBits o.ty then lane (tyBits o.ty) (s.rdv o.a) (i + (s.rd o.b).toNat) else 0)
  | .viota o => some (vmerge s [] o.d o.mask (tyBits o.ty) fun i => activeBelow (s.rdm o.mask) i)
  | .vcompress o => some { srcs := [.v o.a o.am, .m o.mask]
                           wv := [(o.d, vecOf (tyBits o.ty) fun i => packed (tyBits o.ty) (s.rdm o.mask) (s.rdv o.a) i)] }
  | .vscan o => some { srcs := [.v o.a o.am, .m o.mask]
                       wv := [(o.d, vecOf (tyBits o.ty) fun i => sumTo (tyBits o.ty) (s.rdm o.mask) (s.rdv o.a) i)] }
  | _ => none

/-- The values of the lanes that a mask has active, lowest first. -/
def actives (s : State) (o : VRedO) : List Nat :=
  ((List.range (2048 / tyBits o.ty)).filter fun i => (s.rdm o.mask).getLsbD i).map fun i => lane (tyBits o.ty) (s.rdv o.a) i
/-- A scalar of an integer type's lane value (R222). -/
def asScalar (t : Ty) (v : Int) : Word :=
  if t.isSignedInt then (BitVec.ofInt (tyBits t) v).signExtend 64 else (BitVec.ofInt (tyBits t) v).setWidth 64

/-- The effects of the reductions and of the mask instructions (R222, R223): an integer reduction without active lanes gives
0, the largest or the smallest value of the type. -/
def vecReduce (s : State) : Instr → Option Effect
  | .vredadd o => some (if o.ty.isInt then { srcs := [.v o.a o.am, .m o.mask]
                                             ws := some (o.d, asScalar o.ty ((actives s o).map (tyVal o.ty)).sum) }
      else fp [.v o.a o.am, .m o.mask] o.d (redFloat (tyFp o.ty) (fpAdd (tyFp o.ty) (s.rmNow o.rm)) 0 (actives s o)) 8 8)
  | .vredmin o => some (if o.ty.isInt then { srcs := [.v o.a o.am, .m o.mask]
                                             ws := some (o.d, asScalar o.ty (((actives s o).map (tyVal o.ty)).foldl min (tyMax o.ty))) }
      else fp [.v o.a o.am, .m o.mask] o.d (redFloat (tyFp o.ty) (fpMinMax (tyFp o.ty) false) ((tyFp o.ty).infBits false) (actives s o)) 8 8)
  | .vredmax o => some (if o.ty.isInt then { srcs := [.v o.a o.am, .m o.mask]
                                             ws := some (o.d, asScalar o.ty (((actives s o).map (tyVal o.ty)).foldl max (tyMin o.ty))) }
      else fp [.v o.a o.am, .m o.mask] o.d (redFloat (tyFp o.ty) (fpMinMax (tyFp o.ty) true) ((tyFp o.ty).infBits true) (actives s o)) 8 8)
  | .mand o => some { srcs := [.m o.a, .m o.b], wm := some (o.d, s.rdm o.a &&& s.rdm o.b) }
  | .mor o => some { srcs := [.m o.a, .m o.b], wm := some (o.d, s.rdm o.a ||| s.rdm o.b) }
  | .mxor o => some { srcs := [.m o.a, .m o.b], wm := some (o.d, s.rdm o.a ^^^ s.rdm o.b) }
  | .mandn o => some { srcs := [.m o.a, .m o.b], wm := some (o.d, s.rdm o.a &&& ~~~(s.rdm o.b)) }
  | .mnot o => some { srcs := [.m o.a], wm := some (o.d, ~~~(s.rdm o.a)) }
  | .mpopc o => some { srcs := [.m o.a], ws := some (o.d, BitVec.ofNat 64 ((List.range 256).countP fun i => (s.rdm o.a).getLsbD i)) }
  | .mfirst o => some { srcs := [.m o.a], ws := some (o.d, BitVec.ofNat 64 ((List.range 256).findIdx fun i => (s.rdm o.a).getLsbD i)) }
  | .mfrom o => some { srcs := [.v o.a o.am], wm := some (o.d, (s.rdv o.a).setWidth 256) }
  | .mto o => some { srcs := [.m o.a], wv := [(o.d, (s.rdm o.a).setWidth 2048)] }
  | _ => none

/-- A floating vector result: the active lanes get f's value and raise f's flags (R213, R214). -/
def vfmerge (s : State) (srcs : List Src) (d : VField) (mk : MField) (w n len : Nat) (f : Nat → Nat × Fl) : Effect :=
  { vmerge s srcs d mk w (fun i => (f i).1) with
    fl := (((List.range (2048 / w)).filter fun i => (s.rdm mk).getLsbD i).map fun i => (f i).2).foldl (fun a b => a ||| b) 0
    n := n, len := len }
/-- Two floating lanes. -/
def vfTwo (s : State) (o : VF2) (n : Nat) (f : FpFmt → Rm → Nat → Nat → Nat × Fl) : Effect :=
  vfmerge s [.v o.a o.am, srcB o.b o.bm] o.d o.mask (tyBits o.ty) n 8 fun i =>
    f (tyFp o.ty) (s.rmNow o.rm) (lane (tyBits o.ty) (s.rdv o.a) i) (laneB s o.b (tyBits o.ty) i)
/-- One floating lane. -/
def vfOne (s : State) (o : VF1) (n : Nat) (f : FpFmt → Rm → Nat → Nat × Fl) : Effect :=
  vfmerge s [.v o.a o.am] o.d o.mask (tyBits o.ty) n 8 fun i => f (tyFp o.ty) (s.rmNow o.rm) (lane (tyBits o.ty) (s.rdv o.a) i)
/-- The fused family of format W (R226). -/
def vfThree (s : State) (o : VF3) (negProd negC : Bool) : Effect :=
  vfmerge s [.v o.a o.am, srcB o.b o.bm, .v o.c o.cm] o.d o.mask (tyBits o.ty) 8 12 fun i =>
    fpFma (tyFp o.ty) (s.rmNow o.rm) negProd negC (lane (tyBits o.ty) (s.rdv o.a) i) (laneB s o.b (tyBits o.ty) i)
      (lane (tyBits o.ty) (s.rdv o.c) i)
/-- A comparison of floating lanes: inactive lanes give 0 and raise nothing (R227). -/
def vfRel (s : State) (o : VCmpO) (f : FpFmt → Nat → Nat → Bool × Fl) : Effect :=
  let r := fun i => f (tyFp o.ty) (lane (tyBits o.ty) (s.rdv o.a) i) (laneB s o.b (tyBits o.ty) i)
  { srcs := [.v o.a o.am, srcB o.b o.bm, .m o.mask]
    wm := some (o.d, ofBits (tyBits o.ty) fun i => (s.rdm o.mask).getLsbD i && (r i).1)
    fl := (((List.range (2048 / tyBits o.ty)).filter fun i => (s.rdm o.mask).getLsbD i).map fun i => (r i).2).foldl
      (fun a b => a ||| b) 0 }

/-- The effects of the floating vector instructions (R224 to R227). -/
def vecFloat (s : State) : Instr → Option Effect
  | .vfadd o => some (vfTwo s o 8 fpAdd)
  | .vfsub o => some (vfTwo s o 8 fpSub)
  | .vfmul o => some (vfTwo s o 8 fpMul)
  | .vfdiv o => some (vfTwo s o 32 fpDiv)
  | .vfmin o => some (vfTwo s o 8 fun f _ a b => fpMinMax f false a b)
  | .vfmax o => some (vfTwo s o 8 fun f _ a b => fpMinMax f true a b)
  | .vfsqrt o => some (vfOne s o 32 fpSqrt)
  | .vfexp2 o => some (vfOne s o 8 fun f _ a => fpExp2 f a)
  | .vflog2 o => some (vfOne s o 8 fun f _ a => fpLog2 f a)
  | .vfrcp o => some (vfOne s o 8 fun f _ a => fpRcp f a)
  | .vfrsq o => some (vfOne s o 8 fun f _ a => fpRsq f a)
  | .vfabs o => some (vfOne s o 8 fun _ _ a => (a % 2 ^ (tyBits o.ty - 1), 0))
  | .vfneg o => some (vfOne s o 8 fun _ _ a => (a ^^^ 2 ^ (tyBits o.ty - 1), 0))
  | .vfma o => some (vfThree s o false false)
  | .vfms o => some (vfThree s o false true)
  | .vfnma o => some (vfThree s o true false)
  | .vfcmpEq o => some (vfRel s o fpEq)
  | .vfcmpNe o => some (vfRel s o fun f a b => (!(fpEq f a b).1, (fpEq f a b).2))
  | .vfcmpLt o => some (vfRel s o fpLt)
  | .vfcmpLe o => some (vfRel s o fpLe)
  | .vfcmpUno o => some (vfRel s o fpUno)
  | _ => none

/-- The effects of the conversions and of block packing (R228, R229): lanes from the smaller lane count on are 0. -/
def vecConvert (s : State) : Instr → Option Effect
  | .vcvt o => some (vfmerge s [.v o.a o.am] o.d o.mask (tyBits o.dst) 8 8 fun i =>
      if i < min (tyLanes o.src) (tyLanes o.dst) then
        cvtLane o.dst o.src (s.rmNow o.rm) o.sat (lane (tyBits o.src) (s.rdv o.a) i) else (0, 0))
  | .vpackb o =>
      let bs := (List.range 8).map fun b => packBlock ((List.range 8).map fun i => lane 32 (s.rdv o.a) (8 * b + i))
      some { srcs := [.v o.a o.am]
             wv := [(o.d, vecOf 8 fun k => if k < 32 then packLanes 4 (((bs.getD (k / 4) ([], 0, 0)).1.drop (2 * (k % 4))).take 2)
               else if k < 40 then (bs.getD (k - 32) ([], 0, 0)).2.1 else 0)]
             fl := (bs.map fun b => b.2.2).foldl (fun a b => a ||| b) 0 }
  | .vunpackb o => some { srcs := [.v o.a o.am]
                          wv := [(o.d, vecOf 32 fun j =>
                            (fmtF32.deliver .rne false (f4b8Num (lane 4 (s.rdv o.a) j) (lane 8 (s.rdv o.a) (32 + j / 8)))).1)] }
  | _ => none

/-! ## Control flow -/

/-- A transfer of control by the running slot to `t`, with the register written (the link), and the cycles of penalty
after the interval: a target at or below the PC is a taken backward branch and so a cancellation point (R104, R109 to
R112). -/
structure JumpsTo (srcs : List Src) (ws : Option (SField × Word)) (target : Word) (penalty : Nat) (s t : State) : Prop where
  scalars : ∀ f, t.sreg s.cur f = sAfter { srcs := srcs, ws := ws } s f
  slot : t.here = { s.here with
    sregs := t.here.sregs, turns := s.here.turns + 1, interval := some (s.cycleOf s.cur.core + 8), walkFault := none, walked := []
    penalty := if penalty = 0 then s.here.penalty else some (s.cycleOf s.cur.core + 8 + penalty)
    pc := target
    run := if target.toNat ≤ s.here.pc.toNat ∧ s.here.mode.cpend = true ∧ s.here.mode.priv = false then .cancelDue target else .active }
  unseen : ∀ r f, r.slot < 16 → slotKey r ≠ slotKey s.cur → takesS srcs f = false →
    t.sreg r f = { s.sreg r f with await := (t.sreg r f).await }
  others : ∀ r, r.slot < 16 → slotKey r ≠ slotKey s.cur → t.slotAt r = s.slotAt r
  shares : ∀ c p, p < 4 → t.cpAt c p = { s.cpAt c p with gregs := (t.cpAt c p).gregs, gwrites := (t.cpAt c p).gwrites }
    ∧ ((c, p) ≠ (s.cur.core, s.herePart) → t.cpAt c p = s.cpAt c p)
  dies : ∀ d, t.dieAt d = if d = coreDie s.cur.core then { s.dieAt d with lastIssue := s.cycleOf s.cur.core } else s.dieAt d
  rest : t = { s with slots := t.slots, coreParts := t.coreParts, dies := t.dies }

/-- From s to t nothing changes outside the running slot, but for a g register that its instruction consumed and its die's note of
its last issue. -/
structure SlotOnly (s t : State) : Prop where
  others : ∀ r, r.slot < 16 → slotKey r ≠ slotKey s.cur → t.slotAt r = s.slotAt r
  shares : ∀ c p, p < 4 → t.cpAt c p = { s.cpAt c p with gregs := (t.cpAt c p).gregs, gwrites := (t.cpAt c p).gwrites }
    ∧ ((c, p) ≠ (s.cur.core, s.herePart) → t.cpAt c p = s.cpAt c p)
  dies : ∀ d, t.dieAt d = if d = coreDie s.cur.core then { s.dieAt d with lastIssue := s.cycleOf s.cur.core } else s.dieAt d
  rest : t = { s with slots := t.slots, coreParts := t.coreParts, dies := t.dies }

/-- PC + 4 x a signed 24-bit offset (R109, R111). -/
def relative (s : State) (off : BitVec 24) : Word := s.here.pc + 4 * off.signExtend 64
/-- The condition of a conditional branch (R111). -/
def taken (s : State) : Instr → Option (BranchO × Bool)
  | .beq o => some (o, decide (s.rd o.a = s.rd o.b))
  | .bne o => some (o, decide (s.rd o.a ≠ s.rd o.b))
  | .blt o => some (o, decide ((s.rd o.a).toInt < (s.rd o.b).toInt))
  | .bge o => some (o, decide ((s.rd o.b).toInt ≤ (s.rd o.a).toInt))
  | .bltn o => some (o, decide ((s.rd o.a).toNat < (s.rd o.b).toNat))
  | .bgen o => some (o, decide ((s.rd o.b).toNat ≤ (s.rd o.a).toNat))
  | _ => none

/-! ## Memory instructions (R171 to R181, R191 to R196) -/

/-- An operation sent with its delivery number, its destination emptied: the shape of every instruction that goes to
memory or to a unit and retires in its turn (R94, R95). -/
def sends (s : State) (srcs : List Src) (k : OpKind) (d : Dest) (rel acq : Option Scope) (mq : Bool) (va : Word) (len : Nat)
    (pol : Nat := 0) : Effect :=
  { srcs := srcs, awaits := [d], numbered := true
    pend := some ⟨s.nextId, k, d, rel, acq, mq, false, none, va, pol, [], false, none⟩, len := len }

/-- The access passes its checks of R171 and there is a miss-queue entry for it if it needs one: its segments. -/
abbrev Reaches (s : State) (x : Xl) (mq : Bool) (gs : List Seg) : Prop := x = .ok gs ∧ (mq = true → s.mqFull = false)
/-- Base plus signed byte offset (R174). -/
def addr (s : State) (a : SField) (imm : BitVec 24) : Nat := (s.rd a + imm.signExtend 64).toNat

/-- A memory access of an instruction: its bytes' segments by the checks of R171, whether it takes a miss-queue entry, and
the effect that its segments give. -/
structure Access where
  check : Xl
  mq : Bool
  eff : List Seg → Effect

/-- A scalar load of n bytes (R174). -/
def ldA (s : State) (o : LdO) (n : Nat) (sg : Bool) : Access :=
  let va := addr s o.a o.imm
  ⟨s.memXl .read va n n, s.needsMq va, fun gs =>
    sends s [.s o.a o.am] (.load gs (.scalar sg n)) (.s o.d.val) none none (s.needsMq va) (BitVec.ofNat 64 va) 8 o.pol.val⟩
/-- The pieces that a VLD or VST of 256 bytes at va performs one by one: its two sectors when va is a multiple of 256, else its
bytes (R154; log 16). -/
def pieces256 (va : Nat) (gs : List Seg) : List Seg := cutSegs (if va % 256 = 0 then 128 else 1) gs
/-- The loads of opcodes 0x80, 0x82, 0x83, 0x84 and LDACQ (R174 to R178, R196). -/
def loads (s : State) : Instr → Option Access
  | .ldI8 o => some (ldA s o 1 true)
  | .ldN8 o => some (ldA s o 1 false)
  | .ldI16 o => some (ldA s o 2 true)
  | .ldN16 o => some (ldA s o 2 false)
  | .ldI32 o => some (ldA s o 4 true)
  | .ldN32 o => some (ldA s o 4 false)
  | .ldI64 o => some (ldA s o 8 false)
  | .vld o =>
      let va := addr s o.a o.imm
      some ⟨s.memXl .read va 256 8, s.needsMq va, fun gs =>
        sends s [.s o.a o.am] (.load (pieces256 va gs) .vec) (.v o.d.val) none none (s.needsMq va) (BitVec.ofNat 64 va) 8 o.pol.val⟩
  | .vldf o =>
      let va := addr s o.a o.imm
      let x := s.vldfPlan va (tyLanes o.ty)
      some ⟨x.1, s.needsMq va, fun gs =>
        sends s [.s o.a o.am] (.load gs (.vldf x.2.1 x.2.2 o.ty)) (.v o.d.val) none none (s.needsMq va) (BitVec.ofNat 64 va) 8 o.pol.val⟩
  | .vlds o =>
      let vas := s.strideVas o.a o.b o.ty
      let mq := vas.any fun va => s.needsMq va
      some ⟨s.lanesXl .read (tyBits o.ty / 8) vas, mq, fun gs =>
        sends s [.s o.a o.am, .s o.b o.bm] (.load gs .vec) (.v o.d.val) none none mq (BitVec.ofNat 64 (vas.headD 0)) 8 o.pol.val⟩
  | .vgath o =>
      let vas := s.gatherVas o.a o.b o.ty
      let mq := vas.any fun va => s.needsMq va
      some ⟨s.lanesXl .read (tyBits o.ty / 8) vas, mq, fun gs =>
        sends s [.s o.a o.am, .v o.b o.bm] (.load gs .vec) (.v o.d.val) none none mq (BitVec.ofNat 64 (vas.headD 0)) 8 o.pol.val⟩
  | .ldacq o =>
      let va := (s.rd o.a).toNat
      let n := if o.w32 then 4 else 8
      some ⟨s.memXl .read va n n, s.needsMq va, fun gs =>
        sends s [.s o.a o.am] (.load gs (.scalar false n)) (.s o.d.val) none (some o.scope) (s.needsMq va) (s.rd o.a) 8⟩
  | _ => none

/-- Stored bytes over their segments, in order. -/
def storeOf (gs : List Seg) (bs : List Byte) : OpKind := .store (splitBytes gs bs)
/-- A scalar store of n bytes (R175). -/
def stA (s : State) (o : StO) (n : Nat) : Access :=
  let va := addr s o.a o.imm
  ⟨s.memXl .write va n n, s.needsMq va, fun gs =>
    sends s [.s o.a o.am, .s o.b o.bm] (storeOf gs (bytesOfNat n (s.rd o.b).toNat)) .none none none (s.needsMq va)
      (BitVec.ofNat 64 va) 8 o.pol.val⟩
/-- The stores (R175, R176, R178, R196). -/
def stores (s : State) : Instr → Option Access
  | .st8 o => some (stA s o 1)
  | .st16 o => some (stA s o 2)
  | .st32 o => some (stA s o 4)
  | .st64 o => some (stA s o 8)
  | .vst o =>
      let va := addr s o.a o.imm
      some ⟨s.memXl .write va 256 8, s.needsMq va, fun gs =>
        sends s [.s o.a o.am, .v o.b o.bm] (storeOf (pieces256 va gs) (bytesOfNat 256 (s.rdv o.b).toNat)) .none none none
          (s.needsMq va) (BitVec.ofNat 64 va) 8 o.pol.val⟩
  | .vsts o =>
      let vas := s.strideVas o.a o.b o.ty
      let mq := vas.any fun va => s.needsMq va
      some ⟨s.lanesXl .write (tyBits o.ty / 8) vas, mq, fun gs =>
        sends s [.s o.a o.am, .s o.b o.bm, .v o.d .wait] (storeOf gs (bytesOfNat 256 (s.rdv o.d).toNat)) .none none none mq
          (BitVec.ofNat 64 (vas.headD 0)) 8 o.pol.val⟩
  | .vscat o =>
      let vas := s.gatherVas o.a o.b o.ty
      let mq := vas.any fun va => s.needsMq va
      some ⟨s.lanesXl .write (tyBits o.ty / 8) vas, mq, fun gs =>
        sends s [.s o.a o.am, .v o.b o.bm, .v o.d .wait] (storeOf gs (bytesOfNat 256 (s.rdv o.d).toNat)) .none none none mq
          (BitVec.ofNat 64 (vas.headD 0)) 8 o.pol.val⟩
  | .strel o =>
      let va := (s.rd o.a).toNat
      let n := if o.w32 then 4 else 8
      some ⟨s.memXl .write va n n, s.needsMq va, fun gs =>
        sends s [.s o.a o.am, .s o.b o.bm] (storeOf gs (bytesOfNat n (s.rd o.b).toNat)) .none (some o.scope) none
          (s.needsMq va) (s.rd o.a) 8⟩
  | _ => none

/-- The release and the acquire that an ORD gives at a scope (R80, R157, R158). -/
def relOf (o : Ord) (sc : Scope) : Option Scope := if o = .rel ∨ o = .ar then some sc else none
def acqOf (o : Ord) (sc : Scope) : Option Scope := if o = .acq ∨ o = .ar then some sc else none
/-- The one place of a naturally aligned access of at most 8 bytes. -/
def placeOf (s : State) (gs : List Seg) : Loc := (gs.head?.map fun g => g.loc).getD (.pad s.cur.core 0)
/-- An atomic access at s[A] (R171, R192). -/
def atA (s : State) (a : SField) (w32 : Bool) (eff : List Seg → Effect) : Access :=
  let n := if w32 then 4 else 8
  ⟨s.memXl .write (s.rd a).toNat n n, s.needsMq (s.rd a).toNat, eff⟩
/-- AMO (R192). -/
def amoA (s : State) (o : AmoO) (op : AmoOp) : Access :=
  atA s o.a o.w32 fun gs => sends s [.s o.a o.am, .s o.b o.bm] (.amo (placeOf s gs) o.w32 op (s.rd o.b)) (.s o.d.val)
    (relOf o.ord o.scope) (acqOf o.ord o.scope) (s.needsMq (s.rd o.a).toNat) (s.rd o.a) 8
/-- RED (R194). -/
def redA (s : State) (o : RedO) (op : AmoOp) : Access :=
  atA s o.a o.w32 fun gs => sends s [.s o.a o.am, .s o.b o.bm] (.red (placeOf s gs) o.w32 op (s.rd o.b)) .none
    (relOf o.ord o.scope) none (s.needsMq (s.rd o.a).toNat) (s.rd o.a) 8
/-- The atomics and reductions (R192 to R194). -/
def atomics (s : State) : Instr → Option Access
  | .amoAdd o => some (amoA s o .add)
  | .amoAnd o => some (amoA s o .and)
  | .amoOr o => some (amoA s o .or)
  | .amoXor o => some (amoA s o .xor)
  | .amoMin o => some (amoA s o .min)
  | .amoMax o => some (amoA s o .max)
  | .amoMinn o => some (amoA s o .minn)
  | .amoMaxn o => some (amoA s o .maxn)
  | .amoSwap o => some (amoA s o .swap)
  | .amoFadd o => some (amoA s o .fadd)
  | .redAdd o => some (redA s o .add)
  | .redFadd o => some (redA s o .fadd)
  | .redMin o => some (redA s o .min)
  | .redMax o => some (redA s o .max)
  | .redOr o => some (redA s o .or)
  | .cas o => some (atA s o.a o.w32 fun gs =>
      sends s [.s o.a o.am, .s o.b o.bm, .s o.c o.cm] (.cas (placeOf s gs) o.w32 (s.rd o.b) (s.rd o.c)) (.s o.d.val)
        (relOf o.ord o.scope) (acqOf o.ord o.scope) (s.needsMq (s.rd o.a).toNat) (s.rd o.a) 12)
  | _ => none

/-- The core and offset that a window address names (R134). -/
def window (s : State) (va : Nat) : Nat × Nat :=
  match whereIs s.cur.core va with
  | .win c off => (c, off)
  | _ => (s.cur.core, 0)
/-- A synchronising load (R179): an acquire, but LDFE is none; LDSY parks. -/
def syA (s : State) (o : SyLdO) (op : BankOp) (n : Nat) : Access :=
  let va := addr s o.a o.imm
  ⟨s.memXl .read va n 8, true, fun _ =>
    { sends s [.s o.a o.am] (.bank (window s va).1 (window s va).2 op 0) (.s o.d.val) none
        (if op = .ldfe then none else some .die) true (BitVec.ofNat 64 va) 8 with
      park := if op = .ldsy then some (.ldsy s.nextId) else none }⟩
/-- A synchronising store (R157, R179): a release at core, die or package scope by where the bank is. -/
def sySt (s : State) (o : SyStO) (op : BankOp) : Access :=
  let va := addr s o.a o.imm
  let c := (window s va).1
  ⟨s.memXl .read va 8 8, true, fun _ =>
    sends s [.s o.a o.am, .s o.b o.bm] (.bank c (window s va).2 op (s.rd o.b)) .none
      (some (if c = s.cur.core then .core else if coreDie c = coreDie s.cur.core then .die else .pkg)) none true
      (BitVec.ofNat 64 va) 8⟩
/-- The synchronising scratchpad accesses, with the address they name (R179). -/
def banks (s : State) : Instr → Option (Nat × Access)
  | .ldsy o => some (addr s o.a o.imm, syA s o .ldsy 8)
  | .ldpk o => some (addr s o.a o.imm, syA s o .ldpk 8)
  | .ldfe o => some (addr s o.a o.imm, syA s o .ldfe 512)
  | .stsy o => some (addr s o.a o.imm, sySt s o .stsy)
  | .stfl o => some (addr s o.a o.imm, sySt s o .stfl)
  | .stem o =>
      let va := addr s o.a o.imm
      some (va, ⟨s.memXl .read va 8 8, true, fun _ =>
        sends s [.s o.a o.am] (.bank (window s va).1 (window s va).2 .stem 0) .none none none true (BitVec.ofNat 64 va) 8⟩)
  | _ => none

/-- The fences (R160, R195): outstanding until performed; FENCE.acq discards what the slot has fetched ahead (R70). -/
def fences (s : State) : Instr → Option Effect
  | .fence o => some (sends s [] (.fence 0) .none (some o.scope) (some o.scope) false 0 8)
  | .fenceAcq o => some { sends s [] (.fence 1) .none none (some o.scope) false 0 8 with slot := fun sl => { sl with ahead := [] } }
  | .fenceRel o => some (sends s [] (.fence 2) .none (some o.scope) none false 0 8)
  | .fenceSc o => some (sends s [] (.fence 3) .none (some o.scope) (some o.scope) false 0 8)
  | _ => none

/-! ## Requests to units and to engines -/

/-- The counter context that a Firn handle names: plane, context (R234). -/
def firnPlane (v : Word) : Nat × Nat := (field v.toNat 12 2, v.toNat % 4096)
/-- The context lies in the partition's range of its plane (R246, R252). -/
abbrev OwnsContext (s : State) (v : Word) : Prop :=
  ∃ P, s.part? s.herePart = some P ∧ ∃ b n, P.cfg.firn[(firnPlane v).1]? = some (b, n)
    ∧ b ≤ (firnPlane v).2 ∧ (firnPlane v).2 < b + n
/-- A Firn request (R251 to R260). -/
def firnA (s : State) (a d : SField) (srcs : List Src) (op : FirnOp) (arg : Word) (w32 : Bool) (sc : Scope) (ord : Ord) : Effect :=
  sends s srcs (.firn (firnPlane (s.rd a)).1 (firnPlane (s.rd a)).2 op arg w32) (.s d.val) (relOf ord sc) (acqOf ord sc) true 0 8
/-- The Firn requests with the register of their handle: GBAR releases as it arrives, acquires as it returns, and parks. -/
def firns (s : State) : Instr → Option (SField × Effect)
  | .finc o => some (o.a, firnA s o.a o.d [.s o.a o.am] .finc 0 o.w32 o.scope o.ord)
  | .fdec o => some (o.a, firnA s o.a o.d [.s o.a o.am] .fdec 0 o.w32 o.scope o.ord)
  | .fcan o => some (o.a, firnA s o.a o.d [.s o.a o.am, .s o.b o.bm] .fcan (s.rd o.b) o.w32 o.scope o.ord)
  | .fpeek o => some (o.a, firnA s o.a o.d [.s o.a o.am, .s o.b o.bm] .fpeek (s.rd o.b) o.w32 o.scope o.ord)
  | .join o => some (o.a, firnA s o.a o.d [.s o.a o.am] .join 0 false o.scope o.ord)
  | .leave o => some (o.a, firnA s o.a o.d [.s o.a o.am, .s o.b o.bm] .leave (s.rd o.b) false o.scope o.ord)
  | .gbar o => some (o.a, { firnA s o.a o.d [.s o.a o.am] .gbar 0 false o.scope .ar with park := some (.gbar s.nextId) })
  | .fcfg o => some (o.a, sends s [.s o.a o.am, .s o.b o.bm, .s o.c o.cm]
      (.fcfg (firnPlane (s.rd o.a)).1 (firnPlane (s.rd o.a)).2
        ⟨s.rd o.b, (s.rd o.c).setWidth 32, o.wcode.toNat, o.wire.toNat, o.spread, o.clear⟩) .none none none true 0 16)
  | _ => none

/-- The 48-bit key of a tag instruction (R263). -/
def key (v : Word) : Nat := v.toNat % 2 ^ 48
/-- A request that goes to the scope unit as well (R345). -/
def toScopeUnit (e : Effect) : Effect :=
  { e with also := fun s => { s with scopeQ := s.scopeQ ++ [.op ⟨s.cur.core, s.cur.slot, s.nextId⟩] } }
/-- The tag, scope, SPAWN and Cirque requests (R263 to R275). -/
def unitRequests (s : State) : Instr → Option Effect
  | .tagpub o => some (sends s [.s o.a o.am, .s o.b o.bm] (.tag (key (s.rd o.a)) .pub (s.rd o.b)) (.s o.d.val) (some .pkg) none true 0 8)
  | .tagwait o => some { sends s [.s o.a o.am, .s o.b o.bm] (.tag (key (s.rd o.a)) .wait (s.rd o.b)) (.s o.d.val) none (some .pkg)
                           true 0 8 with park := some (.tagwait s.nextId) }
  | .tagqry o => some (sends s [.s o.a o.am] (.tag (key (s.rd o.a)) .qry 0) (.s o.d.val) none none true 0 8)
  | .tagret o => some (sends s [.s o.a o.am, .s o.b o.bm] (.tag (key (s.rd o.a)) .ret (s.rd o.b)) .none none none true 0 8)
  | .spawn o => some (sends s [.s o.a o.am] (.spawn (s.rd o.a) (!s.here.mode.priv)) (.s o.d.val) (some .pkg) none true 0 8)
  | .fsopen o => some (toScopeUnit (sends s [.s o.a o.am, .s o.b o.bm]
      (.fsopen ((s.rd o.a).toNat % 256) ((s.rd o.b).toNat % 256)) .none none none true 0 8))
  | .fsclose o => some (toScopeUnit (sends s [.s o.a o.am] (.fsclose ((s.rd o.a).toNat % 256)) .none (some .pkg) none true 0 8))
  | .fswait o => some { toScopeUnit (sends s [.s o.a o.am] (.fswait ((s.rd o.a).toNat % 256)) (.s o.d.val) none (some .pkg)
                          true 0 8) with park := some (.fswait s.nextId) }
  | .gpost o => some (sends s [.s o.a o.am] (.gpost (s.rd o.a)) (.s o.d.val) none none true 0 8)
  | .gstat o => some (sends s [] .gstat (.s o.d.val) none none true 0 8)
  | _ => none

/-- A copy job as issue latches it (R182, R119). -/
def copyJob (s : State) (d a b c : SField) (kind : CopyKind) (sc : Scope) (fillfe stamp : Bool) (pol : Nat) : CopyJob :=
  { id := s.nextId, ref := s.cur, core := s.cur.core, part := s.herePart, user := !s.here.mode.priv, kind := kind
    dst := (s.rd a).toNat, src := (s.rd b).toNat, cnt := (s.rd c).toNat
    sfmt := s.sfmtOfVa s.cur.core s.herePart (s.rd b).toNat, scope := sc, fillfe := fillfe, stamp := stamp, pol := pol
    dest := .s d.val }
/-- The job joins its cluster's queue and D waits for its token. -/
def queuesCopy (srcs : List Src) (d : SField) (j : CopyJob) : Effect :=
  { srcs := srcs, awaits := [.s d.val], numbered := true, len := 16
    also := fun s => s.modCluster (clusterOf j.core) fun K => { K with copyQ := K.copyQ ++ [j] } }
/-- A job of count 0 moves nothing and its token is 0 at once; its partition's credit at the cluster's engine pays 1 while it has
jobs queued or running there, and there is no credit else (R184, R185, R284, R373; logs 22 and 89). -/
def copiesNone (s : State) (srcs : List Src) (d : SField) : Effect :=
  { srcs := srcs, gives := some (d, 0), numbered := true, len := 16
    also := fun u => u.modCluster (clusterOf s.cur.core) fun K => { K with
      copyCredit := if (K.copyQ.any fun q => q.part == s.herePart) || (K.copyRun.any fun x => x.job.part == s.herePart) then
          Sparse.set s.herePart (Sparse.get 0 K.copyCredit s.herePart - 1) K.copyCredit
        else K.copyCredit } }
/-- The copy jobs, with whether a count of zero makes them nothing (R184 to R186). -/
def copies (s : State) : Instr → Option Effect
  | .copy o =>
      some (if s.rd o.c = 0 then copiesNone s [.s o.a o.am, .s o.b o.bm, .s o.c o.cm] o.d
        else queuesCopy [.s o.a o.am, .s o.b o.bm, .s o.c o.cm] o.d
          (copyJob s o.d o.a o.b o.c .copy o.scope o.fillfe o.stamp o.cp.val))
  | .copy2 o =>
      some (if s.rd o.c = 0 then copiesNone s [.s o.a o.am, .s o.b o.bm, .s o.c o.cm] o.d
        else queuesCopy [.s o.a o.am, .s o.b o.bm, .s o.c o.cm] o.d
          (copyJob s o.d o.a o.b o.c (.copy2 o.rowbytes.toNat o.sstride.toNat o.dstride.toNat) o.scope o.fillfe o.stamp o.cp.val))
  | .kvgath o =>
      some (queuesCopy [.s o.a o.am, .s o.b o.bm, .s o.c o.cm, .v o.idx .wait, .m o.mask] o.d
        (copyJob s o.d o.a o.b o.c (.kvgath o.blk.toNat ((List.range 64).map fun i => lane 32 (s.rdv o.idx) i) (s.rdm o.mask))
          o.scope o.fillfe o.stamp 0))
  | _ => none

/-- The sources of MMA in field order (R296). -/
def mmaSrcs (o : MmaO) : List Src :=
  [.s o.a o.am, .s o.b o.bm] ++ (if o.drain then [.s o.c o.cm] else []) ++ (if o.e.val ≠ 0 then [.s o.e .wait] else [])
    ++ (if o.pert then [.s o.f .wait, .s o.g .wait] else [])
    ++ (if o.gath then (List.range (o.msz.toNat + 1)).map fun i => .v (Fin.ofNat 16 (o.i.val + i)) .wait else [])
/-- A matrix job as issue latches it (R283, R296). -/
def mmaJob (s : State) (o : MmaO) : MmaJob :=
  { id := s.nextId, ref := s.cur, core := s.cur.core, part := s.herePart, user := !s.here.mode.priv
    jobNo := Sparse.get 0 (s.clusterAt (clusterOf s.cur.core)).jobNo s.herePart
    a := (s.rd o.a).toNat, b := (s.rd o.b).toNat, c := if o.drain then (s.rd o.c).toNat else 0
    bands := if o.e.val ≠ 0 then some (s.rd o.e).toNat else none
    fa := s.sfmtOfVa s.cur.core s.herePart (s.rd o.a).toNat, fb := s.sfmtOfVa s.cur.core s.herePart (s.rd o.b).toNat
    org := if o.pert then (s.rd o.f).toNat % 2 ^ 48 else 0, mem := if o.pert then (s.rd o.g).toNat % 2 ^ 16 else 0
    idx := if o.gath then (List.range (64 * (o.msz.toNat + 1))).map fun r =>
      lane 32 (s.rdv (Fin.ofNat 16 (o.i.val + r / 64))) (r % 64) else []
    seed := s.here.seed, m := 64 * (o.msz.toNat + 1), n := 64 * (o.nsz.toNat + 1), k := 32 * (o.ksz.toNat + 1)
    acc := o.acc, drain := o.drain, epi := o.epi, gath := o.gath, pert := o.pert, anti := o.anti || s.here.spdAnti
    aset := o.aset.toNat, dfmt := o.dfmt, epislot := o.epislot.toNat, scope := o.scope, dest := .s o.d.val }
/-- MMA joins its cluster's queue and takes the partition's next job number (R283, R296). -/
def queuesMma (s : State) (o : MmaO) : Effect :=
  { srcs := mmaSrcs o, awaits := [.s o.d.val], numbered := true, len := 16
    also := fun u => u.modCluster (clusterOf s.cur.core) fun K => { K with
      mmaQ := K.mmaQ ++ [mmaJob s o]
      jobNo := Sparse.set s.herePart (((Sparse.get 0 (s.clusterAt (clusterOf s.cur.core)).jobNo s.herePart : Nat) + 1) % 65536) K.jobNo } }

/-- The supervisor requests SPILL, REFILL and SLOTKILL once their checks of R330 pass: the target they name, the image, the
wait for nothing but their completion's event (R331). -/
def calving (s : State) (srcs : List Src) (cmd : CalvCmd) (a : Word) (pa : Nat) (va : Word) : Effect :=
  sends s srcs (.calving cmd (field a.toNat 4 10) (a.toNat % 16) pa) .none none none false va 8

/-! ## Events -/

/-- An outstanding operation that its unit may be given now: it is outstanding and undecided, every earlier operation of
its thread lets it go, the dies that it needs run, and its release is met (R153 to R167, R359). -/
abbrev Sendable (s : State) (o : OpRef) (q : Pend) : Prop :=
  s.pendAt o = some q ∧ q.res = none ∧ q.arrived = false ∧ s.mayGo o = true ∧ s.opLive o q.kind = true
    ∧ s.releaseMet (coreDie o.core) q.rel (decide (q.kind = .fence 3)) = true
/-- The state in which a sendable operation acts on its unit: what its release brings is noted (R162). -/
abbrev sent (s : State) (o : OpRef) (q : Pend) : State := (s.noteLoose o).releaseOp o q
/-- The slot of an operation. -/
def slotOf (o : OpRef) : SlotRef := ⟨o.core, o.slot⟩
/-- The partition of an operation's slot. -/
def partOfOp (s : State) (o : OpRef) : Nat := s.partOf (slotOf o)

/-- A request stands in a Firn plane's port, and in no lower plane's (R247). -/
abbrev InPort (s : State) (o : OpRef) (d : Nat) (h : FirnHeld) : Prop :=
  d < 4 ∧ h.id = o.id ∧ (∀ d' < d, ∀ k ∈ (s.dieAt d').port, k.id ≠ o.id) ∧ (s.dieAt d).port.find? (fun k => k.id == o.id) = some h
/-- It is admitted in this cycle: the cycle is its partition's, its entry wire is unused, and no other goes first (R247). -/
abbrev MayEnter (s : State) (d : Nat) (h : FirnHeld) : Prop :=
  s.heldStands d h = false ∧ s.live d = true ∧ s.ownerOf ((s.dieAt d).cycle % 16) = some h.part ∧ s.portBlocked d h = false
    ∧ ((s.dieAt d).wiresCycle ≠ (s.dieAt d).cycle ∨ s.heldWire d h ∉ (s.dieAt d).wiresUsed)
/-- The plane once it has been admitted: its wire is used in the cycle and it has left the port. -/
def takesWire (s : State) (d : Nat) (h : FirnHeld) : State :=
  let now := (s.dieAt d).cycle
  s.modDie d fun D => { D with
    wiresUsed := if D.wiresCycle = now then s.heldWire d h :: D.wiresUsed else [s.heldWire d h]
    wiresCycle := now, port := D.port.filter fun k => k.id != h.id }
/-- FCAN cannot give v back to a context, by R238's first two rows: MODE is SPREAD, v lies below BASE or is not handed out, or it is
queued already. -/
def NotOut (x : FirnCtx) (v : Word) : Prop :=
  let d : Int := (v.toNat : Int) - x.base.toNat
  x.spread = true ∨ d < 0 ∨ x.count (d % x.width).toNat ≤ d / x.width ∨ d.toNat ∈ x.queue

/-- A side-band request of command `cmd` that passes checks 1 and 2 of R358 while the dies are powered and no earlier command is
under way, with a header and a length as R357 has them. -/
abbrev Accepted (s : State) (q : SbReq) (cmd : Nat) : Prop :=
  q.cmd = cmd ∧ s.serac.power = .on ∧ q.sigOk = true ∧ q.keyid ≤ 3 ∧ q.keyid ∈ s.serac.keys ∧ q.magic = 0x4B58 ∧ q.ver = 1
    ∧ Sparse.get 0 s.serac.keySeq q.keyid ≤ q.seq ∧ s.serac.waiting = [] ∧ q.reserved = 0 ∧ q.arglen = q.args.length
    ∧ q.args.length ≤ 1024
/-- The state once the request's SEQ is the last of its key. -/
def noted (s : State) (q : SbReq) : State :=
  { s with serac := { s.serac with keySeq := Sparse.set q.keyid (q.seq + 1) s.serac.keySeq } }
/-- A reply leaves over the side-band port: the request's SEQ and CMD, STATUS in TARGET[7:0], and a signature over the digest of the
32-byte header, with MAGIC 0x4B58, VER 1 and KEYID 0, and of the arguments (R357; KEYID: log 88). -/
def replies (s : State) (q : SbReq) (status : Nat) (args : List Byte) : State :=
  let header := bytesOfNat 32 (0x4B58 + 2 ^ 16 + q.cmd % 256 * 2 ^ 32 + args.length * 2 ^ 96 + status % 256 * 2 ^ 128
    + q.seq % 2 ^ 64 * 2 ^ 192)
  { s with outbox := s.outbox ++ [.sideband q.seq q.cmd status args (Config.sign (Config.digest (header ++ args)))] }
/-- The head of a partition's control queue that is to be executed now (R352). -/
abbrev ControlHead (s : State) (p : Nat) (bs : List Byte) (cmd used : Nat) : Prop :=
  s.ctlHead p = some bs ∧ msgNat bs 0 1 = cmd ∧ msgNat bs 1 7 = 0 ∧ msgNat bs (8 + used) (56 - used) = 0
/-- Check i of R24 passes, i from 1 to 10 and 12, on the bytes of a packet of partition p; `len` is a message's length. -/
def PacketPass (s : State) (p : Nat) (bs : List Byte) (len : Option Nat) : Nat → Prop
  | 1 => msgNat bs 0 1 = 1
  | 2 =>
    let n := 16 * msgNat bs 1 1
    32 ≤ n ∧ n ≤ 256 ∧ (∀ m, len = some m → m = n) ∧ pkEnd bs ≤ n ∧ (pkFlag bs 4 = false → n < pkEnd bs + 16)
  | 3 => msgNat bs 2 1 = p
  | 4 => msgNat bs 3 1 ≤ 7
  | 5 =>
    let accepted := fun (i : Nat) => (((s.part? p).map fun (P : Partition) => P.features).getD 0).getLsbD i
    let tags := pkTagAt bs
    msgNat bs 7 1 = 0 ∧ msgNat bs 22 2 = 0 ∧ msgNat bs 4 2 < 32
    ∧ (∀ e ∈ [(0, 0), (1, 1), (2, 2), (3, 4), (4, 3)], pkFlag bs e.1 = true → accepted e.2 = true)
    ∧ (pkFlag bs 1 = true → msgNat bs tags 1 < 16 ∧ msgNat bs (tags + 2) 6 = 0
      ∧ ∀ i < pkNin bs, msgNat bs (tags + 8 + 16 * i + 12) 4 = 0)
    ∧ (pkFlag bs 2 = true → msgNat bs (pkSibAt bs + 2) 2 = 0)
    ∧ (if pkFlag bs 4 = true then msgNat bs 24 8 = 0 else ∀ b ∈ bs.drop (pkEnd bs), b = 0)
  | 6 => msgNat bs 16 4 ≠ 0
  | 7 => msgNat bs 8 8 % 4 = 0 ∧ canonical (msgNat bs 8 8) = true
  | 8 => msgNat bs 20 2 ≤ 127 ∨ msgNat bs 20 2 = 0xFFFF
  | 9 => pkFlag bs 1 = true → 1 ≤ pkNin bs ∧ pkNin bs ≤ 8
  | 10 => pkFlag bs 2 = true →
    let n := msgNat bs (pkSibAt bs) 1
    let q := msgNat bs (pkSibAt bs + 1) 1
    2 ≤ n ∧ n ≤ 64 ∧ n / 2 + 1 ≤ q ∧ q ≤ n ∧ msgNat bs (pkSibAt bs + 4) 4 % 4 = 0 ∧ msgNat bs 16 4 % n = 0
      ∧ msgNat bs 16 4 / n ≤ 4096
  | 12 => pkFlag bs 4 = true →
    let m := (bs.drop (pkEnd bs)).length
    8 ≤ m ∧ m ≤ 224 ∧ m % 8 = 0
  | _ => True
/-- The control message is answered and the queue goes on. -/
def answered (s : State) (p cmd status : Nat) (result : List Byte) : State :=
  let Q := s.queueAt (s.ctlQueue p)
  { s.popQueue (s.ctlQueue p) with
    outbox := s.outbox ++ [.reply Q.target Q.buf cmd status (result ++ List.replicate (56 - result.length) 0)] }

/-! ## Invariants -/

/-- The package's HBM is in its canonical form: addresses strictly rising, no byte that reads as an unlisted one (log 5). -/
def MemoryCanonical (s : State) : Prop := Memory.wf s.hbm = true

/-- Two places are one byte. -/
def sameByte : Loc → Loc → Bool
  | .paged x _ _, .paged y _ _ => x == y
  | .pad c x, .pad d y => c == d && x == y
  | _, _ => false
/-- A place of paged memory has a home die and a tag (R144, R146). -/
def placed : Loc → Bool
  | .paged _ h t => decide (h < 4) && decide (t < 5)
  | .pad _ _ => true
/-- The place i bytes on. -/
def byteOn : Loc → Nat → Loc
  | .paged x h t, i => .paged (x + i) h t
  | .pad c x, i => .pad c (x + i)
/-- Instruction i completes in state s with effect `e` on its slot, having done `act` to the rest of the package behind its
consumes. -/
def DoesAs (i : Instr) (s : State) (e : Effect) (act : State → State) : Prop :=
  exec i s = .next ((act (s.consume e.srcs)).retire e.n e.len) ∧ Ran e s ((act (s.consume e.srcs)).retire e.n e.len)
/-- The word of a row's 8,192 bytes that goes into register v(12 + i) (R299). -/
def rowWord (x : EpiRow) (i : Nat) : VWord := BitVec.ofNat 2048 (natOfBytes x.bytes / 2 ^ (2048 * i))
/-- The image at s[B]: a page address that is canonical, a multiple of 8 KiB, translated for the access (R330). -/
abbrev GoodImage (s : State) (b : Word) (acc : Acc) (pa : Nat) : Prop :=
  canonical b.toNat = true ∧ whereIs s.cur.core b.toNat = .page ∧ b.toNat % 8192 = 0
    ∧ ∃ h t n gs, s.xl acc b.toNat 8192 = .ok (⟨.paged pa h t, n⟩ :: gs)

end Sys2Proof.Claims
end

