-- ==== Sys2Proof/Certificates/Slice0/Obligations.lean ====
section
/-! DEFINITION. The statements for the provers. Their vocabulary stands in Sys2Proof.Safety. -/

open Sys2Proof Sys2Proof.Machine Sys2Proof.Claims

/-! # Encodings -/

/-- Every well-formed instruction that has an encoding is read back from it: operands, options and immediates at every
value (R68 to R88). -/
def Obligations.DecodeEncode : Prop :=
  ∀ (i : Instr) (w : Nat), i.wf = true → encode i = some w → decode (leBytes 16 w) = .ok i

/-- Each word has one meaning: an accepted word is the encoding of the instruction it decodes to, so no reserved bit of it
is set (R77, R88); and what decode accepts is well formed. -/
def Obligations.EncodeDecode : Prop :=
  ∀ (w : Nat) (i : Instr), w < 2 ^ 128 → decode (leBytes 16 w) = .ok i →
    i.wf = true ∧ encode i = some (w % 2 ^ (8 * i.len))

/-- Words that the manual writes out decode to the instructions it names beside them. -/
def Obligations.WorkedWords : Prop :=
  decode (leBytes 8 0x000000000411A040) = .ok (.mul ⟨6, 1, .wait, 1, .wait⟩)
  ∧ decode (leBytes 8 0x000003000011D044) = .ok (.shli ⟨7, 1, .wait, 3⟩)
  ∧ decode (leBytes 12 0x0000000003E8000000024051) = .ok (.movi ⟨9, 1000⟩)
  ∧ decode (leBytes 8 0x0000000424618040) = .ok (.add ⟨6, 6, .wait, 9, .consume⟩)
  ∧ decode (leBytes 8 0x0000000018800E04) = .ok (.st64 ⟨8, .wait, 6, .wait, 0, 0⟩)
  ∧ decode (leBytes 8 0x00000F0024818280) = .ok (.amoAdd ⟨6, 8, .wait, 9, .wait, false, .pkg, .ar⟩)
  ∧ decode (leBytes 8 0x000002200810C100) = .ok (.vadd ⟨3, 1, .wait, .v 2, .wait, 2, .i32⟩)
  ∧ decode (leBytes 8 0x0000040024E00408) = .ok (.bne ⟨14, .wait, 9, .wait, false, 4⟩)
  ∧ decode (leBytes 8 0x0000050000018014) = .ok (.csrr ⟨6, 5⟩)
  ∧ decode (leBytes 8 0xFFFFF80000D38214) = .ok (.ldsy ⟨14, 13, .wait, -8⟩)
  ∧ decode (leBytes 8 0x0000000000000380) = .ok .eret
  ∧ decode (leBytes 8 0x000000000000001C) = .ok .exit

/-! # The step -/

/-- A core's turn runs what it has decoded: when the agenda's head is a turn of core c and the chosen slot's block decodes
to i, the step is exec of i in the state whose running slot is that slot, its core's turn used and its block kept; g writes of the core
whose slot's interval is over land first (R42, R68 to R71, R88, R90, R91; the agenda is the model's own, log 1). When the head is an event that may come about by itself, the
step is exec of that row; with an empty agenda the step takes the next free move as its head (log 1). -/
def Obligations.StepRunsDecoded : Prop :=
  (∀ (s : State) (i : Instr) (rest : List Move), s.agenda = .event i :: rest → isFreeEvent i = true →
    step s = exec i { s with agenda := rest })
  ∧ (∀ s : State, s.agenda = [] →
    step s = step { s with agenda := [Config.freeMove s.draws], draws := s.draws + 1 })
  ∧ ∀ (s : State) (c n : Nat) (rest : List Move) (bs : List Byte) (i : Instr),
    s.agenda = .turn c :: rest →
    let u : State := (({ s with agenda := rest } : State).landCore c).stallFetch c
    let r : SlotRef := ⟨c, n⟩
    s.live (coreDie c) = true → (s.coreAt c).lastTurn ≠ s.cycleOf c + 1 → u.turnSlot c = some n →
    (u.slotAt r).pc.toNat % 4 = 0 → u.fetch r = .block bs →
    decodeTurn (u.slotAt r).pc (.block bs) = .run i →
    step s = exec i (u.beginTurn r) ∧ (u.beginTurn r).cur = r
      ∧ (∀ k, ((u.beginTurn r).slotAt r).pc = (u.slotAt r).pc ∧ ((u.beginTurn r).sreg r k) = u.sreg r k)

/-- What a turn has of a fetched block: with LEN 11 an illegal encoding; past the block's end cause 3 with the block's end;
a word that decodes is run; a reserved encoding is illegal with bits [63:0]; a bad register number is cause 2. The rows
ILLEGAL_ENCODING and FETCH_FAULT take the exception that decode reports, on an Active slot (R68, R69, R71, R87, R88). -/
def Obligations.DecodeChecks : Prop :=
  (∀ (pc : Word) (bs : List Byte), bs.length = 32 → pc.toNat % 4 = 0 →
    let off := pc.toNat % 32
    let k := (bs.getD off 0).toNat % 4
    let w := BitVec.ofNat 64 (leNat ((bs.drop off).take 8))
    (k = 3 → decodeTurn pc (.block bs) = .illegal (BitVec.ofNat 64 (leNat ((bs.drop off).take 4))))
    ∧ (k ≠ 3 → 32 < off + 8 + 4 * k → decodeTurn pc (.block bs) = .trap 3 (BitVec.ofNat 64 (pc.toNat / 32 * 32 + 32)))
    ∧ (k ≠ 3 → off + 8 + 4 * k ≤ 32 → ∀ i, decode (bs.drop off) = .ok i → decodeTurn pc (.block bs) = .run i)
    ∧ (k ≠ 3 → off + 8 + 4 * k ≤ 32 → decode (bs.drop off) = .illegal → decodeTurn pc (.block bs) = .illegal w)
    ∧ (k ≠ 3 → off + 8 + 4 * k ≤ 32 → decode (bs.drop off) = .badReg → decodeTurn pc (.block bs) = .trap 2 w))
  ∧ (∀ (s : State) (w : Word) (c : Nat), s.here.run = .active → c = 6 ∨ c = 7 ∨ c = 8 →
    exec (.illegalEncoding w) s = .next (s.trap 1 w) ∧ exec (.fetchFault c) s = .next (s.trap (BitVec.ofNat 8 c) s.here.pc))

/-! # Reset -/

/-- State.reset is the package as it is once boot has passed its checks. What the rules say of it: no partition exists (R360), and
TIME counts from 0 until the servo first locks (R356). The rest is the model's choice: that no slot has a task, nothing is in
flight, queued or waiting, no die is frozen, the servo is unlocked and the arithmetic clock is 1.8 GHz (DEDUCED, log 62), and
that a slot which no task has used reads zero in every register, full, in user mode with no trap and no cancellation (DESIGN
CHOICE, log 7). -/
def Obligations.ResetState : Prop :=
  (∀ p, State.reset.part? p = none) ∧ (∀ r, (State.reset.slotAt r).run = .free ∧ (State.reset.slotAt r).task = none)
  ∧ State.reset.time = 0 ∧ State.reset.serac.ptp = .unlocked ∧ State.reset.serac.clockMhz = 1800
  ∧ (∀ d, (State.reset.dieAt d).frozen = false ∧ (State.reset.dieAt d).launches = [] ∧ (State.reset.dieAt d).dirty = [])
  ∧ State.reset.inflight = [] ∧ State.reset.scopeQ = [] ∧ State.reset.outbox = []
  ∧ (∀ (r : SlotRef) (f : Nat), f < 32 →
    State.reset.sreg r f = ⟨0, true, .none, none, false⟩ ∧ State.reset.vreg r f = ⟨0, true, .none, none, false⟩
    ∧ modeWord (State.reset.slotAt r).mode = 0 ∧ (State.reset.slotAt r).lc = 0 ∧ (State.reset.slotAt r).pend = [])

/-- HBM is canonical at reset (the form is the model's, log 5). -/
def Obligations.MemoryCanonicalAtReset : Prop := MemoryCanonical State.reset

/-- Every step keeps HBM canonical, whichever move it is (the form is the model's, log 5). -/
def Obligations.MemoryCanonicalKept : Prop :=
  ∀ s s', MemoryCanonical s → step s = .next s' → MemoryCanonical s'

/-! # Issue and exceptions -/

/-- The source checks of issue (R79, R93, R312, R326), on the two-source integer instructions: an empty source read with wait or
consume parks the slot until every register that the instruction waits for is full, taking nothing; a full one that is poisoned traps with cause 16 and its value; with TRAPASYNC a
faulted one traps with cause 17; peek does none of these. -/
def Obligations.SourceChecks : Prop :=
  (∀ (s : State) (i : Instr) (e : Effect), intRegs s i = some e → s.here.run = .active → NoCancel s →
    (∃ x ∈ e.srcs, State.srcMd x ≠ .peek ∧ s.srcFull x = false) →
    exec i s = .next (s.modHere fun sl => { sl with run := .parked (.operand (State.waitsOn e.srcs)) }))
  ∧ (∀ (s : State) (i : Instr) (e : Effect), intRegs s i = some e → s.here.run = .active → s.here.mode.nest = false →
    (∀ x ∈ e.srcs, State.srcMd x = .peek ∨ s.srcFull x = true) → (∀ x ∈ e.srcs, s.srcParity x = false) →
    (∀ x, e.srcs.find? (fun x => State.srcMd x != .peek && s.srcMark x == .poisoned) = some x →
      ∃ t, exec i s = .next t ∧ t.here.cause = 16 ∧ t.here.tval = s.srcVal x ∧ t.here.epc = s.here.pc)
    ∧ (s.here.mode.trapAsync = true → (∀ x ∈ e.srcs, State.srcMd x = .peek ∨ s.srcMark x ≠ .poisoned) →
      ∀ x, e.srcs.find? (fun x => State.srcMd x != .peek && s.srcMark x == .faulted) = some x →
        exec i s = .next (s.trap 17 (s.srcVal x))))

/-- Taking an exception (R307): with NEST clear, EPC, CAUSE and TVAL are saved, PP takes PRIV, PRIV and NEST are set, the PC
is the partition's vector; registers, loop registers, TURNS, what is outstanding and everything outside the slot stay. With
NEST set it is a double trap (R310): the slot stops issuing for good, its deliveries and tokens are discarded, and it takes no
cancellation. -/
def Obligations.TrapEntry : Prop :=
  ∀ (s : State) (r : SlotRef) (cause : BitVec 8) (tval : Word),
    let t := s.trapAt r cause tval
    ((s.slotAt r).mode.nest = true → t = s.doubleTrap r cause tval ∧ (t.slotAt r).run = .ending .doubleTrap
      ∧ (t.slotAt r).mode.cpend = false ∧ ∀ q ∈ (t.slotAt r).pend, q.dest = .none)
    ∧ ((s.slotAt r).mode.nest = false →
      (t.slotAt r) = { s.slotAt r with
        run := .active, epc := (s.slotAt r).pc, cause := cause, tval := tval, pc := s.pcsr (s.partOf r) r.core .tvec
        mode := { (s.slotAt r).mode with pp := (s.slotAt r).mode.priv, priv := true, nest := true }
        ahead := [], walkFault := none, walked := [], cwait := none }
      ∧ (∀ r', slotKey r' ≠ slotKey r → t.slotAt r' = s.slotAt r') ∧ t = { s with slots := t.slots })

/-- TRAP and BRK take their exceptions in either mode (R115): cause 13 with the code zero-extended, cause 14 with TVAL 0, EPC
the instruction's own address. -/
def Obligations.TrapInstructions : Prop :=
  ∀ (s : State) (o : TrapO), s.here.run = .active →
    exec (.trap o) s = .next (s.trap 13 (o.code.setWidth 64)) ∧ exec .brk s = .next (s.trap 14 0)
    ∧ (s.here.mode.nest = false →
      (∃ t, exec (.trap o) s = .next t ∧ t.here.cause = 13 ∧ t.here.tval = o.code.setWidth 64 ∧ t.here.epc = s.here.pc
        ∧ t.here.mode.priv = true ∧ t.here.pc = s.pcsr s.herePart s.cur.core .tvec)
      ∧ (∃ t, exec .brk s = .next t ∧ t.here.cause = 14 ∧ t.here.tval = 0 ∧ t.here.epc = s.here.pc
        ∧ t.here.mode.priv = true ∧ t.here.pc = s.pcsr s.herePart s.cur.core .tvec))

/-- ERET in supervisor mode returns (R332): the PC is EPC, PRIV takes PP, NEST clears; returning to user mode with CPEND
set, the cancellation is due at EPC; a misaligned EPC traps with cause 4 instead. -/
def Obligations.ReturnFromTrap : Prop :=
  ∀ (s : State), s.here.run = .active → s.here.mode.priv = true →
    (s.here.epc.toNat % 4 = 0 → ∃ t, exec .eret s = .next t ∧ t = { s with slots := t.slots, dies := t.dies }
      ∧ t.here = { s.here with
          pc := s.here.epc, ahead := [], mode := { s.here.mode with priv := s.here.mode.pp, nest := false }
          turns := s.here.turns + 1, interval := some (s.cycleOf s.cur.core + 8), walkFault := none, walked := []
          penalty := some (s.cycleOf s.cur.core + 14)
          run := if s.here.mode.cpend = true ∧ s.here.mode.pp = false then .cancelDue s.here.epc else .active })
    ∧ (s.here.epc.toNat % 4 ≠ 0 → exec .eret s = .next (s.trap 4 s.here.epc))

/-- A privileged instruction in user mode traps with cause 5 and its word as TVAL, before anything else (R88, R89): ERET,
SPILL, REFILL, SLOTKILL, TLBINV, FCFG and the special registers from index 0x100 on. -/
def Obligations.PrivilegedTraps : Prop :=
  ∀ (s : State) (i : Instr), s.here.run = .active → s.here.mode.priv = false →
    (match i with
      | .eret | .spill _ | .refill _ | .slotkill _ | .tlbinv _ | .fcfg _ => True
      | .csrr o => 0x100 ≤ o.idx.toNat ∧ i.wf = true
      | .csrw o => 0x100 ≤ o.idx.toNat ∧ i.wf = true
      | .csrs o | .csrc o | .csrx o => 0x100 ≤ o.idx.toNat ∧ i.wf = true
      | _ => False) →
    ∃ w, encode i = some w ∧ exec i s = .next (s.trap 5 (BitVec.ofNat 64 w))

/-! # Results of the register instructions, with their frames -/

/-- Every scalar integer instruction completes with its result (R108, R125 to R130): the two-source forms, the NOPs, the
immediate and one-source forms, SEL, MADD and the moves of immediates; R79's consumes, R90's interval, R91's write; nothing
else changes. -/
def Obligations.IntegerResults : Prop :=
  ∀ (s : State) (i : Instr) (e : Effect), intRegs s i = some e ∨ intOthers s i = some e → CanIssue e.srcs s → Does i s e

/-- The scalar floating-point instructions complete with the result and flags of the shared arithmetic (R131 to R133). -/
def Obligations.FloatResults : Prop :=
  ∀ (s : State) (i : Instr) (e : Effect), fpRegs s i = some e → CanIssue e.srcs s → Does i s e

/-- Arithmetic on NaNs (R199, R205): a NaN operand of an addition, a multiplication or a fused multiply-add delivers the canonical
NaN, with NV exactly if one of the operands is signalling. 0 x infinity in the product of a fused multiply-add is apart: it
delivers the canonical NaN and NV whatever the addend is, a quiet NaN too (R132, R226). 0 x infinity, and infinities of unlike
sign in a sum, do so in a multiplication and an addition. -/
def Obligations.NanResults : Prop :=
  ∀ (f : FpFmt) (rm : Rm) (n k : Bool) (a b c : Nat), f ∈ [fmtF64, fmtF32, fmtF16, fmtBf16] →
    let x := f.decode a
    let y := f.decode b
    let z := f.decode c
    let zeroTimesInf : Prop := (∃ g, x = .inf g) ∧ isFin y = true ∧ realOf y = 0 ∨ isFin x = true ∧ realOf x = 0 ∧ ∃ g, y = .inf g
    (x.isNan = true ∨ y.isNan = true →
      fpAdd f rm a b = (f.qnan, snanFl x ||| snanFl y) ∧ fpMul f rm a b = (f.qnan, snanFl x ||| snanFl y))
    ∧ (∀ g, x = .inf g → y = .inf (!g) → fpAdd f rm a b = (f.qnan, NV))
    ∧ (zeroTimesInf → fpMul f rm a b = (f.qnan, NV) ∧ fpFma f rm n k a b c = (f.qnan, NV))
    ∧ (x.isNan = true ∨ y.isNan = true ∨ z.isNan = true → ¬ zeroTimesInf →
      fpFma f rm n k a b c = (f.qnan, snanFl x ||| snanFl y ||| snanFl z))

/-- Floating arithmetic on finite operands is the exact result rounded once (R132, R204, R205, R226, R228): sums, differences,
products, fused multiply-adds, quotients and roots, and the conversions between floating formats and from integers, where the
exact result is not 0. An exact zero sum has the sign of both zeros, or that of the mode (R131); a zero product or quotient has the
sign of its operands' signs. A finite nonzero value divided by zero is a signed infinity with DZ, 0/0 and infinity/infinity are NaN with
NV, the root of a zero is that zero, and that of a negative value NaN with NV (R132). One clause is the model's choice and not the
manual's words: a finite value that overflows to e4m3 without SAT delivers NaN with NV beside OF and NX (log 9; R205 and R228 leave the
NV of that case open). -/
def Obligations.FloatArithmetic : Prop :=
  (∀ (f : FpFmt) (rm : Rm) (n k : Bool) (a b c : Nat), f ∈ [fmtF64, fmtF32, fmtF16, fmtBf16] → rm ≠ .dyn →
    let x := f.decode a
    let y := f.decode b
    let z := f.decode c
    (isFin x = true → isFin y = true →
      (realOf x + realOf y ≠ 0 → Delivers f rm false (realOf x + realOf y) (fpAdd f rm a b))
      ∧ (realOf x + realOf y = 0 → fpAdd f rm a b =
          (f.sgn (if x = y then signOf x else decide (rm = .rdn)), 0))
      ∧ (realOf x - realOf y ≠ 0 → Delivers f rm false (realOf x - realOf y) (fpSub f rm a b))
      ∧ (realOf x - realOf y = 0 → fpSub f rm a b =
          (f.sgn (if x = y.flip then signOf x else decide (rm = .rdn)), 0))
      ∧ (realOf x * realOf y ≠ 0 → Delivers f rm false (realOf x * realOf y) (fpMul f rm a b))
      ∧ (realOf x * realOf y = 0 → fpMul f rm a b = (f.sgn (signOf x != signOf y), 0))
      ∧ (realOf y ≠ 0 → realOf x ≠ 0 → Delivers f rm false (realOf x / realOf y) (fpDiv f rm a b))
      ∧ (realOf y ≠ 0 → realOf x = 0 → fpDiv f rm a b = (f.sgn (signOf x != signOf y), 0))
      ∧ (realOf y = 0 → realOf x ≠ 0 → fpDiv f rm a b = (f.infBits (signOf x != signOf y), DZ))
      ∧ (realOf y = 0 → realOf x = 0 → fpDiv f rm a b = (f.qnan, NV))
      ∧ (isFin z = true →
          let p := (if n then -1 else 1) * (realOf x * realOf y) + (if k then -1 else 1) * realOf z
          p ≠ 0 → Delivers f rm false p (fpFma f rm n k a b c)))
    ∧ (∀ g h, x = .inf g → y = .inf h → fpDiv f rm a b = (f.qnan, NV))
    ∧ (isFin x = true →
        (0 < realOf x → Delivers f rm false (Real.sqrt (realOf x)) (fpSqrt f rm a))
        ∧ (realOf x = 0 → fpSqrt f rm a = (f.sgn (signOf x), 0))
        ∧ (realOf x < 0 → fpSqrt f rm a = (f.qnan, NV))))
  ∧ (∀ (f g : FpFmt) (rm : Rm) (sat : Bool) (a : Nat), f ∈ [fmtF64, fmtF32, fmtF16, fmtBf16, fmtE4m3, fmtE5m2] → rm ≠ .dyn →
      g ∈ [fmtF64, fmtF32, fmtF16, fmtBf16, fmtE4m3, fmtE5m2] → isFin (g.decode a) = true → realOf (g.decode a) ≠ 0 →
      Delivers f rm sat (realOf (g.decode a)) (fpConv g f rm sat a))
  ∧ (∀ (f : FpFmt) (rm : Rm) (sat : Bool) (w a : Nat), f ∈ [fmtF64, fmtF32, fmtF16, fmtBf16, fmtE4m3, fmtE5m2] → rm ≠ .dyn →
      a % 2 ^ w ≠ 0 →
      Delivers f rm sat ((a % 2 ^ w : Nat) : ℝ) (intToFp f rm sat w false a)
      ∧ (0 < w → Delivers f rm sat (signedVal w a : ℝ) (intToFp f rm sat w true a)))

/-- The functions beside the arithmetic. Comparisons are by value, with -0 equal to +0 and NV for a signalling NaN, of an ordered one
for any NaN; the minimum and the maximum put -0 below +0 and let a NaN give way to a number (R132, R227). A float to an integer is
rounded by the mode and clamped, a NaN is the maximum (R133). VFEXP2, VFLOG2, VFRCP and VFRSQ have the special operands of R225; of
VFRCP and VFRSQ, of VFEXP2 at an integer and of VFLOG2 at a power of two the exact value is rounded once, of VFEXP2 and VFLOG2 elsewhere a
value that the exact one's rounding cannot tell from it. NaN, infinity and zero convert as R204 and R228 have it, and a lane of VCVT
by the kind of its types. A block is packed with the least scale that will do and the nearest codes, ties to even (R229). A float
reduction goes lane by lane, NaN lanes giving way (R222). -/
def Obligations.FloatFunctions : Prop :=
  (∀ (f : FpFmt) (a b : Nat), f ∈ [fmtF64, fmtF32, fmtF16, fmtBf16] →
    let x := f.decode a
    let y := f.decode b
    let fl := snanFl x ||| snanFl y
    (x.isNan = true ∨ y.isNan = true →
      fpEq f a b = (false, fl) ∧ fpLt f a b = (false, NV) ∧ fpLe f a b = (false, NV) ∧ fpUno f a b = (true, fl)
      ∧ ∀ m, fpMinMax f m a b = (if x.isNan = true ∧ y.isNan = true then f.qnan else if x.isNan = true then b else a, fl))
    ∧ (x.isNan = false → y.isNan = false →
      fpEq f a b = (decide (valOf x = valOf y), 0) ∧ fpLt f a b = (decide (valOf x < valOf y), 0)
      ∧ fpLe f a b = (decide (valOf x ≤ valOf y), 0) ∧ fpUno f a b = (false, 0) ∧ (∀ m, fpMinMax f m a a = (a, 0))
      ∧ (valOf x < valOf y ∨ (valOf x = valOf y ∧ signOf x = true ∧ signOf y = false) →
        fpMinMax f false a b = (a, 0) ∧ fpMinMax f false b a = (a, 0)
        ∧ fpMinMax f true a b = (b, 0) ∧ fpMinMax f true b a = (b, 0))))
  ∧ (∀ (f : FpFmt) (rm : Rm) (w a : Nat) (signed : Bool), f ∈ [fmtF64, fmtF32, fmtF16, fmtBf16, fmtE4m3, fmtE5m2] → rm ≠ .dyn → 0 < w →
    let hi : Int := if signed then 2 ^ (w - 1) - 1 else 2 ^ w - 1
    let lo : Int := if signed then -2 ^ (w - 1) else 0
    let code := fun (k : Int) => (k % 2 ^ w).toNat
    let x := f.decode a
    (x.isNan = true → fpToInt f rm w signed a = (code hi, NV))
    ∧ (∀ g, x = .inf g → fpToInt f rm w signed a = (code (if g then lo else hi), NV))
    ∧ (isFin x = true → ∃ k, SelectedInt rm (realOf x) k ∧ fpToInt f rm w signed a = (if hi < k then (code hi, NV)
      else if k < lo then (code lo, NV) else (code k, if (k : ℝ) = realOf x then 0 else NX))))
  ∧ (∀ (f : FpFmt) (a : Nat), f ∈ [fmtF64, fmtF32, fmtF16, fmtBf16] →
    let x := f.decode a
    let v := realOf x
    let near := fun (r : Nat × Fl) (exact err : ℝ) => ∃ t : ℝ, |t - exact| ≤ err ∧ Delivers f .rne false t r
    (x.isNan = true → fpExp2 f a = (f.qnan, snanFl x) ∧ fpLog2 f a = (f.qnan, snanFl x) ∧ fpRcp f a = (f.qnan, snanFl x)
      ∧ fpRsq f a = (f.qnan, snanFl x))
    ∧ (x = .inf false → fpExp2 f a = (f.infBits false, 0) ∧ fpLog2 f a = (f.infBits false, 0) ∧ fpRcp f a = (0, 0) ∧ fpRsq f a = (0, 0))
    ∧ (x = .inf true → fpExp2 f a = (0, 0) ∧ fpLog2 f a = (f.qnan, NV) ∧ fpRcp f a = (f.sgn true, 0) ∧ fpRsq f a = (f.qnan, NV))
    ∧ (isFin x = true →
      (∀ i : Int, v = i → Delivers f .rne false ((2 : ℝ) ^ i) (fpExp2 f a))
      ∧ (|v| < 2 ^ 20 → near (fpExp2 f a) ((2 : ℝ) ^ v) ((2 : ℝ) ^ v * (2 : ℝ) ^ (-130 : Int)))
      ∧ (2 ^ 20 ≤ v → fpExp2 f a = (f.infBits false, OF ||| NX)) ∧ (v ≤ -2 ^ 20 → fpExp2 f a = (0, UF ||| NX))
      ∧ (v = 0 → fpLog2 f a = (f.infBits true, DZ) ∧ fpRcp f a = (f.infBits (signOf x), DZ) ∧ fpRsq f a = (f.infBits (signOf x), DZ))
      ∧ (v < 0 → fpLog2 f a = (f.qnan, NV) ∧ fpRsq f a = (f.qnan, NV)) ∧ (v = 1 → fpLog2 f a = (0, 0))
      ∧ (∀ i : Int, v = (2 : ℝ) ^ i → i ≠ 0 → Delivers f .rne false (i : ℝ) (fpLog2 f a))
      ∧ (0 < v → (∀ i : Int, v ≠ (2 : ℝ) ^ i) → near (fpLog2 f a) (Real.logb 2 v) ((2 : ℝ) ^ (-200 : Int)))
      ∧ (v ≠ 0 → Delivers f .rne false (1 / v) (fpRcp f a)) ∧ (0 < v → Delivers f .rne false (1 / Real.sqrt v) (fpRsq f a))))
  ∧ (∀ (f g : FpFmt) (rm : Rm) (st : Bool) (a : Nat), f ∈ [fmtF64, fmtF32, fmtF16, fmtBf16, fmtE4m3, fmtE5m2] →
    g ∈ [fmtF64, fmtF32, fmtF16, fmtBf16, fmtE4m3, fmtE5m2] →
    let x := g.decode a
    (x.isNan = true → fpConv g f rm st a = (f.qnan, snanFl x))
    ∧ (∀ n, x = .inf n → fpConv g f rm st a = ((infinity f st n).1,
        if st = true ∧ (f = fmtE4m3 ∨ f = fmtE5m2) then NX else (infinity f st n).2))
    ∧ (isFin x = true → realOf x = 0 → fpConv g f rm st a = (f.sgn (signOf x), 0))
    ∧ ∀ w signed, intToFp f rm st w signed 0 = (0, 0))
  ∧ (∀ (dst src : Ty) (rm : Rm) (st : Bool) (a : Nat),
    let fl := fun (t : Ty) => t.isInt = false
    (src.isInt = true → dst.isInt = true → cvtLane dst src rm st a =
      (((if st = true then sat dst (tyVal src a) else tyVal src a) % 2 ^ tyBits dst).toNat, 0))
    ∧ (src.isInt = true → fl dst → cvtLane dst src rm st a = intToFp (tyFp dst) rm st (tyBits src) src.isSignedInt a)
    ∧ (fl src → dst.isInt = true → cvtLane dst src rm st a = fpToInt (tyFp src) rm (tyBits dst) dst.isSignedInt a)
    ∧ (fl src → fl dst → cvtLane dst src rm st a = fpConv (tyFp src) (tyFp dst) rm st a))
  ∧ (∀ (xs : List Nat), xs.length = 8 →
    let nums := xs.map fmtF32.decode
    let qs := (packBlock xs).1
    let b := (packBlock xs).2.1
    let infs := ∃ g, Machine.Num.inf g ∈ nums
    let wrong := fun (i : Nat) => ∃ x, nums[i]? = some x ∧ x.isNan = false
      ∧ (isFin x = true → realOf (fmtF4.decode (qs.getD i 0 % 8)) * scaleOf b ≠ |realOf x|)
    qs.length = 8 ∧ b < 256
    ∧ (infs → b = 255)
    ∧ (¬ infs → (∀ b' < b, ∃ x ∈ nums, isFin x = true ∧ scaleOf b' < |realOf x| / 6)
      ∧ (b = 255 ∨ ∀ x ∈ nums, isFin x = true → |realOf x| / 6 ≤ scaleOf b))
    ∧ (∀ i x, nums[i]? = some x →
      (x.isNan = true → qs.getD i 0 = 0)
      ∧ (∀ g, x = .inf g → qs.getD i 0 = (if g then 8 else 0) + 7)
      ∧ (isFin x = true → ∃ q < 8, qs.getD i 0 = (if signOf x then 8 else 0) + q
        ∧ (b = 0 → q = 0)
        ∧ (b ≠ 0 → ∀ j < 8, j ≠ q →
          let off := fun (k : Nat) => abs (realOf (fmtF4.decode k) * scaleOf b - abs (realOf x))
          off q < off j ∨ (off q = off j ∧ q % 2 = 0))))
    ∧ (NV &&& (packBlock xs).2.2 ≠ 0 ↔ ∃ x ∈ nums, x.isNan = true)
    ∧ (NX &&& (packBlock xs).2.2 ≠ 0 ↔ ∃ i, wrong i) ∧ (packBlock xs).2.2 &&& (DZ ||| OF ||| UF) = 0)
  ∧ (∀ (f : FpFmt) (op : Nat → Nat → Nat × Fl) (ident y : Nat) (xs : List Nat),
    let num := fun (z : Nat) => (f.decode z).isNan = false
    let r := redFloat f op ident xs
    let t := redFloat f op ident (xs ++ [y])
    redFloat f op ident [] = (ident, 0)
    ∧ (¬ num y → (∀ z ∈ xs, ¬ num z) → t = (f.qnan, (if xs = [] then 0 else r.2) ||| snanFl (f.decode y)))
    ∧ (num y → (∀ z ∈ xs, ¬ num z) → t = (y, if xs = [] then 0 else r.2))
    ∧ (¬ num y → (∃ z ∈ xs, num z) → t = (r.1, r.2 ||| snanFl (f.decode y)))
    ∧ (num y → (∃ z ∈ xs, num z) → t = ((op r.1 y).1, r.2 ||| (op r.1 y).2)))

/-- The integer vector instructions and comparisons complete lane by lane under their mask (R211 to R217). -/
def Obligations.VectorIntegerResults : Prop :=
  ∀ (s : State) (i : Instr) (e : Effect), i.wf = true → vecInt s i = some e → CanIssue e.srcs s → Does i s e

/-- The lane instructions, the reductions and the mask instructions complete (R218 to R223). -/
def Obligations.VectorLaneResults : Prop :=
  ∀ (s : State) (i : Instr) (e : Effect), i.wf = true → vecLanes s i = some e ∨ vecReduce s i = some e → CanIssue e.srcs s →
    Does i s e

/-- The floating vector instructions and comparisons, the conversions and the block packing complete; only active lanes raise
flags (R213, R214, R224 to R229). -/
def Obligations.VectorFloatResults : Prop :=
  ∀ (s : State) (i : Instr) (e : Effect), i.wf = true → vecFloat s i = some e ∨ vecConvert s i = some e → CanIssue e.srcs s →
    Does i s e

/-! # Control flow -/

/-- BR, JAL, JR and JALR complete at their targets; JAL and JALR leave pc + 8 in D; a register target pays the penalty of
R104, and one that is not a multiple of 4 traps with cause 4 before the link (R109, R110). -/
def Obligations.Jumps : Prop :=
  (∀ (s : State) (o : BrO), s.here.run = .active → ∃ t, exec (.br o) s = .next t ∧ JumpsTo [] none (relative s o.off) 0 s t)
  ∧ (∀ (s : State) (o : JalO), s.here.run = .active →
      ∃ t, exec (.jal o) s = .next t ∧ JumpsTo [] (some (o.d, s.here.pc + 8)) (relative s o.off) 0 s t)
  ∧ (∀ (s : State) (o : JrO), CanIssue [.s o.a o.am] s →
      let target := s.rd o.a + o.imm.signExtend 64
      (target.toNat % 4 = 0 → ∃ t, exec (.jr o) s = .next t ∧ JumpsTo [.s o.a o.am] none target 6 s t)
      ∧ (target.toNat % 4 ≠ 0 → exec (.jr o) s = .next (s.trap 4 target)))
  ∧ (∀ (s : State) (o : JalrO), CanIssue [.s o.a o.am] s →
      let target := s.rd o.a + o.imm.signExtend 64
      (target.toNat % 4 = 0 →
        ∃ t, exec (.jalr o) s = .next t ∧ JumpsTo [.s o.a o.am] (some (o.d, s.here.pc + 8)) target 6 s t)
      ∧ (target.toNat % 4 ≠ 0 → exec (.jalr o) s = .next (s.trap 4 target)))

/-- A conditional branch whose condition holds completes at its target; one whose condition fails goes on to the next
instruction; either pays 6 cycles when its hint was wrong (R103, R104, R111). -/
def Obligations.Branches : Prop :=
  ∀ (s : State) (i : Instr) (o : BranchO) (c : Bool), taken s i = some (o, c) → CanIssue [.s o.a o.am, .s o.b o.bm] s →
    (c = true → ∃ t, exec i s = .next t
      ∧ JumpsTo [.s o.a o.am, .s o.b o.bm] none (relative s o.off) (if o.hint then 0 else 6) s t)
    ∧ (c = false → Does i s { srcs := [.s o.a o.am, .s o.b o.bm]
                              slot := fun sl => { sl with penalty := if o.hint then some (s.cycleOf s.cur.core + 14) else sl.penalty } })

/-- LOOP and LBRK (R113, R114): a count n enters the body with LC = n and LS, LE set, a count of 0 goes to the end with the penalty
of 6 cycles; a LOOP inside an active loop, or whose end is not behind its start, traps with cause 12; LBRK leaves an active loop
for LE without penalty and is a NOP outside one. Both use a turn and change nothing outside their slot but a register consumed. -/
def Obligations.Loops : Prop :=
  (∀ (s : State) (o : LoopO), CanIssue [.s o.a o.am] s →
    let body : Int := (s.here.pc.toNat : Int) + 8
    let stop : Int := (s.here.pc.toNat : Int) + 4 * o.off.toInt
    (s.here.lc = 0 → body < stop → ∃ t, exec (.loop o) s = .next t ∧ SlotOnly s t
      ∧ t.here = { s.here with
          sregs := t.here.sregs, turns := s.here.turns + 1, interval := some (s.cycleOf s.cur.core + 8), walkFault := none, walked := []
          ls := s.here.pc + 8, le := relative s o.off, lc := s.rd o.a, loopMode := s.here.mode.priv
          pc := if s.rd o.a = 0 then relative s o.off else s.here.pc + 8
          penalty := if s.rd o.a = 0 then some (s.cycleOf s.cur.core + 14) else s.here.penalty }
      ∧ ∀ f, t.sreg s.cur f = sAfter { srcs := [.s o.a o.am] } s f)
    ∧ (s.here.lc ≠ 0 ∨ stop ≤ body → exec (.loop o) s = .next (s.trap 12 (relative s o.off))))
  ∧ (∀ s : State, s.here.run = .active →
      (s.here.lc = 0 → Does .lbrk s {})
      ∧ (s.here.lc ≠ 0 → ∃ t, exec .lbrk s = .next t ∧ SlotOnly s t
        ∧ t.here = { s.here with
            turns := s.here.turns + 1, interval := some (s.cycleOf s.cur.core + 8), walkFault := none, walked := []
            lc := 0, pc := s.here.le }))

/-- The event latch and the cancellation point (R102, R116, R121 to R123): WFE clears a set latch and goes on, else parks;
WFET answers 0 for a set latch, 1 for a limit of 0, else parks until its limit; SEV sends; CPOINT is a NOP without a
pending cancellation, and with one it is due behind the CPOINT. -/
def Obligations.EventLatch : Prop :=
  (∀ s : State, s.here.run = .active → s.here.evt = true → Does .wfe s { slot := fun sl => { sl with evt := false } })
  ∧ (∀ s : State, s.here.run = .active → s.here.evt = false → NoCancel s → Does .wfe s { park := some .wfe })
  ∧ (∀ (s : State) (o : RRO), CanIssue [.s o.a o.am] s → s.here.evt = true →
      Does (.wfet o) s { srcs := [.s o.a o.am], gives := some (o.d, 0), numbered := true, slot := fun sl => { sl with evt := false } })
  ∧ (∀ (s : State) (o : RRO), CanIssue [.s o.a o.am] s → s.here.evt = false → s.rd o.a = 0 →
      Does (.wfet o) s { srcs := [.s o.a o.am], gives := some (o.d, 1), numbered := true })
  ∧ (∀ (s : State) (o : RRO), CanIssue [.s o.a o.am] s → s.here.evt = false → s.rd o.a ≠ 0 → NoCancel s →
      Does (.wfet o) s { sends s [.s o.a o.am] .wfet (.s o.d.val) none none false 0 8 with
        park := some (.wfet s.nextId (s.cycleOf s.cur.core + (s.rd o.a).toNat)) })
  ∧ (∀ (s : State) (o : OneA), CanIssue [.s o.a o.am] s →
      let c := field (s.rd o.a).toNat 4 10
      Does (.sev o) s (sends s [.s o.a o.am] (.sev c ((s.rd o.a).toNat % 16)) .none
        (some (if coreDie c = coreDie s.cur.core then .die else .pkg)) none false 0 8))
  ∧ (∀ s : State, s.here.run = .active → NoCancel s → Does .cpoint s {})
  ∧ (∀ s : State, s.here.run = .active → s.here.mode.cpend = true → s.here.mode.priv = false →
      ∃ t, exec .cpoint s = .next t ∧ t.here.run = .cancelDue (s.here.pc + 8) ∧ t.hbm = s.hbm
        ∧ ∀ f, t.sreg s.cur f = s.sreg s.cur f)

/-- EXIT and EXITC end the task (R124): the slot stops issuing, with EXITC's code and PC kept for its record; a code of 0 is
EXIT; what it still awaited will be discarded. -/
def Obligations.Exits : Prop :=
  (∀ s : State, s.here.run = .active → ∃ t, exec .exit s = .next t ∧ t.here.run = .ending .exit
    ∧ (∀ q ∈ t.here.pend, q.dest = .none) ∧ t.hbm = s.hbm ∧ ∀ f, t.sreg s.cur f = s.sreg s.cur f)
  ∧ (∀ (s : State) (o : OneA), CanIssue [.s o.a o.am] s → ∃ t, exec (.exitc o) s = .next t
    ∧ t.here.run = .ending (if (s.rd o.a).setWidth 16 = (0 : BitVec 16) then .exit else .exitc ((s.rd o.a).setWidth 16) s.here.pc)
    ∧ (∀ q ∈ t.here.pend, q.dest = .none) ∧ t.hbm = s.hbm
    ∧ ∀ f, t.sreg s.cur f = sAfter { srcs := [.s o.a o.am] } s f)

/-! # Special registers -/

/-- A special register reads back what R99 and R119 let a write that has landed leave in it: the bits that the register has, FRM 0
for a reserved mode, MODE's read-only bits, the read-only registers as they were, and an SFMT register that a copy job's stamp has
set in the same cycle as the stamp left it. A write of a register that only its slot sees lands as it issues; one of a register that
several slots see is then on its way, and every slot reads the register as before (R120). -/
def Obligations.SpecialRegisterReadback : Prop :=
  ∀ (s : State) (r : SlotRef) (c : Csr) (v : Word), (s.part? (s.partOf r)).isSome = true →
    (∀ w, (s.slotAt r).run ≠ .parked w) →
    ((match c with
        | .spbase | .ptbase | .tvec | .bjoin | .sfmt _ => True
        | _ => False) →
      (∀ r' c', (s.csrWrite r c v).csrRead r' c' = s.csrRead r' c')
      ∧ ∃ x w, s.csrWrite r c v = s.modCp r.core (s.partOf r) fun cp => { cp with cwrites := cp.cwrites ++ [⟨x, r.slot, w⟩] })
    ∧ ((match c with
        | .spbase | .ptbase | .tvec | .bjoin | .sfmt _ => False
        | _ => True) → s.csrWrite r c v = s.csrLand r c v)
    ∧ (s.csrLand r c v).csrRead r c = match c with
      | .spbase | .ptbase => v &&& 0xFFFFFFFFFFFF0000
      | .tvec => v &&& 0xFFFFFFFFFFFFFFFC
      | .bjoin => v &&& 7
      | .cause => v &&& 0xFF
      | .mode => s.csrRead r .mode &&& 0x34 ||| v &&& 0xB
      | .sfmt i => if Sparse.get 0 (s.cpAt r.core (s.partOf r)).stamps i.val = s.cycleOf r.core + 1 then s.csrRead r c else v &&& 0xF
      | .evt | .spdctl => v &&& 1
      | .bto => v &&& 0xFFFFFFFF
      | .fflags => v &&& 0x1F
      | .frm => if 5 ≤ v.toNat % 8 then 0 else v &&& 7
      | .sscratch | .tval | .epc | .seed | .le | .ls | .lc => v
      | .time | .turns | .cycle | .part | .core | .slot => s.csrRead r c

/-- CSRR reads the register its index names, in supervisor mode from index 0x100 on (R89, R117). CSRW, CSRS, CSRC and CSRX write A, A with the old bits, the old bits without A's, and A, in one step; the last three
leave the old value in D (R117). The old value is the register's, or that of the newest write to it on its way on the core. Writes to LS and LE while a loop is active, and of a nonzero value to LC while none is, trap with cause 12 and the index
as TVAL, whichever of the four instructions makes them (R118). -/
def Obligations.SpecialRegisterAccess : Prop :=
  (∀ (s : State) (o : CsrRO) (c : Csr), csrOfIndex o.idx = some c → s.here.run = .active →
    o.idx.toNat < 0x100 ∨ s.here.mode.priv = true → Does (.csrr o) s { ws := some (o.d, s.csrRead s.cur c) })
  ∧ (∀ (s : State) (i : Instr) (idx : BitVec 12) (c : Csr) (a : SField) (am : Md) (d : Option SField) (v : Word),
    (match i with
      | .csrw o => idx = o.idx ∧ a = o.a ∧ am = o.am ∧ d = none ∧ v = s.rd o.a
      | .csrs o => idx = o.idx ∧ a = o.a ∧ am = o.am ∧ d = some o.d ∧ v = s.csrNow s.cur c ||| s.rd o.a
      | .csrc o => idx = o.idx ∧ a = o.a ∧ am = o.am ∧ d = some o.d ∧ v = s.csrNow s.cur c &&& ~~~(s.rd o.a)
      | .csrx o => idx = o.idx ∧ a = o.a ∧ am = o.am ∧ d = some o.d ∧ v = s.rd o.a
      | _ => False) →
    csrOfIndex idx = some c → CanIssue [.s a am] s → idx.toNat < 0x100 ∨ s.here.mode.priv = true →
    (¬ ((c = .ls ∨ c = .le) ∧ s.here.lc ≠ 0) → ¬ (c = .lc ∧ s.here.lc = 0 ∧ v ≠ 0) →
      let u := (s.consume [.s a am]).csrWrite s.cur c v
      exec i s = .next ((match d with
        | some d => u.wr d (s.csrNow s.cur c)
        | none => u).retire 8 8))
    ∧ ((c = .ls ∨ c = .le) ∧ s.here.lc ≠ 0 ∨ c = .lc ∧ s.here.lc = 0 ∧ v ≠ 0 → exec i s = .next (s.trap 12 (idx.setWidth 64))))
  ∧ (∀ (s : State) (r : SlotRef) (c : Csr), (s.cpAt r.core (s.partOf r)).cwrites = [] → s.csrNow r c = s.csrRead r c)
  ∧ (∀ (s : State) (r : SlotRef) (v : Word), (s.csrWrite r .bjoin v).csrNow r .bjoin = v &&& 7)
  ∧ csrOfIndex 0x010 = some .lc ∧ csrOfIndex 0x011 = some .ls ∧ csrOfIndex 0x012 = some .le

/-- The rows for the writes of BJOIN, EVT, LC, LS and LE, FRM, SFMT and the other special registers each land in the register
named (R99, R118 to R120, R262). A per-partition register's write reaches the other cores of the package with
PARTITION_CSR_PROPAGATION: some write under way reaches some more of them, or the last of them, and then the register holds it. That
the writes of one register arrive in one order everywhere, and which of them moves when, is the model's (log 29, DEDUCED: R120
gives each core up to 256 cycles). -/
def Obligations.SpecialRegisterRows : Prop :=
  (∀ (s : State) (e : CsrEv) (c : Csr), csrOfIndex e.idx = some c → c.readOnly = false →
    s.csrLoopFault e.ref c e.val = false →
    exec (match c with
      | .bjoin => .bjoinWrite e
      | .evt => .evtWrite e
      | .lc => .lcWrite e
      | .ls | .le => .lsLeWrite e
      | .frm => .frmWrite e
      | .sfmt _ => .sfmtWrite e
      | _ => .csrRegisterWrite e) s = .next (s.csrLand e.ref c e.val))
  ∧ (∀ (s : State) (p : Nat) (P : Partition), s.part? p = some P → P.upds ≠ [] →
    ∃ t, exec (.partitionCsrPropagation p) s = .next t ∧ t = { s with parts := t.parts, draws := t.draws }
      ∧ ∃ u ∈ P.upds, ∃ P', t.part? p = some P'
      ∧ ((P.upds.find? (fun x => x.reg == u.reg) = some u ∧ P'.upds = P.upds.erase u
          ∧ P'.tvec = (if u.reg = .tvec then u.val else P.tvec) ∧ P'.ptbase = (if u.reg = .ptbase then u.val else P.ptbase)
          ∧ P'.spbase = (if u.reg = .spbase then u.val else P.spbase))
        ∨ ∃ n, P' = { P with upds := P.upds.map fun x => if x = u then { x with seen := n :: x.seen } else x }))

/-! # Memory -/

/-- Every load, store, atomic, reduction and fence completes when its checks pass. A load's destination is emptied and the read of
its segments is outstanding (R94, R95, R171, R174 to R178, R196); a store's bytes over its segments are outstanding, or the
operation on its place with the release and the acquire of its ORD, and no register changes but an awaited destination (R80,
R157, R191 to R194). That an atomic on the core's own window takes no miss-queue entry is the model's reading (log 11, DEDUCED), and
so are the pieces of a vector access that is not aligned (log 16). A fence completes at once and is outstanding until performed; a
FENCE.acq discards what its slot has fetched ahead (R70, R160, R195; log 26: DEDUCED). -/
def Obligations.MemoryRequests : Prop :=
  (∀ (s : State) (i : Instr) (A : Access) (gs : List Seg), loads s i = some A ∨ stores s i = some A ∨ atomics s i = some A →
    CanIssue (A.eff gs).srcs s → Reaches s A.check A.mq gs → Does i s (A.eff gs))
  ∧ (∀ (s : State) (i : Instr) (e : Effect), fences s i = some e → s.here.run = .active → Does i s e)

/-- The synchronising scratchpad accesses complete at a window address when their checks pass, LDSY by parking; at a paged
address they trap with cause 11 (R171, R179). What each is as a release or an acquire is the model's reading where the rules leave
it to inference (logs 10 and 14). -/
def Obligations.SynchronisingAccesses : Prop :=
  ∀ (s : State) (i : Instr) (va : Nat) (A : Access), banks s i = some (va, A) → CanIssue (A.eff []).srcs s →
    (∀ c off gs, whereIs s.cur.core va = .win c off → NoCancel s → Reaches s A.check A.mq gs → Does i s (A.eff gs))
    ∧ (whereIs s.cur.core va = .page → exec i s = .next (s.trap 11 (BitVec.ofNat 64 va)))

/-- What stops an access before its effect, taking nothing (R171, R95): an address no access may use, then a misalignment,
trap with causes 7 and 4 and the address; a failed translation traps with its cause; a missing translation and a full miss
queue stall the slot. An access that leaves its partition's share of a scratchpad traps with cause 7 and the lowest address that
does so (R171). -/
def Obligations.AccessFaults : Prop :=
  (∀ (s : State) (acc : Acc) (va n align : Nat),
      (whereIs s.cur.core va = .bad → s.memXl acc va n align = .trap 7 va)
      ∧ (whereIs s.cur.core va ≠ .bad → va % align ≠ 0 → s.memXl acc va n align = .trap 4 va)
      ∧ (∀ c off, whereIs s.cur.core va = .win c off → va % align = 0 → s.padSize s.herePart < off + n →
          s.memXl acc va n align = .trap 7 (if off < s.padSize s.herePart then va + (s.padSize s.herePart - off) else va)))
  ∧ (∀ (s : State) (i : Instr) (A : Access), loads s i = some A ∨ stores s i = some A ∨ atomics s i = some A →
      CanIssue (A.eff []).srcs s →
      (∀ c v, A.check = .trap c v → exec i s = .next (s.trap c (BitVec.ofNat 64 v)))
      ∧ (∀ v acc, A.check = .stall v acc → exec i s = .next (s.modHere fun sl => { sl with run := .stalled (.walk v acc) }))
      ∧ (∀ gs, A.check = .ok gs → A.mq = true → s.mqFull = true →
          exec i s = .next (s.modHere fun sl => { sl with run := .stalled .missQueue })))

/-- Bytes that an agent of a die stores are what an agent of that die reads there, and every other byte of paged memory and
of the scratchpads reads as before (R141, R153, R161, R175). -/
def Obligations.StoredBytes : Prop :=
  ∀ (s : State) (d p : Nat) (l : Loc) (bs : List Byte), p < 4 → placed l = true →
    (∀ i < bs.length, (s.locWrite d p l bs).locByte d p (byteOn l i) 0 = bs.getD i 0)
    ∧ (∀ l', placed l' = true → (∀ i < bs.length, sameByte l' (byteOn l i) = false) → (s.locWrite d p l bs).locByte d p l' 0 = s.locByte d p l' 0)

/-- The page controls (R189, R190): PREF brings a sector into the caches under its policy and never traps; FLUSH writes a line back
from the L1 and pushes its dirty sectors; INVL drops the clean copies of a line from the L1 and, of a remote-homed line, from the
die's L2; at a window address none of the three does anything; PIN sets or clears a retention range, UNPIN clears one, and the
lines held are retained accordingly; each retires. That lines held are retained from the instruction's issue on, on every die, is the
model's choice (log 84, DESIGN CHOICE: R190 gives it up to 256 cycles), and so is that a PREF of a sector behind a frozen die brings
nothing (log 84). FLUSH and INVL trap with cause 7 at an address that no access may use; PIN traps
with cause 4 on an address or a length that is no multiple of 512. A failed translation traps with its cause, and on a missing one
all four stall, taking nothing. -/
def Obligations.CacheControls : Prop :=
  (∀ (s : State) (o : PrefO), CanIssue [.s o.a o.am] s →
      let va := addr s o.a o.imm
      let d := coreDie s.cur.core
      (∀ pa home tag n gs, whereIs s.cur.core va = .page → s.xl .read va 1 = .ok (⟨.paged pa home tag, n⟩ :: gs) →
        (s.readLive d false [⟨.paged pa home tag, 1⟩] = false → Does (.pref o) s { srcs := [.s o.a o.am] })
        ∧ (s.readLive d false [⟨.paged pa home tag, 1⟩] = true → DoesAs (.pref o) s { srcs := [.s o.a o.am] } fun u =>
          (u.cacheUse d s.herePart (some s.cur.core) o.pol.val (lineKey (pa / 512) tag home) (pa / 128 % 4) false).touch d tag pa home
            false (o.pol.val != 4)))
      ∧ (∀ c v, whereIs s.cur.core va ≠ .page ∨ s.xl .read va 1 = .trap c v → Does (.pref o) s { srcs := [.s o.a o.am] })
      ∧ (∀ v acc, whereIs s.cur.core va = .page → s.xl .read va 1 = .stall v acc →
          exec (.pref o) s = .next (s.modHere fun sl => { sl with run := .stalled (.walk v acc) })))
  ∧ (∀ (s : State) (o : SyEmO), CanIssue [.s o.a o.am] s →
      let va := addr s o.a o.imm
      let d := coreDie s.cur.core
      (∀ pa home tag n gs, whereIs s.cur.core va = .page → s.xl .read va 1 = .ok (⟨.paged pa home tag, n⟩ :: gs) →
        let key := lineKey (pa / 512) tag home
        let dirty := (Sparse.get? (s.coreAt s.cur.core).l1 key).any fun (l : CLine) => !l.dirty.isEmpty
        DoesAs (.flush o) s { srcs := [.s o.a o.am] } (fun u =>
          (u.l1Drop s.cur.core key fun _ => dirty).pushSel d fun k => keyDiv 512 k == key)
        ∧ DoesAs (.invl o) s { srcs := [.s o.a o.am] } (fun u =>
          let u := u.l1Drop s.cur.core key fun dirty => !dirty
          if home = d then u
          else [0, 128, 256, 384].foldl (fun (u : State) i => u.dropCopy d tag home (pa / 512 * 512 + i)) u))
      ∧ (∀ c off, whereIs s.cur.core va = .win c off →
          Does (.flush o) s { srcs := [.s o.a o.am] } ∧ Does (.invl o) s { srcs := [.s o.a o.am] })
      ∧ (whereIs s.cur.core va = .bad → exec (.flush o) s = .next (s.trap 7 (BitVec.ofNat 64 va))
          ∧ exec (.invl o) s = .next (s.trap 7 (BitVec.ofNat 64 va)))
      ∧ (∀ c v, whereIs s.cur.core va = .page → s.xl .read va 1 = .trap c v →
          exec (.flush o) s = .next (s.trap c (BitVec.ofNat 64 v)) ∧ exec (.invl o) s = .next (s.trap c (BitVec.ofNat 64 v)))
      ∧ (∀ v acc, whereIs s.cur.core va = .page → s.xl .read va 1 = .stall v acc →
          exec (.flush o) s = .next (s.modHere fun sl => { sl with run := .stalled (.walk v acc) })
          ∧ exec (.invl o) s = .next (s.modHere fun sl => { sl with run := .stalled (.walk v acc) })))
  ∧ (∀ (s : State) (o : PinO), CanIssue [.s o.a o.am, .s o.b o.bm] s →
      let a := (s.rd o.a).toNat
      let b := (s.rd o.b).toNat
      (b = 0 → DoesAs (.pin o) s { srcs := [.s o.a o.am, .s o.b o.bm] } fun u =>
          (u.modPart s.herePart fun P => { P with pins := Sparse.erase o.n.toNat P.pins }).reKeep s.herePart)
      ∧ (b ≠ 0 → a % 512 = 0 → b % 512 = 0 →
          (∀ gs, s.xl .read a b = .ok gs → DoesAs (.pin o) s { srcs := [.s o.a o.am, .s o.b o.bm] } fun u =>
            (u.modPart s.herePart fun P => { P with
              pins := Sparse.set o.n.toNat (a, b, s.pinFrames a b) P.pins }).reKeep s.herePart)
          ∧ (∀ c v, s.xl .read a b = .trap c v → exec (.pin o) s = .next (s.trap c (BitVec.ofNat 64 v)))
          ∧ (∀ v acc, s.xl .read a b = .stall v acc →
              exec (.pin o) s = .next (s.modHere fun sl => { sl with run := .stalled (.walk v acc) })))
      ∧ (b ≠ 0 → a % 512 ≠ 0 → exec (.pin o) s = .next (s.trap 4 (s.rd o.a)))
      ∧ (b ≠ 0 → a % 512 = 0 → b % 512 ≠ 0 → exec (.pin o) s = .next (s.trap 4 (s.rd o.b))))
  ∧ (∀ (s : State) (o : UnpinO), s.here.run = .active → DoesAs (.unpin o) s {} fun u =>
      (u.modPart s.herePart fun P => { P with pins := Sparse.erase o.n.toNat P.pins }).reKeep s.herePart)

/-! # Requests to units and engines -/

/-- COPY, COPY2 and KVGATH join their cluster's queue with their operands latched while the partition has a place there, and
stall without one; a count of zero answers 0 at once (R182, R184 to R186). That such a job is charged its 1 to the credit that
its partition has while it has jobs queued or running there, and is otherwise charged to none, is the model's choice (log 22, DEDUCED
from R284 and R373), and so is that a running job counts in the share and that a count of zero stalls too while the share is full
(log 89, DESIGN CHOICE). -/
def Obligations.CopyRequests : Prop :=
  ∀ (s : State) (i : Instr) (e : Effect), copies s i = some e → CanIssue e.srcs s →
    (s.copyHeld (clusterOf s.cur.core) s.herePart < 4 * s.slotCount s.herePart → Does i s e)
    ∧ (4 * s.slotCount s.herePart ≤ s.copyHeld (clusterOf s.cur.core) s.herePart →
        exec i s = .next (s.modHere fun sl => { sl with run := .stalled .engineQueue }))

/-- The matrix unit's instructions (R283, R296, R299, R300, R302): MMA joins the queue or stalls; EPIW takes the oldest row
addressed to its slot, or parks until one is, and traps with cause 18 while a row is held; EPID lets the held row go, with DRAIN
its bytes of v12 to v15 going out to C, and traps with cause 18 without one; SPDZ's lanes are outstanding with their values known. -/
def Obligations.MatrixRequests : Prop :=
  (∀ (s : State) (o : MmaO), CanIssue (mmaSrcs o) s →
      (s.mmaHeld (clusterOf s.cur.core) s.herePart < 2 * s.slotCount s.herePart → Does (.mma o) s (queuesMma s o))
      ∧ (2 * s.slotCount s.herePart ≤ s.mmaHeld (clusterOf s.cur.core) s.herePart →
          exec (.mma o) s = .next (s.modHere fun sl => { sl with run := .stalled .engineQueue })))
  ∧ (∀ (s : State) (o : OneD), s.here.run = .active →
      (∀ x, s.here.held = some x → exec (.epiw o) s = .next (s.trap 18 (BitVec.ofNat 64 (rowDesc x))))
      ∧ (∀ x, s.here.held = none → (s.cpAt s.cur.core s.herePart).epi.find? (fun e => e.slot == s.cur.slot) = some x →
          Does (.epiw o) s { gives := some (o.d, BitVec.ofNat 64 (rowDesc x)), numbered := true
                             wv := [(12, rowWord x 0), (13, rowWord x 1), (14, rowWord x 2), (15, rowWord x 3)]
                             slot := fun sl => { sl with held := some x } })
      ∧ (s.here.held = none → (s.cpAt s.cur.core s.herePart).epi.find? (fun e => e.slot == s.cur.slot) = none → NoCancel s →
          Does (.epiw o) s { awaits := [.s o.d.val, .v 12, .v 13, .v 14, .v 15], numbered := true
                             pend := some ⟨s.nextId, .epiw, .s o.d.val, none, none, false, false, none, 0, 0, [], false, none⟩
                             park := some (.epiw s.nextId) }))
  ∧ (∀ s : State, s.here.run = .active →
      (s.here.held = none → exec .epid s = .next (s.trap 18 0))
      ∧ (∀ row, s.here.held = some row →
          let p := s.herePart
          let k := clusterOf s.cur.core
          let out := fun (u : State) => (u.modCp s.cur.core p fun cp => { cp with
            epi := cp.epi.filter fun e => !(e.jobId == row.jobId && e.row == row.row) }).modHere fun sl => { sl with held := none }
          let left := fun (u : State) => (u.modRun k fun x => { x with left := x.left + 1, fullSince := none }).mmaRetire k
          ((∀ x, (s.clusterAt k).mmaRun = some x → x.job.id ≠ row.jobId) → exec .epid s = .next ((out s).retire 8 8))
          ∧ (∀ x, (s.clusterAt k).mmaRun = some x → x.job.id = row.jobId → x.job.drain = false →
              exec .epid s = .next ((left (out s)).retire 8 8))
          ∧ (∀ x, (s.clusterAt k).mmaRun = some x → x.job.id = row.jobId → x.job.drain = true →
              CanIssue [.v 12 .wait, .v 13 .wait, .v 14 .wait, .v 15 .wait] s →
              let n := x.job.n * drainSize x.job.dfmt
              let v := (s.rdv 12).toNat + 2 ^ 2048 * ((s.rdv 13).toNat + 2 ^ 2048 * ((s.rdv 14).toNat + 2 ^ 2048 * (s.rdv 15).toNat))
              exec .epid s = .next ((left (out (s.mmaOut k x row.row (bytesOfNat n v)))).retire 8 8))))
  ∧ (∀ (s : State) (o : SpdzO), CanIssue [.s o.a o.am, .s o.b o.bm] s →
      let r0 := field (s.rd o.a).toNat 24 24
      let c0 := (s.rd o.a).toNat % 2 ^ 24
      let z := fun i => spindriftAnti (o.anti || s.here.spdAnti) s.here.seed ((s.rd o.b).toNat % 2 ^ 16)
        (if o.alongk then (r0 + i) % 2 ^ 24 else r0) (if o.alongk then c0 else (c0 + i) % 2 ^ 24)
      Does (.spdz o) s { srcs := [.s o.a o.am, .s o.b o.bm], awaits := [.v o.d.val], numbered := true, len := 12
                         pend := some ⟨s.nextId, .spdz, .v o.d.val, none, none, false, true, some ((ofLanes 32 z).toNat, .none), 0, 0, [], false, none⟩ })

/-- The requests to the units complete while the miss queue has room: the Firn and group requests on a context of their partition,
FCFG in supervisor mode, GBAR by parking, and on any other context they trap with cause 10 (R246, R251 to R260); the tag, scope, SPAWN
and Cirque requests, TAGWAIT and FSWAIT by parking, the scope requests with their change on its way to the scope unit (R263 to R275,
R345). -/
def Obligations.UnitRequests : Prop :=
  (∀ (s : State) (i : Instr) (a : SField) (e : Effect), firns s i = some (a, e) → CanIssue e.srcs s →
    (∀ o, i = .fcfg o → s.here.mode.priv = true) →
    (OwnsContext s (s.rd a) → s.mqFull = false → (∀ o, i = .gbar o → NoCancel s) → Does i s e)
    ∧ (¬ OwnsContext s (s.rd a) → exec i s = .next (s.trap 10 (s.rd a))))
  ∧ ∀ (s : State) (i : Instr) (e : Effect), unitRequests s i = some e → CanIssue e.srcs s → s.mqFull = false →
    (e.park = none ∨ NoCancel s) → Does i s e

/-- BARW (R262): wire select 3 and a clear BJOIN bit are answered with status 3 at once, an arrival of the core already pending on
the wire with status 2, where an arrival that has been sent and not yet counted is pending too (log 83, DEDUCED); else the
arrival is sent and the slot parks. -/
def Obligations.BarrierWires : Prop :=
  ∀ (s : State) (o : RRO), CanIssue [.s o.a o.am] s → s.mqFull = false →
    let c := s.cur.core
    let w := State.wireOf c ((s.rd o.a).toNat % 4)
    let pending := fun (w : Nat) => (s.wireAt (coreDie c) s.herePart w).arrivals.any (fun a => a.1 == c)
      || (List.range 16).any fun n => (s.slotAt ⟨c, n⟩).pend.any fun q => q.res.isNone && (match q.kind with
        | .barw w' _ => w' == w && s.ownerOf n == some s.herePart
        | _ => false)
    ((w = none ∨ ∃ x, w = some x ∧ s.takesPart s.herePart x c = false) →
      Does (.barw o) s { srcs := [.s o.a o.am], gives := some (o.d, 0x8000000000000003), numbered := true })
    ∧ (∀ x, w = some x → s.takesPart s.herePart x c = true → pending x = true →
      Does (.barw o) s { srcs := [.s o.a o.am], gives := some (o.d, 0x8000000000000002), numbered := true })
    ∧ (∀ x, w = some x → s.takesPart s.herePart x c = true → pending x = false → NoCancel s →
      Does (.barw o) s { sends s [.s o.a o.am] (.barw x (if s.here.bto = 0 then 0 else s.cycleOf c + s.here.bto.toNat))
          (.s o.d.val) (some .die) (some .die) true 0 8 with park := some (.barw s.nextId) })

/-- SPILL, REFILL and SLOTKILL in supervisor mode complete on a slot of their partition, with a good image where they name
one; a slot that spills itself stops issuing behind the SPILL; any other target traps with cause 7. So does an image address that
is not canonical or not paged, a misaligned one with cause 4, one whose translation fails with its cause, each with s[B] as TVAL, and a
missing translation stalls the slot. TLBINV completes: with selector 3 it is answered by a faulted delivery, else its request is
outstanding (R330, R331, R333 to R336). -/
def Obligations.SupervisorRequests : Prop :=
  (∀ (s : State) (o : ABO) (pa : Nat), CanIssue [.s o.a o.am, .s o.b o.bm] s → s.here.mode.priv = true →
      let a := s.rd o.a
      let b := s.rd o.b
      let r := State.calvTarget a
      (s.ownerOf r.slot = some s.herePart →
        (GoodImage s b .write pa → r ≠ s.cur → Does (.spill o) s (calving s [.s o.a o.am, .s o.b o.bm] .spill a pa b))
        ∧ (GoodImage s b .write pa → r = s.cur → ∃ t, Completed (calving s [.s o.a o.am, .s o.b o.bm] .spill a pa b) s t
            ∧ exec (.spill o) s = .next (t.modHere fun sl => { sl with run := .spilling }))
        ∧ (GoodImage s b .read pa → Does (.refill o) s (calving s [.s o.a o.am, .s o.b o.bm] .refill a pa b))
        ∧ (canonical b.toNat = false ∨ whereIs s.cur.core b.toNat ≠ .page →
            exec (.spill o) s = .next (s.trap 7 b) ∧ exec (.refill o) s = .next (s.trap 7 b))
        ∧ (canonical b.toNat = true → whereIs s.cur.core b.toNat = .page →
            (b.toNat % 8192 ≠ 0 → exec (.spill o) s = .next (s.trap 4 b) ∧ exec (.refill o) s = .next (s.trap 4 b))
            ∧ (b.toNat % 8192 = 0 →
              (∀ c v, s.xl .write b.toNat 8192 = .trap c v → exec (.spill o) s = .next (s.trap c b))
              ∧ (∀ c v, s.xl .read b.toNat 8192 = .trap c v → exec (.refill o) s = .next (s.trap c b))
              ∧ (∀ v acc, s.xl .write b.toNat 8192 = .stall v acc →
                  exec (.spill o) s = .next (s.modHere fun sl => { sl with run := .stalled (.walk v acc) }))
              ∧ (∀ v acc, s.xl .read b.toNat 8192 = .stall v acc →
                  exec (.refill o) s = .next (s.modHere fun sl => { sl with run := .stalled (.walk v acc) })))))
      ∧ (s.ownerOf r.slot ≠ some s.herePart → exec (.spill o) s = .next (s.trap 7 a) ∧ exec (.refill o) s = .next (s.trap 7 a)))
  ∧ (∀ (s : State) (o : OneA), CanIssue [.s o.a o.am] s → s.here.mode.priv = true →
      let a := s.rd o.a
      (s.ownerOf (State.calvTarget a).slot = some s.herePart → Does (.slotkill o) s (calving s [.s o.a o.am] .kill a 0 0))
      ∧ (s.ownerOf (State.calvTarget a).slot ≠ some s.herePart → exec (.slotkill o) s = .next (s.trap 7 a)))
  ∧ (∀ (s : State) (o : RRR), CanIssue [.s o.a o.am, .s o.b o.bm] s → s.here.mode.priv = true →
      ((s.rd o.b).toNat % 4 ≠ 3 → Does (.tlbinv o) s
        (sends s [.s o.a o.am, .s o.b o.bm] (.tlbinv (s.rd o.a) ((s.rd o.b).toNat % 4)) (.s o.d.val) (some .pkg) none false 0 8))
      ∧ ((s.rd o.b).toNat % 4 = 3 → ∃ t, exec (.tlbinv o) s = .next t ∧ Follows s.here t.here 8 ∧ t.hbm = s.hbm
        ∧ (o.d.val ≠ 0 → t.sreg s.cur o.d.val = ⟨0x8000000000000001, true, .faulted, none, false⟩)
        ∧ ∀ f, f ≠ o.d.val → t.sreg s.cur f = sAfter { srcs := [.s o.a o.am, .s o.b o.bm] } s f))

/-! # Events: what may happen between turns. Each one, when it is enabled, has the effect its rule gives it. -/

/-- Turns and fetch (R71, R90, R91, R104, R120, R139, R43): an interval and a penalty that are over end, with the interval the slot's
writes of g registers and of special registers that several slots see have landed, each g write the oldest on its way to its
register, which then holds it; a sector that a slot waits for
arrives in its instruction cache and the slot goes on; a translation arrives, or its fault, and the slot goes on, unless the walk
has to wait for a frozen die; a dispatched slot's clear ends. -/
def Obligations.TurnEvents : Prop :=
  (∀ (s : State) (r : SlotRef) (e : Nat), (s.slotAt r).interval = some e → e ≤ s.cycleOf r.core →
      let p := s.partOf r
      exec (.issueIntervalEnd r) s = .next ((State.landShared r.core p (fun n => n == r.slot) (s.cpAt r.core p).cwrites
        (State.landOver r.core p (fun n => n == r.slot) (s.cpAt r.core p).gwrites s)).modSlot r fun sl => { sl with interval := none }))
  ∧ (∀ (s : State) (c p k : Nat) (w : GWrite), (s.cpAt c p).gwrites.find? (fun w => w.reg == k) = some w →
      Sparse.get (Reg.zero 64) ((s.landG c p k).cpAt c p).gregs k = w.val
      ∧ ((s.landG c p k).cpAt c p).gwrites = (s.cpAt c p).gwrites.erase w)
  ∧ (∀ (s : State) (r : SlotRef) (e : Nat), (s.slotAt r).penalty = some e → e ≤ s.cycleOf r.core →
      exec (.branchPenaltyEnd r) s = .next (s.modSlot r fun sl => { sl with penalty := none }))
  ∧ (∀ (s : State) (r : SlotRef) (e : TlbEntry), (s.slotAt r).run = .stalled .icache →
      let blk := (s.slotAt r).pc.toNat / 32 * 32
      State.tlbHit (s.coreAt r.core).tlb (s.partOf r) blk = some e → s.live (coreDie r.core) = true →
      s.readLive (coreDie r.core) false [⟨State.entryLoc e blk, 32⟩] = true →
      ∃ t, exec (.icacheFill r) s = .next t ∧ (t.slotAt r).run = .active ∧ (t.slotAt r).pc = (s.slotAt r).pc
        ∧ t.icacheHas r.core (State.entryLoc e blk) = true
        ∧ ∀ f, t.sreg r f = s.sreg r f)
  ∧ (∀ (s u : State) (r : SlotRef) (va : Nat) (acc : Acc), (s.slotAt r).run = .stalled (.walk va acc) →
      s.live (coreDie r.core) = true →
      let x := s.clusterXl (clusterOf r.core) (s.partOf r) r.core va acc (!(s.slotAt r).mode.priv)
      (∀ f, x = (u, .inl f) →
        exec (.pageWalk r) s = .next (if f = 0 then s
          else u.modSlot r fun sl => { sl with run := .active, walkFault := some (va, f) }))
      ∧ (∀ e, x = (u, .inr e) → exec (.pageWalk r) s = .next ((u.modCore r.core fun C =>
          { C with tlb := State.tlbPut State.coreTlbSize e C.tlb }).modSlot r fun sl => { sl with
            run := .active, walkFault := none, walked := e :: sl.walked.filter fun x => x.page != e.page })))
  ∧ (∀ (s : State) (r : SlotRef), (s.slotAt r).run = .clearing none → s.live (coreDie r.core) = true →
      ((s.coreAt r.core).calving.all fun q => !(q.cmd == .refill && q.slot == r.slot)) = true →
      exec (.clearComplete r) s = .next (s.modSlot r fun sl => { sl with run := .active }))

/-- Waits and cancellations (R122 to R124, R276, R321, R323): a SEV that may go sets the latch of a target of its partition and
leaves any other target alone; a WFET whose limit has passed answers 1 and the slot goes on; a cancellation that is due is taken:
EPC, CAUSE 15, TVAL the group, CTAKEN, the PC at the handler; one under way sets CPEND and the latch of an Active member; one that
reached a slot parked in BARW, TAGWAIT or FSWAIT in an earlier cycle ends the wait with the withdrawal value, faulted, due at the
instruction itself. The end of a task (R124, R335, R342): a slot that has stopped issuing, whose requests are complete and whose
die's stores are at their homes, becomes Free with nothing of its task left in it; until those stores are, they are pushed. -/
def Obligations.WaitEvents : Prop :=
  (∀ (s : State) (o : OpRef) (q : Pend) (c n : Nat), Sendable s o q → q.kind = .sev c n →
      let u := (sent s o q).finishOp o
      exec (.sevDelivery o) s = .next (if s.ownerOf n = s.ownerOf o.slot ∧ c < 1024 then
          ((u.sendRel (coreDie o.core) q.rel (.latch c n)).recvRel (coreDie c) q.rel (.latch c n)).setLatch ⟨c, n⟩
        else u))
  ∧ (∀ (s : State) (r : SlotRef) (id lim : Nat), (s.slotAt r).run = .parked (.wfet id lim) → lim < s.cycleOf r.core →
      s.live (coreDie r.core) = true →
      exec (.wfetTimeout r) s = .next ((s.decideRes ⟨r.core, r.slot, id⟩ 1 .none).land ⟨r.core, r.slot, id⟩))
  ∧ (∀ (s : State) (r : SlotRef) (w : Wait) (id f c : Nat) (q : Pend), (s.slotAt r).run = .parked w →
      w = .barw id ∨ w = .tagwait id ∨ w = .fswait id → (s.slotAt r).cwait = some c → c < s.cycleOf r.core →
      s.live (coreDie r.core) = true → s.pendAt ⟨r.core, r.slot, id⟩ = some q → q.res = none → q.dest = .s f → 0 < f → f < 32 →
      (∀ d x op arg w32, q.kind ≠ .firn d x op arg w32) → (s.sreg r f).await = some id →
      ∃ t, exec (.cancellationTaken r) s = .next t ∧ (t.slotAt r).run = .cancelDue (s.slotAt r).pc ∧ (t.slotAt r).pc = (s.slotAt r).pc
        ∧ t.sreg r f = ⟨0x800000000000000F, true, .faulted, none, false⟩ ∧ t.pendAt ⟨r.core, r.slot, id⟩ = none)
  ∧ (∀ (s : State) (r : SlotRef) (epc : Word), (s.slotAt r).run = .cancelDue epc → s.live (coreDie r.core) = true →
      ∃ t, exec (.cancellationTaken r) s = .next t ∧ (t.slotAt r).run = .active ∧ (t.slotAt r).epc = epc
        ∧ (t.slotAt r).cause = 15 ∧ (t.slotAt r).tval = BitVec.ofNat 64 (s.taskAt r).sibgrp
        ∧ (t.slotAt r).mode = { (s.slotAt r).mode with cpend := false, ctaken := true }
        ∧ (t.slotAt r).pc = (s.taskAt r).entry + (s.taskAt r).handler.signExtend 64)
  ∧ (∀ (s : State) (g m : Nat) (G : Group) (r : SlotRef), s.groupAt g = some G → (G.memberAt m).due = true →
      (s.slotRefs.find? fun r => (s.slotAt r).task.any fun t => t.sibgrp == g && t.member == m) = some r →
      (s.slotAt r).run = .active → s.live 0 = true → s.live (coreDie r.core) = true →
      (s.dies.any fun D => !s.live D.1 && D.2.slotTable.any fun e => e.2.valid && e.2.sibgrp == g && e.2.member == m) = false →
      ∃ t, exec (.cancellationDelivery g m) s = .next t ∧ (t.slotAt r).mode = { (s.slotAt r).mode with cpend := true }
        ∧ (t.slotAt r).evt = true ∧ (t.slotAt r).pc = (s.slotAt r).pc ∧ t.hbm = s.hbm)
  ∧ (∀ (s : State) (r : SlotRef) (how : EndHow), (s.slotAt r).run = .ending how → (s.slotAt r).pend = [] →
    s.live (coreDie r.core) = true →
    (s.pushedOut (coreDie r.core) = true → ∃ t, exec (.slotFree r) s = .next t ∧ t.slotAt r = Slot.init
      ∧ ∀ r', slotKey r' ≠ slotKey r → (t.slotAt r').sregs = (s.slotAt r').sregs ∧ (t.slotAt r').pc = (s.slotAt r').pc)
    ∧ (s.pushedOut (coreDie r.core) = false → exec (.slotFree r) s = .next (s.pushAll (coreDie r.core))))

/-- Loads, fences and TLBINVs that may go complete, a decided result lands (R94, R154, R155, R160, R178, R336). A load reads its
pieces one by one, in no stated order, and after the last one delivers the value that their bytes make, as its die saw each of
them, or its address marked poisoned where one is poisoned; which piece comes next is the model's free choice (log 16), and a load
that has read some pieces of a sector which its die then takes in anew as an engine wrote it reads them all again (R154). A performed
FENCE.acq leaves nothing fetched ahead (R70). A decided result that lands fills the register that still waits for it, with its mark,
and no other register; one that no longer waits keeps its value (R94, R311). -/
def Obligations.Deliveries : Prop :=
  (∀ (s : State) (o : OpRef) (q : Pend) (g : Seg) (fin : LoadFin) (re : Bool), Sendable s o q → q.kind = .load [g] fin →
      q.got = [] → q.early = none → q.bad = false →
      let d := coreDie o.core
      let p := partOfOp s o
      let u := sent s o q
      u.segsInU d [g] = false → u.readLive d re [g] = true →
      let v := u.coreRead o.core p q.pol re g
      exec (.completionDelivery ⟨o, true, re⟩) s = .next
        ((if v.segPoisoned d p g = true ∨ v.l1BadSeg o.core g = true then v.decideRes o q.va.toNat .poisoned
          else v.decideRes o (loadValue fin (v.segBytes d p [g])) .none).land o))
  ∧ (∀ (s : State) (o : OpRef) (q : Pend) (gs : List Seg) (fin : LoadFin) (re : Bool), Sendable s o q → q.kind = .load gs fin →
      q.early = none →
      let d := coreDie o.core
      let p := partOfOp s o
      let u := sent s o q
      (∀ g ∈ gs, u.segsInU d [g] = false ∧ u.readLive d re [g] = true) →
      2 ≤ ((List.range gs.length).filter fun i => (Sparse.get? q.got i).isNone).length →
      ∃ i g q', gs[i]? = some g ∧ Sparse.get? q.got i = none ∧ (q' = q ∨ q' = { q with got := [], bad := false, early := none }) ∧
        let v := ({ u with draws := u.draws + 1 } : State).coreRead o.core p q.pol re g
        v.pendAt o = some q' ∧ exec (.completionDelivery ⟨o, false, re⟩) s = .next (v.modPend o fun _ =>
          { q' with
            got := Sparse.set i (v.segBytes d p [g]) q'.got, bad := q'.bad || v.segPoisoned d p g || v.l1BadSeg o.core g
            early := none }))
  ∧ (∀ (s : State) (o : OpRef) (q : Pend) (k : Nat), Sendable s o q → q.kind = .fence k →
      let u := ((sent s o q).acquireDone (slotOf o) q.acq).finishOp o
      exec (.completionDelivery ⟨o, true, false⟩) s = .next
        (if k = 1 then u.modSlot (slotOf o) fun sl => { sl with ahead := [] } else u))
  ∧ (∀ (s : State) (o : OpRef) (q : Pend) (va : Word) (sel : Nat), Sendable s o q → q.kind = .tlbinv va sel →
      exec (.completionDelivery ⟨o, true, false⟩) s = .next
        ((((sent s o q).tlbInvalidate (partOfOp s o) va.toNat sel).decideRes o 0 .none).land o))
  ∧ (∀ (s : State) (o : OpRef) (q : Pend) (x : Nat × Mark), s.pendAt o = some q → q.res = some x → s.live (coreDie o.core) = true →
      exec (.completionDelivery ⟨o, true, false⟩) s = .next (s.land o))
  ∧ (∀ (s : State) (o : OpRef) (q : Pend) (v : Nat) (m : Mark) (f : Nat), s.pendAt o = some q → q.res = some (v, m) →
    q.dest = .s f → f < 32 → s.resumes (slotOf o) o.id = false →
    let r := slotOf o
    ((s.sreg r f).await = some q.id → f ≠ 0 → (s.land o).sreg r f = ⟨BitVec.ofNat 64 v, true, m, none, false⟩)
    ∧ ((s.sreg r f).await ≠ some q.id → (s.land o).sreg r f = s.sreg r f)
    ∧ (∀ g, g ≠ f → (s.land o).sreg r g = s.sreg r g) ∧ (∀ g, (s.land o).vreg r g = s.vreg r g))

/-- Stores, pushes, atomics and reductions that may go are performed (R154, R162, R175, R178, R191 to R194). A store writes its pieces
one by one, of overlapping ones the later last, and after the last one a release at package or system scope is pushed; which piece
comes next is the model's free choice (logs 15, 16); a sector that one store has written whole is poisoned no more (R326). A push that is ready leaves its bytes at their home. An AMO puts its
operation's value at its place and delivers the old one, a CAS puts the new value only where the old one is expected. A reduction
delivers nothing: where its home is on its own die it is applied there; else its die's L2 accepts it, and the home applies it
later, in the order of acceptance (log 15). -/
def Obligations.MemoryEvents : Prop :=
  (∀ (s : State) (o : OpRef) (q : Pend) (w : Loc × List Byte), Sendable s o q → q.kind = .store [w] →
      let d := coreDie o.core
      let u := sent s o q
      u.segsInU d [⟨w.1, w.2.length⟩] = false → u.writeLive d w.1 = true →
      let p := partOfOp s o
      let v := u.coreWrite (slotOf o) p q.pol w.1 w.2
      let v := (if State.storeWhole (State.storeWrote q w.1 w.2.length) w.1 = true then v.poisonLoc d p w.1 false else v).finishOp o
      exec (.storeAccepted o) s = .next (if q.rel = some .pkg ∨ q.rel = some .sys then v.pushAll d else v))
  ∧ (∀ (s : State) (o : OpRef) (q : Pend) (ws : List (Loc × List Byte)), Sendable s o q → q.kind = .store ws → 2 ≤ ws.length →
      let d := coreDie o.core
      let u := sent s o q
      (∀ w ∈ ws, u.segsInU d [⟨w.1, w.2.length⟩] = false ∧ u.writeLive d w.1 = true) →
      ∃ i w n, ws[i]? = some w ∧ (∀ x ∈ ws.take i, segOverlap ⟨x.1, x.2.length⟩ ⟨w.1, w.2.length⟩ = false) ∧
        let p := partOfOp s o
        let q' := State.storeWrote q w.1 w.2.length
        let v := ({ u with draws := n } : State).coreWrite (slotOf o) p q.pol w.1 w.2
        exec (.storeAccepted o) s = .next ((if State.storeWhole q' w.1 = true then v.poisonLoc d p w.1 false else v).modPend o
          fun q => { q with kind := .store (ws.eraseIdx i), got := q'.got }))
  ∧ (∀ (s : State) (i : Nat) (q : Push), s.inflight[i]? = some q → s.pushReady q = true → s.live q.die = true → s.live q.home = true →
      ∃ t, exec (.pushApply i) s = .next t
        ∧ (q.part < 4 → q.home < 4 → q.gen = s.gen q.part → (q.bytes.map fun e => e.1).Nodup →
            ∀ e ∈ q.bytes, t.lineByte q.part q.home e.1 = e.2)
        ∧ (q.eng = [] → t.slots = s.slots) ∧ t.coreParts = s.coreParts)
  ∧ (∀ (s : State) (o : OpRef) (q : Pend) (l : Loc) (w32 : Bool) (op : AmoOp) (b : Word), Sendable s o q →
      let p := partOfOp s o
      let d := coreDie o.core
      let n := if w32 then 4 else 8
      let u := sent s o q
      u.segsInU d [⟨l, n⟩] = false → u.readLive d true [⟨l, n⟩] = true → u.sectorClean d l = true →
      let v := match l with
        | .paged pa home tag => (u.cacheAtomic d p l).observeAt d tag home pa n
        | .pad _ _ => u.cacheAtomic d p l
      let old := v.homeVal p l n
      let put := fun (x : Nat) => (v.homePut d p l n x).noteBy (slotOf o)
      let give := fun (t : State) =>
        if t.segPoisoned (match l with
          | .paged _ h _ => h
          | .pad c _ => coreDie c) p ⟨l, n⟩ then t.decideRes o q.va.toNat .poisoned else t.decideRes o old .none
      (q.kind = .amo l w32 op b → exec (.atomicAtHome o) s = .next (give (put (amoVal op w32 old b.toNat))))
      ∧ (∀ e, q.kind = .cas l w32 e b → exec (.atomicAtHome o) s = .next
          (give (if old = e.toNat % 2 ^ (8 * n) then put (b.toNat % 2 ^ (8 * n)) else v.dropStale d l)))
      ∧ (q.kind = .red l w32 op b → (∀ x ∈ (s.dieAt d).reds, x.by_ ≠ o) →
          (State.isRemote d l = false → exec (.redApply o) s = .next ((put (amoVal op w32 old b.toNat)).finishOp o))
          ∧ (∀ pa home tag, l = .paged pa home tag → home ≠ d → exec (.redApply o) s = .next
              (((((u.l1Snoop d none (lineKey (pa / 512) tag home) (pa / 128 % 4) true).dropCopy d tag home pa).modDie d fun D =>
                { D with reds := D.reds ++ [⟨o, p, l, w32, op, b⟩] }).noteBy (slotOf o)).finishOp o))))
  ∧ (∀ (s : State) (o : OpRef) (x : RedReq) (rest : List RedReq) (pa home tag : Nat),
      let d := coreDie o.core
      (s.dieAt d).reds = x :: rest → x.by_ = o → x.loc = .paged pa home tag → s.live d = true → (s.redDies x).all s.live = true →
      let n := if x.w32 then 4 else 8
      let v := (s.modDie d fun D => { D with reds := D.reds.filter fun y => y.by_ != o }).cacheAtomic d x.part x.loc
      exec (.redApply o) s = .next (v.homePut d x.part x.loc n (amoVal x.op x.w32 (v.homeVal x.part x.loc n) x.b.toNat)))

/-- A synchronising request that reaches its bank, none of a slot behind its own having reached a word of it in this cycle, joins the
requests there, and every request of its word that can be served is (R180); LDSY and LDPK can be served on a full word, STSY on an
empty one, the others on any (R179). LDSY leaves the word empty with its value, STEM empty, STSY and STFL full with theirs, LDPK and
LDFE as it was; LDSY and LDPK deliver the word's value. -/
def Obligations.BankEvents : Prop :=
  (∀ (s : State) (o : OpRef) (q : Pend) (c off : Nat) (op : BankOp) (data : Word), Sendable s o q → q.kind = .bank c off op data →
      let p := partOfOp s o
      let u := (sent s o q).modPend o fun q => { q with arrived := true }
      let ws := (List.range (if op = .ldfe then 64 else 1)).map fun k => off / 8 + k
      (∀ w ∈ ws, (Sparse.get (0, 0) (s.cpAt c p).lastReq w).1 ≠ s.cycleOf c + 1
        ∨ (Sparse.get (0, 0) (s.cpAt c p).lastReq w).2 ≤ slotKey (slotOf o)) →
      s.isKilled (slotOf o) = false → (∀ x ∈ s.spilled, x.holds o.id = false) →
      exec (.bankSyncRequest o) s = .next ((u.modCp c p fun cp => { cp with
        bankQ := cp.bankQ ++ [⟨slotOf o, o.id, off, op, data⟩]
        lastReq := ws.foldl (fun m w => Sparse.set w (s.cycleOf c + 1, slotKey (slotOf o)) m) cp.lastReq }).bankRun c p (off / 8)))
  ∧ (∀ (s : State) (c p : Nat) (q : BankReq), s.bankCan c p q = match q.op with
      | .ldsy | .ldpk => (s.padWord c p (q.off / 8)).full
      | .stsy => !(s.padWord c p (q.off / 8)).full
      | .ldfe | .stfl | .stem => true)
  ∧ (∀ (s : State) (c p : Nat) (q : BankReq), p < 4 →
      let w := s.padWord c p (q.off / 8)
      let w' := (s.bankApply c p q).padWord c p (q.off / 8)
      w'.val = (if q.op = .stsy ∨ q.op = .stfl then q.data else w.val)
      ∧ w'.full = (match q.op with
        | .ldsy | .stem => false
        | .stsy | .stfl => true
        | .ldpk | .ldfe => w.full))
  ∧ (∀ (s : State) (c p : Nat) (q : BankReq) (e : Pend),
      let o : OpRef := ⟨q.ref.core, q.ref.slot, q.id⟩
      q.op = .ldsy ∨ q.op = .ldpk → s.pendAt o = some e → (∀ x ∈ s.spilled, x.stands q.id = false) →
      (s.slotAt (slotOf o)).cwait = none → s.padPoisoned c p q.off = false →
      ((s.bankApply c p q).pendAt o).bind (fun e => e.res) = some ((s.padWord c p (q.off / 8)).val.toNat, .none))

/-- Copy jobs (R154, R165, R182, R183, R187, R188, R373): an idle engine takes the oldest job of the partition the round robin
serves, once the job's thread lets it read; a destination sector whose places are known is written at once, each of its bytes from
its source as the job has read it, and faults with cause 16 at the first byte that was poisoned; a sector with a place that fails
writes nothing and leaves the fault; a job with nothing left fills its token, leaves and is charged for its sectors; the token of a
discarded job fills with FAULT and cause 15 once the thread's earlier stores are performed at its scope (R157). Where rows
overlap in a sector the order is the model's free choice (log 20, and log 18 for what the engine reads when). -/
def Obligations.CopyEvents : Prop :=
  (∀ (s u : State) (k p : Nat) (credit : Sparse Int) (j : CopyJob), (s.clusterAt k).copyRun = none → s.live (k / 32) = true →
      drrPick s.weightOf (fun p => (s.clusterAt k).copyQ.any fun j => j.part == p) (s.clusterAt k).copyLast (s.clusterAt k).copyCredit
        = some (p, credit) →
      (s.clusterAt k).copyQ.find? (fun j => j.part == p) = some j → s.jobMayStart j.ref j.id = true → s.copyPlanWaits k j = false →
      let takes := fun (x : CopyRun) => u.modCluster k fun K => { K with
        copyQ := K.copyQ.filter fun x => x.id != j.id, copyRun := some x, copyLast := p, copyCredit := credit }
      (∀ m, s.copyPlan k j = (u, .inr m) → exec (.copyJobStart k) s = .next (takes ⟨j, m, [], none, []⟩))
      ∧ (∀ c, s.copyPlan k j = (u, .inl c) → exec (.copyJobStart k) s = .next (takes ⟨j, .bytes, [], some (c, 0), []⟩)))
  ∧ (∀ (s : State) (k sector row : Nat) (x : CopyRun), (s.clusterAt k).copyRun = some x →
      x.fault = none → s.live (k / 32) = true → sector < 2 ^ 57 → sector ∉ x.moved → copyRowsIn (s.jobScale x.job) x.job x.mode sector = [row] →
      let bytes := (rowIn (copyRow (s.jobScale x.job) x.job x.mode row) sector).map fun i => (row, i)
      (∀ u ls, s.copyPlaces k x.job x.mode bytes = (u, ls, none) →
        u.segsInU (k / 32) (ls.flatMap fun e => e.1.toList.map (fun l => ⟨l, 1⟩) ++ [⟨e.2.1, 1⟩]) = false →
        u.readLive (k / 32) false (ls.flatMap fun e => e.1.toList.map fun l => ⟨l, 1⟩) = true →
        (∀ e ∈ ls, u.writeLive (k / 32) e.2.1 = true) →
        ∀ v rs bad, u.copyWrite x.job x.read ls = (v, rs, bad) →
        exec (.copySectorMove k sector) s = .next (v.modCluster k fun K => { K with
          copyRun := some { x with fault := bad.map fun o => (16, o), moved := sector :: x.moved, read := rs } }))
      ∧ (∀ u ls f, s.copyPlaces k x.job x.mode bytes = (u, ls, some f) → f.1 ≠ 0 →
        exec (.copySectorMove k sector) s = .next (u.modCluster k fun K => { K with copyRun := some { x with fault := some f } })))
  ∧ (∀ (s v : State) (j : CopyJob) (rs0 rs : List SecRead) (ls : List (Option Loc × Loc × Nat)) (bad : Option Nat), j.part < 4 →
      s.copyWrite j rs0 ls = (v, rs, bad) → j.fillfe = false → (∀ e ∈ ls, placed e.2.1 = true) →
      (ls.map fun e => e.2.1).Pairwise (fun a b => sameByte a b = false) →
      (∀ e ∈ ls, v.locByte (coreDie j.core) j.part e.2.1 0
        = (e.1.map fun l => (State.engSector rs l).bytes.getD (locByteNo l) 0).getD 0)
      ∧ (bad = none ↔ ∀ e ∈ ls, ∀ l, e.1 = some l → (State.engSector rs l).bad = false)
      ∧ (∀ o, bad = some o → ∀ e ∈ ls, ∀ l, e.1 = some l → (State.engSector rs l).bad = true → o ≤ e.2.2))
  ∧ (∀ (s : State) (k : Nat) (x : CopyRun), (s.clusterAt k).copyRun = some x → s.copyOver x = true → s.live (k / 32) = true →
      s.scopeDone (k / 32) x.job.scope = true → x.job.stamp = false → (∀ j ∈ (s.clusterAt k).gone, j.copy = false) →
      let v := State.copyToken x
      exec (.copyTokenFill k) s = .next (((s.deliver x.job.ref x.job.dest x.job.id v (State.faultMark v)).modCluster k fun K =>
        { K with
          copyRun := none
          copyCredit := if K.copyQ.any fun q => q.part == x.job.part then
              Sparse.set x.job.part (Sparse.get 0 K.copyCredit x.job.part - max 1 x.moved.length) K.copyCredit
            else Sparse.erase x.job.part K.copyCredit }).wakeEngine k))
  ∧ (∀ (s : State) (k : Nat) (j : GoneJob), (s.clusterAt k).copyRun = none → (s.clusterAt k).gone = [j] → j.copy = true →
      s.live (k / 32) = true → s.scopeDone (k / 32) j.scope = true →
      (∀ e ∈ s.jobPends j.ref j.id, e.id < j.id → e.res = none → State.isStore e = false) →
      exec (.copyTokenFill k) s = .next ((s.modCluster k fun K => { K with gone := [] }).deliver j.ref j.dest j.id 0x800000000000000F
        .faulted))

/-- Matrix jobs (R166, R202, R206, R284, R285, R288, R291 to R293): an idle engine takes a job that its thread lets start, checks
it, charges its partition and reads its band scales; a job that fails a check does nothing but keep the cause; a computed job's set
holds the sums of the operand sectors it has read, or canonical NaNs and cause 16 where one was poisoned; a row leaves the drain for
the epilogue buffer or, sector by sector, for C; a buffer full for 65,536 cycles fails the job with cause 18; a job that is over
fills its token, having read its operands; a discarded one's token fills as a copy job's does. An accumulator holds what R206 gives,
group by group: each term's magnitude truncated to a multiple of 2^(e - 27), their exact sum rounded once to f32. When an operand sector is read, and which drained sector or token comes next, is the model's free choice (logs 17,
20). -/
def Obligations.MatrixEvents : Prop :=
  (∀ (s u : State) (k p : Nat) (credit : Sparse Int) (j : MmaJob), (s.clusterAt k).mmaRun = none → s.live (k / 32) = true →
      drrPick s.weightOf (fun p => (s.clusterAt k).mmaQ.any fun j => j.part == p) (s.clusterAt k).mmaLast (s.clusterAt k).mmaCredit
        = some (p, credit) →
      (s.clusterAt k).mmaQ.find? (fun j => j.part == p) = some j → s.jobMayStart j.ref j.id = true →
      let starts := fun (u : State) (x : MmaRun) (charge : Int) => u.modCluster k fun K =>
        let q := K.mmaQ.filter fun x => x.id != j.id
        { K with
          mmaQ := q, mmaRun := some x, mmaLast := p
          mmaCredit := if q.any fun x => x.part == p then Sparse.set p (Sparse.get 0 credit p - charge) credit
            else Sparse.erase p credit }
      (∀ c, s.mmaCheck k j = (u, .inl c) → c ≠ 0 →
        exec (.mmaJobStart k) s = .next (starts u ⟨j, true, 0, 0, some c, none, [], [], [], false, [], [], false⟩ 0))
      ∧ (∀ cs bs, s.mmaCheck k j = (u, .inr (cs, bs)) → u.segsInU (k / 32) bs = false → u.readLive (k / 32) false bs = true →
        ∀ v rs, bs.foldl (fun (x : State × List SecRead) g => x.1.engRead j.core p 0 g.loc x.2) (u, []) = (v, rs) →
        let bytes := bs.flatMap fun g => (List.range g.len).map fun i =>
          (State.engSector rs (locAdd g.loc i)).bytes.getD (locByteNo (locAdd g.loc i)) 0
        let bands := if j.bands.isSome then (List.range 8).map fun i => natAt bytes (2 * i) 2 else []
        exec (.mmaJobStart k) s = .next (starts v ⟨j, false, 0, 0, none, none, cs, bs, bands, false, rs, [], false⟩
          ((mmaCycles j + if j.drain || j.epi then j.m else 0 : Nat) : Int))))
  ∧ (∀ (s v : State) (k : Nat) (x : MmaRun) (rs : List SecRead), (s.clusterAt k).mmaRun = some x → x.computed = false →
      x.unseen = false → x.told = false → s.live (k / 32) = true →
      (s.mmaSectors x.job).foldl (fun (y : State × List SecRead) n => y.1.engRead x.job.core x.job.part 0 (.pad x.job.core (n * 128)) y.2)
        (s, x.read) = (v, rs) →
      ((∀ r ∈ rs, r.bad = false) → exec (.mmaComputeEnd k) s = .next ((v.mmaCompute k { x with read := rs }).modRun k fun y =>
        { y with computed := true, read := rs }))
      ∧ ((∃ r ∈ rs, r.bad = true) → exec (.mmaComputeEnd k) s = .next (((List.range x.job.m).foldl (fun (u : State) m =>
          u.accRow k x.job.part x.job.aset m (List.replicate x.job.n 0x7FC00000)) v).modRun k fun y =>
        { y with computed := true, read := rs, fault := if y.fault = none then some 16 else y.fault })))
  ∧ (∀ (s : State) (k : Nat) (x : MmaRun), (s.clusterAt k).mmaRun = some x → x.computed = true → x.unseen = false →
      x.fault = none → x.nextRow < x.job.m → s.live (k / 32) = true →
      let bs := s.mmaRowBytes k x x.nextRow
      (x.job.drain = true → x.job.epi = false → exec (.drainRow k) s = .next ((s.mmaOut k x x.nextRow bs).modRun k fun y =>
        { y with nextRow := x.nextRow + 1, left := x.nextRow + 1 }))
      ∧ (x.job.epi = true → (s.cpAt x.job.core x.job.part).epi.length < 8 →
        (∀ id, (s.slotAt ⟨x.job.core, x.job.epislot⟩).run ≠ .parked (.epiw id)) → ∃ t, exec (.drainRow k) s = .next t
        ∧ (t.cpAt x.job.core x.job.part).epi = (s.cpAt x.job.core x.job.part).epi
          ++ [⟨x.job.id, x.job.epislot, x.nextRow, x.job.n, x.job.jobNo, x.nextRow + 1 == x.job.m, bs⟩]
        ∧ t.slots = s.slots ∧ t.hbm = s.hbm))
  ∧ (∀ (s : State) (k : Nat) (x : MmaRun) (w : Loc × List Byte), (s.clusterAt k).mmaRun = some x → x.cout = [w] →
      s.live (k / 32) = true → s.segsInU (k / 32) [⟨w.1, w.2.length⟩] = false → s.writeLive (k / 32) w.1 = true →
      s.mmaWrite k = ((s.engWrite x.job.core x.job.part 0 w.1 w.2).modRun k fun y => { y with cout := y.cout.eraseIdx 0 }).mmaRetire k)
  ∧ (∀ (s : State) (k c : Nat) (x : MmaRun), (s.clusterAt k).mmaRun = some x → x.fault = none → x.fullSince = some c →
      c + 65536 ≤ s.cycleOf x.job.core → s.live (k / 32) = true →
      ∃ t, exec (.epilogueTimeout k) s = .next t ∧ (t.clusterAt k).mmaRun = some { x with fault := some 18, fullSince := none }
        ∧ (∀ e ∈ (t.cpAt x.job.core x.job.part).epi, e.jobId ≠ x.job.id))
  ∧ (∀ (s : State) (k : Nat) (x : MmaRun), (s.clusterAt k).mmaDone ++ (s.clusterAt k).mmaRun.toList.filter MmaRun.over = [x] →
      s.live (k / 32) = true → s.scopeDone (k / 32) x.job.scope = true →
      let v := match x.fault with
        | some c => 2 ^ 63 + (if c = 18 then x.left % 65536 * 2 ^ 32 else 0) + c
        | none => 0
      (∀ j ∈ (s.clusterAt k).gone, j.copy = true) → ∀ u rs, (if x.computed then (s, x.read) else s.mmaReadAll x) = (u, rs) →
      exec (.mmaTokenFill k) s = .next (((u.deliver x.job.ref x.job.dest x.job.id v (State.faultMark v)).modCluster k fun K =>
        { K with
          mmaDone := K.mmaDone.filter fun y => y.job.id != x.job.id
          mmaRun := if x.computed then K.mmaRun.filter fun y => y.job.id != x.job.id
            else K.mmaRun.map fun y => if y.job.id = x.job.id then { y with told := true, read := rs } else y }).wakeEngine k))
  ∧ (∀ (s : State) (k : Nat) (j : GoneJob), (s.clusterAt k).mmaDone = [] → (s.clusterAt k).mmaRun = none →
      (s.clusterAt k).gone = [j] → j.copy = false → s.live (k / 32) = true → s.scopeDone (k / 32) j.scope = true →
      (∀ e ∈ s.jobPends j.ref j.id, e.id < j.id → e.res = none → State.isStore e = false) →
      exec (.mmaTokenFill k) s = .next ((s.modCluster k fun K => { K with gone := [] }).deliver j.ref j.dest j.id 0x800000000000000F
        .faulted))
  ∧ (∀ (s : State) (k : Nat) (x : MmaRun) (m n : Nat), m < x.job.m → n < x.job.n → x.job.m ≤ 256 → x.job.n ≤ 256 →
      let j := x.job
      let g := (opGroup j.fa j.fb j.pert).getD 8
      let as := s.mmaElemsA x m
      let bs := s.mmaElemsB x n
      (s.mmaCompute k x).accAt k j.part j.aset m n = (List.range (j.k / g)).foldl (fun acc i =>
        accGroup (((as.drop (g * i)).take g).zip ((bs.drop (g * i)).take g)) acc)
          (if j.acc then s.accAt k j.part j.aset m n else 0) % 2 ^ 32)
  ∧ (∀ (ps : List (Machine.Num × Machine.Num)) (acc : Nat),
      let terms := fmtF32.decode acc :: ps.map fun p => (numMul p.1 p.2).1
      let nan := (∃ t ∈ terms, t.isNan = true) ∨ (.inf false ∈ terms ∧ .inf true ∈ terms)
      (nan → accGroup ps acc = 0x7FC00000)
      ∧ (¬ nan → .inf false ∈ terms → accGroup ps acc = 0x7F800000)
      ∧ (¬ nan → .inf true ∈ terms → accGroup ps acc = 0xFF800000)
      ∧ ((∀ t ∈ terms, isFin t = true) → (∀ t ∈ terms, realOf t = 0) → accGroup ps acc = 0)
      ∧ ((∀ t ∈ terms, isFin t = true) → ∀ e : Int, (∀ t ∈ terms, |realOf t| < (2 : ℝ) ^ (e + 1)) →
          (∃ t ∈ terms, (2 : ℝ) ^ e ≤ |realOf t|) →
          let sum := (terms.map fun t => (if signOf t then -1 else 1) * ((⌊|realOf t| / (2 : ℝ) ^ (e - 27)⌋ : Int) : ℝ)
            * (2 : ℝ) ^ (e - 27)).sum
          (sum = 0 → accGroup ps acc = 0)
          ∧ (sum ≠ 0 → ∃ r, Delivers fmtF32 .rne false sum r ∧ accGroup ps acc = flushF32 r.1)))

/-- A balancer (R231): a token leaves on the top wire when its toggle is 0 and on the bottom wire when it is 1, and flips it;
an antitoken flips it first and leaves by the new value; so a token followed by an antitoken on the same wires leaves the
toggle as it was and both leave on the same wire. -/
def Obligations.BalancerLaw : Prop :=
  ∀ (tg : List (Nat × Nat)) (l w : Nat), tg.Nodup →
    let top := min w (firnPartner l w)
    let bot := max w (firnPartner l w)
    let on := tg.contains (l, top)
    let x := balancerStep tg false l w
    let y := balancerStep tg true l w
    x.1 = (if on then bot else top) ∧ x.2.contains (l, top) = !on
    ∧ y.1 = (if on then top else bot) ∧ y.2.contains (l, top) = !on
    ∧ (∀ z, z ≠ (l, top) → x.2.contains z = tg.contains z ∧ y.2.contains z = tg.contains z)
    ∧ (balancerStep x.2 true l w).1 = x.1 ∧ ∀ z, (balancerStep x.2 true l w).2.contains z = tg.contains z

/-- The Firn planes (R231, R235 to R238, R242 to R247, R251 to R260). A request reaches its plane's port once its thread lets it;
it waits behind an FCFG of its context, for a cycle of its partition and for an unused wire, the lower slot on one wire first. One
that is admitted is served at the exit stage (FINC and JOIN from the refill queue, FCAN, FPEEK, LEAVE), is refused with cause 10, or
enters the network as a token; an FCFG waits until its context is idle and then takes effect. A token passes its next balancer, on the
bottom input once that of the top has had the cycle's choice. An exit gives FINC, FDEC and JOIN their values; a GBAR's exit, and a
FINC's on an odd context, whose difference is TARGET advances the phase, and one whose phase is not over waits. The model's own
readings, not the manual's words: a request that only the exit stage serves is answered as it is admitted (log 25); a GBAR or LEAVE
whose arrival context is not its partition's is refused, and a token's exit on an odd context whose even context is not its
partition's does not advance it (log 74); a LEAVE is served where the arrival context has CFG 0 (log 93). -/
def Obligations.FirnEvents : Prop :=
  (∀ (s : State) (o : OpRef) (q : Pend) (d ctx : Nat) (op : FirnOp) (arg : Word) (w32 : Bool), Sendable s o q →
      q.kind = .firn d ctx op arg w32 → s.live d = true → (∀ d' < 4, ∀ h ∈ (s.dieAt d').port, h.id ≠ o.id) →
      exec (.firnPlaneAdmission o) s = .next (((sent s o q).modPend o fun q => { q with arrived := true }).modDie d fun D =>
        { D with port := D.port ++ [⟨o.id, slotOf o, ctx, none, op, arg, w32, partOfOp s o⟩] }))
  ∧ (∀ (s : State) (o : OpRef) (d : Nat) (h k : FirnHeld), InPort s o d h → k ∈ (s.dieAt d).port → k.id ≠ o.id → k.part = h.part →
      s.heldStands d k = false → s.heldWire d k = s.heldWire d h → slotKey k.ref < slotKey h.ref →
      exec (.firnPlaneAdmission o) s = .next s)
  ∧ (∀ (s : State) (o : OpRef) (d : Nat) (h : FirnHeld), InPort s o d h →
      (∃ k ∈ (s.dieAt d).held, k.ctx = h.ctx) ∨ s.ownerOf ((s.dieAt d).cycle % 16) ≠ some h.part
        ∨ ((s.dieAt d).wiresCycle = (s.dieAt d).cycle ∧ s.heldWire d h ∈ (s.dieAt d).wiresUsed) →
      exec (.firnPlaneAdmission o) s = .next s)
  ∧ (∀ (s : State) (o : OpRef) (d : Nat) (h : FirnHeld), InPort s o d h → MayEnter s d h →
      let u := takesWire s d h
      let x := s.ctxAt d h.ctx
      let r : OpRef := ⟨h.ref.core, h.ref.slot, h.id⟩
      let answers := fun (y : FirnCtx) (v : Nat) => exec (.firnPlaneAdmission o) s = .next
        ((u.modCtx d h.ctx fun _ => y).decideRes r v .none)
      (h.fcfg.isSome = true → exec (.firnPlaneAdmission o) s = .next (u.modDie d fun D => { D with held := D.held ++ [h] }))
      ∧ (h.fcfg = none →
        (x.cfg = false → exec (.firnPlaneAdmission o) s = .next (u.decideRes r (2 ^ 63 + 10) .faulted))
        ∧ (h.ctx % 2 = 1 → h.op = .join ∨ h.op = .leave ∨ h.op = .gbar →
          exec (.firnPlaneAdmission o) s = .next (u.decideRes r (2 ^ 63 + 10) .faulted))
        ∧ (h.op = .leave ∨ h.op = .gbar → s.ownsCtx h.part d (h.ctx + 1) = false →
          exec (.firnPlaneAdmission o) s = .next (u.decideRes r (2 ^ 63 + 10) .faulted))
        ∧ (h.op = .gbar → h.ctx % 2 = 0 → (s.ctxAt d (h.ctx + 1)).cfg = false →
          exec (.firnPlaneAdmission o) s = .next (u.decideRes r (2 ^ 63 + 10) .faulted))
        ∧ (x.cfg = true → h.op = .fdec ∨ (h.op = .finc ∧ (x.queue = [] ∨ x.spread = true))
              ∨ (h.op = .join ∧ h.ctx % 2 = 0 ∧ (x.queue = [] ∨ x.spread = true)) →
          exec (.firnPlaneAdmission o) s = .next (u.modDie d fun D => { D with
            tokens := D.tokens ++ [⟨h.id, h.ref, h.ctx, h.op, h.w32, s.entryWire d h.ctx h.ref, 0, 0, h.part⟩] }))
        ∧ (x.cfg = true → h.op = .gbar → h.ctx % 2 = 0 → (s.ctxAt d (h.ctx + 1)).cfg = true → s.ownsCtx h.part d (h.ctx + 1) = true →
          exec (.firnPlaneAdmission o) s = .next ((u.modPend r fun q => { q with va := x.phase.setWidth 64 }).modDie d fun D =>
            { D with tokens := D.tokens ++ [⟨h.id, h.ref, h.ctx + 1, .gbar, h.w32, s.entryWire d (h.ctx + 1) h.ref, 0, x.phase, h.part⟩] }))
        ∧ (∀ v vs, x.cfg = true → x.spread = false → x.queue = v :: vs →
          (h.op = .finc → answers { x with queue := vs } (2 ^ 60 + firnVal h.w32 (x.base + BitVec.ofNat 64 v)))
          ∧ (h.op = .join → h.ctx % 2 = 0 → answers { x with queue := vs, memb := x.memb + 1, target := x.target + 1 }
              (2 ^ 60 + v % 2 ^ 32 + x.phase.toNat % 2 ^ 24 * 2 ^ 32)))
        ∧ (x.cfg = true → h.op = .fcan → ∀ v : Word, v = (if h.w32 = true then (h.arg.setWidth 32).setWidth 64 else h.arg) →
          (NotOut x v → answers x (2 ^ 59 + firnVal h.w32 v))
          ∧ (¬ NotOut x v → 8 ≤ x.queue.length → answers x (2 ^ 58 + firnVal h.w32 v))
          ∧ (¬ NotOut x v → x.queue.length < 8 → answers { x with queue := x.queue ++ [v.toNat - x.base.toNat] } (firnVal h.w32 v)))
        ∧ (x.cfg = true → h.op = .fpeek → exec (.firnPlaneAdmission o) s = .next (u.decideRes r (firnVal h.w32 (match h.arg.toNat % 4 with
            | 0 => x.base + BitVec.ofInt 64 ((List.range x.width).map x.count).sum
            | 1 => BitVec.ofNat 64 x.queue.length
            | 2 => x.memb.setWidth 64
            | _ => x.phase.setWidth 64)) .none))
        ∧ (x.cfg = true → h.op = .leave → h.ctx % 2 = 0 → s.ownsCtx h.part d (h.ctx + 1) = true →
          let v : Word := x.base + h.arg
          let y := { x with queue := x.queue ++ [v.toNat - x.base.toNat], memb := x.memb - 1, target := x.target - 1 }
          let a := s.ctxAt d (h.ctx + 1)
          let out := y.target.toInt / (a.width : Int) < a.count (y.target.toInt % (a.width : Int)).toNat
          (NotOut x v → exec (.firnPlaneAdmission o) s = .next (u.decideRes r (2 ^ 59 + x.memb.toNat) .none))
          ∧ (¬ NotOut x v → 8 ≤ x.queue.length → exec (.firnPlaneAdmission o) s = .next (u.decideRes r (2 ^ 58 + x.memb.toNat) .none))
          ∧ (¬ NotOut x v → x.queue.length < 8 → ¬ out → answers y y.memb.toNat)
          ∧ (¬ NotOut x v → x.queue.length < 8 → out → exec (.firnPlaneAdmission o) s = .next
              (((u.modCtx d h.ctx fun _ => y).advancePhase d h.ctx).decideRes r (2 ^ 57 + y.memb.toNat) .none)))))
  ∧ (∀ (s : State) (d id : Nat) (t : FirnTok), (s.dieAt d).tokens.find? (fun t => t.id == id) = some t → s.live d = true →
      t.layer < firnLayers (s.ctxAt d t.ctx).wcode →
      let D := s.dieAt d
      let top := min t.wire (firnPartner (t.layer + 1) t.wire)
      let bal := (t.ctx, t.layer + 1, top)
      let used := if D.balCycle = D.cycle then D.balUsed else []
      let x := balancerStep (s.ctxAt d t.ctx).toggles (t.op == .fdec) (t.layer + 1) t.wire
      (t.wire ≠ top ∨ bal ∉ used) → ∃ u, exec (.balancerStep d id) s = .next u
        ∧ (∀ c, u.ctxAt d c = if c = t.ctx then { s.ctxAt d c with toggles := x.2 } else s.ctxAt d c)
        ∧ (u.dieAt d).tokens = D.tokens.map (fun v => if v.id = id then { v with wire := x.1, layer := t.layer + 1 } else v)
        ∧ (t.wire ≠ top → bal ∈ (u.dieAt d).balUsed ∧ (u.dieAt d).balCycle = D.cycle) ∧ u.slots = s.slots)
  ∧ (∀ (s : State) (d id : Nat) (t : FirnTok), (s.dieAt d).tokens.find? (fun t => t.id == id) = some t → s.live d = true →
      firnLayers (s.ctxAt d t.ctx).wcode ≤ t.layer →
      let x := s.ctxAt d t.ctx
      let e := t.wire - x.wire
      let r : OpRef := ⟨t.ref.core, t.ref.slot, t.id⟩
      let diff : Int := x.count e * x.width + e
      let v : Word := x.base + BitVec.ofInt 64 diff
      let out := s.modDie d fun D => { D with tokens := D.tokens.filter fun u => u.id != t.id }
      let more := out.modCtx d t.ctx fun c => c.bump e 1
      let completes := t.ctx % 2 = 1 ∧ s.ownsCtx t.part d (t.ctx - 1) = true ∧ diff = (s.ctxAt d (t.ctx - 1)).target.toInt
      (t.op = .finc →
        (¬ completes → exec (.firnExitStage d id) s = .next (more.decideRes r (if x.spread then e else firnVal t.w32 v) .none))
        ∧ (completes → exec (.firnExitStage d id) s = .next ((more.advancePhase d (t.ctx - 1)).decideRes r
            (2 ^ 57 + if x.spread then e else firnVal t.w32 v) .none)))
      ∧ (t.op = .join → exec (.firnExitStage d id) s = .next
          ((out.modCtx d t.ctx fun c => { c.bump e 1 with memb := c.memb + 1, target := c.target + 1 }).decideRes r
            ((BitVec.ofInt 32 diff).toNat + x.phase.toNat % 2 ^ 24 * 2 ^ 32) .none))
      ∧ (t.op = .fdec →
          let y := x.bump e (-1)
          let back : Int := y.count e * y.width + e
          let queued := 0 ≤ back ∧ back.toNat ∈ x.queue
          exec (.firnExitStage d id) s = .next
            ((out.modCtx d t.ctx fun _ => if queued then { y with queue := y.queue.filter fun k => k != back.toNat } else y).decideRes r
              ((if y.count e < 0 then 2 ^ 62 else 0) + (if queued then 2 ^ 61 else 0)
                + (if x.spread then e else firnVal t.w32 (x.base + BitVec.ofInt 64 back))) .none))
      ∧ (t.op = .gbar → t.ctx % 2 = 1 →
          (completes → exec (.firnExitStage d id) s = .next
            ((more.advancePhase d (t.ctx - 1)).decideRes r (2 ^ 57 + t.tag.toNat) .none))
          ∧ (¬ completes → 0 < ((s.ctxAt d (t.ctx - 1)).phase - t.tag).toInt →
            exec (.firnExitStage d id) s = .next (more.decideRes r t.tag.toNat .none))
          ∧ (¬ completes → ¬ 0 < ((s.ctxAt d (t.ctx - 1)).phase - t.tag).toInt →
            (s.slotAt t.ref).run = .parked (.gbar t.id) ∨ (s.slotAt t.ref).run = .saving (some (.gbar t.id)) →
            exec (.firnExitStage d id) s = .next (more.modDie d fun D => { D with
              gbars := D.gbars ++ [⟨t.id, t.ref, t.ctx - 1, t.tag⟩] }))))
  ∧ (∀ (s : State) (d g : Nat),
      let x := s.ctxAt d g
      let done := fun (w : GbarWait) => w.ctx = g ∧ 0 < (x.phase + 1 - w.tag).toInt
      let u := (s.modCtx d g fun x => { x with phase := x.phase + 1, target := x.target + x.memb.setWidth 40 }).modDie d fun D =>
        { D with gbars := D.gbars.filter fun w => !decide (done w) }
      ((∀ w ∈ (s.dieAt d).gbars, ¬ done w) → s.advancePhase d g = u)
      ∧ (∀ w ws, (s.dieAt d).gbars = w :: ws → done w → (∀ w ∈ ws, ¬ done w) →
        s.advancePhase d g = u.decideRes ⟨w.ref.core, w.ref.slot, w.id⟩ w.tag.toNat .none))
  ∧ (∀ (s : State) (d id : Nat) (h : FirnHeld) (rest : List FirnHeld) (q : FcfgReq), (s.dieAt d).held = h :: rest → h.id = id →
      (∀ k ∈ rest, k.id ≠ id) → h.fcfg = some q → s.ctxBusy d h.ctx = false → s.live d = true →
      let u := s.modDie d fun D => { D with held := rest }
      exec (.fcfgApply d id) s = .next ((u.fcfgApply d h.ctx q).finishOp ⟨h.ref.core, h.ref.slot, id⟩)
      ∧ (q.clear = true → (∀ w ∈ (s.dieAt d).gbars, w.ctx ≠ h.ctx) → (u.fcfgApply d h.ctx q).ctxAt d h.ctx
          = ⟨true, q.wcode, q.wire, q.spread, q.base, [], [], [], q.memb, 0, q.memb.setWidth 40 - 1⟩)
      ∧ (q.clear = false → (s.ctxAt d h.ctx).cfg = true → (u.fcfgApply d h.ctx q).ctxAt d h.ctx = { s.ctxAt d h.ctx with
          base := q.base, spread := q.spread, memb := q.memb
          target := (s.ctxAt d h.ctx).target + q.memb.setWidth 40 - (s.ctxAt d h.ctx).memb.setWidth 40 }))

/-- The other units (R262, R264 to R267, R270, R273, R274, R331, R345, R348): a BARW's arrival counts, or times out with status 1 once
its limit's cycle is past, and a wire completes with every participant's arrival pending; a tag request acts at its key's home, where
the buffer-wide key is answered without a trap (log 45), a TAGPUB answers 0 to 3, and a TAGWAIT is evaluated as it arrives and again as
its key, its buffer's mode or its fallback scope changes; a scope change reaches the scope unit, and an FSWAIT fills at once or as its
scope completes; a post counts, decides by quorum or leaves a plurality, and it or a member's end reaches its group, whose record is
written in the same step (log 46); a Calving completion sets the latch of the task that asked. -/
def Obligations.UnitEvents : Prop :=
  (∀ (s : State) (o : OpRef) (q : Pend) (w lim : Nat), Sendable s o q → q.kind = .barw w lim →
      let p := partOfOp s o
      let d := coreDie o.core
      let u := sent s o q
      let x := u.wireAt d p w
      (lim = 0 ∨ s.cycleOf o.core ≤ lim → exec (.barwArrivalCounted o) s = .next
        (((u.modPend o fun q => { q with arrived := true }).setWire d p w { x with arrivals := x.arrivals ++ [(o.core, o)] }).wireEval d p w))
      ∧ (lim ≠ 0 → lim < s.cycleOf o.core → s.resumes (slotOf o) o.id = false →
        exec (.barwArrivalCounted o) s = .next (u.decideRes o 0x8000000000000001 .none)))
  ∧ (∀ (s : State) (o : OpRef) (q : Pend) (w lim : Nat), s.pendAt o = some q → q.kind = .barw w lim → q.res = none → lim ≠ 0 →
      s.live (coreDie o.core) = true →
      let p := partOfOp s o
      let d := coreDie o.core
      let x := s.wireAt d p w
      (lim < s.cycleOf o.core → s.resumes (slotOf o) o.id = false → exec (.barwTimeout o) s = .next
        (((s.setWire d p w { x with arrivals := x.arrivals.filter fun a => !(a.2 = o) }).decideRes o 0x8000000000000001 .none).land o))
      ∧ (s.cycleOf o.core ≤ lim → exec (.barwTimeout o) s = .next s))
  ∧ (∀ (s : State) (d p w : Nat),
      let x := s.wireAt d p w
      let joins := fun (c : Nat) => c / 256 = d ∧ (s.cpAt c p).bjoin.getLsbD (State.wireBit w) = true
        ∧ (w = 32 ∨ w = coreY c ∨ w = 16 + coreX c)
      let complete : Prop := (∃ c, joins c) ∧ ∀ c, joins c → ∃ a ∈ x.arrivals, a.1 = c
      (∀ a ∈ x.arrivals, s.arrivalLate a.2 = false ∧ (s.slotAt (slotOf a.2)).cwait = none) →
      (complete → s.wireEval d p w = x.arrivals.foldl (fun s a => s.decideRes a.2 x.phase.toNat .none)
        (s.setWire d p w ⟨x.phase + 1, []⟩))
      ∧ (¬ complete → s.wireEval d p w = s))
  ∧ (∀ (s : State) (o : OpRef) (q : Pend) (k : Nat) (op : TagOp) (arg : Word), Sendable s o q → q.kind = .tag k op arg →
      let p := partOfOp s o
      let u := sent s o q
      (tagWide k = true → op ≠ .ret → exec (.tagHomeRequest o) s = .next (u.decideRes o 0x8000000000000009 .faulted))
      ∧ (tagWide k = false → op = .qry → exec (.tagHomeRequest o) s = .next (u.decideRes o (u.tagQuery p k) .none))
      ∧ (tagWide k = false → op = .pub → exec (.tagHomeRequest o) s = .next
          (((u.tagPublish p k (arg.setWidth 16)).2.decideRes o (u.tagPublish p k (arg.setWidth 16)).1 .none).consumersAll p))
      ∧ (tagWide k = false → op = .wait →
          exec (.tagHomeRequest o) s = .next ((u.modPend o fun q => { q with arrived := true }).tagwaitEval o))
      ∧ (op = .ret → exec (.tagHomeRequest o) s = .next (((u.tagRetire p k (arg.setWidth 16)).finishOp o).consumersAll p)))
  ∧ (∀ (s : State) (p k : Nat) (g : BitVec 16),
      let inMode := s.inOverflow p (tagBuf k) = true
      let T := (s.dieAt (tagHome k)).rime
      (∀ P, s.part? p = some P → (s.tagNoRoom (tagHome k) p = true ↔
        P.cfg.rimeQ.getD (tagHome k) 0 ≤ (T.filter fun e => e.1 / 2 ^ 48 == p).length ∨ 65536 ≤ T.length))
      ∧ (inMode → s.tagPublish p k g = (3, s))
      ∧ (¬ inMode → s.tagGen p k = none → s.tagNoRoom (tagHome k) p = false → s.tagPublish p k g = (0, s.tagSet p k g))
      ∧ (¬ inMode → s.tagGen p k = none → s.tagNoRoom (tagHome k) p = true → (s.tagPublish p k g).1 = 3
        ∧ (s.tagPublish p k g).2 = ({ s with overflow := (p * 65536 + tagBuf k) :: s.overflow } : State).divertAll p (tagBuf k)
        ∧ (s.tagPublish p k g).2.inOverflow p (tagBuf k) = true)
      ∧ (∀ h, ¬ inMode → s.tagGen p k = some h →
        (32768 ≤ (h - g).toNat → s.tagPublish p k g = (1, s.tagSet p k g)) ∧ ((h - g).toNat ≤ 32767 → s.tagPublish p k g = (2, s)))
      ∧ (s.tagSet p k g).tagGen p k = some g
      ∧ (tagWide k = false → (s.tagGen p k = some g → (s.tagRetire p k g).tagGen p k = none)
        ∧ (s.tagGen p k ≠ some g → s.tagRetire p k g = s))
      ∧ (tagWide k = true → (s.tagRetire p k g).inOverflow p (tagBuf k) = false
        ∧ ∀ k', k' < 2 ^ 48 → tagBuf k' = tagBuf k → (s.tagRetire p k g).tagGen p k' = none))
  ∧ (∀ (s : State) (o : OpRef) (q : Pend) (k : Nat) (arg : Word), s.pendAt o = some q → q.kind = .tag k .wait arg →
      q.arrived = true → q.res = none → (s.slotAt (slotOf o)).run = .parked (.tagwait o.id) → (s.slotAt (slotOf o)).cwait = none →
      let p := partOfOp s o
      let mode := s.inOverflow p (tagBuf k)
      let fallback := arg.toNat / 2 ^ 16 % 2 ^ 8
      let e : BitVec 16 := arg.setWidth 16
      let div := s.modPend o fun q => { q with va := 1 }
      (q.va ≠ 0 ∨ (mode = true ∧ arg.getLsbD 24 = true) →
        ((s.scopeAt p fallback).members = 0 → s.tagwaitEval o = div.decideRes o 1 .none)
        ∧ ((s.scopeAt p fallback).members ≠ 0 → s.tagwaitEval o = div))
      ∧ (q.va = 0 → mode = true → arg.getLsbD 24 = false →
        s.tagwaitEval o = (s.modPend o fun q => { q with acq := none }).decideRes o 3 .none)
      ∧ (q.va = 0 → mode = false →
        (s.tagGen p k = some e → s.tagwaitEval o = s.decideRes o 0 .none)
        ∧ (s.tagGen p k = none → s.tagwaitEval o = s)
        ∧ (∀ h, s.tagGen p k = some h → h ≠ e → genNewer h e = false → s.tagwaitEval o = s)
        ∧ (∀ h, s.tagGen p k = some h → h ≠ e → genNewer h e = true → s.tagwaitEval o
            = ((s.fillReg (slotOf o) q.dest q.id 0x8000000000000009 .faulted).dropPend o).trapAt (slotOf o) 9 (BitVec.ofNat 64 k))))
  ∧ (∀ (s : State) (i : Nat) (o : OpRef) (q : Pend), s.scopeQ[i]? = some (.op o) → Sendable s o q →
      s.scopeTurn (partOfOp s o) (slotKey (slotOf o)) = true →
      let p := partOfOp s o
      let u := ({ sent s o q with scopeQ := (sent s o q).scopeQ.eraseIdx i } : State).scopeNote p (slotKey (slotOf o))
      (∀ c, q.kind = .fsclose c → exec (.scopeUnitChange i) s = .next ((u.scopeClose p c).finishOp o))
      ∧ (∀ c par, q.kind = .fsopen c par → exec (.scopeUnitChange i) s = .next ((u.scopeOpen p c par).finishOp o))
      ∧ (∀ c, q.kind = .fswait c →
          ((s.scopeAt p c).members = 0 → exec (.scopeUnitChange i) s = .next (u.decideRes o (s.scopeAt p c).err.toNat .none))
          ∧ ((s.scopeAt p c).members ≠ 0 →
            exec (.scopeUnitChange i) s = .next (u.modPend o fun q => { q with arrived := true }))))
  ∧ (∀ (s : State) (p n : Nat) (err : Bool), (s.scopeAt p n).members = 1 → (s.scopeAt p n).parent = none →
      let e := (s.scopeAt p n).err || err
      let u := s.modScope p n fun y => { y with members := y.members - 1, err := y.err || err }
      let waits := u.pendsWhere fun r q => u.partOf r == p && q.arrived && q.res.isNone && q.kind == .fswait n
      s.scopeLeave p n err = (((waits.foldl (fun s o => s.decideRes o e.toNat .none) u).recordsDue p n e).consumersAll p))
  ∧ (∀ (s : State) (o : OpRef) (q : Pend), Sendable s o q → s.memberOf (slotOf o) = none → (q.kind = .gstat ∨ ∃ h, q.kind = .gpost h) →
      exec (.cirquePost o) s = .next ((sent s o q).decideRes o 0x8000000000000007 .faulted))
  ∧ (∀ (s : State) (o : OpRef) (q : Pend) (g m : Nat) (G : Group), Sendable s o q → s.memberOf (slotOf o) = some (g, m) →
      s.groupAt g = some G → s.groupLive G = true →
      (∀ h, q.kind = .gpost h → exec (.cirquePost o) s = .next
        ((((sent s o q).putGroup g (G.post m h)).cancelUnplaced g G).decideRes o ((G.post m h).result m) .none))
      ∧ (q.kind = .gstat → exec (.cirquePost o) s = .next ((sent s o q).decideRes o (G.result m) .none)))
  ∧ (∀ (g : Group) (m : Nat) (h : Word), m < g.members.length →
      let posted : Group := { g with
        posts := g.posts + 1, members := g.members.mapIdx fun i y => if i = m then { y with stat := 1, hash := some h } else y }
      let n := ((g.hashes.find? fun y => y.1 = h).map fun y => y.2).getD 0 + 1
      ((g.memberAt m).stat ≠ 0 → g.post m h = g.plurality)
      ∧ ((g.memberAt m).stat = 0 → g.decided = true → g.post m h = posted)
      ∧ ((g.memberAt m).stat = 0 → g.decided = false → n ≠ g.quorum →
        g.post m h = Group.plurality { posted with hashes := countHash h g.hashes })
      ∧ ((g.memberAt m).stat = 0 → g.decided = false → n = g.quorum → g.post m h = { posted with
        hashes := countHash h g.hashes, decided := true, byQuorum := true, winner := h
        cancelled := g.cancelled + (posted.members.filter fun y => y.stat == 0).length
        members := posted.members.map fun y => if y.stat = 0 then { y with stat := 3, due := y.placed } else y }))
  ∧ (∀ (h : Word) (l l' : List (Word × Nat)), (∀ y ∈ l, y.1 ≠ h) → countHash h l = l ++ [(h, 1)]
      ∧ ∀ n, countHash h (l ++ (h, n) :: l') = l ++ (h, n + 1) :: l')
  ∧ (∀ (g : Group),
      let leads := fun (h : Word) (n : Nat) => ∃ i, g.hashes[i]? = some (h, n) ∧ ∀ (j : Nat) (y : Word × Nat), g.hashes[j]? = some y → y.2 ≤ n ∧ (j < i → y.2 < n)
      let out := fun (m n : Nat) => g.result m = (if g.decided = false then 0 else match (g.memberAt m).hash with
          | none => 3
          | some h => if h = g.winner then 1 else 2)
        + g.byQuorum.toNat * 4 + g.decided.toNat * 8 + n * 2 ^ 8 + g.posts * 2 ^ 16 + g.cancelled * 2 ^ 24
      ((g.decided = true ∨ ∃ y ∈ g.members, y.stat = 0) → g.plurality = g)
      ∧ (g.decided = false → (∀ y ∈ g.members, y.stat ≠ 0) →
        (g.hashes = [] → g.plurality = { g with decided := true, noAnswer := true, winner := 0 })
        ∧ (∀ h n, leads h n → g.plurality = { g with decided := true, winner := h }))
      ∧ (∀ m, (g.decided = false → (g.hashes = [] → out m 0) ∧ ∀ h n, leads h n → out m n)
        ∧ (g.decided = true → (g.noAnswer = true → out m 0) ∧ ∀ n, g.noAnswer = false →
          g.hashes.find? (fun y => y.1 = g.winner) = some (g.winner, n) → out m n))
      ∧ (∀ (m : Nat) (t : Word) (started : Bool),
        let x := g.memberAt m
        let took : Option Word := if started then x.cturns else none
        g.endMember m t started = Group.plurality { g with
          ended := g.ended + 1, totTurns := g.totTurns + t
          members := g.members.mapIdx fun i y => if i = m then { y with stat := if y.stat = 0 then 2 else y.stat, due := false } else y
          cancTurns := if x.stat = 3 then g.cancTurns + took.getD t else g.cancTurns
          handTurns := match took with
            | some c => if x.stat = 3 then g.handTurns + (t - c) else g.handTurns
            | none => g.handTurns }))
  ∧ (∀ (s : State) (i : Nat) (e : MemberEnd), s.memberQ[i]? = some e → s.live 0 = true →
      (∀ G, s.groupAt e.group = some G → s.groupLive G = true) → ∃ t, exec (.cirqueMemberEnd i) s = .next t
      ∧ t.memberQ = s.memberQ.eraseIdx i ∧ t.scopeQ = s.scopeQ ++ [.depart e.depart]
      ∧ (∀ G, s.groupAt e.group = some G → t.groupAt e.group =
          (if (G.endMember e.member e.turns e.started).members.length ≤ (G.endMember e.member e.turns e.started).ended then none
            else some (G.endMember e.member e.turns e.started))))
  ∧ (∀ (s : State) (i : Nat) (r : SlotRef) (t : Task), s.latchQ[i]? = some (r, t) → s.live (coreDie r.core) = true →
      exec (.calvingCompletionLatch i) s = .next (if (s.slotAt r).task = some t then
          (({ s with latchQ := s.latchQ.eraseIdx i } : State).recvRel (coreDie r.core) (some .pkg) (.latch r.core r.slot)).setLatch r
        else { s with latchQ := s.latchQ.eraseIdx i }))

/-- Saving, loading and killing (R316 to R320, R324, R330, R331, R333 to R335): a spill's start turns its target to Saving, an Active
one as it is and one whose cancellation is due at that point with CPEND set; its end, with everything delivered and its die's stores
at their homes, writes the image of R317 and frees the slot; a refill's start loads a free slot from a live image; its end sets the
slot going; a kill that has arrived stops its target in its turn among the core's requests. -/
def Obligations.MigrationEvents : Prop :=
  (∀ (s : State) (c : Nat) (q : CalvReq), (s.coreAt c).calving = none → s.live (coreDie c) = true → (s.coreAt c).calvQ = [q] →
      s.pushedOut q.prior.die = true → q.cmd = .spill →
      let r : SlotRef := ⟨c, q.slot⟩
      ((s.slotAt r).run = .active → ∃ t, exec (.spillStart ⟨c, none⟩) s = .next t
        ∧ t.slotAt r = { s.slotAt r with run := .saving none, ahead := [], penalty := none }
        ∧ (t.coreAt c).calving = some q ∧ (t.coreAt c).calvQ = [] ∧ t.hbm = s.hbm)
      ∧ (∀ epc, (s.slotAt r).run = .cancelDue epc → ∃ t, exec (.spillStart ⟨c, none⟩) s = .next t
        ∧ t.slotAt r = { s.slotAt r with run := .saving none, pc := epc, ahead := [], penalty := none }
        ∧ (t.coreAt c).calving = some q))
  ∧ (∀ (s : State) (c : Nat) (q : CalvReq) (w : Option Wait), (s.coreAt c).calving = some q → s.live (coreDie c) = true →
      s.priorDone q.prior = true → s.pushedOut (coreDie c) = true → q.cmd = .spill → (s.slotAt ⟨c, q.slot⟩).run = .saving w →
      s.spillReady ⟨c, q.slot⟩ w = true → s.devLive q.part q.pa 8192 = true →
      let r : SlotRef := ⟨c, q.slot⟩
      exec (.spillComplete c) s = .next ((s.modCore c fun C => { C with calving := none }).spillEnd c q w)
      ∧ (q.part < 4 → w.bind State.waitId = none → ∃ t num n, exec (.spillComplete c) s = .next t ∧ t.slotAt r = Slot.init
        ∧ ∀ i < 8192, t.homeByte q.part (q.pa + i)
          = (imageBytes { s.slotAt r with evt := (s.slotAt r).evt || decide (q.by_ = .slot r (s.taskAt r)) } num n).getD i 0))
  ∧ (∀ (s : State) (c : Nat) (q : CalvReq), (s.coreAt c).calving = none → s.live (coreDie c) = true → (s.coreAt c).calvQ = [q] →
      s.priorDone q.prior = true → q.cmd = .refill → (s.slotAt ⟨c, q.slot⟩).run = .free → s.devLive q.part q.pa 8192 = true →
      s.looseIn c = false →
      exec (.refillStart ⟨c, none⟩) s = .next ((s.modCore c fun C => { C with calvQ := [] }).refillBegin c q))
  ∧ (∀ (s : State) (c : Nat) (q : CalvReq), s.imageAt q 0x1200 ≠ 2 ^ 64 - 1 → s.imageLive q (s.imageTask q) = true →
      s.imagePoisoned q = false → s.imageRecord q (s.imageTask q) = none →
      (s.refillBegin c q).slotAt ⟨c, q.slot⟩ = s.imageSlot q (s.imageTask q))
  ∧ (∀ (s : State) (c : Nat) (q : CalvReq), (s.coreAt c).calving = some q → s.live (coreDie c) = true → q.cmd = .refill →
      (s.slotAt ⟨c, q.slot⟩).run = .clearing none →
      exec (.refillComplete c) s = .next ((((s.modCore c fun C => { C with calving := none }).modSlot ⟨c, q.slot⟩ fun sl =>
        { sl with run := .active }).wakeRel (coreDie c) q.by_).wakeUp q.by_))
  ∧ (∀ (s : State) (o : OpRef) (q : Pend) (c n pa : Nat), s.pendAt o = some q → q.kind = .calving .kill c n pa →
      s.live (coreDie c) = true →
      let k : CalvReq := ⟨.kill, n, partOfOp s o, 0, 0, s.wakerOf (slotOf o), s.priorOf o⟩
      let u := s.finishOp o
      ((u.coreAt c).calvQ = [] → exec (.slotkillArrival o) s = .next
          (((u.modCore c fun C => { C with calvQ := [] }).killSlot ⟨c, n⟩ k.by_ k.prior)))
      ∧ (∀ x xs, (u.coreAt c).calvQ = x :: xs → x.cmd ≠ .kill → (x.cmd ≠ .refill ∨ (u.slotAt ⟨c, x.slot⟩).run = .free) →
        exec (.slotkillArrival o) s = .next (u.modCore c fun C => { C with calvQ := C.calvQ ++ [k] })))

/-- Work queues (R20, R23, R24, R26 to R28, R271, R346): a well-sized message of a bound job whose ring has room goes behind the
others; one that finds no ring, a bad length or no room is refused with code 0, 1 or 2. The packet of the next queue is read and
checked once: one that fails leaves with a rejection record that names the first check of R24 it fails, one that passes is accepted
with groups that are free (which ones is an input of the event), or stays at the head as it was read while too few are. A SPAWN's is read as its
thread's loads and answered with its cause, its code or 0. An oldest completion record leaves once every write is at its home, or is
dropped and counted when the transport fails. -/
def Obligations.QueueEvents : Prop :=
  (∀ (s : State) (m : QMsg) (p : Nat) (P : Partition), m.queue < 65536 → s.live (m.queue % 4) = true → s.jobBound m.job = true →
      s.queueOwner m.queue = some p → s.part? p = some P →
      let Q := s.queueAt m.queue
      let n := m.data.length
      let sized : Prop := 32 ≤ n ∧ n ≤ 256 ∧ n % 16 = 0 ∧ (s.isControl m.queue = true → n = 64)
      let refused := fun (code : Nat) => { s with outbox := s.outbox ++ [.nack m.queue code] }
      ((m.job ∉ P.cfg.jobs ∨ Q.isSet = false) → exec (.queueMessage m) s = .next (refused 0))
      ∧ (m.job ∈ P.cfg.jobs → Q.isSet = true → ¬ sized → exec (.queueMessage m) s = .next (refused 1))
      ∧ (m.job ∈ P.cfg.jobs → Q.isSet = true → sized → 2 ^ Q.j ≤ Q.entries.length → exec (.queueMessage m) s = .next (refused 2))
      ∧ (m.job ∈ P.cfg.jobs → Q.isSet = true → sized → Q.entries.length < 2 ^ Q.j →
          s.devLive p (State.queuePa Q (Q.head + Q.entries.length) 0) n = true → ∃ t, exec (.queueMessage m) s = .next t ∧ t.queueAt m.queue = { Q with
            entries := Q.entries ++ [⟨n, Q.nextSeq⟩], nextSeq := Q.nextSeq + 1 } ∧ t.outbox = s.outbox ∧ t.slots = s.slots))
  ∧ (∀ (s : State) (q p : Nat) (e : QEntry) (es : List QEntry) (groups : List Nat), s.queueOwner q = some p →
      (s.queueAt q).entries = e :: es → s.isNext q = true → s.isControl q = false → s.headLive p (s.queueAt q) = true →
      s.acceptOpen (q % 4) p = true →
      let Q := s.queueAt q
      let bs := s.headBytes p Q
      let rotated := fun (v : State) => v.modDie (q % 4) fun D => { D with lastQ := Sparse.set Q.cls q D.lastQ }
      let takes := fun (v : State) (k : Packet) (recs : List (Nat × Nat)) =>
        (∀ l, v.freeLaunch (q % 4) = some l → recs.length + v.groups.length ≤ 4096 → v.groupsOk recs.length groups = true →
          exec (.packetCheck ⟨.queue q, groups⟩) s = .next (((rotated v).popQueue q).accept (q % 4) p l k recs groups (.queue q e.seq)))
        ∧ (4096 < recs.length + v.groups.length → exec (.packetCheck ⟨.queue q, groups⟩) s = .next
            ((rotated v).modQueue q fun Q => { Q with waits := some ⟨k, recs⟩ }))
      (∀ u code, Q.waits = none → s.checkPacket (q % 4) p bs (some e.len) = (u, .reject code) → u.queues = s.queues →
        exec (.packetCheck ⟨.queue q, groups⟩) s = .next
          (((rotated u).recordReject p q e.seq (msgNat bs 16 4) code false).popQueue q))
      ∧ (∀ u k recs, Q.waits = none → s.checkPacket (q % 4) p bs (some e.len) = (u, .ok k recs) → u.queues = s.queues → takes u k recs)
      ∧ (∀ k recs, Q.waits = some ⟨k, recs⟩ → takes s k recs))
  ∧ (∀ (s : State) (o : OpRef) (q : Pend) (va : Word) (user : Bool) (groups : List Nat), Sendable s o q → q.kind = .spawn va user →
      s.acceptOpen (coreDie o.core) (partOfOp s o) = true → s.freeLaunch (coreDie o.core) ≠ none →
      Sparse.get? (s.dieAt (coreDie o.core)).spawned o.id = none →
      let u := sent s o q
      let p := partOfOp s o
      let d := coreDie o.core
      (va.toNat % 16 ≠ 0 → exec (.packetCheck ⟨.spawn o, groups⟩) s = .next (u.decideRes o (2 ^ 63 + 4) .faulted))
      ∧ (va.toNat % 16 = 0 →
        (∀ v f, u.spawnRead o va.toNat 16 user = (v, .inl f) → f ≠ 0 →
          exec (.packetCheck ⟨.spawn o, groups⟩) s = .next (v.decideRes o (2 ^ 63 + f.toNat) .faulted))
        ∧ (∀ v h, u.spawnRead o va.toNat 16 user = (v, .inr h) →
          (msgNat h 0 1 ≠ 1 → exec (.packetCheck ⟨.spawn o, groups⟩) s = .next (v.decideRes o 1 .none))
          ∧ (msgNat h 0 1 = 1 → (msgNat h 1 1 < 2 ∨ 16 < msgNat h 1 1) →
            exec (.packetCheck ⟨.spawn o, groups⟩) s = .next (v.decideRes o 2 .none))
          ∧ (msgNat h 0 1 = 1 → 2 ≤ msgNat h 1 1 → msgNat h 1 1 ≤ 16 →
            ∀ w t, v.spawnRead o (va.toNat + 16) (16 * msgNat h 1 1 - 16) user = (w, .inr t) →
            (∀ x code, w.checkPacket d p (h ++ t) none = (x, .reject code) →
              exec (.packetCheck ⟨.spawn o, groups⟩) s = .next (x.decideRes o code .none))
            ∧ (∀ x k recs l, w.checkPacket d p (h ++ t) none = (x, .ok k recs) → x.partOf (slotOf o) = p → x.freeLaunch d = some l →
              recs.length + x.groups.length ≤ 4096 → x.groupsOk recs.length groups = true →
              exec (.packetCheck ⟨.spawn o, groups⟩) s = .next
                ((((x.modDie d fun D => { D with spawned := Sparse.erase o.id D.spawned }).accept d p l k recs groups .spawn).sendRel
                  d (some .pkg) (.launch d l)).decideRes o 0 .none))))))
  ∧ (∀ (s : State) (d p : Nat) (bs : List Byte) (len : Option Nat),
      let sibs := pkFlag bs 2 = true
      let k := pkParse bs
      let n := if sibs then k.taskN / k.sibn else 0
      let passed := fun (j : Nat) => ∀ i, 1 ≤ i → i ≤ j → PacketPass s p bs len i
      (∀ code, 1 ≤ code → code ≤ 10 → passed (code - 1) → ¬ PacketPass s p bs len code → s.checkPacket d p bs len = (s, .reject code))
      ∧ (passed 10 → sibs → k.grprec % 64 ≠ 0 → s.checkPacket d p bs len = (s, .reject 11))
      ∧ (passed 10 → sibs → k.grprec % 64 = 0 → s.devWaits d p .write k.grprec (64 * n) = true → s.checkPacket d p bs len = (s, .wait))
      ∧ (passed 10 → sibs → k.grprec % 64 = 0 → s.devWaits d p .write k.grprec (64 * n) = false → ∀ u,
        (s.devSegs d p .write k.grprec (64 * n) = (u, none) → s.checkPacket d p bs len = (u, .reject 11))
        ∧ (∀ gs, s.devSegs d p .write k.grprec (64 * n) = (u, some gs) →
          (¬ PacketPass s p bs len 12 → s.checkPacket d p bs len = (u, .reject 12))
          ∧ (PacketPass s p bs len 12 → ∃ recs, s.checkPacket d p bs len = (u, .ok k recs) ∧ recs.map Prod.fst = List.range n
            ∧ ∀ seg, gs = [seg] → 64 * n ≤ seg.len → ∀ i < n, recs[i]? = some (i, State.segPa seg + 64 * i))))
      ∧ (passed 10 → ¬ sibs → (¬ PacketPass s p bs len 12 → s.checkPacket d p bs len = (s, .reject 12))
        ∧ (PacketPass s p bs len 12 → s.checkPacket d p bs len = (s, .ok k []))))
  ∧ (∀ (s : State) (p : Nat) (P : Partition) (x : RecOut) (xs : List RecOut), s.part? p = some P → P.recs = x :: xs →
      x.slaunch = false → s.live (x.queue % 4) = true → s.allPushed = true →
      (∃ t, exec (.completionRecordWrite p) s = .next t
        ∧ t.outbox = s.outbox ++ [.record (s.queueAt x.queue).target (s.queueAt x.queue).buf (recBytes p x)]
        ∧ t.part? p = some { P with recs := xs } ∧ t.hbm = s.hbm)
      ∧ (∃ t, exec (.recordTransportFailure p) s = .next t ∧ t.outbox = s.outbox
        ∧ t.part? p = some { P with recs := xs } ∧ t.serac = { s.serac with recDrops := s.serac.recDrops + 1 }))

/-- The transport (R169, R349 to R351, R359): an access wholly inside one window of its job with the right is performed, a write into
HBM itself; any other access of a bound job is refused and touches nothing; a packet of an unbound job is dropped and counted; one
to a port of a die that does not run is lost. A write goes to HBM at one moment, over any byte that a home holds dirty (log 28). -/
def Obligations.TransportEvents : Prop :=
  (∀ (s : State) (r : RmaReq), s.live (r.port / 3) = false → exec (.rmaWrite r) s = .next s ∧ exec (.rmaRead r) s = .next s)
  ∧ (∀ (s : State) (r : RmaReq), s.live (r.port / 3) = true → s.jobBound r.job = false →
      let dropped : State := { s with serac := { s.serac with drops := s.serac.drops + 1 } }
      exec (.rmaWrite r) s = .next dropped ∧ exec (.rmaRead r) s = .next dropped)
  ∧ (∀ s : State, exec .transportPacketDrop s = .next { s with serac := { s.serac with drops := s.serac.drops + 1 } })
  ∧ (∀ (s : State) (r : RmaReq), s.live (r.port / 3) = true → s.jobBound r.job = true →
      let refused : State := { s with outbox := s.outbox ++ [.rmaAck r.job false []] }
      (s.rmaWindow r.job r.addr r.data.length true = none → exec (.rmaWrite r) s = .next refused)
      ∧ (s.rmaWindow r.job r.addr r.len false = none → exec (.rmaRead r) s = .next refused)
      ∧ (∀ p w, s.rmaWindow r.job r.addr r.data.length true = some (p, w) → w.physical = true →
        (2 ^ 39 < r.addr + r.data.length → exec (.rmaWrite r) s = .next refused)
        ∧ (p < 4 → r.addr + r.data.length ≤ 2 ^ 39 → s.placesLive p [(r.addr, r.data.length)] = true →
          ∃ t, exec (.rmaWrite r) s = .next t ∧ t.outbox = s.outbox ++ [.rmaAck r.job true []] ∧ t.slots = s.slots
          ∧ (∀ i < r.data.length, t.homeByte p (r.addr + i) = r.data.getD i 0)
          ∧ (∀ j, (j < r.addr ∨ r.addr + r.data.length ≤ j) → t.homeByte p j = s.homeByte p j)))
      ∧ (∀ p w, s.rmaWindow r.job r.addr r.len false = some (p, w) → w.physical = true →
        (2 ^ 39 < r.addr + r.len → exec (.rmaRead r) s = .next refused)
        ∧ (r.addr + r.len ≤ 2 ^ 39 → s.placesLive p [(r.addr, r.len)] = true → exec (.rmaRead r) s = .next { s with
          outbox := s.outbox ++ [.rmaAck r.job true ((List.range r.len).map fun i => s.homeByte p (r.addr + i))] })))

/-- Control commands (R352 to R354, R375): FOFFER answers the feature word, FACCEPT keeps a mask, SRESUME sets the latch of a
slot of the partition, QSET and FRING set their rings, each with STATUS 0; an unknown command is answered with STATUS 1; an
SLAUNCH owes its reply until its record is written. -/
def Obligations.ControlEvents : Prop :=
  (∀ (s : State) (p : Nat) (bs : List Byte), ControlHead s p bs 3 0 → exec (.foffer p) s = .next (answered s p 3 0 (bytesOfNat 8 0x3F)))
  ∧ (∀ (s : State) (p : Nat) (bs : List Byte), ControlHead s p bs 4 8 →
      (msgNat bs 8 8 < 64 → exec (.faccept p) s = .next (answered (s.modPart p fun P =>
        { P with features := BitVec.ofNat 6 (msgNat bs 8 8) }) p 4 0 []))
      ∧ (64 ≤ msgNat bs 8 8 → exec (.faccept p) s = .next (answered s p 4 2 [])))
  ∧ (∀ (s : State) (p : Nat) (bs : List Byte), ControlHead s p bs 5 8 →
      let v := msgNat bs 8 8
      (s.ownerOf (v % 16) = some p → s.live (coreDie (v / 16 % 1024)) = true →
          exec (.sresume p) s = .next (answered (s.setLatch ⟨v / 16 % 1024, v % 16⟩) p 5 0 []))
      ∧ (s.ownerOf (v % 16) = some p → s.live (coreDie (v / 16 % 1024)) = false → exec (.sresume p) s = .next s)
      ∧ (s.ownerOf (v % 16) ≠ some p → exec (.sresume p) s = .next (answered s p 5 2 [])))
  ∧ (∀ (s u : State) (p : Nat) (bs : List Byte) (fr : List Nat), ControlHead s p bs 1 56 →
      let q := msgNat bs 8 8
      let base := msgNat bs 16 8
      let j := msgNat bs 24 8
      let cls := msgNat bs 32 8
      q < 65536 → s.queueOwner q = some p → q ≠ s.ctlQueue p → 4 ≤ j → j ≤ 16 → cls ≤ 3 → base % (256 * 2 ^ j) = 0 →
      s.devWaits (q % 4) p .write base (256 * 2 ^ j) = false → s.ringFrames (q % 4) p base (256 * 2 ^ j) = (u, some fr) →
      exec (.qset p) s = .next (answered (u.modQueue q fun Q => { Q with
        isSet := true, base := base, frames := fr, j := j, cls := cls, target := (bs.drop 40).take 16
        buf := BitVec.ofNat 64 (msgNat bs 56 8), head := 0, entries := [], nextSeq := 0, waits := none }) p 1 0 []))
  ∧ (∀ (s u : State) (p : Nat) (bs : List Byte) (fr : List Nat), ControlHead s p bs 2 16 →
      let base := msgNat bs 8 8
      let j := msgNat bs 16 8
      base % 64 = 0 → 4 ≤ j → j ≤ 16 → s.devWaits (s.ctlQueue p % 4) p .write base (64 + 64 * 2 ^ j) = false →
      s.ringFrames (s.ctlQueue p % 4) p base (64 + 64 * 2 ^ j) = (u, some fr) →
      u.placesLive p [(State.ringPa base fr 0, 24)] = true →
      u.homeNat p (State.ringPa base fr 0) 24 = 0 →
      exec (.fring p) s = .next (answered (u.modPart p fun P => { P with ring := some ⟨base, j, fr⟩ }) p 2 0 []))
  ∧ (∀ (s : State) (p : Nat) (bs : List Byte), s.ctlHead p = some bs → (msgNat bs 0 1 = 0 ∨ 6 < msgNat bs 0 1) →
      exec (.controlUnknownCmd p) s = .next (answered s p (msgNat bs 0 1) 1 []))
  ∧ (∀ (s u : State) (p : Nat) (bs : List Byte), ControlHead s p bs 6 32 →
      let q := s.ctlQueue p
      let pk := (bs.drop 8).take 32
      let seq := ((s.queueAt q).entries.head?.map fun e => e.seq).getD 0
      let owed := fun (v : State) => ((v.modDie (q % 4) fun D => { D with lastQ := Sparse.set (s.queueAt q).cls q D.lastQ }).popQueue
        q).modPart p fun P => { P with slaunch := true }
      (s.isNext q = false → exec (.slaunch p) s = .next s)
      ∧ (s.isNext q = true → s.acceptOpen (q % 4) p = true → u.queues = s.queues →
        (∀ code, s.checkPacket (q % 4) p pk (some 32) = (u, .reject code) →
          exec (.slaunch p) s = .next ((owed u).recordReject p q seq (msgNat pk 16 4) code true))
        ∧ (∀ k recs l, s.checkPacket (q % 4) p pk (some 32) = (u, .ok k recs) → u.freeLaunch (q % 4) = some l →
          exec (.slaunch p) s = .next ((owed u).accept (q % 4) p l k recs [] (.slaunch q seq)))))
  ∧ (∀ (s : State) (p : Nat) (P : Partition) (x : RecOut), s.part? p = some P → P.recs.find? (fun x => x.slaunch) = some x →
      s.live (P.cfg.cq % 4) = true → s.allPushed = true → ∃ t, exec (.slaunchReply p) s = .next t
        ∧ t.outbox = s.outbox ++ [.reply (s.queueAt P.cfg.cq).target (s.queueAt P.cfg.cq).buf 6 0 (recBytes p x ++ List.replicate 24 0)]
        ∧ t.part? p = some { P with recs := P.recs.filter fun y => !y.slaunch, slaunch := false })

/-- Release times and TIME (R29, R30, R356): a launch whose time has come fires, and each of its tag-ready tasks is eligible; a
locked servo steps an offset above 1 µs, which first fires what is due, makes a tagged launch ahead of the new time wait again for
those of its tasks that are not yet eligible (log 41), and fires what is then due; locking is kept, and is left for holdover. -/
def Obligations.ClockEvents : Prop :=
  (∀ (s : State) (d l : Nat) (L : Launch) (rt : Nat), s.launchAt d l = some L → s.live d = true → L.fired = false →
      L.release = some rt → rt ≤ s.time →
      ∃ t, exec (.releaseTimeReached d l) s = .next t ∧ t.launchAt d l = some L.fire ∧ t.hbm = s.hbm ∧ t.slots = s.slots)
  ∧ (∀ L : Launch, L.fire.fired = true ∧ ∀ k x, Sparse.get? L.tasks k = some x →
      Sparse.get? L.fire.tasks k = some (if x = .ready then .eligible else x))
  ∧ (∀ (s : State) (x : Int), s.serac.ptp = .locked → 1000 < x.natAbs → ∃ t, exec (.timeStep x) s = .next t
      ∧ t.time = (((s.time : Int) + x) % 2 ^ 64).toNat ∧ t.slots = s.slots ∧ t.hbm = s.hbm ∧ t.serac = s.serac
      ∧ ∀ d l, s.live d = true →
        let fires := fun (now : Nat) (L : Launch) => if L.fired = false ∧ ∃ r, L.release = some r ∧ r ≤ now then L.fire else L
        let waits := fun (L : Launch) => if L.inputs ≠ [] ∧ ∃ r, L.release = some r ∧ t.time < r then { L with fired := false } else L
        t.launchAt d l = (s.launchAt d l).map fun L => fires t.time (waits (fires s.time L)))
  ∧ (∀ s : State, s.serac.ptp = .locked → exec .ptpHoldover s = .next { s with serac := { s.serac with ptp := .holdover } })
  ∧ (∀ (s : State) (x : Int), s.serac.ptp ≠ .locked → ∃ t, exec (.ptpLock x) s = .next t ∧ t.serac = { s.serac with ptp := .locked }
      ∧ t.time = (if 1000 < x.natAbs then (((s.time : Int) + x) % 2 ^ 64).toNat else s.time) ∧ t.slots = s.slots)

/-- From placement to a task's first issue (R21, R37 to R39, R43, R44): the firmware binds its next task to the first open slot of the
core its rules pick: timed tasks by release time, then the partitions in a weighted round robin, in each the higher PRIO and the
earlier acceptance first; a hinted cluster with room, else a cluster of the hinted die by the SPREAD context, else one of the die with
most room, there the core with most room; a DET launch's tasks in order on their cores. The model's own readings, not the manual's
words: how such a task moves between dies' Nunataks and what a weight counts (log 59), and that a timed task uses up no turn of the
round robin (log 78). Dispatch of a valid record of a live launch to a Free slot that its partition owns loads the task: s1 its
index, s2 the count, s3 ARGV or, of an INLINE packet, the address of the slot's payload area, whose words hold the payload, zero past
it, and are full, s4 the scope, s5 the member or all ones, every other register zero and full, the PC at the entry; a slot that is
not its partition's refuses with BSTAT 2, a launch that is not live with 4, an occupied slot with 3. -/
def Obligations.PlacementEvents : Prop :=
  (∀ (s u v : State) (d k i : Nat) (c : Cand) (is_ : List Nat), s.live d = true → s.pickTask d = some (c, u) →
      u.pickCore d c = (k, v) → s.live (coreDie k) = true → v.openOn c.launch.part k = i :: is_ →
      (s.usesSpread c = false → exec (.nunatakPlacement d) s = .next (v.bindTask c ⟨k, i⟩))
      ∧ (∀ w, s.usesSpread c = true → s.nunatakWire d = some w →
        exec (.nunatakPlacement d) s = .next ((v.useWire d w).bindTask c ⟨k, i⟩))
      ∧ (s.usesSpread c = true → s.nunatakWire d = none → exec (.nunatakPlacement d) s = .next s))
  ∧ (∀ (s : State) (d : Nat) (c : Cand), c ∈ s.candidates d ↔ c.die < 4 ∧ s.live c.die = true
      ∧ (c.entry, c.launch) ∈ (s.dieAt c.die).launches
      ∧ c.task < c.launch.taskN ∧ c.launch.st c.task = .eligible
      ∧ (∀ t < c.task, if c.launch.det = true then c.launch.st t = .bound ∨ c.launch.st t = .ended else c.launch.st t ≠ .eligible)
      ∧ d = (match c.launch.hint with
        | some k => if c.launch.det = false ∧ 0 < s.openDie c.launch.part (k / 32) then k / 32 else c.die
        | none => c.die)
      ∧ (if c.launch.det = true then s.recordOut c.die c.entry = false ∧ s.openOn c.launch.part (c.launch.detCore c.task) ≠ []
        else ∃ e < 4, 0 < s.openDie c.launch.part e))
  ∧ (∀ (s u : State) (d : Nat) (c : Cand), s.pickTask d = some (c, u) →
      let D := s.dieAt d
      let has := fun (p : Nat) => ∃ x ∈ s.candidates d, x.launch.part = p
      let later := fun (x : Cand) => x.launch.prio < c.launch.prio ∨ (x.launch.prio = c.launch.prio ∧ c.launch.order ≤ x.launch.order)
      c ∈ s.candidates d
      ∧ ((∃ x ∈ s.candidates d, x.launch.release.isSome = true) → u = s ∧ ∃ r, c.launch.release = some r
        ∧ ∀ x ∈ s.candidates d, ∀ r', x.launch.release = some r' → r < r' ∨ (r = r' ∧ later x))
      ∧ ((∀ x ∈ s.candidates d, x.launch.release = none) →
        (∀ x ∈ s.candidates d, x.launch.part = c.launch.part → later x)
        ∧ (has D.rrPart → D.rrServed < s.slotCount D.rrPart → c.launch.part = D.rrPart
          ∧ u = s.modDie d fun D => { D with rrServed := D.rrServed + 1 })
        ∧ (¬ (has D.rrPart ∧ D.rrServed < s.slotCount D.rrPart) → ∃ i, 1 ≤ i ∧ i ≤ 4 ∧ c.launch.part = (D.rrPart + i) % 4
          ∧ (∀ j, 1 ≤ j → j < i → ¬ has ((D.rrPart + j) % 4))
          ∧ u = s.modDie d fun D => { D with rrPart := c.launch.part, rrServed := 1 })))
  ∧ (∀ (s : State) (d : Nat) (c : Cand), c.die < 4 →
      let p := c.launch.part
      let on := fun (x : Nat) => (s.openOn p x).length
      let least := fun (x y : Nat) => x / 8 = y / 8 ∧ ∀ z, z / 8 = y / 8 → on z ≤ on x ∧ (z < x → on z < on x)
      let freest := fun (e : Nat) => e < 4 ∧ (∀ x < 4, s.openDie p x ≤ s.openDie p e)
        ∧ (e ≠ c.die → s.openDie p c.die < s.openDie p e ∧ ∀ x < e, s.openDie p x < s.openDie p e)
      let spreads := fun (e : Nat) =>
        let cs := ((List.range 32).map fun i => 32 * e + i).filter fun k => decide (0 < s.openCluster p k)
        let n := Sparse.get 0 (s.dieAt d).spread (e * 4 + p)
        ∃ x, least x (8 * cs.getD (n % cs.length) 0) ∧ s.pickCore d c =
          (x, s.modDie d fun D => { D with spread := Sparse.set (e * 4 + p) ((n + 1) % 32) D.spread })
      (c.launch.det = true → s.pickCore d c = ((8 * c.launch.hint.getD 0 + c.task) % 1024, s))
      ∧ (∀ k, c.launch.det = false → c.launch.hint = some k →
        (0 < s.openCluster p k → ∃ x, least x (8 * k) ∧ s.pickCore d c = (x, s))
        ∧ (s.openCluster p k = 0 → 0 < s.openDie p (k / 32) → spreads (k / 32))
        ∧ (s.openCluster p k = 0 → s.openDie p (k / 32) = 0 → ∃ e, freest e ∧ spreads e))
      ∧ (c.launch.det = false → c.launch.hint = none → ∃ e, freest e ∧ spreads e))
  ∧ (∀ (s : State) (d e : Nat), s.live d = true → e < 4096 →
      let r : SlotRef := ⟨d * 256 + e / 16, e % 16⟩
      let b := s.recAt r
      b.valid = true → s.live b.ldie = true → s.looseIn r.core = false →
      (s.ownerOf r.slot ≠ some b.part → exec (.dispatch d e) s = .next (s.refuseBind r 2))
      ∧ (s.ownerOf r.slot = some b.part → (∀ L, s.launchAt b.ldie b.launch = some L → L.part ≠ b.part) →
          exec (.dispatch d e) s = .next (s.refuseBind r 4))
      ∧ (∀ L, s.ownerOf r.slot = some b.part → s.launchAt b.ldie b.launch = some L → L.part = b.part →
          (((s.slotAt r).run ≠ .free ∨ s.refillWaits r = true) → exec (.dispatch d e) s = .next (s.refuseBind r 3))
          ∧ ((s.slotAt r).run = .free → s.refillWaits r = false →
            let area := s.padSize b.part - 4096 + 256 * r.slot
            (∀ bs, L.payload = some bs → ∀ q ∈ (s.cpAt r.core b.part).bankQ, ¬ (area / 8 ≤ q.off / 8 ∧ q.off / 8 < area / 8 + 32)) →
            ∃ t, exec (.dispatch d e) s = .next t
            ∧ (t.slotAt r).run = .clearing none ∧ (t.slotAt r).pc = b.pc ∧ (t.slotAt r).mode.priv = L.super
            ∧ (t.slotAt r).lc = 0 ∧ (t.slotAt r).turns = 0 ∧ (t.slotAt r).mode.cpend = b.cpend ∧ (t.recAt r).bstat = 1
            ∧ (∀ f < 32, t.sreg r f = ⟨(match f with
                | 1 => BitVec.ofNat 64 b.taskIdx
                | 2 => BitVec.ofNat 64 b.taskN
                | 3 => if L.payload = none then b.argv else BitVec.ofNat 64 (0xF0 * 2 ^ 48 + area)
                | 4 => BitVec.ofNat 64 b.scope
                | 5 => if b.member = 255 then BitVec.allOnes 64 else BitVec.ofNat 64 b.member
                | _ => 0), true, .none, none, false⟩)
            ∧ (∀ f < 16, t.vreg r f = ⟨0, true, .none, none, false⟩)
            ∧ (∀ bs, L.payload = some bs → ∀ i < 32,
                (t.padWord r.core b.part (area / 8 + i)).val = BitVec.ofNat 64 (msgNat bs (8 * i) 8)
                ∧ (t.padWord r.core b.part (area / 8 + i)).full = true))))

/-- Side-band requests that pass R358's first checks while the dies are powered and no earlier one is under way (R357 to R364,
R374; how arguments are laid out is opaque, log 3, and targets are read as log 54 says): each command with a right target and
arguments, and no frozen die in its way, has its effect and is answered with STATUS 0; a SLOTKILL joins its core's requests and is
answered once the kill is complete, and a DIERESET behind a slot blocked at another, frozen die once that is over; a request that
comes while an earlier one waits is not served yet (log 51); an unknown command is answered with STATUS 3, a header or length that
R357 does not allow with 5. R358's first checks fail before any other: a bad signature, an unlisted key, a wrong MAGIC or VER is
answered with STATUS 1, a SEQ that is not above its key's last with STATUS 2, and nothing else changes. The model's own choices, not
the manual's words: STATUS 5 for a set reserved bit, a wrong ARGLEN or too many arguments (log 88), and STATUS 4 for PARTCFG OP 0 on a
partition that is fixed (log 55). -/
def Obligations.SideBandEvents : Prop :=
  (∀ (s : State) (q : SbReq), Accepted s q 1 → ∃ t args, exec (.health q) s = .next (replies t q 0 args)
      ∧ t = { noted s q with nextId := s.nextId + 1 })
  ∧ (∀ (s : State) (q : SbReq), q.cmd = 1 → s.serac.waiting ≠ [] → exec (.health q) s = .next s)
  ∧ (∀ (s : State) (q : SbReq), q.cmd = 1 → s.serac.power = .on → s.serac.waiting = [] → q.sigOk = true → q.keyid ≤ 3 →
      q.keyid ∈ s.serac.keys → q.magic = 0x4B58 → q.ver = 1 → Sparse.get 0 s.serac.keySeq q.keyid ≤ q.seq →
      (q.reserved ≠ 0 ∨ q.arglen ≠ q.args.length ∨ 1024 < q.args.length) → exec (.health q) s = .next (replies s q 5 []))
  ∧ (∀ (s : State) (q : SbReq) (d which ms : Nat) (rst : Bool), Accepted s q 2 → State.tgtDie q.target = some d →
      Config.wdogArgs q.args = (which, ms, rst) →
      exec (.wdog q) s = .next (
        if which = 0 ∧ 10 ≤ ms ∧ ms ≤ 1000 ∧ rst = false then
          replies ((noted s q).modDie d fun D => { D with heartbeatMs := ms }) q 0 []
        else if which = 1 ∧ 100 ≤ ms ∧ ms ≤ 60000 then
          replies ((noted s q).modDie d fun D => { D with progressMs := ms, progressReset := rst }) q 0 []
        else replies s q 5 []))
  ∧ (∀ (s : State) (q : SbReq) (d : Nat), State.tgtDie q.target = some d →
      (Accepted s q 3 → (s.dieAt d).frozen = false → ∃ t, exec (.freeze q) s = .next (replies t q 0 []) ∧ (t.dieAt d).frozen = true
        ∧ t.slots = s.slots ∧ t.hbm = s.hbm ∧ ∀ d', d' ≠ d → t.dieAt d' = s.dieAt d')
      ∧ (Accepted s q 5 → exec (.resume q) s = .next (replies ((noted s q).resumeDie d).devDrain.resetsDue q 0 []))
      ∧ (Accepted s q 5 → (s.dieAt d).frozen = true → s.devOut = [] → s.serac.owed = [] →
        ∃ t, exec (.resume q) s = .next (replies t q 0 []) ∧ (t.dieAt d).frozen = false
        ∧ t.slots = s.slots ∧ t.hbm = s.hbm ∧ ∀ d', d' ≠ d → t.dieAt d' = s.dieAt d')
      ∧ (Accepted s q 4 → (s.dieAt d).frozen = true → ∃ args, exec (.readout q) s = .next
          (replies { noted s q with nextId := s.nextId + 1 } q 0 args) ∧ args.length = 1024)
      ∧ (Accepted s q 4 → (s.dieAt d).frozen = false → exec (.readout q) s = .next (replies s q 4 []))
      ∧ (Accepted s q 8 → q.args = [] → s.blockedBehind d = false →
          exec (.diereset q) s = .next (replies ((noted s q).dieReset d).resetsDue q 0 []))
      ∧ (Accepted s q 8 → q.args = [] → s.blockedBehind d = true → exec (.diereset q) s = .next { noted s q with
          serac := { (noted s q).serac with waiting := [⟨q.seq, 8, d⟩] } })
      ∧ (∀ n, s.serac.owed = [] → (s.serac.waiting = [] → s.resetsDue = s)
        ∧ (s.serac.waiting = [⟨n, 8, d⟩] → s.blockedBehind d = true → s.resetsDue = s))
      ∧ (Accepted s q 11 → q.args = [] → (s.dieAt d).frozen = false →
          exec (.nunrestart q) s = .next (replies ((noted s q).nunRestart d) q 0 [])))
  ∧ (∀ (s : State) (q : SbReq), Accepted s q 6 → q.args = [] → q.target / 16 < 1024 →
      (s.dieAt (coreDie (q.target / 16))).frozen = false →
      let r : SlotRef := ⟨q.target / 16, q.target % 16⟩
      let u : State := { noted s q with serac := { (noted s q).serac with waiting := [⟨q.seq, 6, q.target⟩] } }
      (∀ p, s.ownerOf r.slot = some p → (s.coreAt r.core).calvQ = [] → exec (.sidebandSlotkill q) s = .next
          ((u.modCore r.core fun C => { C with calvQ := [] }).killSlot r (.serac q.seq) ⟨4, []⟩))
      ∧ (s.ownerOf r.slot = none → exec (.sidebandSlotkill q) s = .next (replies (noted s q) q 0 [])))
  ∧ (∀ (s : State) (q : SbReq) (P : Partition), s.anyFrozen = false → s.part? q.target = some P → q.target ≤ 3 →
      (Accepted s q 7 → q.args = [] → exec (.partreset q) s = .next (replies ((noted s q).partReset q.target) q 0 []))
      ∧ (Accepted s q 12 → msgNat q.args 0 8 = 1 → q.args.length = 8 →
          exec (.partcfgRemove q) s = .next (replies ((noted s q).partRemove q.target) q 0 []))
      ∧ (Accepted s q 12 → msgNat q.args 0 8 = 0 → P.fixed = true → exec (.partcfgConfigure q) s = .next (replies s q 4 [])))
  ∧ (∀ (s : State) (q : SbReq), Accepted s q 9 → q.args = [] → q.target = 0xFF →
      exec (.pkgreset q) s = .next (replies (noted s q).pkgReset q 0 []))
  ∧ (∀ (s : State) (q : SbReq) (off : Nat) (final : Bool) (chunk : List Byte), Accepted s q 10 →
      Config.fwChunk q.args = (off, final, chunk) →
      match final with
      | false => ∃ t, exec (.fwload q) s = .next (replies t q 0 []) ∧ t.serac.image = s.serac.image ∧ t.slots = s.slots
          ∧ ∀ i < chunk.length, Sparse.get? t.serac.staging (off + i) = chunk[i]?
      | true => ∃ image, (Config.imageVerifies image = false ∧ exec (.fwload q) s = .next (replies s q 5 []))
          ∨ (Config.imageVerifies image = true ∧ ∃ t, exec (.fwload q) s = .next (replies t q 0 [])
            ∧ t.serac.image = image ∧ t.serac.staging = [] ∧ t.slots = s.slots ∧ t.hbm = s.hbm))
  ∧ (∀ (s : State) (q : SbReq), Accepted s q 12 → s.anyFrozen = false → msgNat q.args 0 8 = 0 → q.target ≤ 3 →
      (∀ P, s.part? q.target = some P → P.fixed = false) →
      q.args.length = 1024 → cfgFields q.args = true → cfgAllowed (cfgParse q.args) (s.otherCfgs q.target) = true →
      ∃ t, exec (.partcfgConfigure q) s = .next (replies t q 0 []) ∧ (t.part? q.target).map (fun P => P.cfg) = some (cfgParse q.args)
        ∧ t.slots = s.slots ∧ (s.l2 = [] → t.hbm = s.hbm))
  ∧ (∀ (s : State) (q : SbReq), Accepted s q 12 → s.anyFrozen = false → s.parts = [] → msgNat q.args 0 8 = 2 → q.target = 0xFF →
      q.args.length = 16 → msgNat q.args 8 8 ≤ 1 → exec (.partcfgSramSplit q) s = .next (replies { noted s q with
        serac := { (noted s q).serac with split512 := decide (msgNat q.args 8 8 = 1) } } q 0 []))
  ∧ (∀ (s : State) (q : SbReq), Accepted s q 13 → q.args.length = 32 →
      ∃ args, exec (.attest q) s = .next (replies (noted s q) q 0 args))
  ∧ (∀ (s : State) (q : SbReq) (cmd : Nat), Accepted s q cmd → (cmd = 0 ∨ 13 < cmd) →
      exec (.sidebandUnknownCmd q) s = .next (replies s q 3 []))
  ∧ (∀ (s : State) (q : SbReq), s.serac.power = .on → s.serac.waiting = [] →
    (q.cmd = 3 → (q.sigOk = false ∨ 3 < q.keyid ∨ q.keyid ∉ s.serac.keys ∨ q.magic ≠ 0x4B58 ∨ q.ver ≠ 1) →
      exec (.freeze q) s = .next (replies s q 1 []))
    ∧ (q.cmd = 9 → q.sigOk = true → q.keyid ≤ 3 → q.keyid ∈ s.serac.keys → q.magic = 0x4B58 → q.ver = 1 →
      q.seq < Sparse.get 0 s.serac.keySeq q.keyid → exec (.pkgreset q) s = .next (replies s q 2 [])))

/-- Power, watchdogs, clocks and errors (R325 to R328, R360 to R365): what powers up, or boots in a package reset, has its images and
its configuration record verified, and is then as after a package reset (log 62); every firing of a watchdog is counted, and when one
fires within what its rule allows is the model's free choice (log 64); a die reset that a frozen die blocks is owed; the arithmetic
clock moves in steps of 100 MHz (log 63); an uncorrectable error poisons the sector or the register that it is of. -/
def Obligations.PhysicalEvents : Prop :=
  (∀ (s : State) (ok : Bool),
      let verify : Prop := (∀ x ∈ s.serac.image :: s.serac.others, Config.imageVerifies x = true) ∧ Config.imageVerifies Config.bootRecord = true
      (s.serac.power = .disconnected ∨ s.serac.power = .bootFailed → ∃ t, exec (.powerUpBoot ok) s = .next t
        ∧ (t.serac.power = .on ↔ ok = true ∧ verify) ∧ t.parts = [] ∧ t.slots = [] ∧ t.hbm = [] ∧ t.time = 0
        ∧ t.serac.image = s.serac.image ∧ t.serac.others = s.serac.others)
      ∧ (s.pkgReset.serac.power = .on ↔ verify) ∧ s.pkgReset.parts = [] ∧ s.pkgReset.slots = [] ∧ s.pkgReset.hbm = [])
  ∧ (∀ (s : State) (d : Nat), s.live d = true →
      let fired : State := { s with serac := { s.serac with wdogFirings := s.serac.wdogFirings + 1 } }
      ((s.dieAt d).lastBeat + (s.dieAt d).heartbeatMs * s.serac.clockMhz * 1000 ≤ (s.dieAt d).cycle →
        exec (.nunatakHeartbeatWatchdog d) s = .next (fired.nunRestart d))
      ∧ ((s.slots.any fun e => e.1 / 4096 == d && e.2.run == .active) = true → (s.dieAt d).launches ≠ [] →
        (s.dieAt d).lastIssue + (s.dieAt d).progressMs * s.serac.clockMhz * 1000 ≤ (s.dieAt d).cycle →
        ((s.dieAt d).progressReset = false →
          exec (.dieProgressWatchdog d) s = .next { fired with outbox := fired.outbox ++ [.report (4 + d)] })
        ∧ ((s.dieAt d).progressReset = true → s.blockedBehind d = false →
          exec (.dieProgressWatchdog d) s = .next (fired.dieReset d).resetsDue)
        ∧ ((s.dieAt d).progressReset = true → s.blockedBehind d = true → OwedReset.progress d ∉ s.serac.owed →
          exec (.dieProgressWatchdog d) s = .next { fired with serac := { fired.serac with owed := s.serac.owed ++ [.progress d] } })))
  ∧ (∀ (s : State) (c : Nat), c < 2 →
      exec (.seracCoreWatchdog c) s = .next { s with serac := { s.serac with wdogFirings := s.serac.wdogFirings + 1 } })
  ∧ (∀ s : State, s.serac.power = .on →
      let n := s.serac.wdogFirings + 1
      (1300 ≤ s.serac.clockMhz →
        exec .thermalThrottle s = .next { s with serac := { s.serac with wdogFirings := n, clockMhz := s.serac.clockMhz - 100 } })
      ∧ (s.serac.clockMhz < 1300 → exec .thermalThrottle s = .next { s with serac := { s.serac with wdogFirings := n } })
      ∧ (s.serac.clockMhz < 1800 → exec .arithmeticClockRaise s = .next { s with serac := { s.serac with clockMhz := s.serac.clockMhz + 100 } })
      ∧ exec .undervoltagePowerOff s = .next { s with serac := { s.serac with wdogFirings := n, power := .off } })
  ∧ (∀ s : State, s.serac.power ≠ .disconnected → exec .overvoltageDisconnect s = .next { s with
      serac := { s.serac with wdogFirings := s.serac.wdogFirings + 1, power := .disconnected } })
  ∧ (∀ s : State, s.serac.power = .off → exec .limitsRestored s = .next s.pkgReset)
  ∧ (∀ (s : State) (d : Nat), d < 4 → s.serac.power = .on → ∃ n, exec (.scrub d) s = .next { s with
      nextId := s.nextId + 1, serac := { s.serac with corrected := s.serac.corrected + n } })
  ∧ (∀ (s : State) (k : Nat), ∃ t, exec (.uncorrectableError (.memSector k)) s = .next t ∧ k ∈ t.poison ∧ t.hbm = s.hbm ∧ t.slots = s.slots
      ∧ t.serac = { s.serac with poisoned := s.serac.poisoned + 1 })
  ∧ (∀ (s : State) (d k tag home : Nat), d < 4 → home < 4 → s.l2Holds d (lineKey (k / 4) tag home) (k % 4) = true →
      (tag < 4 → ∃ t, exec (.uncorrectableError (.cacheSector d k tag home)) s = .next t ∧ t.dieBad d tag home k = true
        ∧ t.poison = s.poison ∧ t.serac = { s.serac with poisoned := s.serac.poisoned + 1 })
      ∧ (tag = 4 → ∃ t, exec (.uncorrectableError (.cacheSector d k tag home)) s = .next t ∧ t.serac = s.serac
        ∧ Sparse.get? (t.dieAt d).copies (lineKey k tag home) = none))
  ∧ (∀ (s : State) (c k tag home : Nat) (l : CLine), c < 1024 → tag < 4 → home < 4 →
      Sparse.get? (s.coreAt c).l1 (lineKey (k / 4) tag home) = some l → l.gen = s.lineGen tag → k % 4 ∈ l.secs →
      ∃ t, exec (.uncorrectableError (.l1Sector c k tag home)) s = .next t
        ∧ t.serac = { s.serac with poisoned := s.serac.poisoned + 1 } ∧ t.poison = s.poison
        ∧ (k % 4 ∈ l.dirty → t.dieBad (coreDie c) tag home k = true)
        ∧ (k % 4 ∉ l.dirty → t.l1Bad c (lineKey (k / 4) tag home) (k % 4) = true ∧ t.dies = s.dies ∧ t.l2bad = s.l2bad))
  ∧ (∀ (s : State) (c p k : Nat), c < 1024 → p < 4 → k * 128 < s.padSize p → ∃ t,
      exec (.uncorrectableError (.padSector c p k)) s = .next t ∧ t.padPoisoned c p (k * 128) = true
      ∧ ∀ w, t.padWord c p w = s.padWord c p w)
  ∧ (∀ (s : State) (r : SlotRef) (f : Nat), r.core < 1024 → r.slot < 16 →
      (1 ≤ f → f < 48 → ∃ t, exec (.uncorrectableError (.sreg r f)) s = .next t ∧ t.sreg r f = { s.sreg r f with parity := true })
      ∧ (f < 16 → ∃ t, exec (.uncorrectableError (.vreg r f)) s = .next t ∧ t.vreg r f = { s.vreg r f with parity := true })
      ∧ (1 ≤ f → f < 8 → ∃ t, exec (.uncorrectableError (.mreg r f)) s = .next t ∧ f ∈ (t.slotAt r).mparity))
  ∧ (∀ (s : State) (u : StateUnit) (p : Nat) (P : Partition), s.part? p = some P → unitRuns s u = true →
      (s.partBlocked p = false → ∃ t, exec (.stateErrorPartitionStop u p) s = .next t
        ∧ (∀ r, r.slot < 16 → s.ownerOf r.slot = some p → t.slotAt r = Slot.init) ∧ ∃ n, t.outbox.getLast? = some (.report n))
      ∧ (s.partBlocked p = true → OwedReset.state u p ∉ s.serac.owed → exec (.stateErrorPartitionStop u p) s = .next
        { s with serac := { s.serac with owed := s.serac.owed ++ [.state u p] } }))

/-- A partition reset (R360): its slots, its tags and overflow modes, scopes, groups, launches, engine jobs not computing, epilogue
rows, Firn contexts and requests, g registers, full and empty scratchpad words, retention ranges and queued messages go, dirty data
of its lines is discarded, its Varve generation counts on, its features and registers are as configured; nothing of another
partition's slots, g registers or scratchpads changes and HBM keeps its bytes. That BJOIN too is as after package reset, which
`CorePart.init` includes, is the model's reading: R360's list does not name BJOIN (log 39). -/
def Obligations.PartitionReset : Prop :=
  ∀ (s : State) (p : Nat) (P : Partition), s.part? p = some P → p < 4 →
    let t := s.partReset p
    (∀ r, r.slot < 16 → s.ownerOf r.slot = some p → t.slotAt r = Slot.init)
    ∧ (∀ r, r.slot < 16 → s.ownerOf r.slot ≠ some p → t.slotAt r = s.slotAt r)
    ∧ (∀ c, t.cpAt c p = CorePart.init) ∧ (∀ c q, q < 4 → q ≠ p → t.cpAt c q = s.cpAt c q)
    ∧ (∃ P', t.part? p = some P' ∧ P'.varve = P.varve + 1 ∧ P'.cfg = P.cfg ∧ P'.features = 0 ∧ P'.tvec = 0 ∧ P'.spbase = 0
      ∧ P'.ptbase = P.cfg.ptbase ∧ P'.fixed = false ∧ P'.pendRecs = [] ∧ P'.pins = [] ∧ P'.ring = P.ring)
    ∧ (∀ q, q ≠ p → t.part? q = s.part? q) ∧ t.hbm = s.hbm ∧ t.time = s.time ∧ (s.serac.waiting = [] → t.serac = s.serac)
    ∧ (∀ n < 256, t.scopeAt p n = Fscope.init) ∧ (∀ h a, h < 4 → t.l2At p h a = none)
    ∧ (∀ key < 2 ^ 48, t.tagGen p key = none) ∧ (∀ b < 65536, t.inOverflow p b = false)
    ∧ (∀ n G, t.groupAt n = some G → G.part ≠ p) ∧ (∀ n G, s.groupAt n = some G → G.part ≠ p → t.groupAt n = some G)
    ∧ (∀ d l L, t.launchAt d l = some L → L.part ≠ p)
    ∧ (∀ d b n c, P.cfg.firn[d]? = some (b, n) → b ≤ c → c < b + n → t.ctxAt d c = FirnCtx.init)
    ∧ (∀ d, (∀ k ∈ (t.dieAt d).tokens, k.part ≠ p) ∧ (∀ k ∈ (t.dieAt d).port ++ (t.dieAt d).held, k.part ≠ p)
      ∧ (∀ e ∈ (t.dieAt d).slotTable, e.2.valid = true → e.2.part ≠ p))
    ∧ (∀ k, let K := t.clusterAt k
      (∀ j ∈ K.copyQ, j.part ≠ p) ∧ (∀ j ∈ K.mmaQ, j.part ≠ p) ∧ (∀ x, K.copyRun = some x → x.job.part ≠ p)
      ∧ (∀ x, K.mmaRun = some x → x.job.part = p → x.unseen = true) ∧ (∀ x ∈ K.mmaDone, x.job.part ≠ p) ∧ (∀ j ∈ K.gone, j.part ≠ p)
      ∧ K.copyQ = (s.clusterAt k).copyQ.filter (fun j => j.part != p) ∧ K.mmaQ = (s.clusterAt k).mmaQ.filter (fun j => j.part != p))
    ∧ (∀ q, s.queueOwner q = some p → (t.queueAt q).entries = [] ∧ (t.queueAt q).nextSeq = 0 ∧ (t.queueAt q).base = (s.queueAt q).base)
    ∧ (∀ q, s.queueOwner q ≠ some p → t.queueAt q = s.queueAt q)

/-- Isolation (R3, R40, R97, R144): whatever an instruction of a slot of one partition does in its turn, no slot of another partition
changes, but that one stalled for a place in an engine's queue may look again (R95, R283), and neither do another partition's g
registers, scratchpads, epilogue rows and bank requests, nor its configuration and partition registers. A CSR write of BJOIN is among
them: in its turn it sets out, and it acts on its own partition's barrier wires when its interval is over. -/
def Obligations.Isolation : Prop :=
  ∀ (i : Instr) (s t : State) (p : Nat), isEvent i = false → s.ownerOf s.cur.slot = some p → exec i s = .next t →
    (∀ r q, r.slot < 16 → s.ownerOf r.slot = some q → q ≠ p →
      t.slotAt r = s.slotAt r ∨ ((s.slotAt r).run = .stalled .engineQueue ∧ t.slotAt r = { s.slotAt r with run := .active }))
    ∧ (∀ r q f, r.slot < 16 → s.ownerOf r.slot = some q → q ≠ p → t.sreg r f = s.sreg r f ∧ t.vreg r f = s.vreg r f)
    ∧ (∀ c q, q < 4 → q ≠ p → t.cpAt c q = s.cpAt c q)
    ∧ (∀ q, q ≠ p → t.part? q = s.part? q)

/-- Replacement (R145 to R148, R162; that it may come at any move is the model's, log 34): a line that leaves a die's L2 takes its L1
copies with it and changes no byte as its home reads it; a die reads what it read before or, where a clean copy went, what the home
has; registers, scratchpads and tables stay; a retained line stays while an unretained one of its partition is in its set. A
translation that leaves a TLB or a walker cache is gone from there, and nothing else changes. -/
def Obligations.ReplacementMoves : Prop :=
  (∀ (s : State) (d key : Nat) (rest : List Move), s.agenda = .evict d key :: rest →
      step s = .next (({ s with agenda := rest } : State).evict d key))
  ∧ (∀ (s : State) (d key : Nat),
      let t := s.evict d key
      (∀ tag home pa, tag < 8 → home < 4 → (keyNum key = pa / 512 → tag = keyTag key ∧ home = keyHome key) →
        t.lineByte tag home pa = s.lineByte tag home pa
        ∧ ∀ d', t.dieByte d' tag pa home = s.dieByte d' tag pa home ∨ (d' = d ∧ t.dieByte d' tag pa home = s.lineByte tag home pa))
      ∧ t.slots = s.slots ∧ t.coreParts = s.coreParts ∧ t.clusters = s.clusters ∧ t.parts = s.parts ∧ t.queues = s.queues
      ∧ t.scopes = s.scopes ∧ t.groups = s.groups ∧ t.outbox = s.outbox ∧ (∀ c, (t.coreAt c).tlb = (s.coreAt c).tlb)
      ∧ (∀ l, Sparse.get? (s.dieAt d).l2lines key = some l → l.kept = true →
          (∃ e ∈ s.l2Mates d l.part key, e.2.kept = false) → t = s)
      ∧ (s.live d = true → s.mayEvict d key = true → Sparse.get? (t.dieAt d).l2lines key = none
          ∧ ∀ c, coreDie c = d → Sparse.get? (t.coreAt c).l1 key = none))
  ∧ (∀ (s : State) (c page : Nat),
      let t := s.tlbDrop c page
      t = { s with cores := t.cores } ∧ (∀ c', c' ≠ c → t.coreAt c' = s.coreAt c')
      ∧ (s.live (coreDie c) = false → t = s)
      ∧ (s.live (coreDie c) = true →
        ∀ p va, State.tlbHit (t.coreAt c).tlb p va = if va / 65536 = page then none else State.tlbHit (s.coreAt c).tlb p va))
  ∧ (∀ (s : State) (k page : Nat),
      let t := s.clusterTlbDrop k page
      t = { s with clusters := t.clusters } ∧ (∀ k', k' ≠ k → t.clusterAt k' = s.clusterAt k')
      ∧ (s.live (k / 32) = false → t = s)
      ∧ (s.live (k / 32) = true →
        ∀ p va, State.tlbHit (t.clusterAt k).tlb p va = if va / 65536 = page then none else State.tlbHit (s.clusterAt k).tlb p va))
  ∧ (∀ (s : State) (d level path : Nat),
      let t := s.walkDrop d level path
      t = { s with dies := t.dies } ∧ (∀ d', d' ≠ d → t.dieAt d' = s.dieAt d')
      ∧ (s.live d = false → t = s)
      ∧ (s.live d = true → t.dieAt d = { s.dieAt d with walkCache := (s.dieAt d).walkCache.filter fun e => !(e.2.1 == level && e.2.2.1 == path) }))
end

