-- ==== Sys2Proof/Laws/Sparse.lean ====
section
/-! SUPPORT. What reading a map says after each of its updates, for every list, canonical or not; and that the updates keep
the keys rising. -/
namespace Sys2Proof.Machine.Sparse
variable {β : Type}

theorem get_set (d : β) (m : Sparse β) (k j : Nat) (v : β) : get d (set k v m) j = if j = k then v else get d m j := by
  induction m with
  | nil => simp only [set, get, eq_comm]
  | cons a t ih =>
    obtain ⟨a, b⟩ := a
    by_cases h : a = k
    · subst h
      by_cases hj : a = j
      · simp [set, get, hj]
      · simp [set, get, hj, Ne.symm hj]
    · by_cases hk : k < a
      · by_cases hj : k = j
        · subst hj; simp [set, get, h, hk]
        · simp [set, get, h, hk, hj, Ne.symm hj]
      · by_cases hj : a = j
        · subst hj; simp [set, get, h, hk]
        · simp [set, get, h, hk, hj, ih]

theorem get?_set (m : Sparse β) (k j : Nat) (v : β) : get? (set k v m) j = if j = k then some v else get? m j := by
  induction m with
  | nil => simp only [set, get?, eq_comm]
  | cons a t ih =>
    obtain ⟨a, b⟩ := a
    by_cases h : a = k
    · subst h
      by_cases hj : a = j
      · simp [set, get?, hj]
      · simp [set, get?, hj, Ne.symm hj]
    · by_cases hk : k < a
      · by_cases hj : k = j
        · subst hj; simp [set, get?, h, hk]
        · simp [set, get?, h, hk, hj, Ne.symm hj]
      · by_cases hj : a = j
        · subst hj; simp [set, get?, h, hk]
        · simp [set, get?, h, hk, hj, ih]

@[simp] theorem get_set_same (d : β) (m : Sparse β) (k : Nat) (v : β) : get d (set k v m) k = v := by simp [get_set]
@[simp] theorem get?_set_same (m : Sparse β) (k : Nat) (v : β) : get? (set k v m) k = some v := by simp [get?_set]

theorem get_modify (d : β) (m : Sparse β) (k j : Nat) (f : β → β) :
    get d (modify d k f m) j = if j = k then f (get d m k) else get d m j := by simp [modify, get_set]

theorem get?_erase (m : Sparse β) (k j : Nat) : get? (erase k m) j = if j = k then none else get? m j := by
  induction m with
  | nil => simp [erase, get?]
  | cons a t ih =>
    obtain ⟨a, b⟩ := a
    simp only [erase] at ih
    by_cases h : a = k
    · subst a
      simp only [erase, bne_self_eq_false, Bool.false_eq_true, not_false_eq_true, List.filter_cons_of_neg, ih, get?, eq_comm]
      split <;> simp_all
    · rw [erase, List.filter_cons_of_pos (by simp [h])]
      simp only [get?, ih]
      split <;> simp_all

theorem get_eq (d : β) (m : Sparse β) (k : Nat) : get d m k = (get? m k).getD d := by
  induction m with
  | nil => rfl
  | cons a t ih => simp only [get, get?, ih]; split <;> rfl

theorem get_erase (d : β) (m : Sparse β) (k j : Nat) : get d (erase k m) j = if j = k then d else get d m j := by
  rw [get_eq, get_eq, get?_erase]; split <;> rfl

theorem get?_mapVal (f : Nat → β → β) (m : Sparse β) (k : Nat) : get? (mapVal f m) k = (get? m k).map (f k) := by
  induction m with
  | nil => rfl
  | cons a t ih =>
    simp only [mapVal, List.map_cons, get?] at *
    split
    · subst k; rfl
    · exact ih

theorem get_mapVal (d : β) (f : Nat → β → β) (m : Sparse β) (k : Nat) (h : f k d = d) :
    get d (mapVal f m) k = f k (get d m k) := by
  rw [get_eq, get_eq, get?_mapVal]; cases get? m k <;> simp [h]

theorem get?_map (f : Nat × β → β) (m : Sparse β) (k : Nat) :
    get? (m.map fun e => (e.1, f e)) k = (get? m k).map fun v => f (k, v) := by
  induction m with
  | nil => rfl
  | cons a t ih =>
    simp only [List.map_cons, get?]
    split
    · subst k; rfl
    · exact ih

theorem get?_filter (p : Nat → Bool) (m : Sparse β) (k : Nat) :
    get? (m.filter fun e => p e.1) k = if p k then get? m k else none := by
  induction m with
  | nil => simp [get?]
  | cons a t ih =>
    obtain ⟨a, b⟩ := a
    by_cases h : p a
    · rw [List.filter_cons_of_pos (by simpa using h)]
      simp only [get?, ih]
      split
      · subst k; simp [h]
      · rfl
    · rw [List.filter_cons_of_neg (by simpa using h), ih]
      simp only [get?]
      by_cases hk : a = k
      · subst hk; simp [h]
      · simp [hk]

theorem get_filter (d : β) (p : Nat → Bool) (m : Sparse β) (k : Nat) :
    get d (m.filter fun e => p e.1) k = if p k then get d m k else d := by
  rw [get_eq, get_eq, get?_filter]; split <;> rfl

end Sys2Proof.Machine.Sparse
end

