-- ==== Sys2Proof/Laws/State.lean ====
section
/-! SUPPORT. What each part of the state is after each of the state's updates: the part updated has changed at its own key
alone, every other part is as it was. -/
namespace Sys2Proof.Machine.State

/-! ### modSlot -/

@[simp] theorem modSlot_cur (s : State) (r : SlotRef) (f : Slot → Slot) : (s.modSlot r f).cur = s.cur := rfl
@[simp] theorem modSlot_agenda (s : State) (r : SlotRef) (f : Slot → Slot) : (s.modSlot r f).agenda = s.agenda := rfl
@[simp] theorem modSlot_draws (s : State) (r : SlotRef) (f : Slot → Slot) : (s.modSlot r f).draws = s.draws := rfl
@[simp] theorem modSlot_nextId (s : State) (r : SlotRef) (f : Slot → Slot) : (s.modSlot r f).nextId = s.nextId := rfl
@[simp] theorem modSlot_ticks (s : State) (r : SlotRef) (f : Slot → Slot) : (s.modSlot r f).ticks = s.ticks := rfl
@[simp] theorem modSlot_accepts (s : State) (r : SlotRef) (f : Slot → Slot) : (s.modSlot r f).accepts = s.accepts := rfl
@[simp] theorem modSlot_cores (s : State) (r : SlotRef) (f : Slot → Slot) : (s.modSlot r f).cores = s.cores := rfl
@[simp] theorem modSlot_coreParts (s : State) (r : SlotRef) (f : Slot → Slot) : (s.modSlot r f).coreParts = s.coreParts := rfl
@[simp] theorem modSlot_clusters (s : State) (r : SlotRef) (f : Slot → Slot) : (s.modSlot r f).clusters = s.clusters := rfl
@[simp] theorem modSlot_dies (s : State) (r : SlotRef) (f : Slot → Slot) : (s.modSlot r f).dies = s.dies := rfl
@[simp] theorem modSlot_parts (s : State) (r : SlotRef) (f : Slot → Slot) : (s.modSlot r f).parts = s.parts := rfl
@[simp] theorem modSlot_hbm (s : State) (r : SlotRef) (f : Slot → Slot) : (s.modSlot r f).hbm = s.hbm := rfl
@[simp] theorem modSlot_l2 (s : State) (r : SlotRef) (f : Slot → Slot) : (s.modSlot r f).l2 = s.l2 := rfl
@[simp] theorem modSlot_poison (s : State) (r : SlotRef) (f : Slot → Slot) : (s.modSlot r f).poison = s.poison := rfl
@[simp] theorem modSlot_l2bad (s : State) (r : SlotRef) (f : Slot → Slot) : (s.modSlot r f).l2bad = s.l2bad := rfl
@[simp] theorem modSlot_hbmBy (s : State) (r : SlotRef) (f : Slot → Slot) : (s.modSlot r f).hbmBy = s.hbmBy := rfl
@[simp] theorem modSlot_relOf (s : State) (r : SlotRef) (f : Slot → Slot) : (s.modSlot r f).relOf = s.relOf := rfl
@[simp] theorem modSlot_shadows (s : State) (r : SlotRef) (f : Slot → Slot) : (s.modSlot r f).shadows = s.shadows := rfl
@[simp] theorem modSlot_inflight (s : State) (r : SlotRef) (f : Slot → Slot) : (s.modSlot r f).inflight = s.inflight := rfl
@[simp] theorem modSlot_overflow (s : State) (r : SlotRef) (f : Slot → Slot) : (s.modSlot r f).overflow = s.overflow := rfl
@[simp] theorem modSlot_queues (s : State) (r : SlotRef) (f : Slot → Slot) : (s.modSlot r f).queues = s.queues := rfl
@[simp] theorem modSlot_scopes (s : State) (r : SlotRef) (f : Slot → Slot) : (s.modSlot r f).scopes = s.scopes := rfl
@[simp] theorem modSlot_scopeQ (s : State) (r : SlotRef) (f : Slot → Slot) : (s.modSlot r f).scopeQ = s.scopeQ := rfl
@[simp] theorem modSlot_scopeLast (s : State) (r : SlotRef) (f : Slot → Slot) : (s.modSlot r f).scopeLast = s.scopeLast := rfl
@[simp] theorem modSlot_groups (s : State) (r : SlotRef) (f : Slot → Slot) : (s.modSlot r f).groups = s.groups := rfl
@[simp] theorem modSlot_memberQ (s : State) (r : SlotRef) (f : Slot → Slot) : (s.modSlot r f).memberQ = s.memberQ := rfl
@[simp] theorem modSlot_spilled (s : State) (r : SlotRef) (f : Slot → Slot) : (s.modSlot r f).spilled = s.spilled := rfl
@[simp] theorem modSlot_latchQ (s : State) (r : SlotRef) (f : Slot → Slot) : (s.modSlot r f).latchQ = s.latchQ := rfl
@[simp] theorem modSlot_devOut (s : State) (r : SlotRef) (f : Slot → Slot) : (s.modSlot r f).devOut = s.devOut := rfl
@[simp] theorem modSlot_time (s : State) (r : SlotRef) (f : Slot → Slot) : (s.modSlot r f).time = s.time := rfl
@[simp] theorem modSlot_serac (s : State) (r : SlotRef) (f : Slot → Slot) : (s.modSlot r f).serac = s.serac := rfl
@[simp] theorem modSlot_outbox (s : State) (r : SlotRef) (f : Slot → Slot) : (s.modSlot r f).outbox = s.outbox := rfl
@[simp] theorem modSlot_coreAt (s : State) (r : SlotRef) (f : Slot → Slot) (x : Nat) : (s.modSlot r f).coreAt x = s.coreAt x := rfl
@[simp] theorem modSlot_cpAt (s : State) (r : SlotRef) (f : Slot → Slot) (x y : Nat) : (s.modSlot r f).cpAt x y = s.cpAt x y := rfl
@[simp] theorem modSlot_clusterAt (s : State) (r : SlotRef) (f : Slot → Slot) (x : Nat) : (s.modSlot r f).clusterAt x = s.clusterAt x := rfl
@[simp] theorem modSlot_dieAt (s : State) (r : SlotRef) (f : Slot → Slot) (x : Nat) : (s.modSlot r f).dieAt x = s.dieAt x := rfl
@[simp] theorem modSlot_part (s : State) (r : SlotRef) (f : Slot → Slot) (x : Nat) : (s.modSlot r f).part? x = s.part? x := rfl
@[simp] theorem modSlot_ownerOf (s : State) (r : SlotRef) (f : Slot → Slot) (x : Nat) : (s.modSlot r f).ownerOf x = s.ownerOf x := rfl
@[simp] theorem modSlot_partOf (s : State) (r : SlotRef) (f : Slot → Slot) (x : SlotRef) : (s.modSlot r f).partOf x = s.partOf x := rfl
@[simp] theorem modSlot_herePart (s : State) (r : SlotRef) (f : Slot → Slot) : (s.modSlot r f).herePart = s.herePart := rfl
@[simp] theorem modSlot_slotCount (s : State) (r : SlotRef) (f : Slot → Slot) (x : Nat) : (s.modSlot r f).slotCount x = s.slotCount x := rfl
@[simp] theorem modSlot_gen (s : State) (r : SlotRef) (f : Slot → Slot) (x : Nat) : (s.modSlot r f).gen x = s.gen x := rfl
@[simp] theorem modSlot_padSize (s : State) (r : SlotRef) (f : Slot → Slot) (x : Nat) : (s.modSlot r f).padSize x = s.padSize x := rfl
@[simp] theorem modSlot_pcsr (s : State) (r : SlotRef) (f : Slot → Slot) (x y : Nat) (z : PCsr) : (s.modSlot r f).pcsr x y z = s.pcsr x y z := rfl
@[simp] theorem modSlot_cycleOf (s : State) (r : SlotRef) (f : Slot → Slot) (x : Nat) : (s.modSlot r f).cycleOf x = s.cycleOf x := rfl
@[simp] theorem modSlot_live (s : State) (r : SlotRef) (f : Slot → Slot) (x : Nat) : (s.modSlot r f).live x = s.live x := rfl
@[simp] theorem modSlot_queueAt (s : State) (r : SlotRef) (f : Slot → Slot) (x : Nat) : (s.modSlot r f).queueAt x = s.queueAt x := rfl
@[simp] theorem modSlot_scopeAt (s : State) (r : SlotRef) (f : Slot → Slot) (x y : Nat) : (s.modSlot r f).scopeAt x y = s.scopeAt x y := rfl
@[simp] theorem modSlot_lineByte (s : State) (r : SlotRef) (f : Slot → Slot) (x y z : Nat) : (s.modSlot r f).lineByte x y z = s.lineByte x y z := rfl
@[simp] theorem modSlot_homeByte (s : State) (r : SlotRef) (f : Slot → Slot) (x y : Nat) : (s.modSlot r f).homeByte x y = s.homeByte x y := rfl
@[simp] theorem modSlot_dieByte (s : State) (r : SlotRef) (f : Slot → Slot) (x y z w : Nat) : (s.modSlot r f).dieByte x y z w = s.dieByte x y z w := rfl
@[simp] theorem modSlot_padWord (s : State) (r : SlotRef) (f : Slot → Slot) (x y z : Nat) : (s.modSlot r f).padWord x y z = s.padWord x y z := rfl

/-! ### modCore -/

@[simp] theorem modCore_cur (s : State) (c : Nat) (f : Core → Core) : (s.modCore c f).cur = s.cur := rfl
@[simp] theorem modCore_agenda (s : State) (c : Nat) (f : Core → Core) : (s.modCore c f).agenda = s.agenda := rfl
@[simp] theorem modCore_draws (s : State) (c : Nat) (f : Core → Core) : (s.modCore c f).draws = s.draws := rfl
@[simp] theorem modCore_nextId (s : State) (c : Nat) (f : Core → Core) : (s.modCore c f).nextId = s.nextId := rfl
@[simp] theorem modCore_ticks (s : State) (c : Nat) (f : Core → Core) : (s.modCore c f).ticks = s.ticks := rfl
@[simp] theorem modCore_accepts (s : State) (c : Nat) (f : Core → Core) : (s.modCore c f).accepts = s.accepts := rfl
@[simp] theorem modCore_slots (s : State) (c : Nat) (f : Core → Core) : (s.modCore c f).slots = s.slots := rfl
@[simp] theorem modCore_coreParts (s : State) (c : Nat) (f : Core → Core) : (s.modCore c f).coreParts = s.coreParts := rfl
@[simp] theorem modCore_clusters (s : State) (c : Nat) (f : Core → Core) : (s.modCore c f).clusters = s.clusters := rfl
@[simp] theorem modCore_dies (s : State) (c : Nat) (f : Core → Core) : (s.modCore c f).dies = s.dies := rfl
@[simp] theorem modCore_parts (s : State) (c : Nat) (f : Core → Core) : (s.modCore c f).parts = s.parts := rfl
@[simp] theorem modCore_hbm (s : State) (c : Nat) (f : Core → Core) : (s.modCore c f).hbm = s.hbm := rfl
@[simp] theorem modCore_l2 (s : State) (c : Nat) (f : Core → Core) : (s.modCore c f).l2 = s.l2 := rfl
@[simp] theorem modCore_poison (s : State) (c : Nat) (f : Core → Core) : (s.modCore c f).poison = s.poison := rfl
@[simp] theorem modCore_l2bad (s : State) (c : Nat) (f : Core → Core) : (s.modCore c f).l2bad = s.l2bad := rfl
@[simp] theorem modCore_hbmBy (s : State) (c : Nat) (f : Core → Core) : (s.modCore c f).hbmBy = s.hbmBy := rfl
@[simp] theorem modCore_relOf (s : State) (c : Nat) (f : Core → Core) : (s.modCore c f).relOf = s.relOf := rfl
@[simp] theorem modCore_shadows (s : State) (c : Nat) (f : Core → Core) : (s.modCore c f).shadows = s.shadows := rfl
@[simp] theorem modCore_inflight (s : State) (c : Nat) (f : Core → Core) : (s.modCore c f).inflight = s.inflight := rfl
@[simp] theorem modCore_overflow (s : State) (c : Nat) (f : Core → Core) : (s.modCore c f).overflow = s.overflow := rfl
@[simp] theorem modCore_queues (s : State) (c : Nat) (f : Core → Core) : (s.modCore c f).queues = s.queues := rfl
@[simp] theorem modCore_scopes (s : State) (c : Nat) (f : Core → Core) : (s.modCore c f).scopes = s.scopes := rfl
@[simp] theorem modCore_scopeQ (s : State) (c : Nat) (f : Core → Core) : (s.modCore c f).scopeQ = s.scopeQ := rfl
@[simp] theorem modCore_scopeLast (s : State) (c : Nat) (f : Core → Core) : (s.modCore c f).scopeLast = s.scopeLast := rfl
@[simp] theorem modCore_groups (s : State) (c : Nat) (f : Core → Core) : (s.modCore c f).groups = s.groups := rfl
@[simp] theorem modCore_memberQ (s : State) (c : Nat) (f : Core → Core) : (s.modCore c f).memberQ = s.memberQ := rfl
@[simp] theorem modCore_spilled (s : State) (c : Nat) (f : Core → Core) : (s.modCore c f).spilled = s.spilled := rfl
@[simp] theorem modCore_latchQ (s : State) (c : Nat) (f : Core → Core) : (s.modCore c f).latchQ = s.latchQ := rfl
@[simp] theorem modCore_devOut (s : State) (c : Nat) (f : Core → Core) : (s.modCore c f).devOut = s.devOut := rfl
@[simp] theorem modCore_time (s : State) (c : Nat) (f : Core → Core) : (s.modCore c f).time = s.time := rfl
@[simp] theorem modCore_serac (s : State) (c : Nat) (f : Core → Core) : (s.modCore c f).serac = s.serac := rfl
@[simp] theorem modCore_outbox (s : State) (c : Nat) (f : Core → Core) : (s.modCore c f).outbox = s.outbox := rfl
@[simp] theorem modCore_slotAt (s : State) (c : Nat) (f : Core → Core) (x : SlotRef) : (s.modCore c f).slotAt x = s.slotAt x := rfl
@[simp] theorem modCore_here (s : State) (c : Nat) (f : Core → Core) : (s.modCore c f).here = s.here := rfl
@[simp] theorem modCore_cpAt (s : State) (c : Nat) (f : Core → Core) (x y : Nat) : (s.modCore c f).cpAt x y = s.cpAt x y := rfl
@[simp] theorem modCore_clusterAt (s : State) (c : Nat) (f : Core → Core) (x : Nat) : (s.modCore c f).clusterAt x = s.clusterAt x := rfl
@[simp] theorem modCore_dieAt (s : State) (c : Nat) (f : Core → Core) (x : Nat) : (s.modCore c f).dieAt x = s.dieAt x := rfl
@[simp] theorem modCore_part (s : State) (c : Nat) (f : Core → Core) (x : Nat) : (s.modCore c f).part? x = s.part? x := rfl
@[simp] theorem modCore_ownerOf (s : State) (c : Nat) (f : Core → Core) (x : Nat) : (s.modCore c f).ownerOf x = s.ownerOf x := rfl
@[simp] theorem modCore_partOf (s : State) (c : Nat) (f : Core → Core) (x : SlotRef) : (s.modCore c f).partOf x = s.partOf x := rfl
@[simp] theorem modCore_herePart (s : State) (c : Nat) (f : Core → Core) : (s.modCore c f).herePart = s.herePart := rfl
@[simp] theorem modCore_slotCount (s : State) (c : Nat) (f : Core → Core) (x : Nat) : (s.modCore c f).slotCount x = s.slotCount x := rfl
@[simp] theorem modCore_gen (s : State) (c : Nat) (f : Core → Core) (x : Nat) : (s.modCore c f).gen x = s.gen x := rfl
@[simp] theorem modCore_padSize (s : State) (c : Nat) (f : Core → Core) (x : Nat) : (s.modCore c f).padSize x = s.padSize x := rfl
@[simp] theorem modCore_pcsr (s : State) (c : Nat) (f : Core → Core) (x y : Nat) (z : PCsr) : (s.modCore c f).pcsr x y z = s.pcsr x y z := rfl
@[simp] theorem modCore_cycleOf (s : State) (c : Nat) (f : Core → Core) (x : Nat) : (s.modCore c f).cycleOf x = s.cycleOf x := rfl
@[simp] theorem modCore_live (s : State) (c : Nat) (f : Core → Core) (x : Nat) : (s.modCore c f).live x = s.live x := rfl
@[simp] theorem modCore_queueAt (s : State) (c : Nat) (f : Core → Core) (x : Nat) : (s.modCore c f).queueAt x = s.queueAt x := rfl
@[simp] theorem modCore_scopeAt (s : State) (c : Nat) (f : Core → Core) (x y : Nat) : (s.modCore c f).scopeAt x y = s.scopeAt x y := rfl
@[simp] theorem modCore_lineByte (s : State) (c : Nat) (f : Core → Core) (x y z : Nat) : (s.modCore c f).lineByte x y z = s.lineByte x y z := rfl
@[simp] theorem modCore_homeByte (s : State) (c : Nat) (f : Core → Core) (x y : Nat) : (s.modCore c f).homeByte x y = s.homeByte x y := rfl
@[simp] theorem modCore_dieByte (s : State) (c : Nat) (f : Core → Core) (x y z w : Nat) : (s.modCore c f).dieByte x y z w = s.dieByte x y z w := rfl
@[simp] theorem modCore_sreg (s : State) (c : Nat) (f : Core → Core) (x : SlotRef) (y : Nat) : (s.modCore c f).sreg x y = s.sreg x y := rfl
@[simp] theorem modCore_vreg (s : State) (c : Nat) (f : Core → Core) (x : SlotRef) (y : Nat) : (s.modCore c f).vreg x y = s.vreg x y := rfl
@[simp] theorem modCore_rd (s : State) (c : Nat) (f : Core → Core) (x : SField) : (s.modCore c f).rd x = s.rd x := rfl
@[simp] theorem modCore_rdv (s : State) (c : Nat) (f : Core → Core) (x : VField) : (s.modCore c f).rdv x = s.rdv x := rfl
@[simp] theorem modCore_rdm (s : State) (c : Nat) (f : Core → Core) (x : MField) : (s.modCore c f).rdm x = s.rdm x := rfl
@[simp] theorem modCore_pendAt (s : State) (c : Nat) (f : Core → Core) (x : OpRef) : (s.modCore c f).pendAt x = s.pendAt x := rfl
@[simp] theorem modCore_padWord (s : State) (c : Nat) (f : Core → Core) (x y z : Nat) : (s.modCore c f).padWord x y z = s.padWord x y z := rfl

/-! ### modCp -/

@[simp] theorem modCp_cur (s : State) (c p : Nat) (f : CorePart → CorePart) : (s.modCp c p f).cur = s.cur := rfl
@[simp] theorem modCp_agenda (s : State) (c p : Nat) (f : CorePart → CorePart) : (s.modCp c p f).agenda = s.agenda := rfl
@[simp] theorem modCp_draws (s : State) (c p : Nat) (f : CorePart → CorePart) : (s.modCp c p f).draws = s.draws := rfl
@[simp] theorem modCp_nextId (s : State) (c p : Nat) (f : CorePart → CorePart) : (s.modCp c p f).nextId = s.nextId := rfl
@[simp] theorem modCp_ticks (s : State) (c p : Nat) (f : CorePart → CorePart) : (s.modCp c p f).ticks = s.ticks := rfl
@[simp] theorem modCp_accepts (s : State) (c p : Nat) (f : CorePart → CorePart) : (s.modCp c p f).accepts = s.accepts := rfl
@[simp] theorem modCp_slots (s : State) (c p : Nat) (f : CorePart → CorePart) : (s.modCp c p f).slots = s.slots := rfl
@[simp] theorem modCp_cores (s : State) (c p : Nat) (f : CorePart → CorePart) : (s.modCp c p f).cores = s.cores := rfl
@[simp] theorem modCp_clusters (s : State) (c p : Nat) (f : CorePart → CorePart) : (s.modCp c p f).clusters = s.clusters := rfl
@[simp] theorem modCp_dies (s : State) (c p : Nat) (f : CorePart → CorePart) : (s.modCp c p f).dies = s.dies := rfl
@[simp] theorem modCp_parts (s : State) (c p : Nat) (f : CorePart → CorePart) : (s.modCp c p f).parts = s.parts := rfl
@[simp] theorem modCp_hbm (s : State) (c p : Nat) (f : CorePart → CorePart) : (s.modCp c p f).hbm = s.hbm := rfl
@[simp] theorem modCp_l2 (s : State) (c p : Nat) (f : CorePart → CorePart) : (s.modCp c p f).l2 = s.l2 := rfl
@[simp] theorem modCp_poison (s : State) (c p : Nat) (f : CorePart → CorePart) : (s.modCp c p f).poison = s.poison := rfl
@[simp] theorem modCp_l2bad (s : State) (c p : Nat) (f : CorePart → CorePart) : (s.modCp c p f).l2bad = s.l2bad := rfl
@[simp] theorem modCp_hbmBy (s : State) (c p : Nat) (f : CorePart → CorePart) : (s.modCp c p f).hbmBy = s.hbmBy := rfl
@[simp] theorem modCp_relOf (s : State) (c p : Nat) (f : CorePart → CorePart) : (s.modCp c p f).relOf = s.relOf := rfl
@[simp] theorem modCp_shadows (s : State) (c p : Nat) (f : CorePart → CorePart) : (s.modCp c p f).shadows = s.shadows := rfl
@[simp] theorem modCp_inflight (s : State) (c p : Nat) (f : CorePart → CorePart) : (s.modCp c p f).inflight = s.inflight := rfl
@[simp] theorem modCp_overflow (s : State) (c p : Nat) (f : CorePart → CorePart) : (s.modCp c p f).overflow = s.overflow := rfl
@[simp] theorem modCp_queues (s : State) (c p : Nat) (f : CorePart → CorePart) : (s.modCp c p f).queues = s.queues := rfl
@[simp] theorem modCp_scopes (s : State) (c p : Nat) (f : CorePart → CorePart) : (s.modCp c p f).scopes = s.scopes := rfl
@[simp] theorem modCp_scopeQ (s : State) (c p : Nat) (f : CorePart → CorePart) : (s.modCp c p f).scopeQ = s.scopeQ := rfl
@[simp] theorem modCp_scopeLast (s : State) (c p : Nat) (f : CorePart → CorePart) : (s.modCp c p f).scopeLast = s.scopeLast := rfl
@[simp] theorem modCp_groups (s : State) (c p : Nat) (f : CorePart → CorePart) : (s.modCp c p f).groups = s.groups := rfl
@[simp] theorem modCp_memberQ (s : State) (c p : Nat) (f : CorePart → CorePart) : (s.modCp c p f).memberQ = s.memberQ := rfl
@[simp] theorem modCp_spilled (s : State) (c p : Nat) (f : CorePart → CorePart) : (s.modCp c p f).spilled = s.spilled := rfl
@[simp] theorem modCp_latchQ (s : State) (c p : Nat) (f : CorePart → CorePart) : (s.modCp c p f).latchQ = s.latchQ := rfl
@[simp] theorem modCp_devOut (s : State) (c p : Nat) (f : CorePart → CorePart) : (s.modCp c p f).devOut = s.devOut := rfl
@[simp] theorem modCp_time (s : State) (c p : Nat) (f : CorePart → CorePart) : (s.modCp c p f).time = s.time := rfl
@[simp] theorem modCp_serac (s : State) (c p : Nat) (f : CorePart → CorePart) : (s.modCp c p f).serac = s.serac := rfl
@[simp] theorem modCp_outbox (s : State) (c p : Nat) (f : CorePart → CorePart) : (s.modCp c p f).outbox = s.outbox := rfl
@[simp] theorem modCp_slotAt (s : State) (c p : Nat) (f : CorePart → CorePart) (x : SlotRef) : (s.modCp c p f).slotAt x = s.slotAt x := rfl
@[simp] theorem modCp_here (s : State) (c p : Nat) (f : CorePart → CorePart) : (s.modCp c p f).here = s.here := rfl
@[simp] theorem modCp_coreAt (s : State) (c p : Nat) (f : CorePart → CorePart) (x : Nat) : (s.modCp c p f).coreAt x = s.coreAt x := rfl
@[simp] theorem modCp_clusterAt (s : State) (c p : Nat) (f : CorePart → CorePart) (x : Nat) : (s.modCp c p f).clusterAt x = s.clusterAt x := rfl
@[simp] theorem modCp_dieAt (s : State) (c p : Nat) (f : CorePart → CorePart) (x : Nat) : (s.modCp c p f).dieAt x = s.dieAt x := rfl
@[simp] theorem modCp_part (s : State) (c p : Nat) (f : CorePart → CorePart) (x : Nat) : (s.modCp c p f).part? x = s.part? x := rfl
@[simp] theorem modCp_ownerOf (s : State) (c p : Nat) (f : CorePart → CorePart) (x : Nat) : (s.modCp c p f).ownerOf x = s.ownerOf x := rfl
@[simp] theorem modCp_partOf (s : State) (c p : Nat) (f : CorePart → CorePart) (x : SlotRef) : (s.modCp c p f).partOf x = s.partOf x := rfl
@[simp] theorem modCp_herePart (s : State) (c p : Nat) (f : CorePart → CorePart) : (s.modCp c p f).herePart = s.herePart := rfl
@[simp] theorem modCp_slotCount (s : State) (c p : Nat) (f : CorePart → CorePart) (x : Nat) : (s.modCp c p f).slotCount x = s.slotCount x := rfl
@[simp] theorem modCp_gen (s : State) (c p : Nat) (f : CorePart → CorePart) (x : Nat) : (s.modCp c p f).gen x = s.gen x := rfl
@[simp] theorem modCp_padSize (s : State) (c p : Nat) (f : CorePart → CorePart) (x : Nat) : (s.modCp c p f).padSize x = s.padSize x := rfl
@[simp] theorem modCp_pcsr (s : State) (c p : Nat) (f : CorePart → CorePart) (x y : Nat) (z : PCsr) : (s.modCp c p f).pcsr x y z = s.pcsr x y z := rfl
@[simp] theorem modCp_cycleOf (s : State) (c p : Nat) (f : CorePart → CorePart) (x : Nat) : (s.modCp c p f).cycleOf x = s.cycleOf x := rfl
@[simp] theorem modCp_live (s : State) (c p : Nat) (f : CorePart → CorePart) (x : Nat) : (s.modCp c p f).live x = s.live x := rfl
@[simp] theorem modCp_queueAt (s : State) (c p : Nat) (f : CorePart → CorePart) (x : Nat) : (s.modCp c p f).queueAt x = s.queueAt x := rfl
@[simp] theorem modCp_scopeAt (s : State) (c p : Nat) (f : CorePart → CorePart) (x y : Nat) : (s.modCp c p f).scopeAt x y = s.scopeAt x y := rfl
@[simp] theorem modCp_lineByte (s : State) (c p : Nat) (f : CorePart → CorePart) (x y z : Nat) : (s.modCp c p f).lineByte x y z = s.lineByte x y z := rfl
@[simp] theorem modCp_homeByte (s : State) (c p : Nat) (f : CorePart → CorePart) (x y : Nat) : (s.modCp c p f).homeByte x y = s.homeByte x y := rfl
@[simp] theorem modCp_dieByte (s : State) (c p : Nat) (f : CorePart → CorePart) (x y z w : Nat) : (s.modCp c p f).dieByte x y z w = s.dieByte x y z w := rfl
@[simp] theorem modCp_vreg (s : State) (c p : Nat) (f : CorePart → CorePart) (x : SlotRef) (y : Nat) : (s.modCp c p f).vreg x y = s.vreg x y := rfl
@[simp] theorem modCp_rdv (s : State) (c p : Nat) (f : CorePart → CorePart) (x : VField) : (s.modCp c p f).rdv x = s.rdv x := rfl
@[simp] theorem modCp_rdm (s : State) (c p : Nat) (f : CorePart → CorePart) (x : MField) : (s.modCp c p f).rdm x = s.rdm x := rfl
@[simp] theorem modCp_pendAt (s : State) (c p : Nat) (f : CorePart → CorePart) (x : OpRef) : (s.modCp c p f).pendAt x = s.pendAt x := rfl

/-! ### modCluster -/

@[simp] theorem modCluster_cur (s : State) (k : Nat) (f : Cluster → Cluster) : (s.modCluster k f).cur = s.cur := rfl
@[simp] theorem modCluster_agenda (s : State) (k : Nat) (f : Cluster → Cluster) : (s.modCluster k f).agenda = s.agenda := rfl
@[simp] theorem modCluster_draws (s : State) (k : Nat) (f : Cluster → Cluster) : (s.modCluster k f).draws = s.draws := rfl
@[simp] theorem modCluster_nextId (s : State) (k : Nat) (f : Cluster → Cluster) : (s.modCluster k f).nextId = s.nextId := rfl
@[simp] theorem modCluster_ticks (s : State) (k : Nat) (f : Cluster → Cluster) : (s.modCluster k f).ticks = s.ticks := rfl
@[simp] theorem modCluster_accepts (s : State) (k : Nat) (f : Cluster → Cluster) : (s.modCluster k f).accepts = s.accepts := rfl
@[simp] theorem modCluster_slots (s : State) (k : Nat) (f : Cluster → Cluster) : (s.modCluster k f).slots = s.slots := rfl
@[simp] theorem modCluster_cores (s : State) (k : Nat) (f : Cluster → Cluster) : (s.modCluster k f).cores = s.cores := rfl
@[simp] theorem modCluster_coreParts (s : State) (k : Nat) (f : Cluster → Cluster) : (s.modCluster k f).coreParts = s.coreParts := rfl
@[simp] theorem modCluster_dies (s : State) (k : Nat) (f : Cluster → Cluster) : (s.modCluster k f).dies = s.dies := rfl
@[simp] theorem modCluster_parts (s : State) (k : Nat) (f : Cluster → Cluster) : (s.modCluster k f).parts = s.parts := rfl
@[simp] theorem modCluster_hbm (s : State) (k : Nat) (f : Cluster → Cluster) : (s.modCluster k f).hbm = s.hbm := rfl
@[simp] theorem modCluster_l2 (s : State) (k : Nat) (f : Cluster → Cluster) : (s.modCluster k f).l2 = s.l2 := rfl
@[simp] theorem modCluster_poison (s : State) (k : Nat) (f : Cluster → Cluster) : (s.modCluster k f).poison = s.poison := rfl
@[simp] theorem modCluster_l2bad (s : State) (k : Nat) (f : Cluster → Cluster) : (s.modCluster k f).l2bad = s.l2bad := rfl
@[simp] theorem modCluster_hbmBy (s : State) (k : Nat) (f : Cluster → Cluster) : (s.modCluster k f).hbmBy = s.hbmBy := rfl
@[simp] theorem modCluster_relOf (s : State) (k : Nat) (f : Cluster → Cluster) : (s.modCluster k f).relOf = s.relOf := rfl
@[simp] theorem modCluster_shadows (s : State) (k : Nat) (f : Cluster → Cluster) : (s.modCluster k f).shadows = s.shadows := rfl
@[simp] theorem modCluster_inflight (s : State) (k : Nat) (f : Cluster → Cluster) : (s.modCluster k f).inflight = s.inflight := rfl
@[simp] theorem modCluster_overflow (s : State) (k : Nat) (f : Cluster → Cluster) : (s.modCluster k f).overflow = s.overflow := rfl
@[simp] theorem modCluster_queues (s : State) (k : Nat) (f : Cluster → Cluster) : (s.modCluster k f).queues = s.queues := rfl
@[simp] theorem modCluster_scopes (s : State) (k : Nat) (f : Cluster → Cluster) : (s.modCluster k f).scopes = s.scopes := rfl
@[simp] theorem modCluster_scopeQ (s : State) (k : Nat) (f : Cluster → Cluster) : (s.modCluster k f).scopeQ = s.scopeQ := rfl
@[simp] theorem modCluster_scopeLast (s : State) (k : Nat) (f : Cluster → Cluster) : (s.modCluster k f).scopeLast = s.scopeLast := rfl
@[simp] theorem modCluster_groups (s : State) (k : Nat) (f : Cluster → Cluster) : (s.modCluster k f).groups = s.groups := rfl
@[simp] theorem modCluster_memberQ (s : State) (k : Nat) (f : Cluster → Cluster) : (s.modCluster k f).memberQ = s.memberQ := rfl
@[simp] theorem modCluster_spilled (s : State) (k : Nat) (f : Cluster → Cluster) : (s.modCluster k f).spilled = s.spilled := rfl
@[simp] theorem modCluster_latchQ (s : State) (k : Nat) (f : Cluster → Cluster) : (s.modCluster k f).latchQ = s.latchQ := rfl
@[simp] theorem modCluster_devOut (s : State) (k : Nat) (f : Cluster → Cluster) : (s.modCluster k f).devOut = s.devOut := rfl
@[simp] theorem modCluster_time (s : State) (k : Nat) (f : Cluster → Cluster) : (s.modCluster k f).time = s.time := rfl
@[simp] theorem modCluster_serac (s : State) (k : Nat) (f : Cluster → Cluster) : (s.modCluster k f).serac = s.serac := rfl
@[simp] theorem modCluster_outbox (s : State) (k : Nat) (f : Cluster → Cluster) : (s.modCluster k f).outbox = s.outbox := rfl
@[simp] theorem modCluster_slotAt (s : State) (k : Nat) (f : Cluster → Cluster) (x : SlotRef) : (s.modCluster k f).slotAt x = s.slotAt x := rfl
@[simp] theorem modCluster_here (s : State) (k : Nat) (f : Cluster → Cluster) : (s.modCluster k f).here = s.here := rfl
@[simp] theorem modCluster_coreAt (s : State) (k : Nat) (f : Cluster → Cluster) (x : Nat) : (s.modCluster k f).coreAt x = s.coreAt x := rfl
@[simp] theorem modCluster_cpAt (s : State) (k : Nat) (f : Cluster → Cluster) (x y : Nat) : (s.modCluster k f).cpAt x y = s.cpAt x y := rfl
@[simp] theorem modCluster_dieAt (s : State) (k : Nat) (f : Cluster → Cluster) (x : Nat) : (s.modCluster k f).dieAt x = s.dieAt x := rfl
@[simp] theorem modCluster_part (s : State) (k : Nat) (f : Cluster → Cluster) (x : Nat) : (s.modCluster k f).part? x = s.part? x := rfl
@[simp] theorem modCluster_ownerOf (s : State) (k : Nat) (f : Cluster → Cluster) (x : Nat) : (s.modCluster k f).ownerOf x = s.ownerOf x := rfl
@[simp] theorem modCluster_partOf (s : State) (k : Nat) (f : Cluster → Cluster) (x : SlotRef) : (s.modCluster k f).partOf x = s.partOf x := rfl
@[simp] theorem modCluster_herePart (s : State) (k : Nat) (f : Cluster → Cluster) : (s.modCluster k f).herePart = s.herePart := rfl
@[simp] theorem modCluster_slotCount (s : State) (k : Nat) (f : Cluster → Cluster) (x : Nat) : (s.modCluster k f).slotCount x = s.slotCount x := rfl
@[simp] theorem modCluster_gen (s : State) (k : Nat) (f : Cluster → Cluster) (x : Nat) : (s.modCluster k f).gen x = s.gen x := rfl
@[simp] theorem modCluster_padSize (s : State) (k : Nat) (f : Cluster → Cluster) (x : Nat) : (s.modCluster k f).padSize x = s.padSize x := rfl
@[simp] theorem modCluster_pcsr (s : State) (k : Nat) (f : Cluster → Cluster) (x y : Nat) (z : PCsr) : (s.modCluster k f).pcsr x y z = s.pcsr x y z := rfl
@[simp] theorem modCluster_cycleOf (s : State) (k : Nat) (f : Cluster → Cluster) (x : Nat) : (s.modCluster k f).cycleOf x = s.cycleOf x := rfl
@[simp] theorem modCluster_live (s : State) (k : Nat) (f : Cluster → Cluster) (x : Nat) : (s.modCluster k f).live x = s.live x := rfl
@[simp] theorem modCluster_queueAt (s : State) (k : Nat) (f : Cluster → Cluster) (x : Nat) : (s.modCluster k f).queueAt x = s.queueAt x := rfl
@[simp] theorem modCluster_scopeAt (s : State) (k : Nat) (f : Cluster → Cluster) (x y : Nat) : (s.modCluster k f).scopeAt x y = s.scopeAt x y := rfl
@[simp] theorem modCluster_lineByte (s : State) (k : Nat) (f : Cluster → Cluster) (x y z : Nat) : (s.modCluster k f).lineByte x y z = s.lineByte x y z := rfl
@[simp] theorem modCluster_homeByte (s : State) (k : Nat) (f : Cluster → Cluster) (x y : Nat) : (s.modCluster k f).homeByte x y = s.homeByte x y := rfl
@[simp] theorem modCluster_dieByte (s : State) (k : Nat) (f : Cluster → Cluster) (x y z w : Nat) : (s.modCluster k f).dieByte x y z w = s.dieByte x y z w := rfl
@[simp] theorem modCluster_sreg (s : State) (k : Nat) (f : Cluster → Cluster) (x : SlotRef) (y : Nat) : (s.modCluster k f).sreg x y = s.sreg x y := rfl
@[simp] theorem modCluster_vreg (s : State) (k : Nat) (f : Cluster → Cluster) (x : SlotRef) (y : Nat) : (s.modCluster k f).vreg x y = s.vreg x y := rfl
@[simp] theorem modCluster_rd (s : State) (k : Nat) (f : Cluster → Cluster) (x : SField) : (s.modCluster k f).rd x = s.rd x := rfl
@[simp] theorem modCluster_rdv (s : State) (k : Nat) (f : Cluster → Cluster) (x : VField) : (s.modCluster k f).rdv x = s.rdv x := rfl
@[simp] theorem modCluster_rdm (s : State) (k : Nat) (f : Cluster → Cluster) (x : MField) : (s.modCluster k f).rdm x = s.rdm x := rfl
@[simp] theorem modCluster_pendAt (s : State) (k : Nat) (f : Cluster → Cluster) (x : OpRef) : (s.modCluster k f).pendAt x = s.pendAt x := rfl
@[simp] theorem modCluster_padWord (s : State) (k : Nat) (f : Cluster → Cluster) (x y z : Nat) : (s.modCluster k f).padWord x y z = s.padWord x y z := rfl

/-! ### modDie -/

@[simp] theorem modDie_cur (s : State) (d : Nat) (f : Die → Die) : (s.modDie d f).cur = s.cur := rfl
@[simp] theorem modDie_agenda (s : State) (d : Nat) (f : Die → Die) : (s.modDie d f).agenda = s.agenda := rfl
@[simp] theorem modDie_draws (s : State) (d : Nat) (f : Die → Die) : (s.modDie d f).draws = s.draws := rfl
@[simp] theorem modDie_nextId (s : State) (d : Nat) (f : Die → Die) : (s.modDie d f).nextId = s.nextId := rfl
@[simp] theorem modDie_ticks (s : State) (d : Nat) (f : Die → Die) : (s.modDie d f).ticks = s.ticks := rfl
@[simp] theorem modDie_accepts (s : State) (d : Nat) (f : Die → Die) : (s.modDie d f).accepts = s.accepts := rfl
@[simp] theorem modDie_slots (s : State) (d : Nat) (f : Die → Die) : (s.modDie d f).slots = s.slots := rfl
@[simp] theorem modDie_cores (s : State) (d : Nat) (f : Die → Die) : (s.modDie d f).cores = s.cores := rfl
@[simp] theorem modDie_coreParts (s : State) (d : Nat) (f : Die → Die) : (s.modDie d f).coreParts = s.coreParts := rfl
@[simp] theorem modDie_clusters (s : State) (d : Nat) (f : Die → Die) : (s.modDie d f).clusters = s.clusters := rfl
@[simp] theorem modDie_parts (s : State) (d : Nat) (f : Die → Die) : (s.modDie d f).parts = s.parts := rfl
@[simp] theorem modDie_hbm (s : State) (d : Nat) (f : Die → Die) : (s.modDie d f).hbm = s.hbm := rfl
@[simp] theorem modDie_l2 (s : State) (d : Nat) (f : Die → Die) : (s.modDie d f).l2 = s.l2 := rfl
@[simp] theorem modDie_poison (s : State) (d : Nat) (f : Die → Die) : (s.modDie d f).poison = s.poison := rfl
@[simp] theorem modDie_l2bad (s : State) (d : Nat) (f : Die → Die) : (s.modDie d f).l2bad = s.l2bad := rfl
@[simp] theorem modDie_hbmBy (s : State) (d : Nat) (f : Die → Die) : (s.modDie d f).hbmBy = s.hbmBy := rfl
@[simp] theorem modDie_relOf (s : State) (d : Nat) (f : Die → Die) : (s.modDie d f).relOf = s.relOf := rfl
@[simp] theorem modDie_shadows (s : State) (d : Nat) (f : Die → Die) : (s.modDie d f).shadows = s.shadows := rfl
@[simp] theorem modDie_inflight (s : State) (d : Nat) (f : Die → Die) : (s.modDie d f).inflight = s.inflight := rfl
@[simp] theorem modDie_overflow (s : State) (d : Nat) (f : Die → Die) : (s.modDie d f).overflow = s.overflow := rfl
@[simp] theorem modDie_queues (s : State) (d : Nat) (f : Die → Die) : (s.modDie d f).queues = s.queues := rfl
@[simp] theorem modDie_scopes (s : State) (d : Nat) (f : Die → Die) : (s.modDie d f).scopes = s.scopes := rfl
@[simp] theorem modDie_scopeQ (s : State) (d : Nat) (f : Die → Die) : (s.modDie d f).scopeQ = s.scopeQ := rfl
@[simp] theorem modDie_scopeLast (s : State) (d : Nat) (f : Die → Die) : (s.modDie d f).scopeLast = s.scopeLast := rfl
@[simp] theorem modDie_groups (s : State) (d : Nat) (f : Die → Die) : (s.modDie d f).groups = s.groups := rfl
@[simp] theorem modDie_memberQ (s : State) (d : Nat) (f : Die → Die) : (s.modDie d f).memberQ = s.memberQ := rfl
@[simp] theorem modDie_spilled (s : State) (d : Nat) (f : Die → Die) : (s.modDie d f).spilled = s.spilled := rfl
@[simp] theorem modDie_latchQ (s : State) (d : Nat) (f : Die → Die) : (s.modDie d f).latchQ = s.latchQ := rfl
@[simp] theorem modDie_devOut (s : State) (d : Nat) (f : Die → Die) : (s.modDie d f).devOut = s.devOut := rfl
@[simp] theorem modDie_time (s : State) (d : Nat) (f : Die → Die) : (s.modDie d f).time = s.time := rfl
@[simp] theorem modDie_serac (s : State) (d : Nat) (f : Die → Die) : (s.modDie d f).serac = s.serac := rfl
@[simp] theorem modDie_outbox (s : State) (d : Nat) (f : Die → Die) : (s.modDie d f).outbox = s.outbox := rfl
@[simp] theorem modDie_slotAt (s : State) (d : Nat) (f : Die → Die) (x : SlotRef) : (s.modDie d f).slotAt x = s.slotAt x := rfl
@[simp] theorem modDie_here (s : State) (d : Nat) (f : Die → Die) : (s.modDie d f).here = s.here := rfl
@[simp] theorem modDie_coreAt (s : State) (d : Nat) (f : Die → Die) (x : Nat) : (s.modDie d f).coreAt x = s.coreAt x := rfl
@[simp] theorem modDie_cpAt (s : State) (d : Nat) (f : Die → Die) (x y : Nat) : (s.modDie d f).cpAt x y = s.cpAt x y := rfl
@[simp] theorem modDie_clusterAt (s : State) (d : Nat) (f : Die → Die) (x : Nat) : (s.modDie d f).clusterAt x = s.clusterAt x := rfl
@[simp] theorem modDie_part (s : State) (d : Nat) (f : Die → Die) (x : Nat) : (s.modDie d f).part? x = s.part? x := rfl
@[simp] theorem modDie_ownerOf (s : State) (d : Nat) (f : Die → Die) (x : Nat) : (s.modDie d f).ownerOf x = s.ownerOf x := rfl
@[simp] theorem modDie_partOf (s : State) (d : Nat) (f : Die → Die) (x : SlotRef) : (s.modDie d f).partOf x = s.partOf x := rfl
@[simp] theorem modDie_herePart (s : State) (d : Nat) (f : Die → Die) : (s.modDie d f).herePart = s.herePart := rfl
@[simp] theorem modDie_slotCount (s : State) (d : Nat) (f : Die → Die) (x : Nat) : (s.modDie d f).slotCount x = s.slotCount x := rfl
@[simp] theorem modDie_gen (s : State) (d : Nat) (f : Die → Die) (x : Nat) : (s.modDie d f).gen x = s.gen x := rfl
@[simp] theorem modDie_padSize (s : State) (d : Nat) (f : Die → Die) (x : Nat) : (s.modDie d f).padSize x = s.padSize x := rfl
@[simp] theorem modDie_pcsr (s : State) (d : Nat) (f : Die → Die) (x y : Nat) (z : PCsr) : (s.modDie d f).pcsr x y z = s.pcsr x y z := rfl
@[simp] theorem modDie_queueAt (s : State) (d : Nat) (f : Die → Die) (x : Nat) : (s.modDie d f).queueAt x = s.queueAt x := rfl
@[simp] theorem modDie_scopeAt (s : State) (d : Nat) (f : Die → Die) (x y : Nat) : (s.modDie d f).scopeAt x y = s.scopeAt x y := rfl
@[simp] theorem modDie_lineByte (s : State) (d : Nat) (f : Die → Die) (x y z : Nat) : (s.modDie d f).lineByte x y z = s.lineByte x y z := rfl
@[simp] theorem modDie_homeByte (s : State) (d : Nat) (f : Die → Die) (x y : Nat) : (s.modDie d f).homeByte x y = s.homeByte x y := rfl
@[simp] theorem modDie_sreg (s : State) (d : Nat) (f : Die → Die) (x : SlotRef) (y : Nat) : (s.modDie d f).sreg x y = s.sreg x y := rfl
@[simp] theorem modDie_vreg (s : State) (d : Nat) (f : Die → Die) (x : SlotRef) (y : Nat) : (s.modDie d f).vreg x y = s.vreg x y := rfl
@[simp] theorem modDie_rd (s : State) (d : Nat) (f : Die → Die) (x : SField) : (s.modDie d f).rd x = s.rd x := rfl
@[simp] theorem modDie_rdv (s : State) (d : Nat) (f : Die → Die) (x : VField) : (s.modDie d f).rdv x = s.rdv x := rfl
@[simp] theorem modDie_rdm (s : State) (d : Nat) (f : Die → Die) (x : MField) : (s.modDie d f).rdm x = s.rdm x := rfl
@[simp] theorem modDie_pendAt (s : State) (d : Nat) (f : Die → Die) (x : OpRef) : (s.modDie d f).pendAt x = s.pendAt x := rfl
@[simp] theorem modDie_padWord (s : State) (d : Nat) (f : Die → Die) (x y z : Nat) : (s.modDie d f).padWord x y z = s.padWord x y z := rfl

/-! ### modPart -/

@[simp] theorem modPart_cur (s : State) (p : Nat) (f : Partition → Partition) : (s.modPart p f).cur = s.cur := rfl
@[simp] theorem modPart_agenda (s : State) (p : Nat) (f : Partition → Partition) : (s.modPart p f).agenda = s.agenda := rfl
@[simp] theorem modPart_draws (s : State) (p : Nat) (f : Partition → Partition) : (s.modPart p f).draws = s.draws := rfl
@[simp] theorem modPart_nextId (s : State) (p : Nat) (f : Partition → Partition) : (s.modPart p f).nextId = s.nextId := rfl
@[simp] theorem modPart_ticks (s : State) (p : Nat) (f : Partition → Partition) : (s.modPart p f).ticks = s.ticks := rfl
@[simp] theorem modPart_accepts (s : State) (p : Nat) (f : Partition → Partition) : (s.modPart p f).accepts = s.accepts := rfl
@[simp] theorem modPart_slots (s : State) (p : Nat) (f : Partition → Partition) : (s.modPart p f).slots = s.slots := rfl
@[simp] theorem modPart_cores (s : State) (p : Nat) (f : Partition → Partition) : (s.modPart p f).cores = s.cores := rfl
@[simp] theorem modPart_coreParts (s : State) (p : Nat) (f : Partition → Partition) : (s.modPart p f).coreParts = s.coreParts := rfl
@[simp] theorem modPart_clusters (s : State) (p : Nat) (f : Partition → Partition) : (s.modPart p f).clusters = s.clusters := rfl
@[simp] theorem modPart_dies (s : State) (p : Nat) (f : Partition → Partition) : (s.modPart p f).dies = s.dies := rfl
@[simp] theorem modPart_hbm (s : State) (p : Nat) (f : Partition → Partition) : (s.modPart p f).hbm = s.hbm := rfl
@[simp] theorem modPart_l2 (s : State) (p : Nat) (f : Partition → Partition) : (s.modPart p f).l2 = s.l2 := rfl
@[simp] theorem modPart_poison (s : State) (p : Nat) (f : Partition → Partition) : (s.modPart p f).poison = s.poison := rfl
@[simp] theorem modPart_l2bad (s : State) (p : Nat) (f : Partition → Partition) : (s.modPart p f).l2bad = s.l2bad := rfl
@[simp] theorem modPart_hbmBy (s : State) (p : Nat) (f : Partition → Partition) : (s.modPart p f).hbmBy = s.hbmBy := rfl
@[simp] theorem modPart_relOf (s : State) (p : Nat) (f : Partition → Partition) : (s.modPart p f).relOf = s.relOf := rfl
@[simp] theorem modPart_shadows (s : State) (p : Nat) (f : Partition → Partition) : (s.modPart p f).shadows = s.shadows := rfl
@[simp] theorem modPart_inflight (s : State) (p : Nat) (f : Partition → Partition) : (s.modPart p f).inflight = s.inflight := rfl
@[simp] theorem modPart_overflow (s : State) (p : Nat) (f : Partition → Partition) : (s.modPart p f).overflow = s.overflow := rfl
@[simp] theorem modPart_queues (s : State) (p : Nat) (f : Partition → Partition) : (s.modPart p f).queues = s.queues := rfl
@[simp] theorem modPart_scopes (s : State) (p : Nat) (f : Partition → Partition) : (s.modPart p f).scopes = s.scopes := rfl
@[simp] theorem modPart_scopeQ (s : State) (p : Nat) (f : Partition → Partition) : (s.modPart p f).scopeQ = s.scopeQ := rfl
@[simp] theorem modPart_scopeLast (s : State) (p : Nat) (f : Partition → Partition) : (s.modPart p f).scopeLast = s.scopeLast := rfl
@[simp] theorem modPart_groups (s : State) (p : Nat) (f : Partition → Partition) : (s.modPart p f).groups = s.groups := rfl
@[simp] theorem modPart_memberQ (s : State) (p : Nat) (f : Partition → Partition) : (s.modPart p f).memberQ = s.memberQ := rfl
@[simp] theorem modPart_spilled (s : State) (p : Nat) (f : Partition → Partition) : (s.modPart p f).spilled = s.spilled := rfl
@[simp] theorem modPart_latchQ (s : State) (p : Nat) (f : Partition → Partition) : (s.modPart p f).latchQ = s.latchQ := rfl
@[simp] theorem modPart_devOut (s : State) (p : Nat) (f : Partition → Partition) : (s.modPart p f).devOut = s.devOut := rfl
@[simp] theorem modPart_time (s : State) (p : Nat) (f : Partition → Partition) : (s.modPart p f).time = s.time := rfl
@[simp] theorem modPart_serac (s : State) (p : Nat) (f : Partition → Partition) : (s.modPart p f).serac = s.serac := rfl
@[simp] theorem modPart_outbox (s : State) (p : Nat) (f : Partition → Partition) : (s.modPart p f).outbox = s.outbox := rfl
@[simp] theorem modPart_slotAt (s : State) (p : Nat) (f : Partition → Partition) (x : SlotRef) : (s.modPart p f).slotAt x = s.slotAt x := rfl
@[simp] theorem modPart_here (s : State) (p : Nat) (f : Partition → Partition) : (s.modPart p f).here = s.here := rfl
@[simp] theorem modPart_coreAt (s : State) (p : Nat) (f : Partition → Partition) (x : Nat) : (s.modPart p f).coreAt x = s.coreAt x := rfl
@[simp] theorem modPart_cpAt (s : State) (p : Nat) (f : Partition → Partition) (x y : Nat) : (s.modPart p f).cpAt x y = s.cpAt x y := rfl
@[simp] theorem modPart_clusterAt (s : State) (p : Nat) (f : Partition → Partition) (x : Nat) : (s.modPart p f).clusterAt x = s.clusterAt x := rfl
@[simp] theorem modPart_dieAt (s : State) (p : Nat) (f : Partition → Partition) (x : Nat) : (s.modPart p f).dieAt x = s.dieAt x := rfl
@[simp] theorem modPart_cycleOf (s : State) (p : Nat) (f : Partition → Partition) (x : Nat) : (s.modPart p f).cycleOf x = s.cycleOf x := rfl
@[simp] theorem modPart_live (s : State) (p : Nat) (f : Partition → Partition) (x : Nat) : (s.modPart p f).live x = s.live x := rfl
@[simp] theorem modPart_queueAt (s : State) (p : Nat) (f : Partition → Partition) (x : Nat) : (s.modPart p f).queueAt x = s.queueAt x := rfl
@[simp] theorem modPart_scopeAt (s : State) (p : Nat) (f : Partition → Partition) (x y : Nat) : (s.modPart p f).scopeAt x y = s.scopeAt x y := rfl
@[simp] theorem modPart_vreg (s : State) (p : Nat) (f : Partition → Partition) (x : SlotRef) (y : Nat) : (s.modPart p f).vreg x y = s.vreg x y := rfl
@[simp] theorem modPart_rdv (s : State) (p : Nat) (f : Partition → Partition) (x : VField) : (s.modPart p f).rdv x = s.rdv x := rfl
@[simp] theorem modPart_rdm (s : State) (p : Nat) (f : Partition → Partition) (x : MField) : (s.modPart p f).rdm x = s.rdm x := rfl
@[simp] theorem modPart_pendAt (s : State) (p : Nat) (f : Partition → Partition) (x : OpRef) : (s.modPart p f).pendAt x = s.pendAt x := rfl

/-! ### modQueue -/

@[simp] theorem modQueue_cur (s : State) (q : Nat) (f : Queue → Queue) : (s.modQueue q f).cur = s.cur := rfl
@[simp] theorem modQueue_agenda (s : State) (q : Nat) (f : Queue → Queue) : (s.modQueue q f).agenda = s.agenda := rfl
@[simp] theorem modQueue_draws (s : State) (q : Nat) (f : Queue → Queue) : (s.modQueue q f).draws = s.draws := rfl
@[simp] theorem modQueue_nextId (s : State) (q : Nat) (f : Queue → Queue) : (s.modQueue q f).nextId = s.nextId := rfl
@[simp] theorem modQueue_ticks (s : State) (q : Nat) (f : Queue → Queue) : (s.modQueue q f).ticks = s.ticks := rfl
@[simp] theorem modQueue_accepts (s : State) (q : Nat) (f : Queue → Queue) : (s.modQueue q f).accepts = s.accepts := rfl
@[simp] theorem modQueue_slots (s : State) (q : Nat) (f : Queue → Queue) : (s.modQueue q f).slots = s.slots := rfl
@[simp] theorem modQueue_cores (s : State) (q : Nat) (f : Queue → Queue) : (s.modQueue q f).cores = s.cores := rfl
@[simp] theorem modQueue_coreParts (s : State) (q : Nat) (f : Queue → Queue) : (s.modQueue q f).coreParts = s.coreParts := rfl
@[simp] theorem modQueue_clusters (s : State) (q : Nat) (f : Queue → Queue) : (s.modQueue q f).clusters = s.clusters := rfl
@[simp] theorem modQueue_dies (s : State) (q : Nat) (f : Queue → Queue) : (s.modQueue q f).dies = s.dies := rfl
@[simp] theorem modQueue_parts (s : State) (q : Nat) (f : Queue → Queue) : (s.modQueue q f).parts = s.parts := rfl
@[simp] theorem modQueue_hbm (s : State) (q : Nat) (f : Queue → Queue) : (s.modQueue q f).hbm = s.hbm := rfl
@[simp] theorem modQueue_l2 (s : State) (q : Nat) (f : Queue → Queue) : (s.modQueue q f).l2 = s.l2 := rfl
@[simp] theorem modQueue_poison (s : State) (q : Nat) (f : Queue → Queue) : (s.modQueue q f).poison = s.poison := rfl
@[simp] theorem modQueue_l2bad (s : State) (q : Nat) (f : Queue → Queue) : (s.modQueue q f).l2bad = s.l2bad := rfl
@[simp] theorem modQueue_hbmBy (s : State) (q : Nat) (f : Queue → Queue) : (s.modQueue q f).hbmBy = s.hbmBy := rfl
@[simp] theorem modQueue_relOf (s : State) (q : Nat) (f : Queue → Queue) : (s.modQueue q f).relOf = s.relOf := rfl
@[simp] theorem modQueue_shadows (s : State) (q : Nat) (f : Queue → Queue) : (s.modQueue q f).shadows = s.shadows := rfl
@[simp] theorem modQueue_inflight (s : State) (q : Nat) (f : Queue → Queue) : (s.modQueue q f).inflight = s.inflight := rfl
@[simp] theorem modQueue_overflow (s : State) (q : Nat) (f : Queue → Queue) : (s.modQueue q f).overflow = s.overflow := rfl
@[simp] theorem modQueue_scopes (s : State) (q : Nat) (f : Queue → Queue) : (s.modQueue q f).scopes = s.scopes := rfl
@[simp] theorem modQueue_scopeQ (s : State) (q : Nat) (f : Queue → Queue) : (s.modQueue q f).scopeQ = s.scopeQ := rfl
@[simp] theorem modQueue_scopeLast (s : State) (q : Nat) (f : Queue → Queue) : (s.modQueue q f).scopeLast = s.scopeLast := rfl
@[simp] theorem modQueue_groups (s : State) (q : Nat) (f : Queue → Queue) : (s.modQueue q f).groups = s.groups := rfl
@[simp] theorem modQueue_memberQ (s : State) (q : Nat) (f : Queue → Queue) : (s.modQueue q f).memberQ = s.memberQ := rfl
@[simp] theorem modQueue_spilled (s : State) (q : Nat) (f : Queue → Queue) : (s.modQueue q f).spilled = s.spilled := rfl
@[simp] theorem modQueue_latchQ (s : State) (q : Nat) (f : Queue → Queue) : (s.modQueue q f).latchQ = s.latchQ := rfl
@[simp] theorem modQueue_devOut (s : State) (q : Nat) (f : Queue → Queue) : (s.modQueue q f).devOut = s.devOut := rfl
@[simp] theorem modQueue_time (s : State) (q : Nat) (f : Queue → Queue) : (s.modQueue q f).time = s.time := rfl
@[simp] theorem modQueue_serac (s : State) (q : Nat) (f : Queue → Queue) : (s.modQueue q f).serac = s.serac := rfl
@[simp] theorem modQueue_outbox (s : State) (q : Nat) (f : Queue → Queue) : (s.modQueue q f).outbox = s.outbox := rfl
@[simp] theorem modQueue_slotAt (s : State) (q : Nat) (f : Queue → Queue) (x : SlotRef) : (s.modQueue q f).slotAt x = s.slotAt x := rfl
@[simp] theorem modQueue_here (s : State) (q : Nat) (f : Queue → Queue) : (s.modQueue q f).here = s.here := rfl
@[simp] theorem modQueue_coreAt (s : State) (q : Nat) (f : Queue → Queue) (x : Nat) : (s.modQueue q f).coreAt x = s.coreAt x := rfl
@[simp] theorem modQueue_cpAt (s : State) (q : Nat) (f : Queue → Queue) (x y : Nat) : (s.modQueue q f).cpAt x y = s.cpAt x y := rfl
@[simp] theorem modQueue_clusterAt (s : State) (q : Nat) (f : Queue → Queue) (x : Nat) : (s.modQueue q f).clusterAt x = s.clusterAt x := rfl
@[simp] theorem modQueue_dieAt (s : State) (q : Nat) (f : Queue → Queue) (x : Nat) : (s.modQueue q f).dieAt x = s.dieAt x := rfl
@[simp] theorem modQueue_part (s : State) (q : Nat) (f : Queue → Queue) (x : Nat) : (s.modQueue q f).part? x = s.part? x := rfl
@[simp] theorem modQueue_ownerOf (s : State) (q : Nat) (f : Queue → Queue) (x : Nat) : (s.modQueue q f).ownerOf x = s.ownerOf x := rfl
@[simp] theorem modQueue_partOf (s : State) (q : Nat) (f : Queue → Queue) (x : SlotRef) : (s.modQueue q f).partOf x = s.partOf x := rfl
@[simp] theorem modQueue_herePart (s : State) (q : Nat) (f : Queue → Queue) : (s.modQueue q f).herePart = s.herePart := rfl
@[simp] theorem modQueue_slotCount (s : State) (q : Nat) (f : Queue → Queue) (x : Nat) : (s.modQueue q f).slotCount x = s.slotCount x := rfl
@[simp] theorem modQueue_gen (s : State) (q : Nat) (f : Queue → Queue) (x : Nat) : (s.modQueue q f).gen x = s.gen x := rfl
@[simp] theorem modQueue_padSize (s : State) (q : Nat) (f : Queue → Queue) (x : Nat) : (s.modQueue q f).padSize x = s.padSize x := rfl
@[simp] theorem modQueue_pcsr (s : State) (q : Nat) (f : Queue → Queue) (x y : Nat) (z : PCsr) : (s.modQueue q f).pcsr x y z = s.pcsr x y z := rfl
@[simp] theorem modQueue_cycleOf (s : State) (q : Nat) (f : Queue → Queue) (x : Nat) : (s.modQueue q f).cycleOf x = s.cycleOf x := rfl
@[simp] theorem modQueue_live (s : State) (q : Nat) (f : Queue → Queue) (x : Nat) : (s.modQueue q f).live x = s.live x := rfl
@[simp] theorem modQueue_scopeAt (s : State) (q : Nat) (f : Queue → Queue) (x y : Nat) : (s.modQueue q f).scopeAt x y = s.scopeAt x y := rfl
@[simp] theorem modQueue_lineByte (s : State) (q : Nat) (f : Queue → Queue) (x y z : Nat) : (s.modQueue q f).lineByte x y z = s.lineByte x y z := rfl
@[simp] theorem modQueue_homeByte (s : State) (q : Nat) (f : Queue → Queue) (x y : Nat) : (s.modQueue q f).homeByte x y = s.homeByte x y := rfl
@[simp] theorem modQueue_dieByte (s : State) (q : Nat) (f : Queue → Queue) (x y z w : Nat) : (s.modQueue q f).dieByte x y z w = s.dieByte x y z w := rfl
@[simp] theorem modQueue_sreg (s : State) (q : Nat) (f : Queue → Queue) (x : SlotRef) (y : Nat) : (s.modQueue q f).sreg x y = s.sreg x y := rfl
@[simp] theorem modQueue_vreg (s : State) (q : Nat) (f : Queue → Queue) (x : SlotRef) (y : Nat) : (s.modQueue q f).vreg x y = s.vreg x y := rfl
@[simp] theorem modQueue_rd (s : State) (q : Nat) (f : Queue → Queue) (x : SField) : (s.modQueue q f).rd x = s.rd x := rfl
@[simp] theorem modQueue_rdv (s : State) (q : Nat) (f : Queue → Queue) (x : VField) : (s.modQueue q f).rdv x = s.rdv x := rfl
@[simp] theorem modQueue_rdm (s : State) (q : Nat) (f : Queue → Queue) (x : MField) : (s.modQueue q f).rdm x = s.rdm x := rfl
@[simp] theorem modQueue_pendAt (s : State) (q : Nat) (f : Queue → Queue) (x : OpRef) : (s.modQueue q f).pendAt x = s.pendAt x := rfl
@[simp] theorem modQueue_padWord (s : State) (q : Nat) (f : Queue → Queue) (x y z : Nat) : (s.modQueue q f).padWord x y z = s.padWord x y z := rfl

/-! ### modGroup -/

@[simp] theorem modGroup_cur (s : State) (n : Nat) (f : Group → Group) : (s.modGroup n f).cur = s.cur := rfl
@[simp] theorem modGroup_agenda (s : State) (n : Nat) (f : Group → Group) : (s.modGroup n f).agenda = s.agenda := rfl
@[simp] theorem modGroup_draws (s : State) (n : Nat) (f : Group → Group) : (s.modGroup n f).draws = s.draws := rfl
@[simp] theorem modGroup_nextId (s : State) (n : Nat) (f : Group → Group) : (s.modGroup n f).nextId = s.nextId := rfl
@[simp] theorem modGroup_ticks (s : State) (n : Nat) (f : Group → Group) : (s.modGroup n f).ticks = s.ticks := rfl
@[simp] theorem modGroup_accepts (s : State) (n : Nat) (f : Group → Group) : (s.modGroup n f).accepts = s.accepts := rfl
@[simp] theorem modGroup_slots (s : State) (n : Nat) (f : Group → Group) : (s.modGroup n f).slots = s.slots := rfl
@[simp] theorem modGroup_cores (s : State) (n : Nat) (f : Group → Group) : (s.modGroup n f).cores = s.cores := rfl
@[simp] theorem modGroup_coreParts (s : State) (n : Nat) (f : Group → Group) : (s.modGroup n f).coreParts = s.coreParts := rfl
@[simp] theorem modGroup_clusters (s : State) (n : Nat) (f : Group → Group) : (s.modGroup n f).clusters = s.clusters := rfl
@[simp] theorem modGroup_dies (s : State) (n : Nat) (f : Group → Group) : (s.modGroup n f).dies = s.dies := rfl
@[simp] theorem modGroup_parts (s : State) (n : Nat) (f : Group → Group) : (s.modGroup n f).parts = s.parts := rfl
@[simp] theorem modGroup_hbm (s : State) (n : Nat) (f : Group → Group) : (s.modGroup n f).hbm = s.hbm := rfl
@[simp] theorem modGroup_l2 (s : State) (n : Nat) (f : Group → Group) : (s.modGroup n f).l2 = s.l2 := rfl
@[simp] theorem modGroup_poison (s : State) (n : Nat) (f : Group → Group) : (s.modGroup n f).poison = s.poison := rfl
@[simp] theorem modGroup_l2bad (s : State) (n : Nat) (f : Group → Group) : (s.modGroup n f).l2bad = s.l2bad := rfl
@[simp] theorem modGroup_hbmBy (s : State) (n : Nat) (f : Group → Group) : (s.modGroup n f).hbmBy = s.hbmBy := rfl
@[simp] theorem modGroup_relOf (s : State) (n : Nat) (f : Group → Group) : (s.modGroup n f).relOf = s.relOf := rfl
@[simp] theorem modGroup_shadows (s : State) (n : Nat) (f : Group → Group) : (s.modGroup n f).shadows = s.shadows := rfl
@[simp] theorem modGroup_inflight (s : State) (n : Nat) (f : Group → Group) : (s.modGroup n f).inflight = s.inflight := rfl
@[simp] theorem modGroup_overflow (s : State) (n : Nat) (f : Group → Group) : (s.modGroup n f).overflow = s.overflow := rfl
@[simp] theorem modGroup_queues (s : State) (n : Nat) (f : Group → Group) : (s.modGroup n f).queues = s.queues := rfl
@[simp] theorem modGroup_scopes (s : State) (n : Nat) (f : Group → Group) : (s.modGroup n f).scopes = s.scopes := rfl
@[simp] theorem modGroup_scopeQ (s : State) (n : Nat) (f : Group → Group) : (s.modGroup n f).scopeQ = s.scopeQ := rfl
@[simp] theorem modGroup_scopeLast (s : State) (n : Nat) (f : Group → Group) : (s.modGroup n f).scopeLast = s.scopeLast := rfl
@[simp] theorem modGroup_memberQ (s : State) (n : Nat) (f : Group → Group) : (s.modGroup n f).memberQ = s.memberQ := rfl
@[simp] theorem modGroup_spilled (s : State) (n : Nat) (f : Group → Group) : (s.modGroup n f).spilled = s.spilled := rfl
@[simp] theorem modGroup_latchQ (s : State) (n : Nat) (f : Group → Group) : (s.modGroup n f).latchQ = s.latchQ := rfl
@[simp] theorem modGroup_devOut (s : State) (n : Nat) (f : Group → Group) : (s.modGroup n f).devOut = s.devOut := rfl
@[simp] theorem modGroup_time (s : State) (n : Nat) (f : Group → Group) : (s.modGroup n f).time = s.time := rfl
@[simp] theorem modGroup_serac (s : State) (n : Nat) (f : Group → Group) : (s.modGroup n f).serac = s.serac := rfl
@[simp] theorem modGroup_outbox (s : State) (n : Nat) (f : Group → Group) : (s.modGroup n f).outbox = s.outbox := rfl
@[simp] theorem modGroup_slotAt (s : State) (n : Nat) (f : Group → Group) (x : SlotRef) : (s.modGroup n f).slotAt x = s.slotAt x := rfl
@[simp] theorem modGroup_here (s : State) (n : Nat) (f : Group → Group) : (s.modGroup n f).here = s.here := rfl
@[simp] theorem modGroup_coreAt (s : State) (n : Nat) (f : Group → Group) (x : Nat) : (s.modGroup n f).coreAt x = s.coreAt x := rfl
@[simp] theorem modGroup_cpAt (s : State) (n : Nat) (f : Group → Group) (x y : Nat) : (s.modGroup n f).cpAt x y = s.cpAt x y := rfl
@[simp] theorem modGroup_clusterAt (s : State) (n : Nat) (f : Group → Group) (x : Nat) : (s.modGroup n f).clusterAt x = s.clusterAt x := rfl
@[simp] theorem modGroup_dieAt (s : State) (n : Nat) (f : Group → Group) (x : Nat) : (s.modGroup n f).dieAt x = s.dieAt x := rfl
@[simp] theorem modGroup_part (s : State) (n : Nat) (f : Group → Group) (x : Nat) : (s.modGroup n f).part? x = s.part? x := rfl
@[simp] theorem modGroup_ownerOf (s : State) (n : Nat) (f : Group → Group) (x : Nat) : (s.modGroup n f).ownerOf x = s.ownerOf x := rfl
@[simp] theorem modGroup_partOf (s : State) (n : Nat) (f : Group → Group) (x : SlotRef) : (s.modGroup n f).partOf x = s.partOf x := rfl
@[simp] theorem modGroup_herePart (s : State) (n : Nat) (f : Group → Group) : (s.modGroup n f).herePart = s.herePart := rfl
@[simp] theorem modGroup_slotCount (s : State) (n : Nat) (f : Group → Group) (x : Nat) : (s.modGroup n f).slotCount x = s.slotCount x := rfl
@[simp] theorem modGroup_gen (s : State) (n : Nat) (f : Group → Group) (x : Nat) : (s.modGroup n f).gen x = s.gen x := rfl
@[simp] theorem modGroup_padSize (s : State) (n : Nat) (f : Group → Group) (x : Nat) : (s.modGroup n f).padSize x = s.padSize x := rfl
@[simp] theorem modGroup_pcsr (s : State) (n : Nat) (f : Group → Group) (x y : Nat) (z : PCsr) : (s.modGroup n f).pcsr x y z = s.pcsr x y z := rfl
@[simp] theorem modGroup_cycleOf (s : State) (n : Nat) (f : Group → Group) (x : Nat) : (s.modGroup n f).cycleOf x = s.cycleOf x := rfl
@[simp] theorem modGroup_live (s : State) (n : Nat) (f : Group → Group) (x : Nat) : (s.modGroup n f).live x = s.live x := rfl
@[simp] theorem modGroup_queueAt (s : State) (n : Nat) (f : Group → Group) (x : Nat) : (s.modGroup n f).queueAt x = s.queueAt x := rfl
@[simp] theorem modGroup_scopeAt (s : State) (n : Nat) (f : Group → Group) (x y : Nat) : (s.modGroup n f).scopeAt x y = s.scopeAt x y := rfl
@[simp] theorem modGroup_lineByte (s : State) (n : Nat) (f : Group → Group) (x y z : Nat) : (s.modGroup n f).lineByte x y z = s.lineByte x y z := rfl
@[simp] theorem modGroup_homeByte (s : State) (n : Nat) (f : Group → Group) (x y : Nat) : (s.modGroup n f).homeByte x y = s.homeByte x y := rfl
@[simp] theorem modGroup_dieByte (s : State) (n : Nat) (f : Group → Group) (x y z w : Nat) : (s.modGroup n f).dieByte x y z w = s.dieByte x y z w := rfl
@[simp] theorem modGroup_sreg (s : State) (n : Nat) (f : Group → Group) (x : SlotRef) (y : Nat) : (s.modGroup n f).sreg x y = s.sreg x y := rfl
@[simp] theorem modGroup_vreg (s : State) (n : Nat) (f : Group → Group) (x : SlotRef) (y : Nat) : (s.modGroup n f).vreg x y = s.vreg x y := rfl
@[simp] theorem modGroup_rd (s : State) (n : Nat) (f : Group → Group) (x : SField) : (s.modGroup n f).rd x = s.rd x := rfl
@[simp] theorem modGroup_rdv (s : State) (n : Nat) (f : Group → Group) (x : VField) : (s.modGroup n f).rdv x = s.rdv x := rfl
@[simp] theorem modGroup_rdm (s : State) (n : Nat) (f : Group → Group) (x : MField) : (s.modGroup n f).rdm x = s.rdm x := rfl
@[simp] theorem modGroup_pendAt (s : State) (n : Nat) (f : Group → Group) (x : OpRef) : (s.modGroup n f).pendAt x = s.pendAt x := rfl
@[simp] theorem modGroup_padWord (s : State) (n : Nat) (f : Group → Group) (x y z : Nat) : (s.modGroup n f).padWord x y z = s.padWord x y z := rfl

/-! ### What the updated part is -/

theorem modSlot_slotAt (s : State) (r x : SlotRef) (f : Slot → Slot) :
    (s.modSlot r f).slotAt x = if slotKey x = slotKey r then f (s.slotAt r) else s.slotAt x := Sparse.get_modify ..
@[simp] theorem modSlot_slotAt_same (s : State) (r : SlotRef) (f : Slot → Slot) : (s.modSlot r f).slotAt r = f (s.slotAt r) := by
  simp [modSlot_slotAt]
@[simp] theorem modHere_here (s : State) (f : Slot → Slot) : (s.modHere f).here = f s.here := by
  simp [modHere, here]
theorem modCore_coreAt (s : State) (c x : Nat) (f : Core → Core) :
    (s.modCore c f).coreAt x = if x = c then f (s.coreAt c) else s.coreAt x := Sparse.get_modify ..
@[simp] theorem modCore_coreAt_same (s : State) (c : Nat) (f : Core → Core) : (s.modCore c f).coreAt c = f (s.coreAt c) := by
  simp [modCore_coreAt]
theorem modCp_cpAt (s : State) (c p x y : Nat) (f : CorePart → CorePart) :
    (s.modCp c p f).cpAt x y = if x * 4 + y = c * 4 + p then f (s.cpAt c p) else s.cpAt x y := Sparse.get_modify ..
@[simp] theorem modCp_cpAt_same (s : State) (c p : Nat) (f : CorePart → CorePart) : (s.modCp c p f).cpAt c p = f (s.cpAt c p) := by
  simp [modCp_cpAt]
theorem modCluster_clusterAt (s : State) (k x : Nat) (f : Cluster → Cluster) :
    (s.modCluster k f).clusterAt x = if x = k then f (s.clusterAt k) else s.clusterAt x := Sparse.get_modify ..
@[simp] theorem modCluster_clusterAt_same (s : State) (k : Nat) (f : Cluster → Cluster) :
    (s.modCluster k f).clusterAt k = f (s.clusterAt k) := by simp [modCluster_clusterAt]
theorem modDie_dieAt (s : State) (d x : Nat) (f : Die → Die) :
    (s.modDie d f).dieAt x = if x = d then f (s.dieAt d) else s.dieAt x := Sparse.get_modify ..
@[simp] theorem modDie_dieAt_same (s : State) (d : Nat) (f : Die → Die) : (s.modDie d f).dieAt d = f (s.dieAt d) := by
  simp [modDie_dieAt]
theorem modQueue_queueAt (s : State) (q x : Nat) (f : Queue → Queue) :
    (s.modQueue q f).queueAt x = if x = q then f (s.queueAt q) else s.queueAt x := Sparse.get_modify ..
@[simp] theorem modQueue_queueAt_same (s : State) (q : Nat) (f : Queue → Queue) : (s.modQueue q f).queueAt q = f (s.queueAt q) := by
  simp [modQueue_queueAt]
theorem modPart_part (s : State) (p x : Nat) (f : Partition → Partition) :
    (s.modPart p f).part? x = if x = p then (s.part? x).map f else s.part? x := by
  have h := Sparse.get?_map (fun e : Nat × Partition => if e.1 = p then f e.2 else e.2) s.parts x
  have e : (s.modPart p f).parts = s.parts.map fun e : Nat × Partition => (e.1, if e.1 = p then f e.2 else e.2) := by
    simp only [modPart]; congr 1; funext e; split <;> rfl
  rw [part?, e, h]
  split <;> simp [part?]

/-! ### modHere is modSlot of the running slot -/

theorem modHere_eq (s : State) (f : Slot → Slot) : s.modHere f = s.modSlot s.cur f := rfl

end Sys2Proof.Machine.State
end

