-- ==== Sys2Proof/Laws/Registers.lean ====
section
/-! SUPPORT. The registers: what consuming, awaiting, writing and filling one changes, and that nothing else does. -/
namespace Sys2Proof.Machine

/-- A slot without its registers and what it is doing. -/
def Slot.bare (sl : Slot) : Slot := { sl with sregs := [], vregs := [], mregs := [], run := .free }

namespace State

/-- Only registers have changed, and the waits of slots on a register. -/
structure RegsOnly (s u : State) : Prop where
  bare : ∀ r, (u.slotAt r).bare = (s.slotAt r).bare
  share : ∀ c p, u.cpAt c p = { s.cpAt c p with gregs := (u.cpAt c p).gregs, gwrites := (u.cpAt c p).gwrites }
  rest : u = { s with slots := u.slots, coreParts := u.coreParts }

theorem RegsOnly.refl (s : State) : RegsOnly s s := ⟨fun _ => rfl, fun _ _ => rfl, rfl⟩

theorem RegsOnly.trans {s t u : State} (h : RegsOnly s t) (k : RegsOnly t u) : RegsOnly s u where
  bare r := (k.bare r).trans (h.bare r)
  share c p := by
    have a := k.share c p
    have b := h.share c p
    rw [b] at a
    exact a
  rest := by
    have a := k.rest
    rw [h.rest] at a
    exact a

theorem RegsOnly.parts {s u : State} (h : RegsOnly s u) : u.parts = s.parts := by rw [h.rest]
theorem RegsOnly.cur {s u : State} (h : RegsOnly s u) : u.cur = s.cur := by rw [h.rest]
theorem RegsOnly.dies {s u : State} (h : RegsOnly s u) : u.dies = s.dies := by rw [h.rest]
theorem RegsOnly.nextId {s u : State} (h : RegsOnly s u) : u.nextId = s.nextId := by rw [h.rest]
theorem RegsOnly.ownerOf {s u : State} (h : RegsOnly s u) (n : Nat) : u.ownerOf n = s.ownerOf n := by
  simp only [State.ownerOf, part?, h.parts]
theorem RegsOnly.partOf {s u : State} (h : RegsOnly s u) (r : SlotRef) : u.partOf r = s.partOf r := by
  simp only [State.partOf, h.ownerOf]

theorem partOf_lt (s : State) (r : SlotRef) : s.partOf r < 4 := by
  unfold State.partOf State.ownerOf
  cases h : List.find? _ [0, 1, 2, 3] with
  | none => decide
  | some a =>
    have := List.mem_of_find?_eq_some h
    simp at this
    simp only [Option.getD_some]
    omega

theorem RegsOnly.herePart {s u : State} (h : RegsOnly s u) : u.herePart = s.herePart := by
  simp only [State.herePart, h.cur, h.ownerOf]

/-- The fields of a slot that are no registers. -/
theorem bare_eq {a b : Slot} (h : a.bare = b.bare) :
    a = { b with sregs := a.sregs, vregs := a.vregs, mregs := a.mregs, run := a.run } := by
  cases a; cases b; simp only [Slot.bare, Slot.mk.injEq] at h ⊢; simp_all

theorem RegsOnly.here {s u : State} (h : RegsOnly s u) :
    u.here = { s.here with sregs := u.here.sregs, vregs := u.here.vregs, mregs := u.here.mregs, run := u.here.run } := by
  have := bare_eq (h.bare s.cur)
  simpa only [State.here, h.cur] using this

/-! ### Changing one register -/

theorem find_drop_same (l : List GWrite) (k n : Nat) : (l.filter fun w => !w.of k n).find? (GWrite.of k n) = none := by
  rw [List.find?_eq_none]
  intro w hw
  simpa using (List.mem_filter.1 hw).2
theorem find_filter (l : List GWrite) (p q : GWrite → Bool) (h : ∀ w, q w = true → p w = true) :
    (l.filter p).find? q = l.find? q := by
  induction l with
  | nil => rfl
  | cons w t ih =>
    by_cases hp : p w = true
    · simp only [List.filter_cons, hp, if_true, List.find?_cons, ih]
    · have hq : q w = false := by cases hq : q w; rfl; exact absurd (h w hq) hp
      simp [hp, hq, ih]
theorem find_drop_reg (l : List GWrite) {k j : Nat} (m n : Nat) (h : k ≠ j) :
    (l.filter fun w => !w.of j m).find? (GWrite.of k n) = l.find? (GWrite.of k n) := by
  refine find_filter _ _ _ fun w hw => ?_
  simp only [GWrite.of, Bool.and_eq_true, beq_iff_eq] at hw
  simp [GWrite.of, hw.1, h]
theorem find_drop_slot (l : List GWrite) {m n : Nat} (k j : Nat) (h : m ≠ n) :
    (l.filter fun w => !w.of j n).find? (GWrite.of k m) = l.find? (GWrite.of k m) := by
  refine find_filter _ _ _ fun w hw => ?_
  simp only [GWrite.of, Bool.and_eq_true, beq_iff_eq] at hw
  simp [GWrite.of, hw.2, h]

/-- Register f that changes, as its own slot reads it. -/
theorem sreg_modS_same (s : State) (r : SlotRef) (f : Nat) (g : Reg 64 → Reg 64) (h0 : f ≠ 0) :
    (s.modS r f g).sreg r f = g (s.sreg r f) := by
  unfold modS
  by_cases h32 : f < 32
  · simp [sreg, h0, h32, Sparse.get_modify]
  · simp only [h0, h32, if_false]
    generalize g (s.sreg r f) = x
    simp only [sreg, h0, h32, if_false, modCp_partOf, modCp_cpAt_same, find_drop_same, Sparse.get_set, if_true]
/-- Every other register, as any slot reads it. -/
theorem sreg_modS_ne (s : State) (r x : SlotRef) {f k : Nat} (g : Reg 64 → Reg 64) (h : k ≠ f) :
    (s.modS r f g).sreg x k = s.sreg x k := by
  unfold modS
  split
  · rfl
  · split
    · unfold sreg
      split
      · rfl
      · split
        · rw [modSlot_slotAt]
          split
          · next hk => simp [slotAt, hk, Sparse.get_modify, h]
          · rfl
        · rfl
    · unfold sreg
      split
      · rfl
      · split
        · rfl
        · have hk : k - 32 ≠ f - 32 := by omega
          generalize g _ = y
          rw [modCp_partOf, modCp_cpAt]
          split
          · next hc =>
            have e : s.cpAt r.core (s.partOf r) = s.cpAt x.core (s.partOf x) := by simp only [cpAt, hc]
            simp only [e, find_drop_reg _ _ _ hk, Sparse.get_set, hk, if_false]
          · rfl
theorem sreg_modS (s : State) (r : SlotRef) (f k : Nat) (g : Reg 64 → Reg 64) :
    (s.modS r f g).sreg r k = if k = f ∧ f ≠ 0 then g (s.sreg r f) else s.sreg r k := by
  by_cases hk : k = f
  · subst hk
    by_cases h0 : k = 0
    · simp [modS, h0]
    · simp [h0, sreg_modS_same]
  · simp [hk, sreg_modS_ne]

theorem modS_slotAt (s : State) (r x : SlotRef) (f : Nat) (g : Reg 64 → Reg 64) :
    (s.modS r f g).slotAt x = { s.slotAt x with sregs := ((s.modS r f g).slotAt x).sregs } := by
  unfold modS
  split
  · rfl
  · split
    · rw [modSlot_slotAt]
      split
      · next h => simp [slotAt, h]
      · rfl
    · rfl

@[simp] theorem vreg_modS (s : State) (r x : SlotRef) (f k : Nat) (g : Reg 64 → Reg 64) :
    (s.modS r f g).vreg x k = s.vreg x k := by
  rw [vreg, modS_slotAt]; rfl

theorem modS_regsOnly (s : State) (r : SlotRef) (f : Nat) (g : Reg 64 → Reg 64) : RegsOnly s (s.modS r f g) where
  bare x := by rw [modS_slotAt]; rfl
  share c p := by
    unfold modS
    split
    · rfl
    · split
      · rfl
      · rw [modCp_cpAt]
        split
        · next h => simp [cpAt, h]
        · rfl
  rest := by
    unfold modS
    split
    · rfl
    · split <;> rfl

theorem modV_slotAt (s : State) (r x : SlotRef) (f : Nat) (g : Reg 2048 → Reg 2048) :
    (s.modV r f g).slotAt x = { s.slotAt x with vregs := ((s.modV r f g).slotAt x).vregs } := by
  unfold modV
  rw [modSlot_slotAt]
  split
  · next h => simp [slotAt, h]
  · rfl

theorem vreg_modV (s : State) (r : SlotRef) (f k : Nat) (g : Reg 2048 → Reg 2048) :
    (s.modV r f g).vreg r k = if k = f then g (s.vreg r f) else s.vreg r k := by
  simp [modV, vreg, Sparse.get_modify]

@[simp] theorem sreg_modV (s : State) (r x : SlotRef) (f k : Nat) (g : Reg 2048 → Reg 2048) :
    (s.modV r f g).sreg x k = s.sreg x k := by
  have h := modV_slotAt s r x f g
  unfold sreg
  rw [h]
  rfl

theorem modV_regsOnly (s : State) (r : SlotRef) (f : Nat) (g : Reg 2048 → Reg 2048) : RegsOnly s (s.modV r f g) where
  bare x := by rw [modV_slotAt]; rfl
  share _ _ := rfl
  rest := rfl

theorem modS_mregs (s : State) (r x : SlotRef) (f : Nat) (g : Reg 64 → Reg 64) :
    ((s.modS r f g).slotAt x).mregs = (s.slotAt x).mregs := by rw [modS_slotAt]
theorem modS_run (s : State) (r x : SlotRef) (f : Nat) (g : Reg 64 → Reg 64) :
    ((s.modS r f g).slotAt x).run = (s.slotAt x).run := by rw [modS_slotAt]
theorem modV_mregs (s : State) (r x : SlotRef) (f : Nat) (g : Reg 2048 → Reg 2048) :
    ((s.modV r f g).slotAt x).mregs = (s.slotAt x).mregs := by rw [modV_slotAt]
theorem modV_run (s : State) (r x : SlotRef) (f : Nat) (g : Reg 2048 → Reg 2048) :
    ((s.modV r f g).slotAt x).run = (s.slotAt x).run := by rw [modV_slotAt]
theorem modS_others (s : State) (r x : SlotRef) (f : Nat) (g : Reg 64 → Reg 64) (h : slotKey x ≠ slotKey r) :
    (s.modS r f g).slotAt x = s.slotAt x := by
  unfold modS
  split
  · rfl
  · split
    · rw [modSlot_slotAt, if_neg h]
    · rfl
theorem modV_others (s : State) (r x : SlotRef) (f : Nat) (g : Reg 2048 → Reg 2048) (h : slotKey x ≠ slotKey r) :
    (s.modV r f g).slotAt x = s.slotAt x := by
  unfold modV
  rw [modSlot_slotAt, if_neg h]

/-! ### Results of instructions -/

theorem putReg_slotAt (s : State) (r x : SlotRef) (f : Nat) (y : Reg 64) :
    (s.putReg r f y).slotAt x = { s.slotAt x with sregs := ((s.putReg r f y).slotAt x).sregs } := by
  unfold putReg
  split
  · exact modS_slotAt ..
  · rfl
theorem putReg_others (s : State) (r x : SlotRef) (f : Nat) (y : Reg 64) (h : slotKey x ≠ slotKey r) :
    (s.putReg r f y).slotAt x = s.slotAt x := by
  unfold putReg
  split
  · exact modS_others _ _ _ _ _ h
  · rfl
theorem putReg_regsOnly (s : State) (r : SlotRef) (f : Nat) (y : Reg 64) : RegsOnly s (s.putReg r f y) where
  bare x := by rw [putReg_slotAt]; rfl
  share c p := by
    unfold putReg
    split
    · exact (modS_regsOnly ..).share c p
    · rw [modCp_cpAt]
      split
      · next h => simp [cpAt, h]
      · rfl
  rest := by
    unfold putReg
    split
    · exact (modS_regsOnly ..).rest
    · rfl
@[simp] theorem vreg_putReg (s : State) (r x : SlotRef) (f k : Nat) (y : Reg 64) : (s.putReg r f y).vreg x k = s.vreg x k := by
  rw [vreg, putReg_slotAt]; rfl
/-- A result, as its own slot reads the registers from then on. -/
theorem sreg_putReg (s : State) (r : SlotRef) (f k : Nat) (y : Reg 64) :
    (s.putReg r f y).sreg r k = if k = f ∧ f ≠ 0 then y else s.sreg r k := by
  unfold putReg
  by_cases h32 : f < 32
  · rw [if_pos h32, sreg_modS]
  · rw [if_neg h32]
    have h0 : f ≠ 0 := by omega
    by_cases hk : k = f
    · subst hk
      have e : List.find? (GWrite.of (k - 32) r.slot) [⟨k - 32, r.slot, y⟩] = some ⟨k - 32, r.slot, y⟩ := by simp [GWrite.of]
      simp only [sreg, h0, h32, if_false, modCp_partOf, modCp_cpAt_same, List.find?_append, find_drop_same, Option.none_or, e,
        ne_eq, not_false_eq_true, and_self, if_true]
    · simp only [hk, false_and, if_false]
      unfold sreg
      split
      · rfl
      · split
        · rfl
        · have hk' : k - 32 ≠ f - 32 := by omega
          have e : List.find? (GWrite.of (k - 32) r.slot) [⟨f - 32, r.slot, y⟩] = none := by
            simp [GWrite.of, Ne.symm hk']
          simp only [modCp_partOf, modCp_cpAt_same, List.find?_append, find_drop_reg _ _ _ hk', e, Option.or_none,
            Sparse.get_modify, hk', if_false]
/-- Another slot reads the old value and the old full bit until the write lands (R94). -/
theorem sreg_putReg_other (s : State) (r x : SlotRef) (f k : Nat) (y : Reg 64) (hx : slotKey x ≠ slotKey r) :
    (s.putReg r f y).sreg x k = { s.sreg x k with await := ((s.putReg r f y).sreg x k).await } := by
  unfold putReg
  by_cases h32 : f < 32
  · simp only [h32, if_true]
    have e : (s.modS r f fun _ => y).sreg x k = s.sreg x k := by
      by_cases hk : k = f
      · subst hk
        unfold sreg
        rw [modS_others _ _ _ _ _ hx]
        simp [h32]
      · exact sreg_modS_ne _ _ _ _ hk
    rw [e]
  · simp only [h32, if_false]
    unfold sreg
    split
    · rfl
    · split
      · rfl
      · rw [modCp_partOf, modCp_cpAt]
        split
        · next hc =>
          by_cases hs : x.slot = r.slot
          · exact absurd (show slotKey x = slotKey r by
              have h1 := partOf_lt s x
              have h2 := partOf_lt s r
              simp only [slotKey, hs]; omega) hx
          · have e : List.find? (GWrite.of (k - 32) x.slot) [⟨f - 32, r.slot, y⟩] = none := by
              simp [GWrite.of, Ne.symm hs]
            have e2 : s.cpAt r.core (s.partOf r) = s.cpAt x.core (s.partOf x) := by simp only [cpAt, hc]
            simp only [e2, List.find?_append, find_drop_slot _ _ _ hs, e, Option.or_none, Sparse.get_modify]
            split
            · rfl
            · split
              · next hh => rw [hh]
              · rfl
        · rfl

theorem dropG_regsOnly (s : State) (c p : Nat) (q : GWrite → Bool) :
    RegsOnly s (s.modCp c p fun cp => { cp with gwrites := cp.gwrites.filter q }) where
  bare _ := rfl
  share d n := by
    rw [modCp_cpAt]
    split
    · next h => simp [cpAt, h]
    · rfl
  rest := rfl

theorem sreg_dropG_ne (s : State) (c p : Nat) (x : SlotRef) {j k : Nat} (h : k < 32 ∨ k - 32 ≠ j) :
    (s.modCp c p fun cp => { cp with gwrites := cp.gwrites.filter fun w => w.reg != j }).sreg x k = s.sreg x k := by
  unfold sreg
  split
  · rfl
  · split
    · rfl
    · next h32 =>
      rw [modCp_partOf, modCp_cpAt]
      split
      · next hc =>
        have e : s.cpAt c p = s.cpAt x.core (s.partOf x) := by simp only [cpAt, hc]
        have hq : ∀ w : GWrite, GWrite.of (k - 32) x.slot w = true → (w.reg != j) = true := fun w hw => by
          simp only [GWrite.of, Bool.and_eq_true, beq_iff_eq] at hw
          rw [hw.1]
          rcases h with h | h
          · exact absurd h h32
          · simpa using h
        simp only [e, find_filter _ _ _ hq]
      · rfl
theorem sreg_await_ne (s : State) (r x : SlotRef) {f k : Nat} (id : Nat) (h : k ≠ f) :
    (s.await r (.s f) id).sreg x k = s.sreg x k := by
  simp only [await]
  split
  · exact sreg_modS_ne _ _ _ _ h
  · rw [sreg_dropG_ne _ _ _ _ (by omega)]
    exact sreg_modS_ne _ _ _ _ h
theorem sreg_await (s : State) (r : SlotRef) (f k id : Nat) : (s.await r (.s f) id).sreg r k =
    if k = f ∧ f ≠ 0 then { s.sreg r f with full := false, await := some id } else s.sreg r k := by
  by_cases hk : k = f
  · subst hk
    by_cases h32 : k < 32
    · simp only [await, h32, if_true, sreg_modS]
    · have h0 : k ≠ 0 := by omega
      simp only [await, h32, if_false, ne_eq, h0, not_false_eq_true, and_self, if_true]
      rw [← sreg_modS_same s r k (fun x => { x with full := false, await := some id }) h0]
      unfold modS
      simp only [h0, h32, if_false]
      generalize ({ s.sreg r k with full := false, await := some id } : Reg 64) = y
      have e : ∀ l : List GWrite, ((l.filter fun w => !w.of (k - 32) r.slot).filter fun w => w.reg != k - 32).find?
          (GWrite.of (k - 32) r.slot) = none := fun l => by
        rw [List.find?_eq_none]
        intro w hw
        have := (List.mem_filter.1 (List.mem_filter.1 hw).1).2
        simpa using this
      simp only [sreg, h0, h32, if_false, modCp_partOf, modCp_cpAt_same, find_drop_same, e]
  · simp only [hk, false_and, if_false]
    exact sreg_await_ne _ _ _ _ hk
theorem vreg_await (s : State) (r : SlotRef) (f k id : Nat) : (s.await r (.v f) id).vreg r k =
    if k = f then { s.vreg r f with full := false, await := some id } else s.vreg r k := vreg_modV ..
@[simp] theorem sreg_await_v (s : State) (r x : SlotRef) (f k id : Nat) : (s.await r (.v f) id).sreg x k = s.sreg x k :=
  sreg_modV ..
@[simp] theorem vreg_await_s (s : State) (r x : SlotRef) (f k id : Nat) : (s.await r (.s f) id).vreg x k = s.vreg x k := by
  simp only [await]
  split
  · exact vreg_modS ..
  · exact vreg_modS ..

/-- A register of a slot is to wait for delivery `id`. -/
theorem await_slotAt (s : State) (r x : SlotRef) (d : Dest) (id : Nat) : (s.await r d id).slotAt x =
    { s.slotAt x with sregs := ((s.await r d id).slotAt x).sregs, vregs := ((s.await r d id).slotAt x).vregs } := by
  unfold await
  cases d with
  | none => rfl
  | s f =>
    simp only
    split
    · rw [modS_slotAt]
    · rw [modCp_slotAt, modS_slotAt]
  | v f => simp only; rw [modV_slotAt]
theorem await_others (s : State) (r x : SlotRef) (d : Dest) (id : Nat) (h : slotKey x ≠ slotKey r) :
    (s.await r d id).slotAt x = s.slotAt x := by
  unfold await
  cases d with
  | none => rfl
  | s f =>
    simp only
    split
    · exact modS_others _ _ _ _ _ h
    · rw [modCp_slotAt]; exact modS_others _ _ _ _ _ h
  | v f => exact modV_others _ _ _ _ _ h
theorem await_regsOnly (s : State) (r : SlotRef) (d : Dest) (id : Nat) : RegsOnly s (s.await r d id) where
  bare x := by rw [await_slotAt]; rfl
  share c p := by
    unfold await
    cases d with
    | none => rfl
    | s f =>
      simp only
      split
      · exact (modS_regsOnly ..).share c p
      · exact ((modS_regsOnly ..).trans (dropG_regsOnly ..)).share c p
    | v f => rfl
  rest := by
    unfold await
    cases d with
    | none => rfl
    | s f =>
      simp only
      split
      · exact (modS_regsOnly ..).rest
      · exact ((modS_regsOnly ..).trans (dropG_regsOnly ..)).rest
    | v f => rfl

/-! ### Waking -/

theorem wakeOne_slotAt (s : State) (r x : SlotRef) :
    (s.wakeOne r).slotAt x = s.slotAt x ∨ ∃ on, (s.slotAt x).run = .parked (.operand on) ∧ on.all (s.isFull r) = true
      ∧ slotKey x = slotKey r ∧ (s.wakeOne r).slotAt x = { s.slotAt x with run := .active } := by
  unfold wakeOne
  split
  · next on h =>
    split
    · next ha =>
      rw [modSlot_slotAt]
      split
      · next hk =>
        have e : s.slotAt r = s.slotAt x := by simp [slotAt, hk]
        exact .inr ⟨on, e ▸ h, ha, hk, by rw [e]⟩
      · exact .inl rfl
    · exact .inl rfl
  · exact .inl rfl

theorem wakeOne_regsOnly (s : State) (r : SlotRef) : RegsOnly s (s.wakeOne r) where
  bare x := by
    rcases wakeOne_slotAt s r x with h | ⟨_, _, _, _, h⟩
    · rw [h]
    · rw [h]; rfl
  share c p := by
    have : (s.wakeOne r).coreParts = s.coreParts := by unfold wakeOne; split <;> (try split) <;> rfl
    simp only [cpAt, this]
  rest := by unfold wakeOne; split <;> (try split) <;> rfl

end State
end Sys2Proof.Machine
end

