-- ==== Sys2Proof/Laws/Complete.lean ====
section
/-! SUPPORT. How an instruction's effect comes about: what holds of the state before it retires, built up from the operations
its meaning applies, and that retiring or parking then completes it. -/
namespace Sys2Proof.Claims
open Sys2Proof Sys2Proof.Machine Sys2Proof.Machine.State

/-- Of a state u that an instruction has made of s before it retires: its registers and its slot are as the effect says. -/
structure Before (e : Effect) (s u : State) : Prop where
  cur : u.cur = s.cur
  scalars : ∀ f, u.sreg s.cur f = sAfter e s f
  vectors : ∀ f, u.vreg s.cur f = vAfter e s f
  masks : ∀ f : MField, u.rdm f = mAfter e s f
  parities : u.here.mparity = pAfter e s
  unseen : ∀ r f, r.slot < 16 → slotKey r ≠ slotKey s.cur → takesS e.srcs f = false → e.awaits.contains (.s f) = false →
    u.sreg r f = { s.sreg r f with await := (u.sreg r f).await }
  slot : u.here = { (e.slot s.here) with
    sregs := u.here.sregs, vregs := u.here.vregs, mregs := u.here.mregs, mparity := u.here.mparity
    fflags := s.here.fflags ||| e.fl, pend := s.here.pend ++ e.pend.toList, turns := s.here.turns, interval := s.here.interval
    walkFault := s.here.walkFault, lc := s.here.lc, pc := s.here.pc, run := .active }
  others : ∀ r, r.slot < 16 → slotKey r ≠ slotKey s.cur → u.slotAt r = s.slotAt r
  shares : ∀ c p, p < 4 → u.cpAt c p = { s.cpAt c p with gregs := (u.cpAt c p).gregs, gwrites := (u.cpAt c p).gwrites }
    ∧ ((c, p) ≠ (s.cur.core, s.herePart) → u.cpAt c p = s.cpAt c p)
  rest : u = { (e.also s) with
    slots := u.slots, coreParts := u.coreParts, dies := s.dies
    nextId := if e.numbered then s.nextId + 1 else s.nextId }

theorem herePart_lt (s : State) : s.herePart < 4 := partOf_lt s s.cur

theorem modS_share (s : State) (f : Nat) (g : Reg 64 → Reg 64) (c p : Nat) (hp : p < 4) (hne : (c, p) ≠ (s.cur.core, s.herePart)) :
    (s.modS s.cur f g).cpAt c p = s.cpAt c p := by
  unfold modS
  split
  · rfl
  · split
    · rfl
    · have : s.partOf s.cur < 4 := herePart_lt s
      rw [modCp_cpAt, if_neg]
      intro h
      apply hne
      have h1 : c = s.cur.core := by omega
      have h2 : p = s.partOf s.cur := by omega
      rw [h1, h2]; rfl

theorem putReg_share (s : State) (f : Nat) (y : Reg 64) (c p : Nat) (hp : p < 4) (hne : (c, p) ≠ (s.cur.core, s.herePart)) :
    (s.putReg s.cur f y).cpAt c p = s.cpAt c p := by
  unfold putReg
  split
  · exact modS_share s f _ c p hp hne
  · have : s.partOf s.cur < 4 := herePart_lt s
    rw [modCp_cpAt, if_neg]
    intro h
    apply hne
    have h1 : c = s.cur.core := by omega
    have h2 : p = s.partOf s.cur := by omega
    rw [h1, h2]; rfl
theorem await_share (s : State) (d : Dest) (id c p : Nat) (hp : p < 4) (hne : (c, p) ≠ (s.cur.core, s.herePart)) :
    (s.await s.cur d id).cpAt c p = s.cpAt c p := by
  unfold await
  cases d with
  | none => rfl
  | s f =>
    simp only
    split
    · exact modS_share s f _ c p hp hne
    · have : (s.modS s.cur f fun x => { x with full := false, await := some id }).partOf s.cur = s.herePart :=
        (modS_regsOnly ..).partOf _
      have h4 := herePart_lt s
      rw [this, modCp_cpAt, if_neg]
      · exact modS_share s f _ c p hp hne
      · intro h
        apply hne
        have h1 : c = s.cur.core := by omega
        have h2 : p = s.herePart := by omega
        rw [h1, h2]
  | v f => rfl

theorem Before.ofRegs {s u : State} (h : RegsOnly s u) (hr : s.here.run = .active) (hur : u.here.run = .active)
    {e : Effect} (hs : ∀ f, u.sreg s.cur f = sAfter e s f) (hv : ∀ f, u.vreg s.cur f = vAfter e s f)
    (hm : ∀ f : MField, u.rdm f = mAfter e s f) (hslot : e.slot = id) (hfl : e.fl = 0) (hp : e.pend = none)
    (hw : e.wm = none)
    (hu : ∀ r f, takesS e.srcs f = false → u.sreg r f = s.sreg r f)
    (ho : ∀ r, r.slot < 16 → slotKey r ≠ slotKey s.cur → u.slotAt r = s.slotAt r)
    (hc : ∀ c p, p < 4 → (c, p) ≠ (s.cur.core, s.herePart) → u.cpAt c p = s.cpAt c p) (ha : e.also = id)
    (hn : e.numbered = false) : Before e s u where
  cur := h.cur
  scalars := hs
  vectors := hv
  masks := hm
  parities := by rw [h.here, pAfter, hw]
  unseen r f _ _ ht _ := by rw [hu r f ht]
  slot := by
    rw [h.here, hur, hslot, hfl, hp]
    simp [← hr]
  others := ho
  shares c p hlt := ⟨h.share c p, hc c p hlt⟩
  rest := by
    have := h.rest
    rw [ha, hn]
    exact this

/-! ### Sources -/

theorem consume_cons (s : State) (x : Src) (xs : List Src) : s.consume (x :: xs) = (s.consume [x]).consume xs := rfl

/-- What reading sources with consume leaves. -/
structure Consumed (xs : List Src) (s u : State) : Prop where
  regs : RegsOnly s u
  scalars : ∀ f, u.sreg s.cur f = if takesS xs f = true ∧ f ≠ 0 then { s.sreg s.cur f with full := false } else s.sreg s.cur f
  vectors : ∀ f, u.vreg s.cur f = if takesV xs f = true then { s.vreg s.cur f with full := false } else s.vreg s.cur f
  masks : ∀ r, (u.slotAt r).mregs = (s.slotAt r).mregs
  unseen : ∀ r f, takesS xs f = false → u.sreg r f = s.sreg r f
  run : ∀ r, (u.slotAt r).run = (s.slotAt r).run
  others : ∀ r, slotKey r ≠ slotKey s.cur → u.slotAt r = s.slotAt r
  shares : ∀ c p, p < 4 → (c, p) ≠ (s.cur.core, s.herePart) → u.cpAt c p = s.cpAt c p

theorem consumed_refl (s : State) (xs : List Src) (h1 : ∀ f, takesS xs f = false) (h2 : ∀ f, takesV xs f = false) :
    Consumed xs s s :=
  ⟨RegsOnly.refl s, fun k => by simp [h1], fun k => by simp [h2], fun _ => rfl, fun _ _ _ => rfl, fun _ => rfl,
    fun _ _ => rfl, fun _ _ _ _ => rfl⟩

theorem consumed_one (s : State) (x : Src) : Consumed [x] s (s.consume [x]) := by
  rcases x with ⟨f, m⟩ | ⟨f, m⟩ | f
  · cases m
    case consume =>
      refine ⟨modS_regsOnly .., fun k => ?_, fun k => vreg_modS .., fun r => ?_, fun r k hk => ?_, fun r => ?_, fun r hr => ?_,
        fun c p hp hne => ?_⟩
      · rw [show (s.consume [.s f .consume]) = s.modS s.cur f.val _ from rfl, sreg_modS]
        by_cases hk : k = f.val
        · subst hk; simp [takesS]
        · simp [takesS, hk, Ne.symm hk]
      · exact modS_mregs ..
      · refine sreg_modS_ne _ _ _ _ fun h => ?_
        simp [takesS, h] at hk
      · exact modS_run ..
      · exact modS_others _ _ _ _ _ hr
      · exact modS_share _ _ _ _ _ hp hne
    all_goals exact consumed_refl s _ (fun _ => by simp [takesS]) fun _ => by simp [takesV]
  · cases m
    case consume =>
      refine ⟨modV_regsOnly .., fun k => by simp [takesS]; exact sreg_modV .., fun k => ?_, fun r => ?_, fun r k _ => sreg_modV ..,
        fun r => ?_, fun r hr => ?_, fun c p _ _ => rfl⟩
      · rw [show (s.consume [.v f .consume]) = s.modV s.cur f.val _ from rfl, vreg_modV]
        by_cases hk : k = f.val
        · subst hk; simp [takesV]
        · simp [takesV, hk, Ne.symm hk]
      · exact modV_mregs ..
      · exact modV_run ..
      · exact modV_others _ _ _ _ _ hr
    all_goals exact consumed_refl s _ (fun _ => by simp [takesS]) fun _ => by simp [takesV]
  · exact consumed_refl s _ (fun _ => by simp [takesS]) fun _ => by simp [takesV]

theorem consumed (s : State) (xs : List Src) : Consumed xs s (s.consume xs) := by
  induction xs generalizing s with
  | nil => exact consumed_refl s _ (fun _ => by simp [takesS]) fun _ => by simp [takesV]
  | cons x t ih =>
    have a := consumed_one s x
    have b := ih (s.consume [x])
    rw [consume_cons]
    have hcur := a.regs.cur
    refine ⟨a.regs.trans b.regs, fun f => ?_, fun f => ?_, fun r => (b.masks r).trans (a.masks r), fun r f hf => ?_,
      fun r => (b.run r).trans (a.run r),
      fun r hr => (b.others r (by rw [hcur]; exact hr)).trans (a.others r hr), fun c p hp hne => ?_⟩
    · have h2 := b.scalars f
      rw [hcur] at h2
      rw [h2, a.scalars f]
      have e : takesS (x :: t) f = (takesS [x] f || takesS t f) := by simp [takesS]
      rw [e]
      by_cases h0 : f = 0 <;> cases takesS [x] f <;> cases takesS t f <;> simp [h0]
    · have h2 := b.vectors f
      rw [hcur] at h2
      rw [h2, a.vectors f]
      have e : takesV (x :: t) f = (takesV [x] f || takesV t f) := by simp [takesV]
      rw [e]
      cases takesV [x] f <;> cases takesV t f <;> simp
    · have e : takesS (x :: t) f = (takesS [x] f || takesS t f) := by simp [takesS]
      rw [e, Bool.or_eq_false_iff] at hf
      exact (b.unseen r f hf.2).trans (a.unseen r f hf.1)
    · refine (b.shares c p hp ?_).trans (a.shares c p hp hne)
      rw [hcur, a.regs.herePart]
      exact hne

/-- A consumed register keeps its value: sources read the same afterwards. -/
theorem Consumed.rd {xs : List Src} {s u : State} (h : Consumed xs s u) (f : SField) : u.rd f = s.rd f := by
  simp only [State.rd, h.regs.cur, h.scalars]; split <;> rfl
theorem Consumed.rdv {xs : List Src} {s u : State} (h : Consumed xs s u) (f : VField) : u.rdv f = s.rdv f := by
  simp only [State.rdv, h.regs.cur, h.vectors]; split <;> rfl
theorem Consumed.rdm {xs : List Src} {s u : State} (h : Consumed xs s u) (f : MField) : u.rdm f = s.rdm f := by
  simp only [State.rdm, here, h.regs.cur, h.masks]
theorem Consumed.hereRun {xs : List Src} {s u : State} (h : Consumed xs s u) : u.here.run = s.here.run := by
  simp only [here, h.regs.cur, h.run]
@[simp] theorem consume_rd (s : State) (xs : List Src) (f : SField) : (s.consume xs).rd f = s.rd f := (consumed s xs).rd f
@[simp] theorem consume_rdv (s : State) (xs : List Src) (f : VField) : (s.consume xs).rdv f = s.rdv f := (consumed s xs).rdv f
@[simp] theorem consume_rdm (s : State) (xs : List Src) (f : MField) : (s.consume xs).rdm f = s.rdm f := (consumed s xs).rdm f

theorem before_consume {s : State} (xs : List Src) (hr : s.here.run = .active) : Before { srcs := xs } s (s.consume xs) := by
  have h := consumed s xs
  refine Before.ofRegs h.regs hr (h.hereRun.trans hr) (fun f => ?_) (fun f => ?_) (fun f => ?_) rfl rfl rfl rfl h.unseen (fun r _ hne => ?_)
    h.shares rfl rfl
  · rw [h.scalars]
    by_cases h0 : f = 0
    · simp [sAfter, h0]
    · simp only [sAfter, h0, if_false, ne_eq, not_false_eq_true, and_true, List.contains_nil, Bool.false_eq_true]
  · rw [h.vectors]; simp [vAfter]
  · rw [h.rdm]; rfl
  · rw [h.others r hne]

/-! ### What the effect adds -/

theorem Before.hereRun {e : Effect} {s u : State} (h : Before e s u) : u.here.run = .active := by rw [h.slot]
theorem Before.pendOf {e : Effect} {s u : State} (h : Before e s u) : u.here.pend = s.here.pend ++ e.pend.toList := by rw [h.slot]
theorem Before.dies {e : Effect} {s u : State} (h : Before e s u) : u.dies = s.dies := by rw [h.rest]
theorem Before.owner {e : Effect} {s u : State} (h : Before e s u) (ha : e.also = id) (n : Nat) : u.ownerOf n = s.ownerOf n := by
  simp only [State.ownerOf, part?]; rw [h.rest, ha]; rfl
theorem Before.part {e : Effect} {s u : State} (h : Before e s u) (ha : e.also = id) : u.herePart = s.herePart := by
  simp only [State.herePart, h.cur, h.owner ha]

/-- A step that changes registers of the running slot only, and wakes, carries on what holds before retiring. -/
theorem Before.regs {e e' : Effect} {s u v : State} (h : Before e s u) (ha : e.also = id) (k : RegsOnly u v)
    (hrun : v.here.run = .active)
    (hs : ∀ f, v.sreg s.cur f = sAfter e' s f) (hv : ∀ f, v.vreg s.cur f = vAfter e' s f)
    (hu : ∀ r f, slotKey r ≠ slotKey s.cur → e'.awaits.contains (.s f) = false →
      v.sreg r f = { u.sreg r f with await := (v.sreg r f).await })
    (hsub : ∀ f, e'.awaits.contains (.s f) = false → e.awaits.contains (.s f) = false)
    (ho : ∀ r, slotKey r ≠ slotKey s.cur → v.slotAt r = u.slotAt r)
    (hmr : (v.slotAt u.cur).mregs = (u.slotAt u.cur).mregs)
    (hc : ∀ c p, p < 4 → (c, p) ≠ (s.cur.core, s.herePart) → v.cpAt c p = u.cpAt c p)
    (hsrc : e'.srcs = e.srcs) (hwm : e'.wm = e.wm) (hslot : e'.slot = e.slot) (hfl : e'.fl = e.fl) (hp : e'.pend = e.pend) (ha' : e'.also = e.also) (hn : e'.numbered = e.numbered) :
    Before e' s v where
  cur := k.cur.trans h.cur
  scalars := hs
  vectors := hv
  masks f := by
    have : v.rdm f = u.rdm f := by simp only [rdm, here, k.cur, hmr]
    rw [this, h.masks, mAfter, mAfter, hwm]
  parities := by rw [k.here, pAfter, hwm]; exact h.parities
  unseen r f h1 h2 h3 h4 := by
    rw [hu r f h2 h4, h.unseen r f h1 h2 (hsrc ▸ h3) (hsub f h4)]
  slot := by
    rw [k.here, h.slot, hrun, hslot, hfl, hp]
  others r h1 h2 := (ho r h2).trans (h.others r h1 h2)
  shares c p hlt := by
    refine ⟨?_, fun hne => (hc c p hlt hne).trans ((h.shares c p hlt).2 hne)⟩
    have a := k.share c p
    rw [(h.shares c p hlt).1] at a
    exact a
  rest := by
    have a := k.rest
    rw [h.rest, ha] at a
    rw [ha', ha, hn]
    exact a

/-- Writing scalar register d whole, with a mark, before retiring. -/
theorem Before.put {e : Effect} {s u : State} (h : Before e s u) (d : SField) (x : Word) (hw : e.ws = none) (hg : e.gives = none)
    (haw : e.awaits = []) (ha : e.also = id) : Before { e with ws := some (d, x) } s (u.wr d x) := by
  have hcur := h.cur
  have a : RegsOnly u (u.wr d x) := putReg_regsOnly ..
  refine h.regs ha a ?_ (fun f => ?_) (fun f => (vreg_putReg ..).trans (h.vectors f)) (fun r f hr _ => ?_) (fun _ hf => hf)
    (fun r hr => putReg_others _ _ _ _ _ (by rw [hcur]; exact hr)) ?_ (fun c p hlt hne => ?_) rfl rfl rfl rfl rfl rfl rfl
  · rw [here, a.cur, State.wr, wrAt, putReg_slotAt]; exact h.hereRun
  · rw [State.wr, wrAt, ← hcur, sreg_putReg, hcur, h.scalars]
    by_cases h0 : f = 0
    · subst h0
      by_cases hd : 0 = d.val
      · simp [sAfter, ← hd]
      · simp [sAfter, hd]
    · by_cases hf : f = d.val
      · subst hf; simp [sAfter, haw, hg, h0]
      · simp [sAfter, haw, hw, hg, h0, hf, Ne.symm hf]
  · exact sreg_putReg_other u u.cur r d.val f _ (by rw [hcur]; exact hr)
  · rw [State.wr, wrAt, putReg_slotAt]
  · exact putReg_share _ _ _ _ _ hlt (by rw [hcur, h.part ha]; exact hne)

/-- Writing a vector register before retiring. -/
theorem Before.wrv {e : Effect} {s u : State} (h : Before e s u) (d : VField) (x : VWord) (haw : e.awaits = []) (ha : e.also = id) :
    Before { e with wv := (d, x) :: e.wv } s (u.wrv d x) := by
  have hcur := h.cur
  have a : RegsOnly u (u.wrv d x) := modV_regsOnly ..
  refine h.regs ha a ?_ (fun f => (sreg_modV ..).trans ((h.scalars f).trans rfl)) (fun f => ?_)
    (fun r f _ _ => by rw [show (u.wrv d x).sreg r f = u.sreg r f from sreg_modV ..]) (fun _ hf => hf)
    (fun r hr => modV_others _ _ _ _ _ (by rw [hcur]; exact hr)) (modV_mregs ..)
    (fun _ _ _ _ => rfl) rfl rfl rfl rfl rfl rfl rfl
  · rw [here, a.cur]; exact (modV_run ..).trans h.hereRun
  · rw [State.wrv, ← hcur, vreg_modV, hcur, h.vectors]
    by_cases hf : f = d.val
    · subst hf; simp [vAfter, haw]
    · simp [vAfter, haw, hf, Ne.symm hf]

theorem sreg_modHere_other (u : State) (r : SlotRef) (k : Nat) (f : Slot → Slot) (h : slotKey r ≠ slotKey u.cur) :
    (u.modHere f).sreg r k = u.sreg r k := by
  unfold sreg
  split
  · rfl
  · split
    · rw [modHere_eq, modSlot_slotAt, if_neg h]
    · rfl

/-- A change of the running slot alone that leaves its registers, carries on what holds before retiring. -/
theorem Before.slotStep {e e' : Effect} {s u : State} (h : Before e s u) (f : Slot → Slot)
    (hs : (f u.here).sregs = u.here.sregs) (hv : (f u.here).vregs = u.here.vregs) (hm : (f u.here).mregs = u.here.mregs)
    (hpar : (f u.here).mparity = u.here.mparity)
    (hslot : f u.here = { (e'.slot s.here) with
      sregs := u.here.sregs, vregs := u.here.vregs, mregs := u.here.mregs, mparity := u.here.mparity
      fflags := s.here.fflags ||| e'.fl, pend := s.here.pend ++ e'.pend.toList, turns := s.here.turns, interval := s.here.interval
      walkFault := s.here.walkFault, lc := s.here.lc, pc := s.here.pc, run := .active })
    (h1 : ∀ k, sAfter e' s k = sAfter e s k) (h2 : ∀ k, vAfter e' s k = vAfter e s k) (h3 : ∀ k, mAfter e' s k = mAfter e s k)
    (h4 : e'.srcs = e.srcs ∧ e'.wm = e.wm ∧ e'.awaits = e.awaits) (ha : e'.also = e.also) (hn : e'.numbered = e.numbered) :
    Before e' s (u.modHere f) where
  cur := h.cur
  scalars k := by
    have : (u.modHere f).sreg s.cur k = u.sreg s.cur k := by
      unfold sreg
      split
      · rfl
      · split
        · rw [← h.cur, modHere_eq, modSlot_slotAt_same, ← here, hs]
        · rfl
    rw [this, h.scalars, h1]
  vectors k := by
    have : (u.modHere f).vreg s.cur k = u.vreg s.cur k := by
      unfold vreg
      rw [← h.cur, modHere_eq, modSlot_slotAt_same, ← here, hv]
    rw [this, h.vectors, h2]
  masks k := by
    have : (u.modHere f).rdm k = u.rdm k := by
      unfold rdm
      rw [modHere_here, hm]
    rw [this, h.masks, h3]
  parities := by rw [modHere_here, hpar, h.parities, pAfter, pAfter, h4.2.1]
  unseen r k hr hne ht haw := by
    rw [sreg_modHere_other _ _ _ _ (by rw [h.cur]; exact hne)]
    exact h.unseen r k hr hne (h4.1 ▸ ht) (h4.2.2 ▸ haw)
  slot := by
    rw [modHere_here, hslot]
  others r hr hne := by
    rw [modHere_eq, modSlot_slotAt, if_neg (by rw [h.cur]; exact hne), h.others r hr hne]
  shares := h.shares
  rest := by
    rw [ha, hn]
    have := h.rest
    rw [modHere, modSlot]
    rw [this]

theorem Before.raise {e : Effect} {s u : State} (h : Before e s u) (fl : Fl) (h0 : e.fl = 0) :
    Before { e with fl := fl } s (u.raise fl) := by
  refine h.slotStep _ rfl rfl rfl rfl ?_ (fun _ => rfl) (fun _ => rfl) (fun _ => rfl) ⟨rfl, rfl, rfl⟩ rfl rfl
  rw [h.slot, h0]
  simp

theorem Before.wrm {e : Effect} {s u : State} (h : Before e s u) (d : MField) (x : MWord) (hw : e.wm = none) :
    Before { e with wm := some (d, x) } s (u.wrm d x) := by
  have hp := h.parities
  simp only [pAfter, hw] at hp
  unfold State.wrm
  split
  · next h0 =>
    refine ⟨h.cur, h.scalars, h.vectors, fun f => ?_, by simp only [pAfter, h0, if_true]; exact hp, h.unseen, h.slot, h.others,
      h.shares, h.rest⟩
    rw [h.masks]
    simp only [mAfter, hw]
    split
    · next hh => rw [← hh.1] at hh; exact absurd h0 hh.2
    · rfl
  · next h0 =>
    have hcur := h.cur
    refine ⟨hcur, fun k => ?_, fun k => ?_, fun f => ?_, ?_, fun r k hr hne ht haw => ?_, ?_, fun r hr hne => ?_, h.shares, ?_⟩
    · rw [← hcur]
      refine Eq.trans ?_ (hcur ▸ h.scalars k)
      unfold sreg
      split
      · rfl
      · split
        · rw [modHere_eq, modSlot_slotAt_same]
        · rfl
    · refine Eq.trans ?_ (h.vectors k)
      unfold vreg
      rw [← hcur, modHere_eq, modSlot_slotAt_same]
    · have hm := h.masks f
      simp only [mAfter, hw] at hm
      simp only [mAfter]
      by_cases hf : d = f
      · subst hf
        simp [rdm, h0]
      · have : ¬ f.val = d.val := fun hh => hf (Fin.ext hh.symm)
        simp only [rdm, modHere_here, Sparse.get_set, this, hf, if_false, false_and]
        simpa only [rdm] using hm
    · rw [modHere_here]
      simp only [pAfter, h0, if_false, hp]
    · rw [sreg_modHere_other _ _ _ _ (by rw [hcur]; exact hne)]
      exact h.unseen r k hr hne ht haw
    · rw [modHere_here, h.slot]
    · rw [modHere_eq, modSlot_slotAt, if_neg (by rw [hcur]; exact hne), h.others r hr hne]
    · rw [modHere, modSlot]
      rw [h.rest]

theorem Before.await {e : Effect} {s u : State} (h : Before e s u) (d : Dest) (ha : e.also = id) :
    Before { e with awaits := e.awaits ++ [d] } s (u.await u.cur d s.nextId) := by
  have hcur := h.cur
  have a : RegsOnly u (u.await u.cur d s.nextId) := await_regsOnly ..
  refine h.regs ha a ?_ (fun k => ?_) (fun k => ?_) (fun r k _ hk => ?_) (fun k hk => ?_)
    (fun r hr => await_others _ _ _ _ _ (by rw [hcur]; exact hr)) ?_ (fun c p hlt hne => ?_) rfl rfl rfl rfl rfl rfl rfl
  · rw [here, a.cur, await_slotAt]; exact h.hereRun
  · have h0 := h.scalars k
    rw [← hcur] at h0 ⊢
    cases d with
    | none => refine h0.trans ?_; simp [sAfter]
    | v f => rw [sreg_await_v, h0]; simp [sAfter]
    | s f =>
      rw [sreg_await]
      by_cases hk : k = f
      · subst hk
        by_cases hz : k = 0
        · rw [if_neg (by simp [hz]), h0]; simp [sAfter, hz]
        · rw [h0]
          simp only [hz, ne_eq, not_false_eq_true, and_self, if_true, sAfter, if_false, List.contains_append, List.contains_cons,
            BEq.rfl, Bool.true_or, Bool.or_true]
          split <;> rfl
      · rw [if_neg (by simp [hk]), h0]; simp [sAfter, hk]
  · have h0 := h.vectors k
    rw [← hcur] at h0 ⊢
    cases d with
    | none => refine h0.trans ?_; simp [vAfter]
    | s f => rw [vreg_await_s, h0]; simp [vAfter]
    | v f =>
      rw [vreg_await, h0]
      by_cases hk : k = f
      · subst hk
        rw [h0]
        simp only [vAfter, List.contains_append, List.contains_cons, BEq.rfl, Bool.true_or, Bool.or_true, if_true]
        split <;> rfl
      · simp [vAfter, hk]
  · cases d with
    | none => rfl
    | v f => rw [sreg_await_v]
    | s f =>
      rw [sreg_await_ne]
      rintro rfl
      simp at hk
  · simp only [List.contains_append, Bool.or_eq_false_iff] at hk
    exact hk.1
  · rw [await_slotAt]
  · exact await_share _ _ _ _ _ hlt (by rw [hcur, h.part ha]; exact hne)

theorem Before.number {e : Effect} {s u : State} (h : Before e s u) (hn : e.numbered = false) :
    u.fresh = (s.nextId, u.fresh.2) ∧ Before { e with numbered := true } s u.fresh.2 := by
  have hid : u.nextId = s.nextId := by rw [h.rest, hn]; rfl
  refine ⟨by simp [fresh, hid], ⟨h.cur, h.scalars, h.vectors, h.masks, h.parities, h.unseen, h.slot, h.others, h.shares, ?_⟩⟩
  have := h.rest
  rw [hn] at this
  simp only [fresh, hid]
  rw [this]
  rfl

theorem Before.sent {e : Effect} {s u : State} (h : Before e s u) (q : Pend) (hp : e.pend = none) :
    Before { e with pend := some q } s (u.modHere fun sl => { sl with pend := sl.pend ++ [q] }) := by
  refine h.slotStep _ rfl rfl rfl rfl ?_ (fun _ => rfl) (fun _ => rfl) (fun _ => rfl) ⟨rfl, rfl, rfl⟩ rfl rfl
  rw [h.slot, hp]
  simp

/-- Issuing an outstanding operation. -/
theorem Before.launchPol {e : Effect} {s u : State} (h : Before e s u) (pol : Nat) (k : OpKind) (d : Dest) (rel acq : Option Scope)
    (mq : Bool) (va : Word) (ha : e.also = id) (hn : e.numbered = false) (hp : e.pend = none) :
    (u.launchPol pol k d rel acq mq va).1 = s.nextId ∧
    Before { e with awaits := e.awaits ++ [d], numbered := true, pend := some ⟨s.nextId, k, d, rel, acq, mq, false, none, va, pol, [], false, none⟩ } s
      (u.launchPol pol k d rel acq mq va).2 := by
  obtain ⟨h1, h2⟩ := h.number hn
  have e1 : u.launchPol pol k d rel acq mq va = (s.nextId, (u.fresh.2.await u.fresh.2.cur d s.nextId).modHere fun sl =>
      { sl with pend := sl.pend ++ [⟨s.nextId, k, d, rel, acq, mq, false, none, va, pol, [], false, none⟩] }) := by
    unfold State.launchPol
    rw [h1]
  rw [e1]
  exact ⟨rfl, (h2.await d ha).sent _ hp⟩
theorem Before.launch {e : Effect} {s u : State} (h : Before e s u) (k : OpKind) (d : Dest) (rel acq : Option Scope) (mq : Bool)
    (va : Word) (ha : e.also = id) (hn : e.numbered = false) (hp : e.pend = none) :
    (u.launchOp k d rel acq mq va).1 = s.nextId ∧
    Before { e with awaits := e.awaits ++ [d], numbered := true, pend := some ⟨s.nextId, k, d, rel, acq, mq, false, none, va, 0, [], false, none⟩ } s
      (u.launchOp k d rel acq mq va).2 := h.launchPol 0 k d rel acq mq va ha hn hp

/-- What goes on in a part of the package that is no slot, no core's share and no die. -/
theorem Before.andAlso {e : Effect} {s u v : State} (h : Before e s u) (g : State → State)
    (hcur : v.cur = u.cur) (hs : v.slots = u.slots) (hc : v.coreParts = u.coreParts) (ho : ∀ n, v.ownerOf n = u.ownerOf n)
    (hr : v = { (g s) with
      slots := u.slots, coreParts := u.coreParts, dies := s.dies, nextId := if e.numbered then s.nextId + 1 else s.nextId }) :
    Before { e with also := g } s v where
  cur := hcur.trans h.cur
  scalars f := by
    rw [sreg, slotAt, cpAt, State.partOf, hs, hc, ho]; exact h.scalars f
  vectors f := by rw [vreg, slotAt, hs]; exact h.vectors f
  masks f := by rw [rdm, here, slotAt, hs, hcur]; exact h.masks f
  parities := by
    have : v.here = u.here := by simp only [here, slotAt, hs, hcur]
    rw [this]; exact h.parities
  unseen r f h1 h2 h3 h4 := by
    have : v.sreg r f = u.sreg r f := by rw [sreg, slotAt, cpAt, State.partOf, hs, hc, ho]; rfl
    rw [this]; exact h.unseen r f h1 h2 h3 h4
  slot := by
    have : v.here = u.here := by simp only [here, slotAt, hs, hcur]
    rw [this]; exact h.slot
  others r h1 h2 := by rw [slotAt, hs]; exact h.others r h1 h2
  shares c p hp := by rw [cpAt, hc]; exact h.shares c p hp
  rest := by rw [hr]

/-! ### Retiring and parking -/

theorem advance_regs (s : State) (r : SlotRef) (n : Nat) :
    (s.advance r n).slotAt r = { s.slotAt r with
      lc := ((s.advance r n).slotAt r).lc, pc := ((s.advance r n).slotAt r).pc, run := ((s.advance r n).slotAt r).run } := by
  unfold advance
  rw [modSlot_slotAt_same]
  by_cases h : (s.slotAt r).lc ≠ 0 ∧ (s.slotAt r).pc + BitVec.ofNat 64 n = (s.slotAt r).le ∧ (s.slotAt r).mode.priv = (s.slotAt r).loopMode
  · by_cases h2 : 2 ≤ (s.slotAt r).lc.toNat <;> simp only [h, h2, ne_eq, not_false_eq_true, and_self, if_true, if_false]
  · simp only [h, if_false]

theorem advance_follows (s : State) (r : SlotRef) (n : Nat) : Follows (s.slotAt r) ((s.advance r n).slotAt r) n := by
  unfold advance Follows
  rw [modSlot_slotAt_same]
  simp only [ne_eq]
  split
  · next h =>
    obtain ⟨h1, h2, h3⟩ := h
    by_cases hl : (s.slotAt r).lc = 1
    · simp [hl, h2]
    · have : 2 ≤ (s.slotAt r).lc.toNat := by
        have a : (s.slotAt r).lc.toNat ≠ 0 := fun hh => h1 (BitVec.eq_of_toNat_eq (by simpa using hh))
        have b : (s.slotAt r).lc.toNat ≠ 1 := fun hh => hl (BitVec.eq_of_toNat_eq (by simpa using hh))
        omega
      simp only [this, if_true, h2, h3]
      rw [if_neg hl]; simp
  · exact ⟨rfl, rfl, rfl⟩

/-- The instruction has used its turn: the slot's own record of it, and its die's. -/
theorem used_here (u : State) (n : Nat) : (u.used n).here =
    { u.here with turns := u.here.turns + 1, interval := some (u.cycleOf u.cur.core + n), walkFault := none, walked := [] } := by
  unfold used; simp [modHere, here]

theorem completed {e : Effect} {s u t : State} (h : Before e s u) (hg : e.gives = none) (n : Nat) (hn : e.n = n)
    (hslot : t.here = { (u.used n).here with lc := t.here.lc, pc := t.here.pc, run := t.here.run })
    (hoth : ∀ r, slotKey r ≠ slotKey s.cur → t.slotAt r = u.slotAt r)
    (hrest : t = { (u.used n) with slots := t.slots })
    (hgo : match e.park with
      | some w => t.here.lc = s.here.lc ∧ t.here.pc = s.here.pc ∧ t.here.run = .parked w
      | none => Follows s.here t.here e.len) : Completed e s t := by
  have hcur : t.cur = s.cur := by rw [hrest]; exact h.cur
  have hcp : t.coreParts = u.coreParts := by rw [hrest]; rfl
  have hparts : t.parts = u.parts := by rw [hrest]; rfl
  have how : ∀ k, t.ownerOf k = u.ownerOf k := fun k => by simp only [State.ownerOf, part?, hparts]
  have hus := used_here u n
  have hh : t.slotAt s.cur = t.here := by rw [here, hcur]
  have hhu : u.slotAt s.cur = u.here := by rw [here, h.cur]
  refine ⟨⟨fun f => ?_, fun f => ?_, fun f => ?_, ?_, fun r f h1 h2 h3 h4 _ => ?_, fun _ _ _ hv => by simp [hg] at hv, ?_, hgo,
    fun r hr hne => .inl ⟨(hoth r hne).trans (h.others r hr hne), fun _ _ hv => by simp [hg] at hv⟩, fun c p hp => ?_⟩, fun d => ?_, ?_⟩
  · rw [← h.scalars f]
    unfold sreg
    split
    · rfl
    · split
      · rw [hh, hhu, hslot, hus]
      · rw [cpAt, cpAt, hcp, State.partOf, State.partOf, how]
  · rw [← h.vectors f, vreg, vreg, hh, hhu, hslot, hus]
  · rw [← h.masks f, rdm, rdm, hslot, hus]
  · rw [← h.parities, hslot, hus]
  · have : t.sreg r f = u.sreg r f := by
      unfold sreg
      split
      · rfl
      · split
        · rw [hoth r h2]
        · rw [cpAt, cpAt, hcp, State.partOf, State.partOf, how]
    rw [this]; exact h.unseen r f h1 h2 h3 h4
  · rw [hslot, hus, h.slot, hn]
    simp only [State.cycleOf, dieAt, h.dies, h.cur]
  · rw [cpAt, hcp]; exact h.shares c p hp
  · have e1 : t.dieAt d = (u.used n).dieAt d := by rw [hrest]; rfl
    have e2 : (u.used n).dieAt d = if d = coreDie u.cur.core then { u.dieAt d with lastIssue := u.cycleOf u.cur.core } else u.dieAt d := by
      unfold used
      rw [modDie_dieAt]
      simp only [modHere_eq, modSlot_dieAt]
      split
      · next hd => rw [hd]
      · rfl
    rw [e1, e2, h.cur]
    simp only [State.cycleOf, dieAt, h.dies]
  · have e1 : (u.used n) = { u with slots := (u.used n).slots, dies := (u.used n).dies } := rfl
    rw [hrest, e1, h.rest]

theorem Before.retire {e : Effect} {s u : State} (h : Before e s u) (hg : e.gives = none) (n len : Nat) (hn : e.n = n) (hl : e.len = len)
    (hp : e.park = none)
    (hm : (e.slot s.here).mode = s.here.mode ∧ (e.slot s.here).le = s.here.le ∧ (e.slot s.here).ls = s.here.ls
      ∧ (e.slot s.here).loopMode = s.here.loopMode) : Completed e s (u.retire n len) := by
  have hcur := h.cur
  have hc : (u.used n).cur = u.cur := rfl
  have hc2 : (u.retire n len).here = ((u.used n).advance u.cur len).slotAt u.cur := rfl
  have hus := used_here u n
  refine completed h hg n hn ?_ (fun r hr => ?_) rfl ?_
  · rw [hc2, advance_regs]
    rfl
  · show ((u.used n).advance u.cur len).slotAt r = _
    unfold advance
    rw [modSlot_slotAt, if_neg (by rw [hcur]; exact hr)]
    show ((u.modHere _).modDie _ _).slotAt r = _
    rw [modDie_slotAt, modHere_eq, modSlot_slotAt, if_neg (by rw [hcur]; exact hr)]
  · rw [hp, hc2, hl]
    have := advance_follows (u.used n) u.cur len
    have e1 : (u.used n).slotAt u.cur = (u.used n).here := rfl
    rw [e1, hus, h.slot] at this
    unfold Follows at this ⊢
    simpa only [hm.1, hm.2.1, hm.2.2.1, hm.2.2.2] using this

theorem Before.park {e : Effect} {s u : State} (h : Before e s u) (hg : e.gives = none) (w : Wait) (hn : e.n = 8) (hp : e.park = some w)
    (hc : NoCancel s) (hm : (e.slot s.here).mode = s.here.mode) : Completed e s (u.parkOn w) := by
  have hcur := h.cur
  have hus := used_here u 8
  have e1 : u.parkOn w = (u.used 8).modHere fun sl => { sl with run := .parked w } := by
    unfold parkOn
    have e2 : ((u.used 8).modHere fun sl => { sl with run := .parked w }).here.mode = s.here.mode := by
      rw [modHere_here, hus, h.slot]; exact hm
    simp only [e2]
    rcases hc with hc | hc <;> simp [hc]
  rw [e1]
  refine completed h hg 8 hn ?_ (fun r hr => ?_) rfl ?_
  · rw [modHere_here]
  · rw [modHere_eq, modSlot_slotAt, if_neg (by show _ ≠ slotKey u.cur; rw [hcur]; exact hr)]
    show ((u.modHere _).modDie _ _).slotAt r = _
    rw [modDie_slotAt, modHere_eq, modSlot_slotAt, if_neg (by rw [hcur]; exact hr)]
  · rw [hp, modHere_here, hus, h.slot]
    exact ⟨rfl, rfl, rfl⟩

end Sys2Proof.Claims
end

