-- ==== Sys2Proof/Laws/Issue.lean ====
section
/-! SUPPORT. The checks of issue, said once: when an instruction goes on to its effect, parks, traps or stalls (R79, R88,
R312, R326). -/
namespace Sys2Proof.Claims
open Sys2Proof Sys2Proof.Machine Sys2Proof.Machine.State

theorem usable_noPark {xs : List Src} {s : State} (h : ∀ x ∈ xs, Usable s x) : s.mustPark xs = false := by
  rw [mustPark, List.any_eq_false]
  intro x hx
  rcases h x hx with h | h
  · simp [srcWaits, h]
  · simp [h.1]

theorem usable_noTrap {xs : List Src} {s : State} (h : ∀ x ∈ xs, Usable s x) : s.markTrap xs = none := by
  have a : (xs.find? fun x => srcWaits x && (s.srcMark x == .poisoned || s.srcParity x)) = none := by
    rw [List.find?_eq_none]
    intro x hx
    rcases h x hx with h | ⟨_, h2, h3, _⟩
    · simp [srcWaits, h]
    · simp [h2, h3]
  unfold markTrap
  rw [a]
  simp only
  split
  · next ht =>
    have b : (xs.find? fun x => srcWaits x && s.srcMark x == .faulted) = none := by
      rw [List.find?_eq_none]
      intro x hx
      rcases h x hx with h | ⟨_, _, _, h4⟩
      · simp [srcWaits, h]
      · simp only [Bool.and_eq_true, beq_iff_eq, not_and]
        intro _ h5
        rw [h4 h5] at ht
        cases ht
    rw [b]; rfl
  · rfl

/-- An instruction whose sources are usable, which may run in the slot's mode and whose check passes, acts. -/
theorem issueP_acts {xs : List Src} {s : State} (h : CanIssue xs s) {w : Option Word} (hw : w = none ∨ s.here.mode.priv = true)
    {chk : State → Chk} (hc : chk s = .ok) (body : State → State) : s.issueP w xs chk body = body (s.consume xs) := by
  have g : issueP.go xs chk body s = body (s.consume xs) := by
    rw [issueP.go, usable_noPark h.2, usable_noTrap h.2, hc]; rfl
  unfold issueP
  rw [h.1]
  rcases hw with rfl | hw
  · exact g
  · cases w with
    | none => exact g
    | some w => simp only [hw, if_true]; exact g
theorem issue_acts {xs : List Src} {s : State} (h : CanIssue xs s) (body : State → State) :
    s.issue xs body = body (s.consume xs) := issueP_acts h (.inl rfl) rfl body

/-- A privileged instruction in user mode takes cause 5 (R89). -/
theorem issueP_user {xs : List Src} {s : State} (hr : s.here.run = .active) (hu : s.here.mode.priv = false) (w : Word)
    (chk : State → Chk) (body : State → State) : s.issueP (some w) xs chk body = s.trap 5 w := by
  unfold issueP; rw [hr]; simp [hu]

/-- With usable sources a failed check traps. -/
theorem issueP_traps {xs : List Src} {s : State} (h : CanIssue xs s) {w : Option Word} (hw : w = none ∨ s.here.mode.priv = true)
    {chk : State → Chk} {c : BitVec 8} {v : Word} (hc : chk s = .trap c v) (body : State → State) :
    s.issueP w xs chk body = s.trap c v := by
  have g : issueP.go xs chk body s = s.trap c v := by
    rw [issueP.go, usable_noPark h.2, usable_noTrap h.2, hc]; rfl
  unfold issueP
  rw [h.1]
  rcases hw with rfl | hw
  · exact g
  · cases w with
    | none => exact g
    | some w => simp only [hw, if_true]; exact g

/-- A slot that is not Active does nothing. -/
theorem issueP_idle {xs : List Src} {s : State} (h : s.here.run ≠ .active) (w : Option Word) (chk : State → Chk)
    (body : State → State) : s.issueP w xs chk body = s := by
  unfold issueP
  split
  · next h2 => exact absurd h2 h
  · rfl

/-! ### The common shapes -/

/-- A scalar result. -/
theorem completes_wr {s : State} {xs : List Src} (h : CanIssue xs s) (d : SField) (v : Word) (n len : Nat) :
    Completed { srcs := xs, ws := some (d, v), n := n, len := len } s (((s.consume xs).wr d v).retire n len) :=
  Before.retire ((before_consume xs h.1).put d v rfl rfl rfl rfl |> fun b =>
    (⟨b.cur, b.scalars, b.vectors, b.masks, b.parities, b.unseen, b.slot, b.others, b.shares, b.rest⟩ :
      Before { srcs := xs, ws := some (d, v), n := n, len := len } s _)) rfl n len rfl rfl rfl ⟨rfl, rfl, rfl, rfl⟩

/-! ### Events -/

/-- An operation that may be sent is given to its unit, its release done. -/
theorem whenSent_acts {s : State} {o : OpRef} {q : Pend} (h : Sendable s o q) (act : Pend → State → State) :
    s.whenSent o act = act q (sent s o q) := by
  obtain ⟨h1, h2, h3, h4, h5, h6⟩ := h
  unfold whenSent
  rw [h1]
  simp [h2, h3, h4, h5, h6]

/-- A release that is not met sends the die's dirty bytes and nothing else. -/
theorem whenSent_pushes {s : State} {o : OpRef} {q : Pend} (h1 : s.pendAt o = some q) (h2 : q.res = none)
    (h3 : q.arrived = false) (h4 : s.mayGo o = true) (h6 : s.opLive o q.kind = true)
    (h5 : s.releaseMet (coreDie o.core) q.rel (decide (q.kind = .fence 3)) = false) (act : Pend → State → State) :
    s.whenSent o act = s.pushAll (coreDie o.core) := by
  unfold whenSent
  rw [h1]
  simp [h2, h3, h4, h5, h6]

end Sys2Proof.Claims
end

