-- ==== Sys2Proof/Laws/Memory.lean ====
section
/-! SUPPORT. HBM: a read after a write, and that every operation on it keeps its canonical form (log 5). -/
namespace Sys2Proof.Machine

/-- The canonical form said of the list as a whole. -/
theorem Memory.wf_iff (m : Memory) : m.wf = true ↔ (∀ c ∈ m, c.2 ≠ Memory.fill) ∧ m.Pairwise fun a b => a.1 < b.1 := by
  induction m with
  | nil => simp [Memory.wf]
  | cons a t ih =>
    cases t with
    | nil => simp [Memory.wf]
    | cons b t =>
      simp only [Memory.wf, Bool.and_eq_true, bne_iff_ne, ne_eq, decide_eq_true_eq, ih, List.pairwise_cons, List.mem_cons,
        forall_eq_or_imp]
      constructor
      · rintro ⟨⟨h1, h2⟩, ⟨h3, h4⟩, h5, h6⟩
        exact ⟨⟨h1, h3, h4⟩, ⟨h2, fun c hc => Nat.lt_trans h2 (h5 c hc)⟩, h5, h6⟩
      · rintro ⟨⟨h1, h3, h4⟩, ⟨h2, _⟩, h5, h6⟩
        exact ⟨⟨h1, h2⟩, ⟨h3, h4⟩, h5, h6⟩

theorem Memory.mem_ins {k : Nat} {v : Byte} {m : Memory} {c : Host.Cell} : c ∈ Memory.ins k v m ↔ c = (k, v) ∨ c ∈ m := by
  induction m with
  | nil => simp [Memory.ins]
  | cons a t ih =>
    simp only [Memory.ins]
    split
    · simp
    · simp only [List.mem_cons, ih]
      constructor
      · rintro (h | h | h) <;> simp [h]
      · rintro (h | h | h) <;> simp [h]

theorem Memory.ins_wf {k : Nat} {v : Byte} {m : Memory} (hv : v ≠ Memory.fill) (hk : ∀ c ∈ m, c.1 ≠ k) (h : m.wf = true) :
    (Memory.ins k v m).wf = true := by
  rw [Memory.wf_iff] at h ⊢
  obtain ⟨h1, h2⟩ := h
  refine ⟨fun c hc => ?_, ?_⟩
  · rcases Memory.mem_ins.1 hc with rfl | hc
    · exact hv
    · exact h1 c hc
  · induction m with
    | nil => simp [Memory.ins]
    | cons a t ih =>
      have h2' := List.pairwise_cons.1 h2
      simp only [Memory.ins]
      split
      · next hlt =>
        refine List.pairwise_cons.2 ⟨fun c hc => ?_, h2⟩
        rcases List.mem_cons.1 hc with rfl | hc
        · exact hlt
        · exact Nat.lt_trans hlt (h2'.1 c hc)
      · next hlt =>
        refine List.pairwise_cons.2 ⟨fun c hc => ?_, ih (fun c hc => hk c (by simp [hc])) (fun c hc => h1 c (by simp [hc])) h2'.2⟩
        rcases Memory.mem_ins.1 hc with rfl | hc
        · have := hk a (by simp)
          show a.1 < k
          omega
        · exact h2'.1 c hc

theorem Memory.del_wf {k : Nat} {m : Memory} (h : m.wf = true) : (Memory.del k m).wf = true := by
  rw [Memory.wf_iff] at h ⊢
  exact ⟨fun c hc => h.1 c (List.mem_filter.1 hc).1, h.2.filter _⟩

/-- A write keeps the canonical form. -/
theorem Memory.set_wf {m : Memory} (k : Nat) (v : Byte) (h : m.wf = true) : (m.set k v).wf = true := by
  unfold Memory.set
  split
  · exact Memory.del_wf h
  · next hv =>
    refine Memory.ins_wf hv (fun c hc => ?_) (Memory.del_wf h)
    have := (List.mem_filter.1 hc).2
    simpa using this

theorem Memory.get_ins {k : Nat} {v : Byte} {m : Memory} (hk : ∀ c ∈ m, c.1 ≠ k) (a : Nat) :
    (Memory.ins k v m).get a = if a = k then v else m.get a := by
  induction m with
  | nil => simp [Memory.ins, Memory.get, eq_comm]
  | cons c t ih =>
    have hc : c.1 ≠ k := hk c (by simp)
    obtain ⟨c1, c2⟩ := c
    simp only [Memory.ins]
    split
    · simp only [Memory.get, eq_comm]
    · simp only [Memory.get, ih fun c hc => hk c (by simp [hc])]
      split
      · next h => subst h; rw [if_neg (fun h => hc h)]
      · rfl

theorem Memory.get_del (k : Nat) (m : Memory) (a : Nat) : (Memory.del k m).get a = if a = k then Memory.fill else m.get a := by
  induction m with
  | nil => simp [Memory.del, Memory.get]
  | cons c t ih =>
    obtain ⟨c1, c2⟩ := c
    unfold Memory.del at ih ⊢
    rw [List.filter_cons]
    by_cases h : c1 = k
    · subst h
      simp only [bne_self_eq_false, Bool.false_eq_true, if_false, ih, Memory.get]
      by_cases ha : a = c1
      · simp [ha]
      · simp [ha, Ne.symm ha]
    · have : (c1 != k) = true := by simpa using h
      simp only [this, if_true, Memory.get, ih]
      by_cases ha : c1 = a
      · subst ha; simp [h]
      · simp [ha]

/-- A read after a write. -/
theorem Memory.get_set (m : Memory) (k : Nat) (v : Byte) (a : Nat) : (m.set k v).get a = if a = k then v else m.get a := by
  unfold Memory.set
  split
  · next h => rw [Memory.get_del, h]
  · rw [Memory.get_ins, Memory.get_del]
    · split <;> rfl
    · intro c hc
      simpa using (List.mem_filter.1 hc).2

theorem Memory.fold_wf {α : Type} (l : List α) (k : α → Nat) (v : α → Byte) {m : Memory} (h : m.wf = true) :
    (l.foldl (fun m x => Memory.set m (k x) (v x)) m).wf = true := by
  induction l generalizing m with
  | nil => exact h
  | cons a t ih => exact ih (Memory.set_wf _ _ h)

namespace State

/-- Device writes keep HBM canonical. -/
theorem devWrites_wf (s : State) (p pa : Nat) (bs : List Byte) (h : s.hbm.wf = true) : (s.devWrites p pa bs).hbm.wf = true := by
  induction bs generalizing s pa with
  | nil => exact h
  | cons b t ih => exact ih _ _ (Memory.set_wf _ _ h)

/-- Nothing but HBM, its marks and the home caches changes by a write of the device. -/
theorem devWrites_rest (p : Nat) (bs : List Byte) : ∀ (s : State) (pa : Nat), s.devWrites p pa bs = { s with
    hbm := (s.devWrites p pa bs).hbm, hbmBy := (s.devWrites p pa bs).hbmBy, l2 := (s.devWrites p pa bs).l2 } := by
  induction bs with
  | nil => intro s pa; rfl
  | cons b t ih => intro s pa; rw [State.devWrites, ih]

/-- Keys differ with their numbers. -/
theorem lineKey_inj {x y t u h g : Nat} (ht : t < 8) (hu : u < 8) (hh : h < 4) (hg : g < 4) (e : lineKey x t h = lineKey y u g) :
    x = y ∧ t = u ∧ h = g := by
  unfold lineKey at e
  omega

@[simp] theorem keyNum_lineKey (x : Nat) {t h : Nat} (ht : t < 8) (hh : h < 4) : keyNum (lineKey x t h) = x := by
  simp only [keyNum, lineKey]; omega
@[simp] theorem keyTag_lineKey (x : Nat) {t h : Nat} (ht : t < 8) (hh : h < 4) : keyTag (lineKey x t h) = t := by
  simp only [keyTag, lineKey]; omega
@[simp] theorem keyHome_lineKey (x : Nat) {t h : Nat} (hh : h < 4) : keyHome (lineKey x t h) = h := by
  simp only [keyHome, lineKey]; omega

/-- Where a byte of a home's L2 is known to be, or to be missing, its value at the home is what it is there, or in HBM. -/
theorem lineByte_eq (s : State) (tag home pa : Nat) :
    s.lineByte tag home pa = ((s.l2At tag home pa).map fun b => b.val).getD (s.hbm.get pa) := by
  unfold lineByte; cases s.l2At tag home pa <;> rfl

/-- A byte at a home after one byte has been written by the device: the byte, whether the home's L2 holds its sector or not. -/
theorem devWrite_homeByte (s : State) (p pa a : Nat) (b : Byte) (hp : p < 4) :
    (s.devWrites p pa [b]).homeByte p a = if a = pa then b else s.homeByte p a := by
  generalize hu : s.devWrites p pa [b] = u
  have hsec : ∀ h, h < 4 → u.l2Sec? p h (a / 128) = (s.l2Sec? p h (a / 128)).map fun x =>
      if a / 128 = pa / 128 then { x with bytes := x.bytes.set (pa % 128) ⟨b, x.gen, 0, 0, [], false⟩ } else x := by
    intro h hh
    have hg : u.lineGen p = s.lineGen p := by rw [← hu]; rfl
    simp only [l2Sec?, hg]
    rw [← hu]
    simp only [devWrites, Sparse.get?_mapVal, keyNum_lineKey _ (show p < 8 by omega) hh, keyTag_lineKey _ (show p < 8 by omega) hh, and_true]
    cases Sparse.get? s.l2 (lineKey (a / 128) p h) with
    | none => rfl
    | some x =>
      by_cases hs : a / 128 = pa / 128 <;> by_cases hx : x.gen = s.lineGen p <;> simp [hs, hx, Option.filter]
  have hm : u.hbm.get a = if a = pa then b else s.hbm.get a := by rw [← hu]; exact Memory.get_set ..
  have hl : ∀ h, h < 4 → u.l2At p h a = (s.l2At p h a).map fun y => if a = pa then (u.l2At p h a).getD y else y := by
    intro h hh
    simp only [l2At, hsec h hh]
    cases s.l2Sec? p h (a / 128) with
    | none => rfl
    | some x =>
      by_cases ha : a = pa
      · subst ha
        by_cases hx : a % 128 < x.bytes.length
        · simp [hx]
        · simp [hx]
      · by_cases hs : a / 128 = pa / 128
        · have : ¬ pa % 128 = a % 128 := by omega
          simp [hs, ha, this, List.getElem?_set_ne]
        · simp [hs, ha]
  have hv : ∀ h, h < 4 → u.lineByte p h a = if a = pa then b else s.lineByte p h a := by
    intro h hh
    by_cases ha : a = pa
    · subst ha
      rw [lineByte_eq, hm, if_pos rfl, if_pos rfl, l2At, hsec h hh]
      cases s.l2Sec? p h (a / 128) with
      | none => rfl
      | some x =>
        by_cases hx : a % 128 < x.bytes.length
        · simp [hx]
        · simp [hx]
    · rw [lineByte_eq, lineByte_eq, hm, hl h hh]
      simp [ha]
  have hb : u.byteHome p a = s.byteHome p a := by
    have hi : ∀ h, h < 4 → (u.l2At p h a).isSome = (s.l2At p h a).isSome := fun h hh => by rw [hl h hh]; simp
    simp only [byteHome, List.find?_cons, List.find?_nil, hi 0 (by omega), hi 1 (by omega), hi 2 (by omega), hi 3 (by omega)]
  have h4 : s.byteHome p a < 4 := by
    unfold byteHome
    cases hf : List.find? (fun h => (s.l2At p h a).isSome) [0, 1, 2, 3] with
    | none => exact Nat.mod_lt _ (by decide)
    | some x =>
      have := List.mem_of_find?_eq_some hf
      simp at this
      simp only [Option.getD_some]
      omega
  rw [homeByte, homeByte, hb, hv _ h4]

/-- A byte as the device reads it after a write of the device. -/
theorem devWrites_homeByte (p : Nat) (hp : p < 4) (bs : List Byte) : ∀ (s : State) (pa a : Nat),
    (s.devWrites p pa bs).homeByte p a = if pa ≤ a ∧ a < pa + bs.length then bs.getD (a - pa) 0 else s.homeByte p a := by
  induction bs with
  | nil =>
    intro s pa a
    have : ¬ (pa ≤ a ∧ a < pa) := by omega
    simp [State.devWrites, this]
  | cons b t ih =>
    intro s pa a
    rw [show s.devWrites p pa (b :: t) = (s.devWrites p pa [b]).devWrites p (pa + 1) t from rfl, ih, devWrite_homeByte _ _ _ _ _ hp]
    by_cases h : a = pa
    · subst h
      have : ¬ (a + 1 ≤ a ∧ a < a + 1 + t.length) := by omega
      rw [if_neg this, if_pos rfl, if_pos (by simp)]
      simp
    · by_cases g : pa + 1 ≤ a ∧ a < pa + 1 + t.length
      · rw [if_pos g, if_pos (by simp; omega), show a - pa = (a - (pa + 1)) + 1 by omega]
        simp
      · rw [if_neg g, if_neg h, if_neg (by simp; omega)]

/-! ### Pushes and eviction -/

/-- Sending pushes changes the dies and what is under way, nothing else. -/
theorem pushOne_rest (s : State) (d p h : Nat) (alloc : Bool) (sel : Nat → Bool) :
    s.pushOne d p h alloc sel = { s with dies := (s.pushOne d p h alloc sel).dies, inflight := (s.pushOne d p h alloc sel).inflight } := by
  unfold pushOne
  simp only
  split <;> rfl
theorem fold_rest {α : Type} (f : State → α → State)
    (hf : ∀ s a, f s a = { s with dies := (f s a).dies, inflight := (f s a).inflight }) (l : List α) (s : State) :
    l.foldl f s = { s with dies := (l.foldl f s).dies, inflight := (l.foldl f s).inflight } := by
  induction l generalizing s with
  | nil => rfl
  | cons a t ih =>
    rw [List.foldl_cons]
    refine (ih (f s a)).trans ?_
    generalize t.foldl f (f s a) = w
    rw [hf s a]
theorem pushAs_rest (s : State) (d : Nat) (alloc : Bool) (sel : Nat → Bool) :
    s.pushAs d alloc sel = { s with dies := (s.pushAs d alloc sel).dies, inflight := (s.pushAs d alloc sel).inflight } :=
  fold_rest _ (fun s _ => fold_rest _ (fun s _ => pushOne_rest s ..) _ s) _ s
theorem pushSel_rest (s : State) (d : Nat) (sel : Nat → Bool) :
    s.pushSel d sel = { s with dies := (s.pushSel d sel).dies, inflight := (s.pushSel d sel).inflight } := pushAs_rest s d true sel

/-- A byte of HBM after bytes with their addresses have been written: the last one to its address, else the old one. -/
theorem fold_get (l : List (Nat × L2Byte)) (m : Memory) (a : Nat) :
    (l.foldl (fun m e => Memory.set m e.1 e.2.val) m).get a =
      match l.reverse.find? fun e => e.1 == a with
      | some e => e.2.val
      | none => m.get a := by
  induction l generalizing m with
  | nil => rfl
  | cons x t ih =>
    rw [List.foldl_cons, ih, List.reverse_cons, List.find?_append]
    cases List.find? (fun e => e.1 == a) t.reverse with
    | some e => rfl
    | none =>
      rw [Memory.get_set]
      by_cases h : a = x.1
      · simp [h]
      · simp [h, Ne.symm h]

/-- The bytes that a write-back of a line writes: those of the sectors its home's L2 holds, as the home has them. -/
theorem mem_heldBytes (s : State) (key : Nat) (e : Nat × L2Byte) : e ∈ s.heldBytes key ↔
    e.1 / 512 = keyNum key ∧ (s.l2Sec? (keyTag key) (keyHome key) (e.1 / 128)).isSome = true
      ∧ e.2 = s.markAt (keyTag key) (keyHome key) e.1 := by
  simp only [heldBytes, heldSecs, List.mem_flatMap, List.mem_filter, List.mem_map, List.mem_range]
  constructor
  · rintro ⟨k, ⟨⟨i, hi, rfl⟩, hk⟩, j, hj, rfl⟩
    refine ⟨by simp only; omega, ?_, rfl⟩
    rw [show ((keyNum key * 4 + i) * 128 + j) / 128 = keyNum key * 4 + i by omega]
    exact hk
  · rintro ⟨h1, h2, h3⟩
    refine ⟨e.1 / 128, ⟨⟨e.1 / 128 % 4, by omega, by omega⟩, h2⟩, e.1 % 128, by omega, ?_⟩
    have : e.1 / 128 * 128 + e.1 % 128 = e.1 := by omega
    rw [this]
    exact Prod.ext rfl h3.symm
/-- The value of a byte at a home, with its marks or without. -/
theorem markAt_val (s : State) (tag home pa : Nat) : (s.markAt tag home pa).val = s.lineByte tag home pa := by
  rw [lineByte_eq, markAt]
  cases s.l2At tag home pa <;> rfl

/-- Writing a line back leaves what its home reads as it was; another tag's or home's view of that frame may be another (log 33). -/
theorem writeBack_lineByte (s : State) (key tag home pa : Nat) (ht : tag < 8) (hh : home < 4)
    (h : keyNum key = pa / 512 → tag = keyTag key ∧ home = keyHome key) :
    (s.writeBack key).lineByte tag home pa = s.lineByte tag home pa := by
  have hg : (s.writeBack key).lineGen tag = s.lineGen tag := by
    simp only [lineGen, gen, part?, writeBack]
  have hkd : keyDiv 4 (lineKey (pa / 128) tag home) = lineKey (pa / 512) tag home := by
    simp only [keyDiv, keyNum, keyTag, keyHome, lineKey]; omega
  have hl : (s.writeBack key).l2At tag home pa = if lineKey (pa / 512) tag home = key then none else s.l2At tag home pa := by
    simp only [l2At, l2Sec?, hg]
    simp only [writeBack]
    rw [Sparse.get?_filter (fun k => keyDiv 4 k != key), hkd]
    by_cases hk : lineKey (pa / 512) tag home = key <;> simp [hk]
  have hb : (s.writeBack key).hbm.get pa =
      if pa / 512 = keyNum key ∧ (s.l2Sec? (keyTag key) (keyHome key) (pa / 128)).isSome = true
        then s.lineByte (keyTag key) (keyHome key) pa else s.hbm.get pa := by
    simp only [writeBack]
    rw [fold_get]
    cases hf : List.find? (fun e : Nat × L2Byte => e.1 == pa) (s.heldBytes key).reverse with
    | some e =>
      have h1 := (mem_heldBytes s key e).1 (List.mem_reverse.1 (List.mem_of_find?_eq_some hf))
      have h2 : e.1 = pa := by simpa using List.find?_some hf
      rw [h2] at h1
      rw [if_pos ⟨h1.1, h1.2.1⟩, ← markAt_val, ← h1.2.2]
    | none =>
      rw [if_neg]
      rintro ⟨hp, hs⟩
      exact absurd (List.find?_eq_none.1 hf (pa, s.markAt (keyTag key) (keyHome key) pa)
        (List.mem_reverse.2 ((mem_heldBytes ..).2 ⟨hp, hs, rfl⟩))) (by simp)
  rw [lineByte_eq, lineByte_eq, hl, hb]
  by_cases hk : lineKey (pa / 512) tag home = key
  · have e1 : keyNum key = pa / 512 := by rw [← hk]; exact keyNum_lineKey _ ht hh
    obtain ⟨e2, e3⟩ := h e1
    rw [if_pos hk, ← e2, ← e3, e1]
    cases hs : s.l2Sec? tag home (pa / 128) with
    | none =>
      have : s.l2At tag home pa = none := by simp [l2At, hs]
      simp [this]
    | some x => simp [lineByte_eq]
  · have e1 : ¬ pa / 512 = keyNum key := by
      intro e
      obtain ⟨e2, e3⟩ := h e.symm
      apply hk
      rw [e, e2, e3]
      simp only [lineKey, keyNum, keyTag, keyHome]
      omega
    simp [hk, e1]

/-- Eviction changes the caches, what is under way and, at a line's own home, HBM; registers, tasks and tables stay. -/
theorem evict_rest (s : State) (d key : Nat) : s.evict d key = { s with
    cores := (s.evict d key).cores, dies := (s.evict d key).dies, inflight := (s.evict d key).inflight, l2 := (s.evict d key).l2
    hbm := (s.evict d key).hbm, hbmBy := (s.evict d key).hbmBy, poison := (s.evict d key).poison, l2bad := (s.evict d key).l2bad } := by
  unfold evict
  split
  · unfold evictLine
    simp only
    split
    · simp only [writeBack, otherL1, modDie]
    · have h := pushSel_rest (s.otherL1 d none (Sparse.erase key)) d fun k => keyDiv 512 k == key
      simp only [modDie]
      rw [h]
      rfl
  · rfl
/-- Eviction keeps HBM canonical. -/
theorem evict_wf (s : State) (d key : Nat) (h : s.hbm.wf = true) : (s.evict d key).hbm.wf = true := by
  unfold evict
  split
  · unfold evictLine
    simp only
    split
    · simp only [writeBack, otherL1, modDie]
      exact Memory.fold_wf _ _ _ h
    · have hp := pushSel_rest (s.otherL1 d none (Sparse.erase key)) d fun k => keyDiv 512 k == key
      simp only [modDie]
      rw [hp]
      exact h
  · exact h
/-- Eviction leaves what a line's home reads as it was (R146, R162). -/
theorem evict_lineByte (s : State) (d key tag home pa : Nat) (ht : tag < 8) (hh : home < 4)
    (h : keyNum key = pa / 512 → tag = keyTag key ∧ home = keyHome key) :
    (s.evict d key).lineByte tag home pa = s.lineByte tag home pa := by
  unfold evict
  split
  · unfold evictLine
    simp only
    split
    · refine Eq.trans ?_ (writeBack_lineByte (s.otherL1 d none (Sparse.erase key)) key tag home pa ht hh h)
      generalize (s.otherL1 d none (Sparse.erase key)).writeBack key = u
      rfl
    · have hp := pushSel_rest (s.otherL1 d none (Sparse.erase key)) d fun k => keyDiv 512 k == key
      simp only [modDie, lineByte, l2At]
      rw [hp]
      rfl
  · rfl

/-- HBM right after a package reset is canonical. -/
theorem reset_wf : State.reset.hbm.wf = true := rfl

end State
end Sys2Proof.Machine
end

