-- ==== Sys2Proof/Tests/Slice0.lean ====
section
/-! SUPPORT. Tests: the well-formedness smoke test, decodings of words written out from the manual's encodings, a witness
for the hypotheses of every statement, and a few single steps with results taken from the manual. -/
namespace Sys2Proof.Tests
open Sys2Proof Sys2Proof.Machine Sys2Proof.Claims

set_option Elab.async false

/-! ## Well-formedness: a term that each check refuses -/

/-- Special-register indices (R99, R118): an index that names nothing, and writes to the read-only TURNS. -/
theorem test_wf_refuses_csr_index : [Instr.csrr ⟨1, 0x003⟩, .csrw ⟨0x005, 1, .wait⟩, .csrs ⟨1, 0x005, 1, .wait⟩,
    .csrc ⟨1, 0x005, 1, .wait⟩, .csrx ⟨1, 0x005, 1, .wait⟩].all (fun i => !i.wf) = true := by decide
/-- SEXT and ZEXT of width 0 (R128). -/
theorem test_wf_refuses_width_0 : [Instr.sext ⟨1, 1, .wait, 0⟩, .zext ⟨1, 1, .wait, 0⟩].all (fun i => !i.wf) = true := by decide
/-- An RM on an instruction that does not round (R131, R133). -/
theorem test_wf_refuses_scalar_rm : ([Instr.fmin, .fmax, .feq, .flt, .fle].map fun f => f ⟨1, 1, .wait, 2, .wait, true, .rtz⟩).all
    (fun i => !i.wf) = true ∧ (Instr.fcvtw ⟨1, 1, .wait, true, .rtz⟩).wf = false := by decide
/-- A floating type on the integer vector instructions (R216, R217, R221). -/
theorem test_wf_refuses_vector_int_type : ([Instr.vadd, .vsub, .vmul, .vmulh, .vand, .vor, .vxor, .vshl, .vshr, .vsra, .vmin, .vmax,
      .vadds, .vsubs, .vavg].map fun f => f ⟨1, 1, .wait, .v 2, .wait, 0, .f32⟩).all (fun i => !i.wf) = true
    ∧ ([Instr.vcmpEq, .vcmpNe, .vcmpLt, .vcmpLe, .vcmpGt, .vcmpGe].map fun f => f ⟨1, 1, .wait, .v 2, .wait, 0, .f32⟩).all
      (fun i => !i.wf) = true
    ∧ [Instr.vabs ⟨1, 1, .wait, 0, .n8⟩, .vscan ⟨1, 1, .wait, 0, .f32⟩, .viota ⟨1, 0, .f32⟩].all (fun i => !i.wf) = true := by decide
/-- The type f4 on the lane instructions; a type or an RM that a reduction does not take (R218 to R222). -/
theorem test_wf_refuses_lane_type : [Instr.vmov ⟨1, 1, .wait, 0, .f4⟩, .vcompress ⟨1, 1, .wait, 0, .f4⟩, .vsplat ⟨1, 1, .wait, 0, .f4⟩,
      .vext ⟨1, 1, .wait, 2, .wait, .f4⟩, .vins ⟨1, 1, .wait, 2, .wait, .f4⟩, .vsel ⟨1, 1, .wait, 2, .wait, 0, .f4⟩,
      .vperm ⟨1, 1, .wait, 2, .wait, 0, .f4⟩, .vslideup ⟨1, 1, .wait, 2, .wait, 0, .f4⟩, .vslidedn ⟨1, 1, .wait, 2, .wait, 0, .f4⟩,
      .vredadd ⟨1, 1, .wait, 0, .e4m3, .rne⟩, .vredadd ⟨1, 1, .wait, 0, .i32, .rtz⟩, .vredmin ⟨1, 1, .wait, 0, .e5m2, .rne⟩,
      .vredmin ⟨1, 1, .wait, 0, .f32, .rtz⟩, .vredmax ⟨1, 1, .wait, 0, .f4, .rne⟩, .vredmax ⟨1, 1, .wait, 0, .f32, .dyn⟩].all
    (fun i => !i.wf) = true := by decide
/-- An integer type or an idle RM on the floating vector instructions (R224 to R227). -/
theorem test_wf_refuses_vector_float_type : ([Instr.vfadd, .vfsub, .vfmul, .vfdiv, .vfmin, .vfmax].map fun f =>
      f ⟨1, 1, .wait, .v 2, .wait, 0, .i32, .rne⟩).all (fun i => !i.wf) = true
    ∧ ([Instr.vfmin, .vfmax].map fun f => f ⟨1, 1, .wait, .v 2, .wait, 0, .f32, .rup⟩).all (fun i => !i.wf) = true
    ∧ ([Instr.vfsqrt, .vfexp2, .vflog2, .vfrcp, .vfrsq, .vfabs, .vfneg].map fun f => f ⟨1, 1, .wait, 0, .n16, .rne⟩).all
      (fun i => !i.wf) = true
    ∧ ([Instr.vfexp2, .vflog2, .vfrcp, .vfrsq, .vfabs, .vfneg].map fun f => f ⟨1, 1, .wait, 0, .f32, .rna⟩).all
      (fun i => !i.wf) = true
    ∧ ([Instr.vfma, .vfms, .vfnma].map fun f => f ⟨1, 1, .wait, .v 2, .wait, 3, .wait, 0, .e4m3, .rne⟩).all (fun i => !i.wf) = true
    ∧ ([Instr.vfcmpEq, .vfcmpNe, .vfcmpLt, .vfcmpLe, .vfcmpUno].map fun f => f ⟨1, 1, .wait, .v 2, .wait, 0, .i8⟩).all
      (fun i => !i.wf) = true := by decide
/-- VCVT (R228): equal types, f4, an RM between integers, SAT to an integer or to a wide float. -/
theorem test_wf_refuses_vcvt : [Instr.vcvt ⟨1, 1, .wait, 0, .f32, .f32, .rne, false⟩, .vcvt ⟨1, 1, .wait, 0, .f4, .f32, .rne, false⟩,
      .vcvt ⟨1, 1, .wait, 0, .f32, .f4, .rne, false⟩, .vcvt ⟨1, 1, .wait, 0, .i8, .i16, .rtz, false⟩,
      .vcvt ⟨1, 1, .wait, 0, .i32, .f32, .rne, true⟩, .vcvt ⟨1, 1, .wait, 0, .bf16, .f32, .rne, true⟩].all (fun i => !i.wf) = true := by
  decide
/-- Types of the vector accesses (R177, R178), a row of no bytes (R185), a block of 0 or of 100 bytes (R186). -/
theorem test_wf_refuses_access_options : [Instr.vldf ⟨1, 1, .wait, 0, 0, .f64⟩, .vlds ⟨1, 1, .wait, 2, .wait, 0, .f4⟩,
      .vsts ⟨1, 1, .wait, 2, .wait, 0, .f4⟩, .vgath ⟨1, 1, .wait, 2, .wait, 0, .i8⟩, .vscat ⟨1, 1, .wait, 2, .wait, 0, .f16⟩,
      .copy2 ⟨1, 1, .wait, 2, .wait, 3, .wait, 0, .die, false, false, 0, 0, 0⟩,
      .kvgath ⟨1, 1, .wait, 2, .wait, 3, .wait, 0, .die, false, false, 0, 0⟩,
      .kvgath ⟨1, 1, .wait, 2, .wait, 3, .wait, 0, .die, false, false, 100, 0⟩].all (fun i => !i.wf) = true := by decide
/-- An acquire on a reduction (R194); widths, options and orders of the Firn instructions (R85, R257 to R260). -/
theorem test_wf_refuses_orders : ([Instr.redAdd, .redFadd, .redMin, .redMax, .redOr].map fun f =>
      f ⟨1, .wait, 2, .wait, false, .die, .acq⟩).all (fun i => !i.wf) = true
    ∧ [Instr.fcfg ⟨1, .wait, 2, .wait, 3, .wait, 0, 0, false, false⟩, .fcfg ⟨1, .wait, 2, .wait, 3, .wait, 7, 0, false, false⟩,
      .fcfg ⟨1, .wait, 2, .wait, 3, .wait, 2, 2, false, false⟩, .join ⟨1, 2, .wait, true, .die, .relaxed⟩,
      .leave ⟨1, 2, .wait, 3, .wait, true, .die, .relaxed⟩, .gbar ⟨1, 2, .wait, true, .die, .relaxed⟩,
      .gbar ⟨1, 2, .wait, false, .die, .acq⟩].all (fun i => !i.wf) = true := by decide

/-- An MMA with every option off. -/
def mmaT : MmaO := ⟨1, 2, .wait, 3, .wait, 0, .wait, 0, 0, 0, false, false, false, false, false, false, 0, .f32, 0, .die, 0, 0, 0, 0⟩
/-- MMA (R84, R297): ORG, MEM or ANTI without PERT, an index register without GATH or above v12, EPISLOT without EPI, C without
DRAIN, a drain format that is none. -/
theorem test_wf_refuses_mma : [Instr.mma { mmaT with f := 1 }, .mma { mmaT with g := 1 }, .mma { mmaT with anti := true },
      .mma { mmaT with i := 1 }, .mma { mmaT with gath := true, i := 13 }, .mma { mmaT with epislot := 1 },
      .mma { mmaT with c := 1 }, .mma { mmaT with cm := .peek }, .mma { mmaT with dfmt := .f64 }].all (fun i => !i.wf) = true
    ∧ (Instr.mma mmaT).wf = true := by decide

/-! ## Decoding: words written out from the encodings of R72 to R85 and the manual's worked programs -/

/-- No operation and control flow (R108, R113, R111, R124). -/
theorem test_decode_control : decode (leBytes 12 1) = .ok .nop12 ∧ decode (leBytes 16 2) = .ok .nop16
    ∧ decode (leBytes 8 0x000006000010000C) = .ok (.loop ⟨1, .wait, 6⟩)
    ∧ decode (leBytes 8 0x0000040024E00408) = .ok (.bne ⟨14, .wait, 9, .wait, false, 4⟩)
    ∧ decode (leBytes 8 0x1C) = .ok .exit := by decide
/-- Scalar integer instructions in their three lengths (R125 to R130). -/
theorem test_decode_integer : decode (leBytes 8 0x000000000411A040) = .ok (.mul ⟨6, 1, .wait, 1, .wait⟩)
    ∧ decode (leBytes 8 0x000003000011D044) = .ok (.shli ⟨7, 1, .wait, 3⟩)
    ∧ decode (leBytes 12 0x0000000003E8000000024051) = .ok (.movi ⟨9, 1000⟩)
    ∧ decode (leBytes 8 0x0000000424618040) = .ok (.add ⟨6, 6, .wait, 9, .consume⟩) := by decide
/-- Special registers (R117). -/
theorem test_decode_csr : decode (leBytes 8 0x0000050000018014) = .ok (.csrr ⟨6, 5⟩)
    ∧ decode (leBytes 8 0x0000400000600414) = .ok (.csrw ⟨0x040, 6, .wait⟩) := by decide
/-- Vector instructions in formats N and W, a scalar B by H, a comparison and a conversion (R211 to R228). -/
theorem test_decode_vector : decode (leBytes 8 0x000002200810C100) = .ok (.vadd ⟨3, 1, .wait, .v 2, .wait, 2, .i32⟩)
    ∧ decode (leBytes 12 0x000A030008114125) = .ok (.vfma ⟨5, 1, .wait, .v 2, .wait, 3, .wait, 0, .f32, .rne⟩)
    ∧ decode (leBytes 8 0x000A09000082C12C) = .ok (.vcvt ⟨11, 8, .wait, 0, .bf16, .f32, .rne, false⟩)
    ∧ decode (leBytes 8 0x0000020028908108) = .ok (.vcmpEq ⟨2, 9, .wait, .v 10, .wait, 0, .i32⟩)
    ∧ decode (leBytes 8 0x00000A8024410920) = .ok (.vfmul ⟨4, 4, .wait, .s 9, .wait, 0, .f32, .rne⟩) := by decide
/-- Loads, stores, atomics and synchronising accesses (R174, R175, R179, R192, R193). -/
theorem test_decode_memory : decode (leBytes 8 0x0000000018800E04) = .ok (.st64 ⟨8, .wait, 6, .wait, 0, 0⟩)
    ∧ decode (leBytes 8 0xFFFFF80000D38214) = .ok (.ldsy ⟨14, 13, .wait, -8⟩)
    ∧ decode (leBytes 8 0x0000000001928614) = .ok (.ldpk ⟨10, 25, .wait, 0⟩)
    ∧ decode (leBytes 8 0x000000004D200E14) = .ok (.stfl ⟨18, .wait, 19, .wait, 0⟩)
    ∧ decode (leBytes 8 0x00000F0024818280) = .ok (.amoAdd ⟨6, 8, .wait, 9, .wait, false, .pkg, .ar⟩)
    ∧ decode (leBytes 12 0x000C170059464285) = .ok (.cas ⟨25, 20, .wait, 22, .wait, 23, .wait, false, .pkg, .relaxed⟩) := by decide
/-- Register numbers that name nothing and bits that must be zero (R76, R77, R88): cause 2 comes from an encoding that is
otherwise valid, cause 1 from any other; the first word is the manual's own with SCOPE 6, the third the same with SCOPE 2. -/
theorem test_decode_refusals : decode (leBytes 8 0x000018001F218E80) = .illegal ∧ decode (leBytes 8 0x8000000000000040) = .illegal
    ∧ decode (leBytes 8 0x000002001F218E80) = .badReg ∧ decode (leBytes 8 3) = .illegal := by decide
/-- Units: Firn, BARW, tags, scopes, groups, Spindrift and the supervisor's instructions (R251 to R275, R302, R329). -/
theorem test_decode_units : decode (leBytes 8 0x00000800009182C0) = .ok (.finc ⟨6, 9, .wait, false, .die, .relaxed⟩)
    ∧ decode (leBytes 8 0x000008001C634AC0) = .ok (.fcan ⟨13, 6, .wait, 7, .wait, false, .die, .relaxed⟩)
    ∧ decode (leBytes 8 0x00000000007182CC) = .ok (.barw ⟨6, 7, .wait⟩)
    ∧ decode (leBytes 8 0x00000000248182E0) = .ok (.tagpub ⟨6, 8, .wait, 9, .wait⟩)
    ∧ decode (leBytes 8 0x000000002892C6E0) = .ok (.tagwait ⟨11, 9, .wait, 10, .wait⟩)
    ∧ decode (leBytes 8 0x00000000014182E4) = .ok (.spawn ⟨6, 20, .wait⟩)
    ∧ decode (leBytes 8 0x0000000001520EE4) = .ok (.fswait ⟨8, 21, .wait⟩)
    ∧ decode (leBytes 8 0x0000000001B742E8) = .ok (.gpost ⟨29, 27, .wait⟩)
    ∧ decode (leBytes 12 0x000000000001000038D18309) = .ok (.spdz ⟨6, 13, .wait, 14, .wait, true, false⟩) := by decide
/-- The matrix unit's buffer and the supervisor's instructions. -/
theorem test_decode_supervisor : decode (leBytes 8 0x0000000000018304) = .ok (.epiw ⟨6⟩) ∧ decode (leBytes 8 0x0704) = .ok .epid
    ∧ decode (leBytes 8 0x0380) = .ok .eret
    ∧ decode (leBytes 8 0x000000001C600780) = .ok (.spill ⟨6, .wait, 7, .wait⟩)
    ∧ decode (leBytes 8 0x000000001C600B80) = .ok (.refill ⟨6, .wait, 7, .wait⟩)
    ∧ decode (leBytes 8 0x0000000000600F80) = .ok (.slotkill ⟨6, .wait⟩)
    ∧ decode (leBytes 8 0x000000001C621380) = .ok (.tlbinv ⟨8, 6, .wait, 7, .wait⟩) := by decide
/-- The matrix multiplication that the manual encodes field by field (R84). -/
theorem test_decode_mma : (match decode (leBytes 16 0x0000000F0002394700710A0024850302) with
    | .ok (.mma o) => decide (encode (.mma o) = some 0x0000000F0002394700710A0024850302)
    | _ => false) = true := by decide
/-- The encoder writes the words that the manual writes out. -/
theorem test_encode_words : encode (.csrw ⟨0x040, 6, .wait⟩) = some 0x0000400000600414
    ∧ encode (.movi ⟨9, 1000⟩) = some 0x0000000003E8000000024051
    ∧ encode (.fdec ⟨13, 6, .wait, false, .die, .relaxed⟩) = some 0x00000800006346C0 := by decide

/-! ## A small machine: slot 3 of core 0, in partition 0, which owns every slot, a 64 KiB window at least, eight counter
contexts in each plane, and one register file of values that suit the instructions -/

/-- The configuration of the tests' partition. -/
def cfgT : PartCfg := { (default : PartCfg) with
  slotMask := 0xFFFF, spMask := 0xF, weight := 1, asets := 4, firn := [(0, 8), (0, 8), (0, 8), (0, 8)], hbmShare := [1], jobs := [9] }
/-- The tests' partition. -/
def partT : Partition := ⟨cfgT, 1, 0x5550, 0, 0, [], 0, none, [], [], [], false, true⟩
/-- A full, unmarked register. -/
def regT (w v : Nat) : Reg w := ⟨BitVec.ofNat w v, true, .none, none, false⟩
/-- Its scalar registers: small numbers in s1 and s2, a local window address in s8, another die's in s9, a page address in s10. -/
def sregsT : Sparse (Reg 64) := [(1, regT 64 5), (2, regT 64 7), (8, regT 64 0xF0000000000040), (9, regT 64 0xF1000012C00080),
  (10, regT 64 0x20000), (11, regT 64 0x100000000000000)]
/-- The tests' slot, before a test's own change. -/
def slotT : Slot := { Slot.init with
  run := .active, task := some default, sregs := sregsT, pc := 0x1000, le := 0x1008, ls := 0x800, turns := 5 }
/-- The Serac with one operator key. -/
def seracT : Serac := { Serac.init with keys := [0], split512 := false }
/-- The tests' machine. -/
def stT (f : Slot → Slot) : State := { State.reset with
  cur := ⟨0, 3⟩, nextId := 77, parts := [(0, partT)], slots := [(3, f slotT)], serac := seracT }
/-- A test's slot in supervisor mode. -/
def supT (sl : Slot) : Slot := { sl with mode := { sl.mode with priv := true } }
/-- The machine with two translations held by core 0, of pages with format f32: 0x20000, whose lines are homed by their
address, and 0x30000, homed on die 1; and with every SFMT of cores 0 and 300 at f32. -/
def pageT (f : Slot → Slot) : State :=
  let sf : CorePart → CorePart := fun cp => { cp with sfmt := (List.range 16).map fun i => (i, 6#4) }
  (((stT f).modCp 0 0 sf).modCp 300 0 sf).modCore 0 fun C => { C with tlb := [⟨0, 2, 0x20000, 0x6D7, false⟩, ⟨0, 3, 0x30000, 0x36D7, false⟩] }
/-- An outstanding operation of the slot, as Sendable asks. -/
def qT (k : OpKind) (d : Dest) : Pend := ⟨7, k, d, none, none, false, false, none, 0, 0, [], false, none⟩
/-- That operation. -/
def oT : OpRef := ⟨0, 3, 7⟩
/-- The machine with that operation in the tests' slot. -/
def opT (k : OpKind) (d : Dest) : State := stT fun sl => { sl with pend := [qT k d] }

/-! ## Witnesses: a state and operands that meet the hypotheses of each statement -/

theorem test_wit_DecodeEncode : (Instr.movl ⟨47, 0xFFFFFFFFFFFFFFFF⟩).wf = true
    ∧ (encode (.movl ⟨47, 0xFFFFFFFFFFFFFFFF⟩)).isSome = true := by decide
theorem test_wit_EncodeDecode : 0x1C < 2 ^ 128 ∧ decode (leBytes 16 0x1C) = .ok .exit := by decide
theorem test_wit_StepRunsDecoded_event : ({ stT id with agenda := [.event (.icacheFill ⟨0, 3⟩)] } : State).agenda
    = .event (.icacheFill ⟨0, 3⟩) :: [] ∧ isFreeEvent (.icacheFill ⟨0, 3⟩) = true := by decide
theorem test_wit_StepRunsDecoded_turn : let s : State := { stT (fun sl => { sl with
      ahead := [0, 1, 2, 3].map fun i => ⟨0x1000 + 8 * i, leBytes 8 (if i = 0 then 0x1C else 0)⟩ }) with agenda := [.turn 0] }
    let u := (({ s with agenda := [] } : State).landCore 0).stallFetch 0
    s.live (coreDie 0) = true ∧ (s.coreAt 0).lastTurn ≠ s.cycleOf 0 + 1 ∧ u.turnSlot 0 = some 3
    ∧ (u.slotAt ⟨0, 3⟩).pc.toNat % 4 = 0 ∧ u.fetch ⟨0, 3⟩ = .block (leBytes 16 0x1C ++ leBytes 16 0)
    ∧ decodeTurn (u.slotAt ⟨0, 3⟩).pc (.block (leBytes 16 0x1C ++ leBytes 16 0)) = .run .exit := by decide +kernel
/-- One block of each kind: LEN 11, a 12-byte word at offset 28, a word that runs, a reserved opcode, a bad register. -/
theorem test_wit_DecodeChecks : (leBytes 32 3).length = 32
    ∧ (leBytes 32 (2 ^ 224)).length = 32 ∧ ((leBytes 32 (2 ^ 224)).getD (0x1C % 32) 0).toNat % 4 = 1 ∧ 32 < 28 + 8 + 4 * 1
    ∧ decode ((leBytes 32 0x1C).drop (0x1000 % 32)) = .ok .exit
    ∧ decode ((leBytes 32 0x3C).drop 0) = .illegal ∧ decode ((leBytes 32 0x000002001F218E80).drop 0) = .badReg
    ∧ (stT id).here.run = .active := by decide
theorem test_wit_MemoryCanonicalKept : ∃ t, MemoryCanonical { State.reset with agenda := [.tick] }
    ∧ step { State.reset with agenda := [.tick] } = .next t := ⟨_, rfl, rfl⟩
/-- An empty source; a poisoned one; a faulted one with TRAPASYNC. -/
theorem test_wit_SourceChecks :
    (let s := stT fun sl => { sl with sregs := [(1, { regT 64 5 with full := false })] }
     (intRegs s (.add ⟨6, 1, .wait, 2, .wait⟩)).any (fun e => decide (∃ x ∈ e.srcs, State.srcMd x ≠ .peek ∧ s.srcFull x = false)) = true
     ∧ s.here.run = .active ∧ NoCancel s)
    ∧ (let s := stT fun sl => { sl with sregs := [(2, { regT 64 5 with mark := .poisoned })] }
       s.here.mode.nest = false ∧ (intRegs s (.add ⟨6, 1, .wait, 2, .wait⟩)).any (fun e =>
         decide (∀ x ∈ e.srcs, State.srcMd x = .peek ∨ s.srcFull x = true) && decide (∀ x ∈ e.srcs, s.srcParity x = false)
         && e.srcs.find? (fun x => State.srcMd x != .peek && s.srcMark x == .poisoned) == some (.s 2 .wait)) = true)
    ∧ (let s := stT fun sl => { sl with sregs := [(2, { regT 64 5 with mark := .faulted })], mode := { sl.mode with trapAsync := true } }
       s.here.mode.trapAsync = true ∧ (intRegs s (.add ⟨6, 1, .wait, 2, .wait⟩)).any (fun e =>
         e.srcs.find? (fun x => State.srcMd x != .peek && s.srcMark x == .faulted) == some (.s 2 .wait)) = true) := by decide
theorem test_wit_TrapEntry : ((stT id).slotAt ⟨0, 3⟩).mode.nest = false
    ∧ ((stT fun sl => { sl with mode := { sl.mode with nest := true } }).slotAt ⟨0, 3⟩).mode.nest = true := by decide
theorem test_wit_TrapInstructions : (stT id).here.run = .active ∧ (stT id).here.mode.nest = false := by decide
theorem test_wit_ReturnFromTrap : (stT supT).here.run = .active ∧ (stT supT).here.mode.priv = true
    ∧ (stT fun sl => { supT sl with epc := 0x2000 }).here.epc.toNat % 4 = 0
    ∧ (stT fun sl => { supT sl with epc := 0x2002 }).here.epc.toNat % 4 ≠ 0 := by decide
theorem test_wit_PrivilegedTraps : (stT id).here.run = .active ∧ (stT id).here.mode.priv = false
    ∧ (0x100#12).toNat ≥ 0x100 ∧ (Instr.csrr ⟨1, 0x100⟩).wf = true ∧ (Instr.csrw ⟨0x121, 1, .wait⟩).wf = true := by decide

/-- An effect whose sources are usable. -/
def ok (s : State) (e : Option Effect) : Bool := e.any fun e => decide (CanIssue e.srcs s)

/-- The integer instructions of three operands. -/
def rrrI : List (RRR → Instr) := [.add, .sub, .and, .or, .xor, .andn, .shl, .shr, .sra, .mul, .mulh, .mulhn, .div, .divn, .rem, .remn,
  .slt, .sltn, .seq, .sne, .min, .max, .minn, .maxn]
theorem test_wit_IntegerResults : rrrI.all (fun f => ok (stT id) (intRegs (stT id) (f ⟨6, 1, .consume, 2, .peek⟩))
      && ok (stT id) (intRegs (stT id) (f ⟨0, 1, .wait, 33, .wait⟩))) = true
    ∧ ([Instr.addi, .andi, .ori, .xori, .muli].map fun f => f ⟨6, 1, .wait, -1⟩).all (fun i => ok (stT id) (intOthers (stT id) i)) = true
    ∧ [Instr.shli ⟨6, 1, .wait, 63⟩, .shri ⟨6, 1, .wait, 63⟩, .srai ⟨6, 1, .wait, 63⟩, .clz ⟨6, 1, .wait⟩, .ctz ⟨6, 1, .wait⟩,
      .popc ⟨6, 1, .wait⟩, .sext ⟨6, 1, .wait, 63⟩, .zext ⟨6, 1, .wait, 1⟩, .sel ⟨6, 1, .wait, 2, .wait, 3, .wait⟩,
      .madd ⟨6, 1, .wait, 2, .wait, 3, .wait⟩, .movi ⟨6, -1⟩, .movl ⟨6, 9⟩, .nop8, .nop12, .nop16].all
        (fun i => ok (stT id) (intOthers (stT id) i)) = true := by decide
theorem test_wit_FloatResults : ([Instr.fadd, .fsub, .fmul, .fdiv, .fmin, .fmax, .feq, .flt, .fle].map fun f =>
      f ⟨6, 1, .wait, 2, .wait, true, .rne⟩).all (fun i => ok (stT id) (fpRegs (stT id) i)) = true
    ∧ [Instr.fsqrt ⟨6, 1, .wait, false, .rtz⟩, .fcvti ⟨6, 1, .wait, true, .dyn, true⟩, .fcvtf ⟨6, 1, .wait, true, .rdn, false⟩,
      .fcvtw ⟨6, 1, .wait, true, .rne⟩, .ffma ⟨6, 1, .wait, 2, .wait, 3, .wait, false, .rne⟩].all
        (fun i => ok (stT id) (fpRegs (stT id) i)) = true := by decide
/-- A signalling NaN, the infinities of both signs, and the zero that an infinity meets in a product. -/
theorem test_wit_NanResults : fmtF32 ∈ [fmtF64, fmtF32, fmtF16, fmtBf16] ∧ (fmtF32.decode 0x7F800001).isNan = true
    ∧ fmtF32.decode 0x7F800000 = .inf false ∧ fmtF32.decode 0xFF800000 = .inf (!false)
    ∧ (isFin (fmtF32.decode 0) = true ∧ realOf (fmtF32.decode 0) = 0)
    ∧ ((fmtF32.decode 0x7FC00000).isNan = true ∧ isFin (fmtF32.decode 0x7FC00000) = false) := by
  refine ⟨by decide, by decide, by decide, by decide, ⟨by decide, ?_⟩, by decide⟩
  have h : fmtF32.decode 0 = .fin false 0 (-149) := by decide
  simp [h, realOf]
/-- 1.0 and 2.0, whose sum, difference, product, quotient and root are not 0, an exact zero sum, the zeros and -1.0. -/
theorem test_wit_FloatArithmetic : (∃ m e, fmtF32.decode 0x3F800000 = .fin false m e ∧ realOf (.fin false m e) = 1)
    ∧ (∃ m e, fmtF32.decode 0x40000000 = .fin false m e ∧ realOf (.fin false m e) = 2)
    ∧ (∃ m e, fmtF32.decode 0xBF800000 = .fin true m e ∧ realOf (.fin true m e) = -1)
    ∧ (∃ e, fmtF32.decode 0 = .fin false 0 e ∧ realOf (.fin false 0 e) = 0) ∧ fmtF32.decode 0x7F800000 = .inf false
    ∧ (1 : Nat) % 2 ^ 64 ≠ 0 ∧ Rm.rne ≠ .dyn := by
  refine ⟨⟨2 ^ 23, -23, by decide, ?_⟩, ⟨2 ^ 23, -22, by decide, ?_⟩, ⟨2 ^ 23, -23, by decide, ?_⟩, ⟨-149, by decide, ?_⟩, by decide, by decide,
    by decide⟩ <;> norm_num [realOf]
theorem test_wit_VectorIntegerResults : ([Instr.vadd, .vsub, .vmul, .vmulh, .vand, .vor, .vxor, .vshl, .vshr, .vsra, .vmin, .vmax,
      .vadds, .vsubs, .vavg].map fun f => f ⟨1, 1, .wait, .s 2, .wait, 2, .i32⟩).all (fun i => i.wf && ok (stT id) (vecInt (stT id) i)) = true
    ∧ ([Instr.vcmpEq, .vcmpNe, .vcmpLt, .vcmpLe, .vcmpGt, .vcmpGe].map fun f => f ⟨1, 1, .wait, .v 2, .wait, 0, .n8⟩).all
      (fun i => i.wf && ok (stT id) (vecInt (stT id) i)) = true
    ∧ ok (stT id) (vecInt (stT id) (.vabs ⟨1, 1, .wait, 0, .i8⟩)) = true := by decide
theorem test_wit_VectorLaneResults : [Instr.vmov ⟨1, 1, .wait, 1, .e4m3⟩, .vsplat ⟨1, 1, .wait, 1, .f64⟩, .vext ⟨1, 1, .wait, 2, .wait, .i16⟩,
      .vins ⟨1, 1, .wait, 2, .wait, .n16⟩, .vsel ⟨1, 1, .wait, 2, .wait, 1, .f32⟩, .vperm ⟨1, 1, .wait, 2, .wait, 1, .n8⟩,
      .vslideup ⟨1, 1, .wait, 2, .wait, 1, .i64⟩, .vslidedn ⟨1, 1, .wait, 2, .wait, 1, .i8⟩, .viota ⟨1, 1, .i32⟩,
      .vcompress ⟨1, 1, .wait, 1, .f16⟩, .vscan ⟨1, 1, .wait, 1, .n32⟩].all (fun i => i.wf && ok (stT id) (vecLanes (stT id) i)) = true
    ∧ [Instr.vredadd ⟨1, 1, .wait, 1, .i8, .rne⟩, .vredmin ⟨1, 1, .wait, 1, .n64, .rne⟩, .vredmax ⟨1, 1, .wait, 1, .f32, .rne⟩,
      .mand ⟨1, 2, 3⟩, .mor ⟨1, 2, 3⟩, .mxor ⟨1, 2, 3⟩, .mandn ⟨1, 2, 3⟩, .mnot ⟨1, 2⟩, .mpopc ⟨1, 2⟩, .mfirst ⟨1, 2⟩,
      .mfrom ⟨1, 2, .wait⟩, .mto ⟨1, 2⟩].all (fun i => i.wf && ok (stT id) (vecReduce (stT id) i)) = true := by decide
theorem test_wit_VectorFloatResults : ([Instr.vfadd, .vfsub, .vfmul, .vfdiv, .vfmin, .vfmax].map fun f =>
      f ⟨1, 1, .wait, .s 2, .wait, 1, .f32, .rne⟩).all (fun i => i.wf && ok (stT id) (vecFloat (stT id) i)) = true
    ∧ ([Instr.vfsqrt, .vfexp2, .vflog2, .vfrcp, .vfrsq, .vfabs, .vfneg].map fun f => f ⟨1, 1, .wait, 1, .f64, .rne⟩).all
      (fun i => i.wf && ok (stT id) (vecFloat (stT id) i)) = true
    ∧ ([Instr.vfma, .vfms, .vfnma].map fun f => f ⟨1, 1, .wait, .v 2, .wait, 3, .wait, 1, .bf16, .rup⟩).all
      (fun i => i.wf && ok (stT id) (vecFloat (stT id) i)) = true
    ∧ ([Instr.vfcmpEq, .vfcmpNe, .vfcmpLt, .vfcmpLe, .vfcmpUno].map fun f => f ⟨1, 1, .wait, .v 2, .wait, 1, .f16⟩).all
      (fun i => i.wf && ok (stT id) (vecFloat (stT id) i)) = true
    ∧ [Instr.vcvt ⟨1, 1, .wait, 1, .e4m3, .f32, .rne, true⟩, .vpackb ⟨1, 1, .wait⟩, .vunpackb ⟨1, 1, .wait⟩].all
      (fun i => i.wf && ok (stT id) (vecConvert (stT id) i)) = true := by decide
/-- Jump targets that are aligned and that are not. -/
theorem test_wit_Jumps : CanIssue [.s 10 .wait] (stT id) ∧ ((stT id).rd 10 + (4#24).signExtend 64).toNat % 4 = 0
    ∧ ((stT id).rd 10 + (2#24).signExtend 64).toNat % 4 ≠ 0 := by decide
theorem test_wit_Branches : CanIssue [.s 1 .wait, .s 2 .consume] (stT id)
    ∧ ([Instr.bne, .blt, .bltn].map fun f => f ⟨1, .wait, 2, .consume, false, -4⟩).all (fun i => (taken (stT id) i).any fun x => x.2) = true
    ∧ ([Instr.beq, .bge, .bgen].map fun f => f ⟨1, .wait, 2, .consume, true, 4⟩).all (fun i => (taken (stT id) i).any fun x => !x.2) = true
    ∧ ([Instr.beq, .bge, .bgen].map fun f => f ⟨1, .wait, 1, .wait, true, 4⟩).all (fun i => (taken (stT id) i).any fun x => x.2) = true := by
  decide
/-- LOOP outside and inside a loop, with its end just behind its start and at it; LBRK in both. -/
theorem test_wit_Loops : CanIssue [.s 1 .wait] (stT id) ∧ (stT id).here.lc = 0
    ∧ ((stT id).here.pc.toNat : Int) + 8 < (stT id).here.pc.toNat + 4 * (3#24).toInt
    ∧ (stT id).here.pc.toNat + 4 * (2#24).toInt ≤ ((stT id).here.pc.toNat : Int) + 8
    ∧ CanIssue [.s 1 .wait] (stT fun sl => { sl with lc := 1 }) ∧ (stT fun sl => { sl with lc := 1 }).here.lc ≠ 0 := by decide
theorem test_wit_EventLatch : (stT fun sl => { sl with evt := true }).here.evt = true ∧ NoCancel (stT id) ∧ (stT id).here.evt = false
    ∧ CanIssue [.s 0 .wait] (stT fun sl => { sl with evt := true }) ∧ CanIssue [.s 0 .wait] (stT id) ∧ (stT id).rd 0 = 0 ∧ (stT id).rd 1 ≠ 0
    ∧ (let s := stT fun sl => { sl with mode := { sl.mode with cpend := true } }
       s.here.run = .active ∧ s.here.mode.cpend = true ∧ s.here.mode.priv = false) := by decide
theorem test_wit_Exits : (stT id).here.run = .active ∧ CanIssue [.s 0 .wait] (stT id) ∧ CanIssue [.s 1 .wait] (stT id)
    ∧ ((stT id).rd 0).setWidth 16 = (0 : BitVec 16) ∧ ((stT id).rd 1).setWidth 16 ≠ (0 : BitVec 16) := by decide

/-- An access that passes its checks, whose effect's sources are usable. -/
def okA (s : State) (A : Option Access) : Bool := A.any fun A => match A.check with
  | .ok gs => decide (CanIssue (A.eff gs).srcs s) && (!A.mq || !s.mqFull)
  | _ => false
/-- The memory instructions, by their base register. -/
def loadsT (a : SField) : List Instr :=
  ([Instr.ldI8, .ldN8, .ldI16, .ldN16, .ldI32, .ldN32, .ldI64].map fun f => f ⟨6, a, .wait, 8, 0⟩)
  ++ [.vld ⟨1, a, .wait, 8, 0⟩, .vldf ⟨1, a, .wait, 8, 0, .f32⟩, .vlds ⟨1, a, .wait, 3, .wait, 0, .i32⟩,
    .vgath ⟨1, a, .wait, 3, .wait, 0, .i32⟩, .ldacq ⟨6, a, .wait, false, .pkg⟩]
def storesT (a : SField) : List Instr :=
  ([Instr.st8, .st16, .st32, .st64].map fun f => f ⟨a, .wait, 1, .wait, 8, 0⟩)
  ++ [.vst ⟨a, .wait, 3, .wait, 8, 0⟩, .vsts ⟨1, a, .wait, 3, .wait, 0, .i32⟩, .vscat ⟨1, a, .wait, 3, .wait, 0, .i32⟩,
    .strel ⟨a, .wait, 1, .wait, false, .die⟩]
def atomicsT (a : SField) : List Instr :=
  ([Instr.amoAdd, .amoAnd, .amoOr, .amoXor, .amoMin, .amoMax, .amoMinn, .amoMaxn, .amoSwap, .amoFadd].map fun f =>
    f ⟨6, a, .wait, 1, .wait, true, .die, .ar⟩)
  ++ ([Instr.redAdd, .redFadd, .redMin, .redMax, .redOr].map fun f => f ⟨a, .wait, 1, .wait, false, .pkg, .rel⟩)
  ++ [.cas ⟨6, a, .wait, 1, .wait, 2, .wait, false, .core, .acq⟩]
/-- Loads from the core's own window, from a page of its die's HBM, and from a window of another die. -/
theorem test_wit_Loads : (loadsT 8).all (fun i => okA (pageT id) (loads (pageT id) i)) = true
    ∧ (loadsT 10).all (fun i => okA (pageT id) (loads (pageT id) i)) = true
    ∧ (loadsT 9).all (fun i => okA (pageT id) (loads (pageT id) i)) = true := by decide +kernel
theorem test_wit_Stores : (storesT 8).all (fun i => okA (pageT id) (stores (pageT id) i)) = true
    ∧ (storesT 10).all (fun i => okA (pageT id) (stores (pageT id) i)) = true := by decide +kernel
theorem test_wit_Atomics : (atomicsT 8).all (fun i => okA (pageT id) (atomics (pageT id) i)) = true
    ∧ (atomicsT 10).all (fun i => okA (pageT id) (atomics (pageT id) i)) = true := by decide +kernel
/-- A window address and, trapping, a page address. -/
theorem test_wit_SynchronisingAccesses : ([Instr.ldsy, .ldpk, .ldfe].map fun f => f ⟨6, 8, .wait, 0⟩).all (fun i =>
      (banks (stT id) i).any fun x => (match whereIs 0 x.1 with
        | .win _ _ => true
        | _ => false) && okA (stT id) (some x.2)) = true
    ∧ [Instr.stsy ⟨9, .wait, 1, .wait, 0⟩, .stfl ⟨8, .wait, 1, .wait, 8⟩, .stem ⟨8, .wait, 0⟩].all (fun i =>
      (banks (stT id) i).any fun x => (match whereIs 0 x.1 with
        | .win _ _ => true
        | _ => false) && okA (stT id) (some x.2)) = true
    ∧ NoCancel (stT id) ∧ whereIs 0 (addr (stT id) 10 0) = .page := by decide +kernel
/-- The slot with all of its miss queue taken. -/
def fullT (sl : Slot) : Slot := { sl with pend := (List.range 256).map fun i => { qT (.fence 0) .none with id := i, mq := true } }
/-- A bad address, a misaligned one, one past the partition's scratchpad, a missing translation, a full miss queue. -/
theorem test_wit_AccessFaults : whereIs 0 0x100000000000000 = .bad ∧ whereIs 0 0xF0000000000041 ≠ .bad
    ∧ 0xF0000000000041 % 8 ≠ 0 ∧ whereIs 0 0xF0000000020000 = .win 0 0x20000 ∧ (stT id).padSize 0 < 0x20000 + 8
    ∧ (let off := (stT id).padSize 0 - 4
       whereIs 0 (0xF0000000000000 + off) = .win 0 off ∧ (0xF0000000000000 + off) % 4 = 0 ∧ off < (stT id).padSize 0
       ∧ (stT id).padSize 0 < off + 8)
    ∧ ((loads (stT id) (.ldI64 ⟨6, 8, .wait, 1, 0⟩)).any fun A => match A.check with
      | .trap c _ => c == 4 && decide (CanIssue (A.eff []).srcs (stT id))
      | _ => false) = true
    ∧ ((stores (stT id) (.st64 ⟨10, .wait, 1, .wait, 0, 0⟩)).any fun A => match A.check with
      | .stall _ _ => decide (CanIssue (A.eff []).srcs (stT id))
      | _ => false) = true
    ∧ ((atomics (pageT fullT) (.cas ⟨6, 10, .wait, 1, .wait, 2, .wait, false, .core, .acq⟩)).any fun A => match A.check with
      | .ok _ => A.mq && (pageT fullT).mqFull && decide (CanIssue (A.eff []).srcs (pageT fullT))
      | _ => false) = true := by decide +kernel
theorem test_wit_StoredBytes : 0 < 4 ∧ (∀ i < 2, sameByte (.paged 7 0 0) (byteOn (.paged 8 0 0) i) = false)
    ∧ (∀ i < 2, sameByte (.pad 1 8) (byteOn (.pad 0 8) i) = false) := by decide +kernel
theorem test_wit_Fences : ([Instr.fence, .fenceAcq, .fenceRel, .fenceSc].map fun f => f ⟨.sys⟩).all (fun i => (fences (stT id) i).isSome) = true
    ∧ (stT id).here.run = .active := by decide +kernel
/-- PREF, FLUSH and INVL on a page of the die, a page of another die, a window and a bad address; PIN's three cases. -/
theorem test_wit_CacheControls : CanIssue [.s 10 .wait] (pageT id) ∧ whereIs 0 (addr (pageT id) 10 0) = .page
    ∧ (match (pageT id).xl .read (addr (pageT id) 10 0) 1 with
      | .ok (⟨.paged pa home tag, _⟩ :: _) => pa == 0x20000 && home == 0 && tag == 0
      | _ => false) = true
    ∧ (match (pageT id).xl .read (addr (pageT id) 10 0x10000) 1 with
      | .ok (⟨.paged _ home _, _⟩ :: _) => home == 1
      | _ => false) = true
    ∧ whereIs 0 (addr (pageT id) 8 0) ≠ .page ∧ whereIs 0 (addr (pageT id) 8 0) = .win 0 0x40
    ∧ whereIs 0 (addr (pageT id) 11 0) = .bad ∧ CanIssue [.s 11 .wait] (pageT id)
    ∧ CanIssue [.s 10 .wait, .s 0 .wait] (pageT id) ∧ ((pageT id).rd 0).toNat = 0
    ∧ (let s := pageT fun sl => { sl with sregs := [(10, regT 64 0x20000), (11, regT 64 0x400), (12, regT 64 0x20004)] }
       (s.rd 11).toNat % 512 = 0 ∧ (s.rd 11).toNat ≠ 0 ∧ (s.rd 10).toNat % 512 = 0 ∧ (s.rd 12).toNat % 512 ≠ 0
       ∧ (match s.xl .read (s.rd 10).toNat (s.rd 11).toNat with
        | .ok _ => true
        | _ => false) = true)
    ∧ (match (stT id).xl .read 0x20000 1 with
      | .stall _ _ => true
      | _ => false) = true
    ∧ (match ((stT id).modCore 0 fun C => { C with tlb := [⟨0, 2, 0x20000, 0x6D1, false⟩] }).xl .read 0x20000 1 with
      | .trap _ _ => true
      | _ => false) = true := by decide +kernel

theorem test_wit_SpecialRegisterReadback : ((stT id).part? ((stT id).partOf ⟨0, 3⟩)).isSome = true
    ∧ ((stT id).slotAt ⟨0, 3⟩).run = .active := by decide +kernel
theorem test_wit_SpecialRegisterAccess : csrOfIndex 0x005 = some .turns ∧ csrOfIndex 0x104 = some .tvec ∧ csrOfIndex 0x06F = some (.sfmt 15)
    ∧ (stT id).here.run = .active ∧ (stT supT).here.mode.priv = true ∧ CanIssue [.s 1 .wait] (stT supT)
    ∧ (stT supT).csrLoopFault ⟨0, 3⟩ .tvec 5 = false ∧ (stT id).csrLoopFault ⟨0, 3⟩ .ls 5 = false
    ∧ CanIssue [.s 1 .wait] (stT fun sl => { sl with lc := 2 }) ∧ (stT fun sl => { sl with lc := 2 }).here.lc ≠ 0
    ∧ (stT id).here.lc = 0 ∧ (stT id).rd 1 ≠ 0 ∧ ((stT id).cpAt 0 ((stT id).partOf ⟨0, 3⟩)).cwrites = [] := by decide +kernel
theorem test_wit_SpecialRegisterRows : [(0x110#12, Csr.bjoin), (0x050, .evt), (0x010, .lc), (0x011, .ls), (0x012, .le), (0x020, .frm),
      (0x060, .sfmt 0), (0x103, .tval)].all (fun x => csrOfIndex x.1 == some x.2 && !x.2.readOnly
        && !(stT id).csrLoopFault ⟨0, 3⟩ x.2 0) = true
    ∧ ({ stT id with parts := [(0, { partT with upds := [⟨.tvec, 0x9000, 5, []⟩] })] } : State).part? 0
      = some { partT with upds := [⟨.tvec, 0x9000, 5, []⟩] } := by decide +kernel

/-- A cluster whose copy queue holds all the jobs that the partition may have there. -/
def copyJobT : CopyJob := ⟨1, ⟨0, 3⟩, 0, 0, true, .copy, 0xF0000000000040, 0xF0000000000080, 8, 0, .die, false, false, 0, .s 6⟩
theorem test_wit_CopyRequests : [Instr.copy ⟨6, 8, .wait, 10, .wait, 1, .wait, 0, .die, false, false⟩,
      .copy2 ⟨6, 8, .wait, 10, .wait, 0, .wait, 0, .die, false, false, 64, 64, 64⟩,
      .kvgath ⟨6, 8, .wait, 10, .wait, 1, .wait, 0, .die, false, false, 128, 2⟩].all (fun i => ok (stT id) (copies (stT id) i)) = true
    ∧ ok (stT id) (copies (stT id) (.copy ⟨6, 8, .wait, 10, .wait, 0, .wait, 0, .die, false, false⟩)) = true ∧ (stT id).rd 0 = 0
    ∧ (stT id).copyHeld (clusterOf 0) 0 < 4 * (stT id).slotCount 0
    ∧ (let s := (stT id).modCluster 0 fun K => { K with copyQ := List.replicate 64 copyJobT }
       4 * s.slotCount 0 ≤ s.copyHeld (clusterOf 0) 0) := by decide +kernel
/-- A matrix job of one row. -/
def mmaJobT : MmaJob := {
  id := 1, ref := ⟨0, 3⟩, core := 0, part := 0, user := true, jobNo := 0, a := 0, b := 0, c := 0, bands := none,
  fa := 0, fb := 0, org := 0, mem := 0, idx := [], seed := 0, m := 64, n := 64, k := 32, acc := false, drain := true, epi := false,
  gath := false, pert := false, anti := false, aset := 0, dfmt := .f32, epislot := 3, scope := .die, dest := .s 6 }
/-- A row of it for the tests' slot. -/
def rowT : EpiRow := ⟨1, 3, 0, 64, 0, false, List.replicate 256 0⟩
/-- A run of the job that has computed and drained one row to the buffer. -/
def runT : MmaRun := ⟨mmaJobT, true, 1, 0, none, none, [⟨.pad 0 0x4000, 16384⟩], [], [], false, [], [], false⟩
theorem test_wit_MatrixRequests : CanIssue (mmaSrcs { mmaT with e := 1, pert := true, gath := true, i := 12, msz := 3 }) (stT id)
    ∧ (stT id).mmaHeld (clusterOf 0) 0 < 2 * (stT id).slotCount 0
    ∧ (let s := (stT id).modCluster 0 fun K => { K with mmaQ := List.replicate 32 mmaJobT }
       2 * s.slotCount 0 ≤ s.mmaHeld (clusterOf 0) 0)
    ∧ (stT fun sl => { sl with held := some rowT }).here.held = some rowT ∧ (stT id).here.held = none
    ∧ (((stT id).modCp 0 0 fun cp => { cp with epi := [rowT] }).cpAt 0 0).epi.find? (fun e => e.slot == 3) = some rowT
    ∧ ((stT id).cpAt 0 0).epi.find? (fun e => e.slot == 3) = none ∧ NoCancel (stT id)
    ∧ (∀ x, ((stT id).clusterAt 0).mmaRun = some x → x.job.id ≠ rowT.jobId)
    ∧ (let s := (stT fun sl => { sl with held := some rowT }).modCluster 0 fun K => { K with mmaRun := some runT }
       (s.clusterAt (clusterOf 0)).mmaRun = some runT ∧ runT.job.id = rowT.jobId ∧ runT.job.drain = true
       ∧ CanIssue [.v 12 .wait, .v 13 .wait, .v 14 .wait, .v 15 .wait] s)
    ∧ (let x := { runT with job := { mmaJobT with drain := false, epi := true } }
       let s := (stT fun sl => { sl with held := some rowT }).modCluster 0 fun K => { K with mmaRun := some x }
       (s.clusterAt (clusterOf 0)).mmaRun = some x ∧ x.job.id = rowT.jobId ∧ x.job.drain = false)
    ∧ CanIssue [.s 1 .wait, .s 2 .wait] (stT id) := by
  refine ⟨by decide +kernel, by decide +kernel, by decide +kernel, by decide +kernel, by decide +kernel, by decide +kernel,
    by decide +kernel, by decide +kernel, ?_, by decide +kernel, by decide +kernel, by decide +kernel⟩
  intro x h; cases h
theorem test_wit_UnitRequests_firns : [Instr.finc ⟨6, 0, .wait, false, .die, .ar⟩, .fdec ⟨6, 0, .wait, false, .die, .relaxed⟩,
      .fcan ⟨6, 0, .wait, 1, .wait, true, .die, .relaxed⟩, .fpeek ⟨6, 0, .wait, 1, .wait, false, .die, .acq⟩,
      .join ⟨6, 0, .wait, false, .die, .relaxed⟩, .leave ⟨6, 0, .wait, 1, .wait, false, .die, .relaxed⟩,
      .gbar ⟨6, 0, .wait, false, .die, .relaxed⟩, .fcfg ⟨0, .wait, 1, .wait, 2, .wait, 2, 4, false, true⟩].all
        (fun i => (firns (stT supT) i).any fun x => x.1 == 0 && ok (stT supT) (some x.2)) = true
    ∧ (stT supT).here.mode.priv = true ∧ (stT id).mqFull = false ∧ NoCancel (stT id) := by decide +kernel
theorem test_wit_UnitRequests_contexts : OwnsContext (stT id) 7 ∧ ¬ OwnsContext (stT id) 8 :=
  ⟨⟨partT, rfl, 0, 8, rfl, by decide +kernel, by decide +kernel⟩, fun ⟨P, h, b, n, hb, _, hu⟩ => by
    cases h; cases hb; exact absurd hu (by decide +kernel)⟩
theorem test_wit_UnitRequests : [Instr.tagpub ⟨6, 1, .wait, 2, .wait⟩, .tagwait ⟨6, 1, .wait, 2, .wait⟩, .tagqry ⟨6, 1, .wait⟩,
      .tagret ⟨1, .wait, 2, .wait⟩, .spawn ⟨6, 8, .wait⟩, .fsopen ⟨1, .wait, 2, .wait⟩, .fsclose ⟨1, .wait⟩, .fswait ⟨6, 1, .wait⟩,
      .gpost ⟨6, 1, .wait⟩, .gstat ⟨6⟩].all (fun i => ok (stT id) (unitRequests (stT id) i)) = true
    ∧ (stT id).mqFull = false ∧ NoCancel (stT id) := by decide +kernel
/-- Wire 3 and a clear BJOIN bit; a joined wire with and without an arrival of the core. -/
theorem test_wit_BarrierWires : CanIssue [.s 1 .wait] (stT id) ∧ (stT id).mqFull = false ∧ NoCancel (stT id)
    ∧ State.wireOf 0 3 = none ∧ (State.wireOf 0 1).any (fun x => !(stT id).takesPart 0 x 0) = true
    ∧ (let s := (stT id).modCp 0 0 fun cp => { cp with bjoin := 7 }
       (State.wireOf 0 1).any (fun x => s.takesPart 0 x 0 && !(s.wireAt 0 0 x).arrivals.any (fun a => a.1 == 0)) = true
       ∧ (State.wireOf 0 1).any (fun x =>
          let u := s.setWire 0 0 x { s.wireAt 0 0 x with arrivals := [(0, ⟨0, 4, 5⟩)] }
          u.takesPart 0 x 0 && (u.wireAt 0 0 x).arrivals.any (fun a => a.1 == 0)) = true
       ∧ (State.wireOf 0 1).any (fun x =>
          let u := s.modSlot ⟨0, 4⟩ fun sl => { sl with pend := [qT (.barw x 0) (.s 6)] }
          u.takesPart 0 x 0 && (u.slotAt ⟨0, 4⟩).pend.any (fun q => q.res.isNone && q.kind == .barw x 0) && u.ownerOf 4 == some 0) = true) := by
  decide +kernel
/-- The supervisor's requests: another slot, the slot itself, a slot that the partition does not own, an image at 0x20000. -/
theorem test_wit_SupervisorRequests : CanIssue [.s 1 .wait, .s 10 .wait] (pageT supT) ∧ (pageT supT).here.mode.priv = true
    ∧ State.calvTarget ((pageT supT).rd 1) = ⟨0, 5⟩ ∧ (pageT supT).ownerOf 5 = some (pageT supT).herePart
    ∧ (⟨0, 5⟩ : SlotRef) ≠ (pageT supT).cur
    ∧ State.calvTarget ((pageT fun sl => { supT sl with sregs := [(1, regT 64 3)] }).rd 1) = ⟨0, 3⟩
    ∧ (let s : State := { stT supT with parts := [(0, { partT with cfg := { cfgT with slotMask := 8 } })] }
       s.ownerOf 5 ≠ some s.herePart)
    ∧ (stT id).rd 2 = 7 ∧ ((stT id).rd 2).toNat % 4 = 3 ∧ ((stT id).rd 1).toNat % 4 ≠ 3 := by decide +kernel
/-- The first frame of what a translation found. -/
def firstPa : Xl → Option Nat
  | .ok (⟨.paged pa _ _, _⟩ :: _) => some pa
  | _ => none
theorem firstPa_some {x : Xl} {pa : Nat} (h : firstPa x = some pa) : ∃ h t n gs, x = .ok (⟨.paged pa h t, n⟩ :: gs) := by
  unfold firstPa at h; split at h
  · cases h; exact ⟨_, _, _, _, rfl⟩
  · cases h
theorem test_wit_GoodImage : GoodImage (pageT supT) 0x20000 .write 0x20000 ∧ GoodImage (pageT supT) 0x20000 .read 0x20000 :=
  ⟨⟨by decide +kernel, by decide +kernel, by decide +kernel, firstPa_some (by decide +kernel)⟩,
    by decide +kernel, by decide +kernel, by decide +kernel, firstPa_some (by decide +kernel)⟩
/-- Image addresses that are not canonical, a window's, misaligned, refused, and not translated yet. -/
theorem test_wit_SupervisorRequests_images : canonical 0x100000000000000 = false ∧ whereIs 0 0xF0000000000040 ≠ .page
    ∧ canonical 0x20004 = true ∧ whereIs 0 0x20004 = .page ∧ 0x20004 % 8192 ≠ 0 ∧ whereIs 0 0x40000 = .page ∧ 0x40000 % 8192 = 0
    ∧ (let s := (stT supT).modCore 0 fun C => { C with tlb := [⟨0, 2, 0x20000, 0x680, false⟩] }
       (match s.xl .write 0x20000 8192, s.xl .read 0x20000 8192 with
        | .trap _ _, .trap _ _ => true
        | _, _ => false) = true)
    ∧ (match (stT supT).xl .write 0x40000 8192, (stT supT).xl .read 0x40000 8192 with
      | .stall _ _, .stall _ _ => true
      | _, _ => false) = true := by decide +kernel


/-! ### Events (where a hypothesis names the state that an operation leaves, the witness shows the operation's answer) -/

/-- The tests' machine with die 0 at cycle 20. -/
def lateT (s : State) : State := s.modDie 0 fun D => { D with cycle := 20 }
theorem test_wit_TurnEvents : ((stT fun sl => { sl with interval := some 0, penalty := some 0 }).slotAt ⟨0, 3⟩).interval = some 0
    ∧ ((stT fun sl => { sl with interval := some 0, penalty := some 0 }).slotAt ⟨0, 3⟩).penalty = some 0 ∧ 0 ≤ (stT id).cycleOf 0
    ∧ (((stT id).modCp 0 0 fun cp => { cp with gwrites := [⟨2, 3, regT 64 9⟩] }).cpAt 0 0).gwrites.find? (fun w => w.reg == 2)
      = some ⟨2, 3, regT 64 9⟩
    ∧ (let s := pageT fun sl => { sl with run := .stalled .icache, pc := 0x20040 }
       let e : TlbEntry := ⟨0, 2, 0x20000, 0x6D7, false⟩
       (s.slotAt ⟨0, 3⟩).run = .stalled .icache
       ∧ State.tlbHit (s.coreAt 0).tlb (s.partOf ⟨0, 3⟩) ((s.slotAt ⟨0, 3⟩).pc.toNat / 32 * 32) = some e ∧ s.live (coreDie 0) = true
       ∧ s.readLive (coreDie 0) false [⟨State.entryLoc e ((s.slotAt ⟨0, 3⟩).pc.toNat / 32 * 32), 32⟩] = true)
    ∧ (let s := stT fun sl => { sl with run := .stalled (.walk 0x20000 .read) }
       (s.slotAt ⟨0, 3⟩).run = .stalled (.walk 0x20000 .read) ∧ s.live (coreDie 0) = true
       ∧ (match (s.clusterXl 0 0 0 0x20000 .read true).2 with
        | .inl f => f == 6
        | .inr _ => false) = true
       ∧ (match ((s.modCluster 0 fun K => { K with tlb := [⟨0, 2, 0x20000, 0x6D7, false⟩] }).clusterXl 0 0 0 0x20000 .read true).2 with
        | .inl _ => false
        | .inr e => e.pa == 0x20000) = true)
    ∧ (let s := stT fun sl => { sl with run := .clearing none }
       (s.slotAt ⟨0, 3⟩).run = .clearing none ∧ s.live (coreDie 0) = true
       ∧ ((s.coreAt 0).calving.all fun q => !(q.cmd == .refill && q.slot == 3)) = true) := by decide +kernel
/-- A group whose only member is the tests' task, with a cancellation under way to it. -/
def groupT : Group := ⟨0, 0, 0, 0, 0x8000, 1, [⟨1, none, true, true, none, false⟩], [], 0, 0, 0, false, false, false, 0, 0, 0, 0⟩
theorem test_wit_WaitEvents : Sendable (opT (.sev 0 4) .none) oT (qT (.sev 0 4) .none)
    ∧ (let s := lateT (stT fun sl => { sl with run := .parked (.wfet 7 10) })
       (s.slotAt ⟨0, 3⟩).run = .parked (.wfet 7 10) ∧ 10 < s.cycleOf 0 ∧ s.live (coreDie 0) = true)
    ∧ (let q := qT (.barw 4 0) (.s 6)
       let s := lateT (stT fun sl => { sl with
         run := .parked (.barw 7), pend := [q], cwait := some 10, sregs := [(6, { regT 64 0 with full := false, await := some 7 })] })
       (s.slotAt ⟨0, 3⟩).run = .parked (.barw 7) ∧ (s.slotAt ⟨0, 3⟩).cwait = some 10 ∧ 10 < s.cycleOf 0 ∧ s.live (coreDie 0) = true
       ∧ s.pendAt oT = some q ∧ q.res = none ∧ q.dest = .s 6 ∧ (s.sreg ⟨0, 3⟩ 6).await = some 7 ∧ q.kind = .barw 4 0)
    ∧ ((stT fun sl => { sl with run := .cancelDue 0x1008 }).slotAt ⟨0, 3⟩).run = .cancelDue 0x1008
    ∧ (let s : State := { stT id with groups := [(0, groupT)] }
       s.groupAt 0 = some groupT ∧ (groupT.memberAt 0).due = true ∧ (s.slotAt ⟨0, 3⟩).run = .active
       ∧ (s.slotRefs.find? fun r => (s.slotAt r).task.any fun t => t.sibgrp == 0 && t.member == 0) = some ⟨0, 3⟩
       ∧ s.live 0 = true ∧ s.live (coreDie 0) = true
       ∧ (s.dies.any fun D => !s.live D.1 && D.2.slotTable.any fun e => e.2.valid && e.2.sibgrp == 0 && e.2.member == 0) = false)
    ∧ (let s := stT fun sl => { sl with run := .ending .exit }
       (s.slotAt ⟨0, 3⟩).run = .ending .exit ∧ (s.slotAt ⟨0, 3⟩).pend = [] ∧ s.pushedOut (coreDie 0) = true
       ∧ (s.modDie 0 fun D => { D with dirty := [(lineKey 4 0 1, ⟨1, 1, 1, 0, [], false⟩)] }).pushedOut (coreDie 0) = false) := by decide +kernel
/-- A load of one piece, one of two, fences, TLBINV, a result, and one that its register no longer waits for. -/
theorem test_wit_Deliveries :
    (let k : OpKind := .load [⟨.pad 0 64, 8⟩] (.scalar false 8)
     let s := opT k (.s 6)
     let u := sent s oT (qT k (.s 6))
     Sendable s oT (qT k (.s 6)) ∧ u.segsInU 0 [⟨.pad 0 64, 8⟩] = false ∧ u.readLive 0 false [⟨.pad 0 64, 8⟩] = true)
    ∧ (let gs : List Seg := [⟨.pad 0 64, 4⟩, ⟨.pad 0 68, 4⟩]
       let q := qT (.load gs .vec) (.v 6)
       let s := opT (.load gs .vec) (.v 6)
       Sendable s oT q ∧ (∀ g ∈ gs, (sent s oT q).segsInU 0 [g] = false ∧ (sent s oT q).readLive 0 true [g] = true)
       ∧ 2 ≤ ((List.range gs.length).filter fun i => (Sparse.get? q.got i).isNone).length)
    ∧ Sendable (opT (.fence 3) .none) oT (qT (.fence 3) .none) ∧ Sendable (opT (.fence 1) .none) oT (qT (.fence 1) .none)
    ∧ Sendable (opT (.tlbinv 0x20000 1) (.s 6)) oT (qT (.tlbinv 0x20000 1) (.s 6))
    ∧ (let q : Pend := { qT .gstat (.s 6) with mq := true, arrived := true, res := some (9, .none) }
       let s := stT fun sl => { sl with pend := [q], sregs := [(6, { regT 64 0 with full := false, await := some 7 })] }
       s.pendAt oT = some q ∧ q.res = some (9, .none) ∧ q.dest = .s 6 ∧ s.resumes (slotOf oT) oT.id = false ∧ (s.sreg (slotOf oT) 6).await = some q.id
       ∧ (s.sreg (slotOf oT) 5).await ≠ some q.id) := by decide +kernel
/-- A push that die 1 has sent to die 0. -/
def pushT : Push := ⟨1, 1, 0, 1, 0, [(0x20000, 7)], [0, 0, 0, 0], [], [], [], true⟩
/-- The hypotheses of an atomic's clauses at place l. -/
def atomicT (k : OpKind) (d : Dest) (l : Loc) : Bool :=
  let s := opT k d
  let u := sent s oT (qT k d)
  decide (Sendable s oT (qT k d)) && !u.segsInU 0 [⟨l, 8⟩] && u.readLive 0 true [⟨l, 8⟩] && u.sectorClean 0 l
theorem test_wit_MemoryEvents :
    (let w : Loc × List Byte := (.pad 0 64, [1, 2])
     let s := opT (.store [w]) .none
     let u := sent s oT (qT (.store [w]) .none)
     Sendable s oT (qT (.store [w]) .none) ∧ u.segsInU 0 [⟨w.1, w.2.length⟩] = false ∧ u.writeLive 0 w.1 = true)
    ∧ (let ws : List (Loc × List Byte) := [(.pad 0 64, [1, 2]), (.pad 0 65, [3, 4])]
       let s := opT (.store ws) .none
       let u := sent s oT (qT (.store ws) .none)
       Sendable s oT (qT (.store ws) .none) ∧ 2 ≤ ws.length
       ∧ ∀ w ∈ ws, u.segsInU 0 [⟨w.1, w.2.length⟩] = false ∧ u.writeLive 0 w.1 = true)
    ∧ (let s : State := { stT id with inflight := [pushT] }
       s.inflight[0]? = some pushT ∧ s.pushReady pushT = true ∧ s.live 1 = true ∧ s.live 0 = true ∧ pushT.gen = s.gen 0
       ∧ (pushT.bytes.map fun e => e.1).Nodup ∧ pushT.eng = [])
    ∧ atomicT (.amo (.paged 0x20000 0 0) false .add 5) (.s 6) (.paged 0x20000 0 0) = true
    ∧ atomicT (.cas (.pad 0 64) false 0 5) (.s 6) (.pad 0 64) = true
    ∧ (let k : OpKind := .red (.paged 0x20000 1 0) true .max 5
       let s := opT k .none
       atomicT k .none (.paged 0x20000 1 0) = true ∧ (∀ x ∈ (s.dieAt 0).reds, x.by_ ≠ oT)
       ∧ State.isRemote 0 (.paged 0x20000 1 0) = true ∧ State.isRemote 0 (.pad 0 64) = false)
    ∧ atomicT (.red (.pad 0 64) true .max 5) .none (.pad 0 64) = true
    ∧ (let x : RedReq := ⟨oT, 0, .paged 0x20000 1 0, true, .max, 5⟩
       let s := (stT id).modDie 0 fun D => { D with reds := [x] }
       (s.dieAt (coreDie oT.core)).reds = [x] ∧ x.by_ = oT ∧ s.live 0 = true ∧ (s.redDies x).all s.live = true) := by decide +kernel
/-- An LDSY on its way to its bank, the first of its word in the cycle, and one that waits there. -/
theorem test_wit_BankEvents :
    (let s := opT (.bank 0 64 .ldsy 0) (.s 6)
     Sendable s oT (qT (.bank 0 64 .ldsy 0) (.s 6))
     ∧ ([1, 64].all fun n => ((List.range n).map fun k => 64 / 8 + k).all fun w => (Sparse.get (0, 0) (s.cpAt 0 0).lastReq w).1 != s.cycleOf 0 + 1) = true
     ∧ s.isKilled (slotOf oT) = false ∧ (∀ x ∈ s.spilled, x.holds oT.id = false)
     ∧ s.pendAt oT = some (qT (.bank 0 64 .ldsy 0) (.s 6)) ∧ (∀ x ∈ s.spilled, x.stands 7 = false)
     ∧ (s.slotAt (slotOf oT)).cwait = none ∧ s.padPoisoned 0 0 64 = false) := by decide +kernel

/-- A copy of 40 bytes between two places of core 0's window, and the run of it that has moved nothing. -/
def copyT : CopyJob := { copyJobT with cnt := 40 }
def copyRunT : CopyRun := ⟨copyT, .bytes, [], none, []⟩
/-- A discarded job whose token waits for its release. -/
def goneT (copy : Bool) : GoneJob := ⟨1, ⟨0, 3⟩, .s 6, 0, .die, copy⟩
/-- The bytes of its first destination sector. -/
def copySecT : List (Nat × Nat) := (rowIn (copyRow ((stT id).jobScale copyT) copyT .bytes 0) (0xF0000000000040 / 128)).map fun i => (0, i)
theorem test_wit_CopyEvents :
    (let s := (stT id).modCluster 0 fun K => { K with copyQ := [copyT] }
     (s.clusterAt 0).copyRun = none ∧ s.live (0 / 32) = true
     ∧ (drrPick s.weightOf (fun p => (s.clusterAt 0).copyQ.any fun j => j.part == p) (s.clusterAt 0).copyLast (s.clusterAt 0).copyCredit).any
        (fun x => x.1 == 0) = true
     ∧ (s.clusterAt 0).copyQ.find? (fun j => j.part == 0) = some copyT ∧ s.jobMayStart copyT.ref copyT.id = true
     ∧ s.copyPlanWaits 0 copyT = false ∧ (s.copyPlan 0 copyT).2 = .inr .bytes ∧ (s.copyPlan 0 { copyT with cnt := 2 ^ 33 }).2 = .inl 7)
    ∧ (let s := (stT id).modCluster 0 fun K => { K with copyRun := some copyRunT }
       let sec := 0xF0000000000040 / 128
       (s.clusterAt 0).copyRun = some copyRunT ∧ sec < 2 ^ 57 ∧ sec ∉ copyRunT.moved
       ∧ copyRowsIn (s.jobScale copyT) copyT .bytes sec = [0] ∧ copySecT.length = 40
       ∧ (let x := s.copyPlaces 0 copyT .bytes copySecT
          x.2.2 = none ∧ x.1.segsInU 0 (x.2.1.flatMap fun e => e.1.toList.map (fun l => ⟨l, 1⟩) ++ [⟨e.2.1, 1⟩]) = false
          ∧ x.1.readLive 0 false (x.2.1.flatMap fun e => e.1.toList.map fun l => ⟨l, 1⟩) = true
          ∧ (∀ e ∈ x.2.1, x.1.writeLive 0 e.2.1 = true ∧ placed e.2.1 = true)
          ∧ (x.2.1.map fun e => e.2.1).Pairwise (fun a b => sameByte a b = false) ∧ copyT.fillfe = false)
       ∧ (s.copyPlaces 0 { copyT with dst := 0xF0000000020000 } .bytes [(0, 0)]).2.2 = some (7, 0)
       ∧ s.scopeDone 0 .die = true)
    ∧ (let x : CopyRun := { copyRunT with moved := [0xF0000000000040 / 128] }
       let s := (stT id).modCluster 0 fun K => { K with copyRun := some x }
       s.copyOver x = true ∧ x.job.stamp = false ∧ s.live (0 / 32) = true ∧ s.scopeDone (0 / 32) x.job.scope = true
       ∧ (∀ j ∈ (s.clusterAt 0).gone, j.copy = false))
    ∧ (let s := (stT id).modCluster 0 fun K => { K with gone := [goneT true] }
       (s.clusterAt 0).copyRun = none ∧ (s.clusterAt 0).gone = [goneT true] ∧ s.live (0 / 32) = true ∧ s.scopeDone (0 / 32) .die = true
       ∧ ∀ e ∈ s.jobPends (goneT true).ref (goneT true).id, e.id < (goneT true).id → e.res = none → State.isStore e = false) := by decide +kernel
theorem test_wit_MatrixEvents :
    (let j : MmaJob := { mmaJobT with a := 0xF0000000000000, b := 0xF0000000002000, c := 0xF0000000004000, fa := 4, fb := 4 }
     let s := (stT id).modCluster 0 fun K => { K with mmaQ := [j] }
     (s.clusterAt 0).mmaRun = none ∧ s.live (0 / 32) = true
     ∧ (drrPick s.weightOf (fun p => (s.clusterAt 0).mmaQ.any fun j => j.part == p) (s.clusterAt 0).mmaLast (s.clusterAt 0).mmaCredit).any
        (fun x => x.1 == 0) = true
     ∧ (s.clusterAt 0).mmaQ.find? (fun j => j.part == 0) = some j ∧ s.jobMayStart j.ref j.id = true
     ∧ (match s.mmaCheck 0 j with
      | (u, .inr (_, bs)) => !u.segsInU 0 bs && u.readLive 0 false bs
      | (_, .inl _) => false) = true
     ∧ (s.mmaCheck 0 { j with aset := 4 }).2 = .inl 7)
    ∧ (let x := { runT with computed := false, nextRow := 0 }
       let s := (stT id).modCluster 0 fun K => { K with mmaRun := some x }
       (s.clusterAt 0).mmaRun = some x ∧ x.computed = false ∧ x.unseen = false ∧ x.told = false ∧ s.live 0 = true
       ∧ (∀ r ∈ x.read, r.bad = false))
    ∧ (let s := (stT id).modCluster 0 fun K => { K with mmaRun := some runT }
       (s.clusterAt 0).mmaRun = some runT ∧ runT.computed = true ∧ runT.unseen = false ∧ runT.fault = none
       ∧ runT.nextRow < runT.job.m ∧ runT.job.drain = true ∧ runT.job.epi = false)
    ∧ (let x := { runT with job := { mmaJobT with drain := false, epi := true } }
       let s := (stT id).modCluster 0 fun K => { K with mmaRun := some x }
       x.job.epi = true ∧ (s.cpAt 0 0).epi.length < 8 ∧ (s.slotAt ⟨0, 3⟩).run = .active)
    ∧ (let w : Loc × List Byte := (.pad 0 0x4000, [1, 2])
       let x := { runT with cout := [w] }
       let s := (stT id).modCluster 0 fun K => { K with mmaRun := some x }
       (s.clusterAt 0).mmaRun = some x ∧ s.segsInU 0 [⟨w.1, w.2.length⟩] = false ∧ s.writeLive 0 w.1 = true)
    ∧ (let x := { runT with fullSince := some 4 }
       let s := ((stT id).modCluster 0 fun K => { K with mmaRun := some x }).modDie 0 fun D => { D with cycle := 70000 }
       (s.clusterAt 0).mmaRun = some x ∧ x.fault = none ∧ x.fullSince = some 4 ∧ 4 + 65536 ≤ s.cycleOf x.job.core)
    ∧ (let s := (stT id).modCluster 0 fun K => { K with mmaDone := [runT] }
       (s.clusterAt 0).mmaDone ++ (s.clusterAt 0).mmaRun.toList.filter MmaRun.over = [runT]
       ∧ s.scopeDone (0 / 32) runT.job.scope = true ∧ ∀ j ∈ (s.clusterAt 0).gone, j.copy = true)
    ∧ (let s := (stT id).modCluster 0 fun K => { K with gone := [goneT false] }
       (s.clusterAt 0).mmaDone = [] ∧ (s.clusterAt 0).mmaRun = none ∧ (s.clusterAt 0).gone = [goneT false] ∧ s.live (0 / 32) = true
       ∧ s.scopeDone (0 / 32) .die = true
       ∧ ∀ e ∈ s.jobPends (goneT false).ref (goneT false).id, e.id < (goneT false).id → e.res = none → State.isStore e = false)
    ∧ 63 < mmaJobT.m ∧ 0 < mmaJobT.n ∧ mmaJobT.m ≤ 256 ∧ mmaJobT.n ≤ 256 := by decide +kernel
/-- The terms of a group: a NaN, infinities of both signs, zeros, and 1, whose magnitude is from 2^0 to below 2^1. -/
theorem test_wit_MatrixEvents_groups :
    (let terms := fun (ps : List (Machine.Num × Machine.Num)) (acc : Nat) => fmtF32.decode acc :: ps.map fun p => (numMul p.1 p.2).1
     (∃ t ∈ terms [] 0x7FC00000, t.isNan = true) ∧ .inf false ∈ terms [] 0x7F800000 ∧ .inf true ∈ terms [] 0xFF800000
     ∧ (¬ ∃ t ∈ terms [] 0x7F800000, t.isNan = true) ∧ .inf true ∉ terms [] 0x7F800000
     ∧ (.inf false ∈ terms [(.inf true, .fin false 1 0)] 0x7F800000 ∧ .inf true ∈ terms [(.inf true, .fin false 1 0)] 0x7F800000))
    ∧ fmtF32.decode 0 = .fin false 0 (-149) ∧ realOf (.fin false 0 (-149)) = 0
    ∧ fmtF32.decode 0x3F800000 = .fin false (2 ^ 23) (-23) ∧ |realOf (.fin false (2 ^ 23) (-23))| < (2 : ℝ) ^ ((0 : Int) + 1)
    ∧ (2 : ℝ) ^ (0 : Int) ≤ |realOf (.fin false (2 ^ 23) (-23))| := by
  refine ⟨by decide, by decide, ?_, by decide, ?_, ?_⟩ <;> norm_num [realOf]
/-- A sector of an operand that was poisoned when the job read it. -/
theorem test_wit_MatrixEvents_poisoned : ∃ r ∈ [(⟨.pad 0 0, List.replicate 128 0, true⟩ : SecRead)], r.bad = true := by decide
theorem test_wit_BalancerLaw : [(1, 0), (2, 3)].Nodup := by decide

/-- A counter of width 4 with a token in its layer, and the same token when it has passed every layer. -/
def tokT (layer : Nat) : FirnTok := ⟨7, ⟨0, 3⟩, 4, .finc, false, 1, layer, 0, 0⟩
def planeT (layer : Nat) : State := (stT id).modDie 0 fun D => { D with
  firn := [(4, { FirnCtx.init with cfg := true, wcode := 2 })], tokens := [tokT layer] }
/-- A waiting FCFG. -/
def fcfgT : FirnHeld := ⟨7, ⟨0, 3⟩, 4, some ⟨100, 0, 2, 4, false, true⟩, .finc, 0, false, 0⟩
/-- A request of the tests' slot in its plane's port, on context ctx, beside contexts of state x at ctx and of one wire at 5. -/
def portedT (op : FirnOp) (ctx : Nat) (arg : Word) : FirnHeld := ⟨7, ⟨0, 3⟩, ctx, none, op, arg, false, 0⟩
def portT (h : FirnHeld) (x : FirnCtx) : State := (stT id).modDie 0 fun D => { D with
  firn := [(4, x), (5, { FirnCtx.init with cfg := true })], port := [h] }
/-- It may enter. -/
def entersT (h : FirnHeld) (x : FirnCtx) : Bool :=
  let s := portT h x
  decide (InPort s oT 0 h) && decide (MayEnter s 0 h) && s.ctxAt 0 4 == x && (s.ctxAt 0 5).cfg && s.ownsCtx 0 0 5
/-- A configured context of width 4 that has handed out 0. -/
def ctxT : FirnCtx := { FirnCtx.init with cfg := true, wcode := 2, cnt := [(0, 1)] }
theorem test_wit_FirnEvents_admission :
    (let s := opT (.firn 0 4 .finc 0 false) (.s 6)
     Sendable s oT (qT (.firn 0 4 .finc 0 false) (.s 6)) ∧ s.live 0 = true ∧ ∀ d' < 4, ∀ h ∈ (s.dieAt d').port, h.id ≠ oT.id)
    ∧ (let h := portedT .finc 4 0
       let k : FirnHeld := { h with id := 8, ref := ⟨0, 2⟩ }
       let s := (stT id).modDie 0 fun D => { D with port := [h, k] }
       InPort s oT 0 h ∧ k ∈ (s.dieAt 0).port ∧ k.id ≠ oT.id ∧ k.part = h.part ∧ s.heldStands 0 k = false
       ∧ s.heldWire 0 k = s.heldWire 0 h ∧ slotKey k.ref < slotKey h.ref)
    ∧ [FirnOp.finc, .fdec, .fcan, .fpeek, .join, .leave, .gbar].all (fun op => entersT (portedT op 4 1) ctxT
        && entersT (portedT op 4 1) { ctxT with queue := [0] } && entersT (portedT op 4 1) { ctxT with cfg := false }
        && entersT (portedT op 4 0) ctxT && entersT (portedT op 4 0) { ctxT with queue := [1, 2, 3, 4, 5, 6, 7, 8] }
        && (let s := portT (portedT op 5 0) ctxT
            decide (InPort s oT 0 (portedT op 5 0)) && decide (MayEnter s 0 (portedT op 5 0)))) = true
    := by decide +kernel
/-- Waiting behind an FCFG, for a cycle, for a wire; refusals; an FCFG that enters. -/
theorem test_wit_FirnEvents_port :
    (let h := portedT .finc 4 0
       let s := (portT h ctxT).modDie 0 fun D => { D with held := [fcfgT] }
       InPort s oT 0 h ∧ ∃ k ∈ (s.dieAt 0).held, k.ctx = h.ctx)
    ∧ (let h := portedT .finc 4 0
       let s : State := { portT h ctxT with parts := [(0, { partT with cfg := { cfgT with slotMask := 8 } })] }
       InPort s oT 0 h ∧ s.ownerOf ((s.dieAt 0).cycle % 16) ≠ some h.part)
    ∧ (let h := portedT .finc 4 0
       let s := (portT h ctxT).modDie 0 fun D => { D with wiresCycle := D.cycle, wiresUsed := [(portT h ctxT).heldWire 0 h] }
       InPort s oT 0 h ∧ (s.dieAt 0).wiresCycle = (s.dieAt 0).cycle ∧ s.heldWire 0 h ∈ (s.dieAt 0).wiresUsed)
    ∧ [FirnOp.leave, .gbar].all (fun op => let h := portedT op 4 0
       let s : State := { portT h ctxT with parts := [(0, { partT with cfg := { cfgT with firn := [(0, 5), (0, 8), (0, 8), (0, 8)] } })] }
       decide (InPort s oT 0 h) && decide (MayEnter s 0 h) && !s.ownsCtx h.part 0 (h.ctx + 1)) = true
    ∧ (let h := portedT .gbar 4 0
       let s := (portT h ctxT).modDie 0 fun D => { D with firn := [(4, ctxT)] }
       InPort s oT 0 h ∧ MayEnter s 0 h ∧ (s.ctxAt 0 (h.ctx + 1)).cfg = false)
    ∧ (InPort (portT fcfgT ctxT) oT 0 fcfgT ∧ MayEnter (portT fcfgT ctxT) 0 fcfgT ∧ fcfgT.fcfg.isSome = true) := by
  refine ⟨?_, by decide +kernel, by decide +kernel, by decide +kernel, by decide +kernel, by decide +kernel⟩
  exact ⟨by decide +kernel, fcfgT, List.mem_singleton.2 rfl, rfl⟩
/-- 1 has not been handed out and 0 has, in a context of BASE 0. -/
theorem test_wit_FirnEvents_out : NotOut ctxT 1 ∧ ¬ NotOut ctxT 0 ∧ ¬ NotOut { ctxT with queue := [1, 2, 3, 4, 5, 6, 7, 8] } 0 := by
  unfold NotOut; decide +kernel
/-- Balancers on either input; exits of each request, at the end of a phase and before it; GBARs that wait; an FCFG that applies. -/
theorem test_wit_FirnEvents :
    ((planeT 0).dieAt 0).tokens.find? (fun t => t.id == 7) = some (tokT 0) ∧ (planeT 0).live 0 = true
    ∧ (tokT 0).layer < firnLayers ((planeT 0).ctxAt 0 (tokT 0).ctx).wcode ∧ ((planeT 0).dieAt 0).balUsed = []
    ∧ ((planeT 3).dieAt 0).tokens.find? (fun t => t.id == 7) = some (tokT 3)
    ∧ firnLayers ((planeT 3).ctxAt 0 (tokT 3).ctx).wcode ≤ (tokT 3).layer
    ∧ [FirnOp.finc, .join, .fdec].all (fun op => let t := { tokT 3 with op := op }
        (((planeT 3).modDie 0 fun D => { D with tokens := [t] }).dieAt 0).tokens.find? (fun t => t.id == 7) == some t) = true
    ∧ [(0#40, true), (1#40, false)].all (fun x => let t : FirnTok := { tokT 3 with op := .gbar, ctx := 5, wire := 0 }
        let s := (stT fun sl => { sl with run := .parked (.gbar 7) }).modDie 0 fun D => { D with
          firn := [(4, { ctxT with target := x.1 }), (5, { FirnCtx.init with cfg := true })], tokens := [t] }
        (s.dieAt 0).tokens.find? (fun t => t.id == 7) == some t && decide (t.ctx % 2 = 1) && s.ownsCtx t.part 0 4
        && decide ((s.ctxAt 0 5).count 0 * (s.ctxAt 0 5).width + 0 = (s.ctxAt 0 4).target.toInt) == x.2
        && decide (¬ 0 < ((s.ctxAt 0 4).phase - t.tag).toInt) && (s.slotAt t.ref).run == .parked (.gbar t.id)) = true
    ∧ (let w : GbarWait := ⟨7, ⟨0, 3⟩, 4, 0⟩
       let s := (stT id).modDie 0 fun D => { D with gbars := [w] }
       (s.dieAt 0).gbars = w :: [] ∧ w.ctx = 4 ∧ 0 < ((s.ctxAt 0 4).phase + 1 - w.tag).toInt ∧ ((stT id).dieAt 0).gbars = [])
    ∧ (let s := (stT id).modDie 0 fun D => { D with held := [fcfgT] }
       (s.dieAt 0).held = fcfgT :: [] ∧ fcfgT.fcfg = some ⟨100, 0, 2, 4, false, true⟩ ∧ s.ctxBusy 0 fcfgT.ctx = false
       ∧ s.live 0 = true ∧ (s.dieAt 0).gbars = [])
    ∧ ((planeT 0).ctxAt 0 4).cfg = true := by decide +kernel

/-- A TAGWAIT at its home: key 0x123, expected generation 5, with the entry that its die has. -/
def tagwT (arg : Word) (entry : Option (BitVec 16)) (mode : Bool) : State :=
  let s := (stT fun sl => { sl with run := .parked (.tagwait 7), pend := [{ qT (.tag 0x123 .wait arg) (.s 6) with arrived := true }] }).modDie
    (tagHome 0x123) fun D => { D with rime := entry.toList.map fun e => (0x123, e) }
  { s with overflow := if mode then [0] else [] }
theorem test_wit_UnitEvents_tagwait : (let s := tagwT 5 none false
     s.pendAt oT = some { qT (.tag 0x123 .wait 5) (.s 6) with arrived := true } ∧ (s.slotAt (slotOf oT)).run = .parked (.tagwait 7)
     ∧ (s.slotAt (slotOf oT)).cwait = none ∧ s.inOverflow 0 (tagBuf 0x123) = false ∧ s.tagGen 0 0x123 = none)
    ∧ (tagwT 5 (some 5) false).tagGen 0 0x123 = some 5 ∧ (tagwT 5 (some 4) false).tagGen 0 0x123 = some 4 ∧ genNewer 4 5 = false
    ∧ (tagwT 5 (some 6) false).tagGen 0 0x123 = some 6 ∧ genNewer 6 5 = true
    ∧ (tagwT 5 none true).inOverflow 0 (tagBuf 0x123) = true ∧ (5#64).getLsbD 24 = false
    ∧ (0x1000005#64).getLsbD 24 = true ∧ ((tagwT 0x1000005 none true).scopeAt 0 0).members = 0
    ∧ (({ tagwT 0x1000005 none true with scopes := [(0, { Fscope.init with members := 1 })] } : State).scopeAt 0 0).members ≠ 0 := by
  decide +kernel
theorem test_wit_UnitEvents : Sendable (opT (.barw 4 0) (.s 6)) oT (qT (.barw 4 0) (.s 6))
    ∧ (let s := lateT (opT (.barw 4 9) (.s 6))
       Sendable s oT (qT (.barw 4 9) (.s 6)) ∧ s.pendAt oT = some (qT (.barw 4 9) (.s 6)) ∧ 9 ≠ 0 ∧ 9 < s.cycleOf oT.core
       ∧ s.live (coreDie oT.core) = true ∧ s.resumes (slotOf oT) oT.id = false)
    ∧ (opT (.barw 4 9) (.s 6)).cycleOf oT.core ≤ 9
    ∧ [(0x123, TagOp.qry), (0x123, .pub), (0x123, .wait), (0x123, .ret), (0xFFFFFFFFFF, .qry)].all (fun x =>
        decide (Sendable (opT (.tag x.1 x.2 5) (.s 6)) oT (qT (.tag x.1 x.2 5) (.s 6)))) = true
    ∧ tagWide 0x123 = false ∧ tagWide 0xFFFFFFFFFF = true
    ∧ [OpKind.fsclose 3, .fsopen 3 2, .fswait 3].all (fun k => let s : State := { opT k .none with scopeQ := [.op oT] }
        decide (s.scopeQ[0]? = some (.op oT)) && decide (Sendable s oT (qT k .none)) && s.scopeTurn 0 (slotKey (slotOf oT))) = true
    ∧ (let s : State := { stT id with scopes := [(3, { Fscope.init with members := 1 })] }
       (s.scopeAt 0 3).members = 1 ∧ (s.scopeAt 0 3).parent = none ∧ (s.scopeAt 0 4).members = 0)
    ∧ [OpKind.gstat, .gpost 5].all (fun k => let s := (opT k (.s 6)).modSlot ⟨0, 3⟩ fun sl => { sl with
        task := some { (default : Task) with member := 255 } }
        decide (Sendable s oT (qT k (.s 6))) && (s.memberOf (slotOf oT)).isNone) = true
    ∧ [OpKind.gstat, .gpost 5].all (fun k => let s : State := { opT k (.s 6) with groups := [(0, groupT)] }
       decide (Sendable s oT (qT k (.s 6))) && s.memberOf (slotOf oT) == some (0, 0) && s.groupAt 0 == some groupT && s.groupLive groupT) = true
    ∧ (let s : State := { stT id with memberQ := [default], groups := [(0, groupT)] }
       s.memberQ[0]? = some default ∧ s.live 0 = true ∧ (default : MemberEnd).group = 0 ∧ s.groupAt 0 = some groupT ∧ s.groupLive groupT = true)
    ∧ (let s : State := { stT id with latchQ := [(⟨0, 3⟩, default)] }
       s.latchQ[0]? = some (⟨0, 3⟩, default) ∧ (s.slotAt ⟨0, 3⟩).run = .active ∧ s.live 0 = true) := by decide +kernel

/-- A launch of one task that is eligible. -/
def launchT : Launch := {
  lseq := 0, order := 0, part := 0, prio := 0, scope := 0, entry := 0x20000, arg := 0, taskN := 1, cluhint := 0xFFFF, det := false
  release := none, fired := true, inputs := [], fbscope := 0, payload := none, sibn := 0, quorum := 0, handler := 0, groups := []
  super := false, divAll := [], low := 0, tasks := [(0, .eligible)], ended := 0 }
/-- A request at core 0's Calving engine that names slot 3. -/
def calvT (cmd : CalvCmd) : CalvReq := ⟨cmd, 3, 0, 0x20000, 0x20000, .slot ⟨0, 4⟩ default, ⟨4, []⟩⟩
theorem test_wit_MigrationEvents :
    (let s := (stT id).modCore 0 fun C => { C with calvQ := [calvT .spill] }
     (s.coreAt 0).calving = none ∧ s.live (coreDie 0) = true ∧ (s.coreAt 0).calvQ = [calvT .spill]
     ∧ s.pushedOut (calvT .spill).prior.die = true ∧ (s.slotAt ⟨0, 3⟩).run = .active)
    ∧ (let s := (stT fun sl => { sl with run := .cancelDue 0x1008 }).modCore 0 fun C => { C with calvQ := [calvT .spill] }
       (s.coreAt 0).calvQ = [calvT .spill] ∧ (s.slotAt ⟨0, 3⟩).run = .cancelDue 0x1008)
    ∧ (let s := (stT fun sl => { sl with run := .saving none }).modCore 0 fun C => { C with calving := some (calvT .spill) }
       (s.coreAt 0).calving = some (calvT .spill) ∧ s.priorDone (calvT .spill).prior = true ∧ s.pushedOut (coreDie 0) = true
       ∧ (s.slotAt ⟨0, 3⟩).run = .saving none ∧ s.spillReady ⟨0, 3⟩ none = true
       ∧ s.devLive (calvT .spill).part (calvT .spill).pa 8192 = true ∧ (calvT .spill).part < 4)
    ∧ (let s := (stT fun sl => { sl with run := .free }).modCore 0 fun C => { C with calvQ := [calvT .refill] }
       (s.coreAt 0).calving = none ∧ (s.coreAt 0).calvQ = [calvT .refill] ∧ s.priorDone (calvT .refill).prior = true
       ∧ (s.slotAt ⟨0, 3⟩).run = .free ∧ s.devLive (calvT .refill).part (calvT .refill).pa 8192 = true ∧ s.looseIn 0 = false)
    ∧ (let s := (stT id).modDie 0 fun D => { D with launches := [(0, launchT)] }
       let q := calvT .refill
       s.imageAt q 0x1200 ≠ 2 ^ 64 - 1 ∧ s.imageLive q (s.imageTask q) = true ∧ s.imagePoisoned q = false
       ∧ s.imageRecord q (s.imageTask q) = none)
    ∧ (let s := (stT fun sl => { sl with run := .clearing none }).modCore 0 fun C => { C with calving := some (calvT .refill) }
       (s.coreAt 0).calving = some (calvT .refill) ∧ (calvT .refill).cmd = .refill ∧ (s.slotAt ⟨0, 3⟩).run = .clearing none)
    ∧ (let s := opT (.calving .kill 0 4 0) .none
       s.pendAt oT = some (qT (.calving .kill 0 4 0) .none) ∧ s.live (coreDie 0) = true ∧ ((s.finishOp oT).coreAt 0).calvQ = [])
    ∧ (let s := (opT (.calving .kill 0 4 0) .none).modCore 0 fun C => { C with calvQ := [calvT .spill] }
       ((s.finishOp oT).coreAt 0).calvQ = calvT .spill :: [] ∧ (calvT .spill).cmd ≠ .kill ∧ (calvT .spill).cmd ≠ .refill) := by
  decide +kernel
/-- A page table at 0 that maps the lowest 512 MiB to themselves, and, before its lower tables, other bytes. -/
def memT (bs : Memory) : Memory := [(0, 1), (3, 0x10)] ++ bs ++ [(0x1000000, 1), (0x1000002, 0x10), (0x1000003, 0x10), (0x1010000, 0xD7)]
/-- The partition with queues 0 to 63, of which 8 is its control queue. -/
def partQ : Partition := { partT with cfg := { cfgT with qranges := [(0, 64)], cq := 8, wins := [⟨0x1000, 0x100, true, true, true⟩] } }
/-- A ring of 16 messages in the frame given, which holds one. -/
def queueT (frame len : Nat) : Queue := { Queue.init with isSet := true, frames := [frame], j := 4, entries := [⟨len, 5⟩], nextSeq := 6 }
/-- The machine with messages in queue 4 (bytes from 0x40000) and in its control queue (bytes from 0x50000). -/
def msgT (bs : Memory) : State := { stT id with
  parts := [(0, partQ)], hbm := memT bs, queues := [(4, queueT 0x40000 32), (8, queueT 0x50000 64)] }
/-- The machine whose control queue holds one message alone. -/
def ctlT (bs : Memory) : State := { msgT bs with queues := [(8, queueT 0x50000 64)] }
/-- A packet of one task whose entry is 0x20000 (R11 to R18). -/
def packetT : Memory := [(0x40000, 1), (0x40001, 2), (0x4000A, 2), (0x40010, 1)]
/-- A completion record that waits. -/
def recT (sl : Bool) : RecOut := ⟨8, 5, 1, 0, 0, false, 0, sl⟩

theorem test_wit_QueueEvents_messages : 4 < 65536 ∧ (msgT []).live (4 % 4) = true ∧ (msgT []).jobBound 9 = true
    ∧ (msgT []).queueOwner 4 = some 0 ∧ (msgT []).part? 0 = some partQ ∧ 9 ∈ partQ.cfg.jobs ∧ ((msgT []).queueAt 4).isSet = true
    ∧ ((msgT []).queueAt 5).isSet = false ∧ (msgT []).isControl 4 = false ∧ 32 % 16 = 0
    ∧ ((msgT []).queueAt 4).entries.length < 2 ^ ((msgT []).queueAt 4).j
    ∧ (let Q := (msgT []).queueAt 4
       (msgT []).devLive 0 (State.queuePa Q (Q.head + Q.entries.length) 0) 32 = true)
    ∧ (let s := (msgT []).modQueue 4 fun Q => { Q with entries := List.replicate 16 ⟨32, 0⟩ }
       2 ^ (s.queueAt 4).j ≤ (s.queueAt 4).entries.length) := by decide +kernel
/-- A packet of queue 4 that passes, that fails, that waits short of groups. -/
theorem test_wit_QueueEvents_packets : (msgT packetT).queueOwner 4 = some 0 ∧ ((msgT packetT).queueAt 4).entries = ⟨32, 5⟩ :: []
    ∧ (msgT packetT).isNext 4 = true ∧ (msgT packetT).isControl 4 = false ∧ (msgT packetT).headLive 0 ((msgT packetT).queueAt 4) = true
    ∧ (msgT packetT).acceptOpen (4 % 4) 0 = true ∧ ((msgT packetT).queueAt 4).waits = none
    ∧ (let v := msgT packetT
       match v.checkPacket (4 % 4) 0 (v.headBytes 0 (v.queueAt 4)) (some 32) with
       | (u, .ok _ recs) => recs == [] && u.queues == v.queues && u.freeLaunch (4 % 4) == some 0 && u.groupsOk 0 []
       | _ => false) = true
    ∧ (let v := msgT []
       let x := v.checkPacket (4 % 4) 0 (v.headBytes 0 (v.queueAt 4)) (some 32)
       x.2 = .reject 1 ∧ x.1.queues = v.queues)
    ∧ (let v := (msgT packetT).modQueue 4 fun Q => { Q with waits := some ⟨default, []⟩ }
       (v.queueAt 4).waits = some ⟨default, []⟩ ∧ v.isNext 4 = true) := by decide +kernel
theorem test_wit_QueueEvents_short : 4096 < (List.replicate 4097 ((0, 0) : Nat × Nat)).length + (stT id).groups.length := by
  rw [List.length_replicate]; decide
/-- A SPAWN of a packet of one task at 0x20000, at a misaligned address, of a page without read, of a wrong VER and a wrong LEN16. -/
def spawnT (bs : Memory) (pte : Word) : State :=
  let k : OpKind := .spawn 0x20000 false
  { (opT k (.s 6)).modCluster 0 fun K => { K with tlb := [⟨0, 2, 0x20000, pte, false⟩] } with hbm := bs }
/-- The packet with its second byte given. -/
def packetAt (ver len : Byte) : Memory := [(0x20000, ver), (0x20001, len), (0x2000A, 2), (0x20010, 1)]
theorem test_wit_QueueEvents_spawn :
    (let s := spawnT (packetAt 1 2) 0x6D7
     let q := qT (.spawn 0x20000 false) (.s 6)
     let u := sent s oT q
     Sendable s oT q ∧ s.acceptOpen 0 0 = true ∧ s.freeLaunch 0 ≠ none ∧ Sparse.get? (s.dieAt 0).spawned 7 = none
     ∧ (0x20004#64).toNat % 16 ≠ 0 ∧ (0x20000#64).toNat % 16 = 0
     ∧ (match u.spawnRead oT 0x20000 16 false with
       | (v, .inr h) => msgNat h 0 1 == 1 && msgNat h 1 1 == 2 && (match v.spawnRead oT 0x20010 16 false with
         | (w, .inr t) => (match w.checkPacket 0 0 (h ++ t) none with
           | (x, .ok _ recs) => x.freeLaunch 0 == some 0 && x.groupsOk recs.length [] && x.partOf ⟨0, 3⟩ == 0
           | _ => false)
         | _ => false)
       | _ => false) = true)
    ∧ (match (spawnT (packetAt 1 2) 0x6D5).spawnRead oT 0x20000 16 false with
      | (_, .inl f) => f != 0
      | _ => false) = true
    ∧ [packetAt 2 2, packetAt 1 1].all (fun m => match (spawnT m 0x6D7).spawnRead oT 0x20000 16 false with
      | (_, .inr h) => msgNat h 0 1 != 1 || decide (msgNat h 1 1 < 2)
      | _ => false) = true := by decide +kernel
theorem test_wit_QueueEvents_records : ({ stT id with parts := [(0, { partQ with recs := [recT false] })] } : State).part? 0
      = some { partQ with recs := [recT false] } ∧ (recT false).slaunch = false ∧ (stT id).live ((recT false).queue % 4) = true
    ∧ (stT id).allPushed = true := by decide +kernel
theorem test_wit_TransportEvents : (msgT []).jobBound 10 = false ∧ (msgT []).jobBound 9 = true
    ∧ (msgT []).rmaWindow 9 0x1FFF 8 true = none ∧ (msgT []).rmaWindow 9 0x10F9 8 false = none
    ∧ (msgT []).rmaWindow 9 0x10F8 8 true = some (0, ⟨0x1000, 0x100, true, true, true⟩)
    ∧ (msgT []).rmaWindow 9 0x1000 8 false = some (0, ⟨0x1000, 0x100, true, true, true⟩) ∧ 0x10F8 + 8 ≤ 2 ^ 39
    ∧ (msgT []).live (2 / 3) = true ∧ ((msgT []).modDie 1 fun D => { D with frozen := true }).live (3 / 3) = false
    ∧ (msgT []).placesLive 0 [(0x10F8, 8)] = true
    ∧ (let s : State := { msgT [] with parts := [(0, { partQ with cfg := { partQ.cfg with wins := [⟨2 ^ 39, 0x100, true, true, true⟩] } })] }
       s.rmaWindow 9 (2 ^ 39) 8 true = some (0, ⟨2 ^ 39, 0x100, true, true, true⟩) ∧ 2 ^ 39 < 2 ^ 39 + 8) := by decide +kernel
/-- The machine's control head is a command of the statement's form. -/
def headT (s : State) (cmd used : Nat) : Bool := (s.ctlHead 0).any fun bs => decide (ControlHead s 0 bs cmd used)
theorem test_wit_ControlEvents : headT (ctlT [(0x50000, 3)]) 3 0 = true
    ∧ headT (ctlT [(0x50000, 4), (0x50008, 0x3F)]) 4 8 = true ∧ headT (ctlT [(0x50000, 4), (0x50008, 0x40)]) 4 8 = true
    ∧ headT (ctlT [(0x50000, 5), (0x50008, 3)]) 5 8 = true ∧ (ctlT []).ownerOf (3 % 16) = some 0 ∧ (ctlT []).live (coreDie 0) = true
    ∧ ((ctlT []).modDie 0 fun D => { D with frozen := true }).live (coreDie 0) = false
    ∧ ({ ctlT [] with parts := [(0, { partQ with cfg := { partQ.cfg with slotMask := 8 } })] } : State).ownerOf (5 % 16) ≠ some 0
    ∧ headT (ctlT [(0x50000, 7)]) 7 0 = true ∧ headT (ctlT []) 0 0 = true ∧ (0 = 0 ∨ 6 < 0) ∧ 6 < 7
    ∧ (let s : State := { ctlT [] with parts := [(0, { partQ with recs := [recT true] })] }
       s.part? 0 = some { partQ with recs := [recT true] } ∧ [recT true].find? (fun x => x.slaunch) = some (recT true)
       ∧ s.live (partQ.cfg.cq % 4) = true ∧ s.allPushed = true) := by decide +kernel
/-- QSET of queue 12 with its ring at 0x60000, FRING at 0x70000 with a zero header, an SLAUNCH of a packet of one task. -/
theorem test_wit_ControlEvents_rings :
    (let s := ctlT [(0x50000, 1), (0x50008, 12), (0x50012, 6), (0x50018, 4)]
     headT s 1 56 = true ∧ s.queueOwner 12 = some 0 ∧ 12 ≠ s.ctlQueue 0 ∧ 0x60000 % (256 * 2 ^ 4) = 0
     ∧ s.devWaits (12 % 4) 0 .write 0x60000 (256 * 2 ^ 4) = false
     ∧ (s.ringFrames (12 % 4) 0 0x60000 (256 * 2 ^ 4)).2 = some [0x60000])
    ∧ (let s := ctlT [(0x50000, 2), (0x5000A, 7), (0x50010, 4)]
       headT s 2 16 = true ∧ s.devWaits (s.ctlQueue 0 % 4) 0 .write 0x70000 (64 + 64 * 2 ^ 4) = false
       ∧ (s.ringFrames (s.ctlQueue 0 % 4) 0 0x70000 (64 + 64 * 2 ^ 4)).1.placesLive 0 [(State.ringPa 0x70000 [0x70000] 0, 24)] = true
       ∧ (s.ringFrames (s.ctlQueue 0 % 4) 0 0x70000 (64 + 64 * 2 ^ 4)).2 = some [0x70000]
       ∧ (s.ringFrames (s.ctlQueue 0 % 4) 0 0x70000 (64 + 64 * 2 ^ 4)).1.homeNat 0 (State.ringPa 0x70000 [0x70000] 0) 24 = 0)
    ∧ (let s := ctlT [(0x50000, 6), (0x50008, 1), (0x50009, 2), (0x50012, 2), (0x50018, 1)]
       headT s 6 32 = true ∧ s.isNext (s.ctlQueue 0) = true ∧ s.acceptOpen (8 % 4) 0 = true
       ∧ ((s.ctlHead 0).any fun bs => match s.checkPacket (8 % 4) 0 ((bs.drop 8).take 32) (some 32) with
        | (u, .ok _ _) => u.queues == s.queues && u.freeLaunch (8 % 4) == some 0
        | _ => false) = true)
    ∧ (let s := ctlT [(0x50000, 6), (0x50009, 2)]
       headT s 6 32 = true ∧ ((s.ctlHead 0).any fun bs => match s.checkPacket (8 % 4) 0 ((bs.drop 8).take 32) (some 32) with
        | (u, .reject _) => u.queues == s.queues
        | _ => false) = true)
    ∧ (let s : State := { ctlT [(0x50000, 6), (0x50009, 2)] with queues := [(4, { queueT 0x40000 32 with cls := 3 }), (8, queueT 0x50000 64)] }
       headT s 6 32 = true ∧ s.isNext (s.ctlQueue 0) = false) := by decide +kernel
/-- A bind record that waits for dispatch in slot 5 of core 0. -/
def recordT : BindRec := { (default : BindRec) with valid := true, taskN := 1, pc := 0x20000, member := 255 }
/-- The machine whose die 0 has that launch and that record. -/
def boundT (L : Launch) (b : BindRec) : State := (stT id).modDie 0 fun D => { D with launches := [(0, L)], slotTable := [(5, b)] }
theorem test_wit_ClockEvents :
    (let L := { launchT with fired := false, release := some 3, tasks := [(0, .ready)] }
     let s : State := { boundT L recordT with time := 7 }
     s.launchAt 0 0 = some L ∧ s.live 0 = true ∧ L.fired = false ∧ L.release = some 3 ∧ 3 ≤ s.time
     ∧ Sparse.get? L.tasks 0 = some .ready)
    ∧ (let s : State := { stT id with serac := { seracT with ptp := .locked } }
       s.serac.ptp = .locked ∧ 1000 < (-1001 : Int).natAbs ∧ s.live 0 = true)
    ∧ (stT id).serac.ptp ≠ .locked := by decide +kernel
theorem test_wit_PlacementEvents_place : (stT id).live 0 = true ∧ ((boundT { launchT with det := true } default).pickTask 0).any (fun x =>
      let y := x.2.pickCore 0 x.1
      !(boundT { launchT with det := true } default).usesSpread x.1 && y.2.live (coreDie y.1) && !(y.2.openOn 0 y.1).isEmpty) = true := by
  decide +kernel
/-- A partition with slot 3 of each core, all its slots of cluster 0 taken, and a launch hinted to that cluster. -/
def hintedT : State := { (stT id).modDie 0 fun D => { D with launches := [(0, { launchT with cluhint := 0 })] } with
  parts := [(0, { partT with cfg := { cfgT with slotMask := 8 } })], slots := (List.range 8).map fun i => (16 * i + 3, slotT) }
/-- With a wire for it, and with none. -/
theorem test_wit_PlacementEvents_spread : (hintedT.pickTask 0).any (fun x =>
      let y := x.2.pickCore 0 x.1
      hintedT.usesSpread x.1 && (hintedT.nunatakWire 0).isSome && y.2.live (coreDie y.1) && !(y.2.openOn 0 y.1).isEmpty
      && ((hintedT.modDie 0 fun D => { D with wiresCycle := D.cycle, wiresUsed := List.range 64 }).nunatakWire 0).isNone) = true := by
  decide +kernel
/-- Timed candidates and none; the partition that is served, with turns left and without; a cluster with room, one without on a die
with room, and a die without. -/
theorem test_wit_PlacementEvents_choice : (let L := { launchT with det := true }
     ((boundT { L with release := some 3 } default).pickTask 0).any (fun x => x.1.launch.release == some 3) = true
     ∧ (boundT { L with release := some 3 } default).candidates 0 = [⟨0, 0, { L with release := some 3 }, 0⟩]
     ∧ (boundT L default).candidates 0 = [⟨0, 0, L, 0⟩] ∧ [15, 16].all (fun n =>
        let s := (boundT L default).modDie 0 fun D => { D with rrPart := 0, rrServed := n }
        (s.pickTask 0).isSome && (s.dieAt 0).rrPart == L.part && decide ((s.dieAt 0).rrServed < s.slotCount 0) == (n == 15)) = true)
    ∧ ({ launchT with cluhint := 0 } : Launch).hint = some 0 ∧ launchT.hint = none
    ∧ hintedT.openCluster 0 1 = 8 ∧ hintedT.openCluster 0 0 = 0 ∧ hintedT.openDie 0 (0 / 32) = 248
    ∧ hintedT.openCluster 1 0 = 0 ∧ hintedT.openDie 1 (0 / 32) = 0 := by
  decide +kernel
theorem test_wit_PlacementEvents_dispatch : 5 < 4096 ∧ ((boundT launchT recordT).recAt ⟨0, 5⟩).valid = true
    ∧ ((boundT launchT recordT).live recordT.ldie = true ∧ (boundT launchT recordT).looseIn 0 = false)
    ∧ ({ boundT launchT recordT with parts := [(0, { partT with cfg := { cfgT with slotMask := 8 } })] } : State).ownerOf 5 ≠ some 0
    ∧ (boundT launchT recordT).ownerOf 5 = some recordT.part
    ∧ (∀ L, ((boundT launchT { recordT with launch := 1 }).launchAt 0 1) = some L → L.part ≠ 0)
    ∧ (boundT launchT recordT).launchAt recordT.ldie recordT.launch = some launchT ∧ launchT.part = recordT.part
    ∧ ((boundT launchT recordT).slotAt ⟨0, 5⟩).run = .free ∧ (boundT launchT recordT).refillWaits ⟨0, 5⟩ = false ∧ launchT.payload = none
    ∧ (boundT { launchT with payload := some [1, 2] } recordT).launchAt 0 0 = some { launchT with payload := some [1, 2] }
    ∧ ((boundT launchT recordT).cpAt 0 0).bankQ = []
    ∧ (((boundT launchT recordT).modSlot ⟨0, 5⟩ fun sl => { sl with run := .active }).slotAt ⟨0, 5⟩).run ≠ .free := by
  refine ⟨by decide +kernel, by decide +kernel, by decide +kernel, by decide +kernel, by decide +kernel, ?_, by decide +kernel,
    by decide +kernel, by decide +kernel, by decide +kernel, by decide +kernel, by decide +kernel, by decide +kernel, by decide +kernel⟩
  intro L h; cases h
/-- A signed side-band request of the listed key. -/
def sbT (cmd target : Nat) (args : List Byte) : SbReq := ⟨true, 0, 0x4B58, 1, 1, cmd, target, 0, args.length, args⟩
/-- The first 208 bytes of a configuration: slot 0, one scratchpad share, one way of each cache, weight 1, control queue 0. -/
def cfgHead : List Byte :=
  let z := fun n => List.replicate n (0 : Byte)
  z 8 ++ 1 :: (z 7 ++ 1 :: (z 7 ++ 1 :: 0 :: 1 :: (z 14 ++ 1 :: (z 49 ++ 4 :: z 116))))
/-- Its queue ranges: queues 0 to 7. -/
def cfgMid : List Byte := 1 :: (List.replicate 9 0 ++ 8 :: List.replicate 5 0)
/-- The configuration. -/
def partcfgT : List Byte := cfgHead ++ (List.replicate 384 0 ++ (cfgMid ++ List.replicate 416 0))
theorem natOfBytes_zero (l : List Byte) (h : ∀ b ∈ l, b = 0) : natOfBytes l = 0 := by
  induction l with
  | nil => rfl
  | cons b t ih => rw [natOfBytes, h b (by simp), ih fun c hc => h c (by simp [hc])]; rfl
theorem msgNat_zero (bs : List Byte) (a n : Nat) (h : ∀ i, a ≤ i → i < a + n → bs.getD i 0 = 0) : msgNat bs a n = 0 := by
  refine natOfBytes_zero _ fun b hb => ?_
  simp only [List.mem_map, List.mem_range] at hb
  obtain ⟨i, hi, rfl⟩ := hb
  exact h _ (by omega) (by omega)
theorem getD_zeros (n i : Nat) : (List.replicate n (0 : Byte)).getD i 0 = 0 := by
  rw [List.getD_eq_getElem?_getD, List.getElem?_replicate]; split <;> rfl
theorem partcfg_zeros (i : Nat) (h : 208 ≤ i ∧ i < 592 ∨ 608 ≤ i) : partcfgT.getD i 0 = 0 := by
  have a : cfgHead.length = 208 := by decide +kernel
  have b : cfgMid.length = 16 := by decide +kernel
  have get : ∀ (x y : List Byte) (i : Nat), x.length ≤ i → (x ++ y).getD i 0 = y.getD (i - x.length) 0 := fun x y i hi => by
    rw [List.getD_eq_getElem?_getD, List.getElem?_append_right hi, ← List.getD_eq_getElem?_getD]
  rw [partcfgT, get _ _ _ (by omega), a]
  rcases h with h | h
  · rw [List.getD_eq_getElem?_getD, List.getElem?_append_left (by rw [List.length_replicate]; omega), ← List.getD_eq_getElem?_getD, getD_zeros]
  · rw [get _ _ _ (by rw [List.length_replicate]; omega), List.length_replicate, get _ _ _ (by omega), getD_zeros]
theorem test_wit_partcfg_fields : cfgFields partcfgT = true := by
  have a : msgNat partcfgT 200 1 = 0 := by decide +kernel
  have b : msgNat partcfgT 592 2 = 1 := by decide +kernel
  have c : msgNat partcfgT 208 384 = 0 := msgNat_zero _ _ _ fun i h k => partcfg_zeros i (by omega)
  have d : msgNat partcfgT 608 416 = 0 := msgNat_zero _ _ _ fun i h k => partcfg_zeros i (by omega)
  simp only [cfgFields, Bool.and_eq_true, a, b, Nat.mul_zero, Nat.add_zero, Nat.sub_zero, Nat.mul_one, Nat.reduceAdd, Nat.reduceSub, c, d]
  and_intros <;> decide +kernel
theorem test_wit_SideBandEvents_accepted : [1, 2, 3, 4, 5, 6, 7, 8, 9, 10, 11, 12, 13, 14, 0].all (fun cmd =>
      decide (Accepted (stT id) (sbT cmd 0 []) cmd)) = true ∧ (14 = 0 ∨ 13 < 14) ∧ State.tgtDie 0x100 = some 1
    ∧ ({ stT id with serac := { seracT with waiting := [⟨9, 6, 0⟩] } } : State).serac.waiting ≠ []
    ∧ ({ sbT 1 0 [] with reserved := 1 } : SbReq).reserved ≠ 0 ∧ ({ sbT 1 0 [] with arglen := 5 } : SbReq).arglen ≠ 0
    ∧ 1024 < (List.replicate 1025 (0 : Byte)).length := by
  refine ⟨by decide +kernel, by decide, by decide, by decide, by decide, by decide, ?_⟩
  rw [List.length_replicate]; decide
theorem test_wit_SideBandEvents_targets :
    ((stT id).dieAt 1).frozen = false ∧ (((stT id).modDie 1 fun D => { D with frozen := true }).dieAt 1).frozen = true
    ∧ (stT id).blockedBehind 0 = false
    ∧ (let s : State := { (stT id).modDie 1 fun D => { D with frozen := true } with slots := [(4096, { Slot.init with run := .active })] }
       s.blockedBehind 0 = true
       ∧ ({ s with serac := { seracT with waiting := [⟨9, 8, 0⟩] } } : State).serac.waiting = [⟨9, 8, 0⟩] ∧ seracT.waiting = [])
    ∧ (stT id).devOut = [] ∧ (stT id).serac.owed = [] ∧ (stT id).l2 = []
    ∧ (stT id).ownerOf (0x3FFF % 16) = some 0 ∧ ((stT id).coreAt (0x3FFF / 16)).calvQ = []
    ∧ ({ stT id with parts := [] } : State).ownerOf (0x3FFF % 16) = none ∧ partT.fixed = true
    ∧ ({ stT id with parts := [(1, { partT with fixed := false })] } : State).part? 1 = some { partT with fixed := false }
    ∧ (0x3FFF / 16 < 1024) ∧ ((stT id).dieAt (coreDie (0x3FFF / 16))).frozen = false ∧ (stT id).anyFrozen = false
    ∧ (stT id).part? 0 = some partT ∧ msgNat [1, 0, 0, 0, 0, 0, 0, 0] 0 8 = 1 ∧ ([1, 0, 0, 0, 0, 0, 0, 0] : List Byte).length = 8
    ∧ (stT id).part? 1 = none ∧ msgNat partcfgT 0 8 = 0 ∧ partcfgT.length = 1024
    ∧ cfgAllowed (cfgParse partcfgT) (State.otherCfgs { stT id with parts := [] } 1) = true
    ∧ ({ stT id with parts := [] } : State).parts = [] ∧ msgNat (2 :: (List.replicate 7 0 ++ 1 :: List.replicate 7 0) : List Byte) 0 8 = 2
    ∧ (2 :: (List.replicate 7 0 ++ 1 :: List.replicate 7 0) : List Byte).length = 16 ∧ msgNat (2 :: (List.replicate 7 0 ++ 1 :: List.replicate 7 0) : List Byte) 8 8 ≤ 1 ∧ (List.replicate 32 (0 : Byte)).length = 32 := by
  decide +kernel
/-- The arguments that the Serac reads of WDOG and FWLOAD requests are free values: whatever they are, they name some case. -/
theorem test_wit_SideBandEvents_readings (a : List Byte) : (∃ which ms rst, Config.wdogArgs a = (which, ms, rst))
    ∧ ∃ off final chunk, Config.fwChunk a = (off, final, chunk) := ⟨⟨_, _, _, rfl⟩, ⟨_, _, _, rfl⟩⟩
theorem test_wit_SideBandEvents_refused : (stT id).serac.power = .on ∧ (stT id).serac.waiting = [] ∧ (sbT 3 0 []).cmd = 3
    ∧ ({ sbT 3 0 [] with sigOk := false } : SbReq).sigOk = false ∧ ({ sbT 3 0 [] with ver := 2 } : SbReq).ver ≠ 1
    ∧ 1 ∉ (stT id).serac.keys
    ∧ (sbT 9 0xFF []).seq < Sparse.get 0 ({ stT id with serac := { seracT with keySeq := [(0, 5)] } } : State).serac.keySeq 0 := by
  decide +kernel
theorem test_wit_PhysicalEvents :
    ({ stT id with serac := { seracT with power := .disconnected } } : State).serac.power = .disconnected
    ∧ (stT id).serac.power ≠ .disconnected
    ∧ ({ stT id with serac := { seracT with power := .off } } : State).serac.power = .off
    ∧ (let s := (stT id).modDie 0 fun D => { D with cycle := 1800000000 }
       s.live 0 = true ∧ (s.dieAt 0).lastBeat + (s.dieAt 0).heartbeatMs * s.serac.clockMhz * 1000 ≤ (s.dieAt 0).cycle)
    ∧ [true, false].all (fun rst =>
       let s := ((boundT launchT default).modDie 0 fun D => { D with cycle := 1800000000, progressReset := rst })
       s.live 0 && (s.slots.any fun e => e.1 / 4096 == 0 && e.2.run == .active) && !(s.dieAt 0).launches.isEmpty
       && decide ((s.dieAt 0).lastIssue + (s.dieAt 0).progressMs * s.serac.clockMhz * 1000 ≤ (s.dieAt 0).cycle)
       && s.serac.waiting == [] && !s.blockedBehind 0 && (s.dieAt 0).progressReset == rst) = true
    ∧ (let s : State := { (boundT launchT default).modDie 1 fun D => { D with frozen := true } with
         slots := [(3, slotT), (4096, { Slot.init with run := .active })] }
       s.blockedBehind 0 = true ∧ s.live 0 = true ∧ OwedReset.progress 0 ∉ s.serac.owed)
    ∧ ({ stT id with serac := { seracT with power := .bootFailed } } : State).serac.power = .bootFailed
    ∧ (stT id).serac.power = .on ∧ 1300 ≤ (stT id).serac.clockMhz
    ∧ ({ seracT with clockMhz := 1200 } : Serac).clockMhz < 1300 ∧ ({ seracT with clockMhz := 1200 } : Serac).clockMhz < 1800
    ∧ (let s := (stT id).modDie 0 fun D => { D with l2lines := [(lineKey 256 0 1, ⟨0, 1, [0], [], [], false, false, false, false⟩),
         (lineKey 256 4 1, ⟨0, 1, [0], [], [], false, false, false, false⟩)] }
       s.l2Holds 0 (lineKey (1024 / 4) 0 1) (1024 % 4) = true ∧ s.l2Holds 0 (lineKey (1024 / 4) 4 1) (1024 % 4) = true)
    ∧ [([], false), ([0], true)].all (fun x => let l : CLine := ⟨0, 1, [0], x.1, [], false, false, false, false⟩
       let s := (stT id).modCore 0 fun C => { C with l1 := [(lineKey (1024 / 4) 0 1, l)] }
       Sparse.get? (s.coreAt 0).l1 (lineKey (1024 / 4) 0 1) == some l && l.gen == s.lineGen 0 && l.secs.contains (1024 % 4)
       && l.dirty.contains (1024 % 4) == x.2) = true
    ∧ 5 * 128 < (stT id).padSize 0 ∧ (stT id).part? 0 = some partT
    ∧ [StateUnit.scope, .group, .firn, .rime].all (unitRuns (stT id)) = true ∧ (stT id).partBlocked 0 = false
    ∧ (let s : State := { (stT id).modDie 1 fun D => { D with frozen := true } with slots := [(4096, { Slot.init with run := .active })] }
       s.part? 0 = some partT ∧ unitRuns s .scope = true ∧ s.partBlocked 0 = true ∧ OwedReset.state .scope 0 ∉ s.serac.owed) := by decide +kernel
theorem test_wit_PartitionReset : (stT id).part? 0 = some partT ∧ (stT id).ownerOf 3 = some 0 ∧ (stT id).serac.waiting = []
    ∧ ({ stT id with parts := [(0, { partT with cfg := { cfgT with slotMask := 8 } })] } : State).ownerOf 4 ≠ some 0
    ∧ partT.cfg.firn[0]? = some (0, 8) ∧ (msgT []).queueOwner 4 = some 0 ∧ (msgT []).queueOwner 100 ≠ some 0
    ∧ ({ stT id with groups := [(5, { groupT with part := 1 })] } : State).groupAt 5 = some { groupT with part := 1 } := by decide +kernel
/-- Two partitions, a slot of each on core 0; an ADD of the first. -/
def twoT : State := { stT id with
  parts := [(0, { partT with cfg := { cfgT with slotMask := 0xFF } }), (1, { partT with cfg := { cfgT with slotMask := 0xFF00 } })]
  slots := [(3, slotT), (9, slotT)] }
theorem test_wit_Isolation : isEvent (.add ⟨6, 1, .wait, 2, .wait⟩) = false
    ∧ twoT.ownerOf twoT.cur.slot = some 0 ∧ twoT.ownerOf 9 = some 1
    ∧ (match exec (.add ⟨6, 1, .wait, 2, .wait⟩) twoT with
      | .next t => (t.sreg ⟨0, 3⟩ 6).val == 12
      | _ => false) = true := by decide +kernel
/-- A line that leaves, one that is retained beside one that is not, and the eviction that an agenda holds. -/
theorem test_wit_ReplacementMoves : ({ stT id with agenda := [.evict 0 (lineKey 256 0 1)] } : State).agenda = .evict 0 (lineKey 256 0 1) :: []
    ∧ (let l : CLine := ⟨0, 1, [0], [], [], false, false, true, false⟩
       let s := (stT id).modDie 0 fun D => { D with l2lines := [(lineKey 256 0 1, l), (lineKey 256 0 2, { l with kept := false })] }
       Sparse.get? (s.dieAt 0).l2lines (lineKey 256 0 1) = some l ∧ l.kept = true
       ∧ s.live 0 = true ∧ s.mayEvict 0 (lineKey 256 0 2) = true
       ∧ keyNum (lineKey 256 0 1) = 131072 / 512 ∧ keyTag (lineKey 256 0 1) = 0 ∧ keyHome (lineKey 256 0 1) = 1)
    ∧ (stT id).live (coreDie 0) = true ∧ (stT id).live (0 / 32) = true ∧ ((stT id).modDie 0 fun D => { D with frozen := true }).live 0 = false := by decide +kernel
/-- They share a set whatever the choice of sets is, when they are one line of two homes. -/
theorem test_wit_ReplacementMoves_mates : (let l : CLine := ⟨0, 1, [0], [], [], false, false, true, false⟩
     let s := (stT id).modDie 0 fun D => { D with l2lines := [(lineKey 256 0 1, l), (lineKey 256 0 2, { l with kept := false })] }
     ∃ e ∈ s.l2Mates 0 l.part (lineKey 256 0 1), e.2.kept = false) := by
  refine ⟨(lineKey 256 0 2, ⟨0, 1, [0], [], [], false, false, false, false⟩), ?_, rfl⟩
  have h : State.l2SetOf (lineKey 256 0 2) = State.l2SetOf (lineKey 256 0 1) := by
    unfold State.l2SetOf; rw [show keyNum (lineKey 256 0 2) = keyNum (lineKey 256 0 1) from by decide]
  simp only [State.l2Mates, List.mem_filter, Bool.and_eq_true, beq_iff_eq, h]
  exact ⟨by decide +kernel, by decide, trivial⟩

/-! ## Single steps, with results from the manual's worked values or by hand from its rules -/

/-- The instruction answers a next state that satisfies p. -/
def after (i : Instr) (s : State) (p : State → Bool) : Bool :=
  match exec i s with
  | .next t => p t
  | _ => false
/-- The tests' machine with the scalars and vectors given. -/
def regsT (xs : List (Nat × Nat)) (vs : List (Nat × Nat)) : State := stT fun sl => { sl with
  sregs := xs.map fun x => (x.1, regT 64 x.2), vregs := vs.map fun x => (x.1, regT 2048 x.2) }
/-- The value of a scalar register. -/
def sv (t : State) (f : Nat) : Nat := (t.sreg t.cur f).val.toNat

/-- R125 and R79: a sum wraps, and a source consumed that is also the destination ends full. -/
theorem test_add_wraps : after (.add ⟨1, 1, .consume, 2, .consume⟩) (regsT [(1, 2 ^ 64 - 1), (2, 3)] []) (fun t =>
    sv t 1 == 2 && (t.sreg t.cur 1).full && !(t.sreg t.cur 2).full && t.here.pc == 0x1008 && t.here.turns == 6) = true := by decide +kernel
/-- R126: division by zero, the one overflow, and truncation toward zero. -/
theorem test_div_corners : after (.div ⟨3, 1, .wait, 2, .wait⟩) (regsT [(1, 7)] []) (fun t => sv t 3 == 2 ^ 64 - 1) = true
    ∧ after (.div ⟨3, 1, .wait, 2, .wait⟩) (regsT [(1, 2 ^ 63), (2, 2 ^ 64 - 1)] []) (fun t => sv t 3 == 2 ^ 63) = true
    ∧ after (.rem ⟨3, 1, .wait, 2, .wait⟩) (regsT [(1, 2 ^ 64 - 7), (2, 2)] []) (fun t => sv t 3 == 2 ^ 64 - 1) = true := by decide +kernel
/-- R128, R130: width 8 of 0x1FF is -1 or 255; MOVI extends its 48 bits. -/
theorem test_extensions : after (.sext ⟨3, 1, .wait, 8⟩) (regsT [(1, 0x1FF)] []) (fun t => sv t 3 == 2 ^ 64 - 1) = true
    ∧ after (.zext ⟨3, 1, .wait, 8⟩) (regsT [(1, 0x1FF)] []) (fun t => sv t 3 == 255) = true
    ∧ after (.movi ⟨3, 0xFFFFFFFFFFFE⟩) (stT id) (fun t => sv t 3 == 2 ^ 64 - 2 && t.here.pc == 0x100C) = true := by decide +kernel
/-- R97: s0 stays zero; R94: a write to a register that waits takes it from its delivery. -/
theorem test_s0_discards : after (.movl ⟨0, 9⟩) (stT id) (fun t => sv t 0 == 0 && (t.sreg t.cur 0).full) = true := by decide +kernel
/-- R131, R204: 1.0 + 2^-24 in f32 is a tie that stays 1.0 under RNE and goes up under RUP, inexact in both. -/
theorem test_fadd_rounds : after (.fadd ⟨3, 1, .wait, 2, .wait, false, .rne⟩) (regsT [(1, 0x3F800000), (2, 0x33800000)] [])
      (fun t => sv t 3 == 0x3F800000 && t.here.fflags == 1) = true
    ∧ after (.fadd ⟨3, 1, .wait, 2, .wait, false, .rup⟩) (regsT [(1, 0x3F800000), (2, 0x33800000)] [])
      (fun t => sv t 3 == 0x3F800001) = true := by decide +kernel
/-- R203: a signalling NaN raises NV and gives the canonical NaN. -/
theorem test_fmul_snan : after (.fmul ⟨3, 1, .wait, 2, .wait, false, .rne⟩) (regsT [(1, 0x7F800001), (2, 0x3F800000)] [])
    (fun t => sv t 3 == 0x7FC00000 && t.here.fflags == 16) = true := by decide +kernel
/-- R216's worked values for i8. -/
theorem test_vadds_vavg : after (.vadds ⟨3, 1, .wait, .v 2, .wait, 0, .i8⟩) (regsT [] [(1, 100), (2, 100)]) (fun t =>
      lane 8 (t.vreg t.cur 3).val 0 == 127) = true
    ∧ after (.vadd ⟨3, 1, .wait, .v 2, .wait, 0, .i8⟩) (regsT [] [(1, 100), (2, 100)]) (fun t => lane 8 (t.vreg t.cur 3).val 0 == 256 - 56) = true
    ∧ after (.vavg ⟨3, 1, .wait, .v 2, .wait, 0, .i8⟩) (regsT [] [(1, 253), (2, 2)]) (fun t => lane 8 (t.vreg t.cur 3).val 0 == 0) = true := by
  decide +kernel
/-- R228's example: 500.0 and -1.0e6 saturate to 448 and -448 with OF and NX; R229's worked block; R206's example. -/
theorem test_worked_conversions : cvtLane .e4m3 .f32 .rne true 0x43FA0000 = (0x7E, 5) ∧ (cvtLane .e4m3 .f32 .rne true 0xC9742400).1 = 0xFE
    ∧ packBlock [0x3F000000, 0xC0500000, 0x3F800000, 0x40E00000, 0, 0x40100000, 0xBE000000, 0x40800000]
      = ([0x1, 0xD, 0x2, 0x7, 0x0, 0x4, 0x8, 0x5], 0x66, 1)
    ∧ accGroup [(fmtBf16.decode 0x3980, fmtBf16.decode 0x3980), (fmtBf16.decode 0x3880, fmtBf16.decode 0x3880)] 0x3F800000
      = 0x3F800000 := by decide +kernel
/-- A token through the three layers of a width-4 context. -/
def goT (tg : List (Nat × Nat)) (w : Nat) : Nat × List (Nat × Nat) :=
  [1, 2, 3].foldl (fun (x : Nat × List (Nat × Nat)) l => balancerStep x.2 false l x.1) (w, tg)
/-- The worked trace of a width-4 context: the toggles and the exits of its first two requests. -/
theorem test_firn_trace : (goT [] 1).1 = 0 ∧ (goT (goT [] 1).2 1).1 = 1 ∧ (goT (goT (goT [] 1).2 1).2 2).1 = 2 := by decide +kernel
/-- R111, R104: a taken branch without the hint pays 6 cycles; its target is relative to its own PC in 4-byte units. -/
theorem test_branch_taken : after (.bne ⟨1, .wait, 2, .wait, false, -2⟩) (stT id) (fun t =>
    t.here.pc == 0xFF8 && t.here.penalty == some 14) = true := by decide +kernel
/-- R113, R112: LOOP 2 enters its body; the end of the body goes back to its start once, then on. -/
theorem test_loop_end : after (.loop ⟨1, .wait, 4⟩) (regsT [(1, 2)] []) (fun t => t.here.lc == 2 && t.here.ls == 0x1008 && t.here.le == 0x1010) = true
    ∧ after .nop8 (stT fun sl => { sl with lc := 2, ls := 0xFF0 }) (fun t => t.here.lc == 1 && t.here.pc == 0xFF0) = true
    ∧ after .nop8 (stT fun sl => { sl with lc := 1, ls := 0xFF0 }) (fun t => t.here.lc == 0 && t.here.pc == 0x1008) = true := by decide +kernel
/-- R115, R307: TRAP 7 saves its address, takes cause 13 and goes to TVEC in supervisor mode. -/
theorem test_trap_entry : after (.trap ⟨7⟩) (stT id) (fun t => t.here.epc == 0x1000 && t.here.cause == 13 && t.here.tval == 7
    && t.here.pc == 0x5550 && t.here.mode.priv && !t.here.mode.pp && t.here.mode.nest) = true := by decide +kernel
/-- R332: ERET goes back to EPC in the mode that PP holds. -/
theorem test_eret : after .eret (stT fun sl => { supT sl with epc := 0x2000, mode := ⟨false, false, true, true, false, false⟩ }) (fun t =>
    t.here.pc == 0x2000 && !t.here.mode.priv && !t.here.mode.nest) = true := by decide +kernel
/-- R89: ERET in user mode takes cause 5 with its word. -/
theorem test_eret_user : after .eret (stT id) (fun t => t.here.cause == 5 && t.here.tval == 0x380) = true := by decide +kernel
/-- R99, R117: CSRX of SFMT leaves the old value in D and keeps four bits. -/
theorem test_csrx_sfmt : after (.csrx ⟨3, 0x061, 1, .wait⟩) (regsT [(1, 0xF6)] []) (fun t =>
    sv t 3 == 0 && (t.csrNow t.cur (.sfmt 1)).toNat == 6 && (t.csrRead t.cur (.sfmt 1)).toNat == 0) = true := by decide +kernel
/-- R94: a load empties its destination and waits. -/
theorem test_load_empties : after (.ldI64 ⟨3, 8, .wait, 0, 0⟩) (stT id) (fun t =>
    !(t.sreg t.cur 3).full && (t.sreg t.cur 3).await == some 77 && t.here.pend.length == 1 && t.here.pc == 0x1008) = true := by decide +kernel
/-- R175: an accepted store's bytes are in the scratchpad, lowest first. -/
theorem test_store_accepted : after (.storeAccepted oT) (opT (.store [(.pad 0 64, [0x34, 0x12])]) .none) (fun t =>
    (t.padWord 0 0 8).val == 0x1234 && t.here.pend.isEmpty) = true := by decide +kernel
/-- R192: an AMO leaves the sum and decides the old value. -/
theorem test_amo_at_home : after (.atomicAtHome oT) ((opT (.amo (.pad 0 64) false .add 5) (.s 6)).modCp 0 0 fun cp => { cp with
      pad := [(0, ⟨1, [(8, ⟨10, true, false⟩)], []⟩)] }) (fun t =>
    (t.padWord 0 0 8).val == 15 && (t.pendAt oT).any (fun q => q.res == some (10, .none))) = true := by decide +kernel
/-- R179: LDSY takes the word of a full cell and leaves it empty. -/
theorem test_ldsy_takes : after (.bankSyncRequest oT) ((opT (.bank 0 64 .ldsy 0) (.s 6)).modCp 0 0 fun cp => { cp with
      pad := [(0, ⟨1, [(8, ⟨10, true, false⟩)], []⟩)] }) (fun t => !(t.padWord 0 0 8).full) = true := by decide +kernel
/-- R262: wire select 3 is answered with status 3 at once. -/
theorem test_barw_status : after (.barw ⟨3, 1, .wait⟩) (regsT [(1, 3)] []) (fun t => sv t 3 == 2 ^ 63 + 3) = true := by decide +kernel
/-- R356, R363: disconnection is left by a boot alone, which clears the package; without its images it fails. -/
theorem test_boot : after (.powerUpBoot false) { stT id with serac := { seracT with power := .disconnected } } (fun t =>
    t.serac.power == .bootFailed && t.parts.isEmpty && t.slots.isEmpty) = true := by decide +kernel
/-- The first step from a placed word runs it: MUL of two zeros (R88). -/
theorem test_first_step : (match step (State.reset.withFetchWord 64 0x000000000411A040) with
    | .next t => t.here.pc == 8 && t.here.turns == 1
    | _ => false) = true ∧ (match step (State.reset.withFetchWord 64 0x000018001F218E80) with
    | .next t => t.here.cause == 1 && t.here.tval == 0x000018001F218E80
    | _ => false) = true := by decide +kernel

/-! ## More witnesses: clauses of statements about functions -/

/-- Numbers in f32: NaN, infinities, zeros, ±1, 3, 2^20 and -2^20. -/
theorem numsT : (fmtF32.decode 0x7FC00000).isNan = true ∧ fmtF32.decode 0x7F800000 = .inf false ∧ fmtF32.decode 0xFF800000 = .inf true
    ∧ fmtF32.decode 0 = .fin false 0 (-149) ∧ fmtF32.decode 0x80000000 = .fin true 0 (-149)
    ∧ fmtF32.decode 0x3F800000 = .fin false (2 ^ 23) (-23) ∧ fmtF32.decode 0xBF800000 = .fin true (2 ^ 23) (-23)
    ∧ fmtF32.decode 0x40400000 = .fin false (3 * 2 ^ 22) (-22) ∧ fmtF32.decode 0x49800000 = .fin false (2 ^ 23) (-3)
    ∧ fmtF32.decode 0xC9800000 = .fin true (2 ^ 23) (-3) := by decide
/-- Operands of each clause: a NaN; -1 below 1 and below the infinity; +0 beside -0; values that are integers, powers of two and
neither, at the ends of the ranges; types of each kind; eight numbers with and without an infinity; lanes with and without numbers. -/
theorem test_wit_FloatFunctions : (valOf (fmtF32.decode 0xBF800000) < valOf (fmtF32.decode 0x3F800000))
    ∧ (valOf (fmtF32.decode 0x3F800000) < valOf (fmtF32.decode 0x7F800000))
    ∧ (valOf (fmtF32.decode 0x80000000) = valOf (fmtF32.decode 0) ∧ signOf (fmtF32.decode 0x80000000) = true
      ∧ signOf (fmtF32.decode 0) = false)
    ∧ (realOf (fmtF32.decode 0x40400000) = ((3 : Int) : ℝ) ∧ realOf (fmtF32.decode 0x3F800000) = 1 ∧ realOf (fmtF32.decode 0) = 0
      ∧ realOf (fmtF32.decode 0x49800000) = 2 ^ 20 ∧ realOf (fmtF32.decode 0xC9800000) = -2 ^ 20
      ∧ realOf (fmtF32.decode 0xBF800000) < 0 ∧ realOf (fmtF32.decode 0x49800000) = (2 : ℝ) ^ (20 : Int))
    ∧ (∀ i : Int, (3 : ℝ) ≠ (2 : ℝ) ^ i)
    ∧ (Ty.isInt .i8 = true ∧ Ty.isInt .f32 = false)
    ∧ ((List.replicate 8 0).length = 8 ∧ Machine.Num.inf false ∈ ((0x7F800000 :: List.replicate 7 0).map fmtF32.decode)
      ∧ Machine.Num.inf false ∉ ((List.replicate 8 0).map fmtF32.decode) ∧ Machine.Num.inf true ∉ ((List.replicate 8 0).map fmtF32.decode)
      ∧ ((List.replicate 8 0).map fmtF32.decode)[7]? = some (.fin false 0 (-149)))
    ∧ ((fmtF32.decode 0x7FC00000).isNan ≠ false ∧ (fmtF32.decode 0).isNan = false ∧ (0 : Nat) ∈ [0x7FC00000, 0]) := by
  obtain ⟨h1, h2, h3, h4, h5, h6, h7, h8, h9, h10⟩ := numsT
  refine ⟨?_, ?_, ⟨?_, by rw [h5]; rfl, by rw [h4]; rfl⟩, ?_, ?_, by decide, by decide, ?_⟩
  · rw [h6, h7]; simp only [valOf, EReal.coe_lt_coe_iff]; norm_num [realOf]
  · rw [h6, h2]; exact EReal.coe_lt_top _
  · rw [h4, h5]; norm_num [valOf, realOf]
  · rw [h8, h6, h4, h9, h10, h7]; norm_num [realOf]
  · intro i h
    rcases lt_or_ge i 2 with g | g
    · have := zpow_le_zpow_right₀ (show (1 : ℝ) ≤ 2 by norm_num) (show i ≤ 1 by omega)
      rw [← h] at this; norm_num at this
    · have := zpow_le_zpow_right₀ (show (1 : ℝ) ≤ 2 by norm_num) g
      rw [← h] at this; norm_num at this
  · rw [h1]; exact ⟨by decide, by decide, by decide⟩

/-- A wire of two participants of whom one has come, and both. -/
def wireT (as : List Nat) : State :=
  let join : CorePart → CorePart := fun cp => { cp with bjoin := 4 }
  let s := ((stT id).modCp 0 0 join).modCp 1 0 join
  s.setWire 0 0 32 ⟨5, as.map fun c => (c, ⟨c, 3, 7⟩)⟩
theorem test_wit_UnitEvents_wires : [[], [0], [0, 1]].all (fun as => ((wireT as).wireAt 0 0 32).arrivals.all fun a =>
      !(wireT as).arrivalLate a.2 && ((wireT as).slotAt (slotOf a.2)).cwait.isNone) = true
    ∧ (0 / 256 = 0 ∧ ((wireT [0, 1]).cpAt 0 0).bjoin.getLsbD (State.wireBit 32) = true)
    ∧ (∃ a ∈ ((wireT [0]).wireAt 0 0 32).arrivals, a.1 = 0) ∧ (∀ a ∈ ((wireT [0]).wireAt 0 0 32).arrivals, a.1 ≠ 1) := by
  refine ⟨by decide +kernel, by decide +kernel, ⟨(0, ⟨0, 3, 7⟩), by decide +kernel, rfl⟩, by decide +kernel⟩
/-- No entry with room and without, one that differs by 32768 and one by 32767; overflow mode; both kinds of key. -/
theorem test_wit_UnitEvents_tags :
    (let s : State := { stT id with parts := [(0, { partT with cfg := { cfgT with rimeQ := [1, 1, 1, 1] } })] }
     s.inOverflow 0 0 = false ∧ s.tagGen 0 0x123 = none ∧ s.tagNoRoom 3 0 = false ∧ tagHome 0x123 = 3 ∧ tagBuf 0x123 = 0)
    ∧ (stT id).tagNoRoom 3 0 = true ∧ (stT id).part? 0 = some partT
    ∧ (tagwT 5 (some 5) false).tagGen 0 0x123 = some 5 ∧ 32768 ≤ (5#16 - 32773#16).toNat ∧ (5#16 - 32774#16).toNat ≤ 32767
    ∧ (tagwT 5 (some 5) true).inOverflow 0 (tagBuf 0x123) = true ∧ tagWide 0x123 = false ∧ tagWide 0xFFFFFFFF = true
    ∧ (0x123 < 2 ^ 48 ∧ tagBuf 0x123 = tagBuf 0xFFFFFFFF) := by decide +kernel
/-- A group of two members in the states given. -/
def groupOf (a b quorum : Nat) : Group := { groupT with
  quorum := quorum, members := [⟨a, none, true, false, none, false⟩, ⟨b, none, true, false, some 3, false⟩] }
/-- A post after the member's end, after a decision, short of the quorum and at it; a plurality with and without hashes, and none. -/
theorem test_wit_UnitEvents_groups : 0 < (groupOf 1 0 2).members.length ∧ ((groupOf 1 0 2).memberAt 0).stat ≠ 0
    ∧ (((groupOf 0 0 2).memberAt 0).stat = 0 ∧ (groupOf 0 0 2).decided = false)
    ∧ ((groupOf 0 0 2).hashes.find? fun y => y.1 = 7#64) = none ∧ 0 + 1 ≠ (groupOf 0 0 2).quorum ∧ 0 + 1 = (groupOf 0 0 1).quorum
    ∧ ({ groupOf 0 0 2 with decided := true } : Group).decided = true
    ∧ (∀ y ∈ (groupOf 2 2 2).members, y.stat ≠ 0) ∧ (∃ y ∈ (groupOf 2 0 2).members, y.stat = 0) ∧ (groupOf 2 2 2).hashes = []
    ∧ (let hs : List (Word × Nat) := [(7, 1), (9, 2), (8, 2)]
       hs[1]? = some (9, 2) ∧ ∀ j < 3, (hs.getD j (0, 0)).2 ≤ 2 ∧ (j < 1 → (hs.getD j (0, 0)).2 < 2))
    ∧ ({ groupOf 1 1 2 with decided := true, winner := 7, hashes := [(7, 2)] } : Group).noAnswer = false
    ∧ ([((7 : Word), 2)].find? fun y => y.1 = 7) = some (7, 2) := by
  refine ⟨by decide, by decide, by decide, by decide, by decide, by decide, by decide, by decide, ⟨⟨0, none, true, false, some 3, false⟩,
    by decide, rfl⟩, by decide, by decide, by decide, by decide⟩

/-- A packet of n bytes, as the list gives them over one that passes. -/
def pkT (n : Nat) (m : List (Nat × Byte)) : List Byte :=
  (List.range n).map fun i => (Sparse.get? (m ++ [(0, 1), (1, BitVec.ofNat 8 (n / 16)), (10, 2), (16, 1)]) i).getD 0
/-- The machine of the tests with all features accepted. -/
def featT : State := { msgT [] with parts := [(0, { partQ with features := 0x3F })] }
/-- For each check of R24 a packet that passes those before it and fails it. -/
theorem test_wit_QueueEvents_codes : ∀ x ∈ [(1, pkT 32 [(0, 2)]), (2, pkT 32 [(1, 1)]), (3, pkT 32 [(2, 1)]), (4, pkT 32 [(3, 8)]),
      (5, pkT 32 [(7, 1)]), (6, pkT 32 [(16, 0)]), (7, pkT 32 [(8, 1)]), (8, pkT 32 [(20, 128)]), (9, pkT 48 [(4, 2)]),
      (10, pkT 48 [(4, 4), (32, 1)])],
    (∀ i, 1 ≤ i → i ≤ x.1 - 1 → PacketPass featT 0 x.2 none i) ∧ ¬ PacketPass featT 0 x.2 none x.1 := by
  intro x hx
  fin_cases hx <;> refine ⟨fun i h1 h2 => ?_, by simp only [PacketPass]; decide +kernel⟩ <;> simp only at h2 <;> interval_cases i <;>
    simp only [PacketPass] <;> decide +kernel
/-- Packets of two siblings that pass to check 10, with their records misplaced, mapped and unmapped; an INLINE one without payload. -/
theorem test_wit_QueueEvents_siblings :
    (∀ y ∈ [pkT 48 [(4, 4), (16, 2), (32, 2), (33, 2), (40, 1)], pkT 48 [(4, 4), (16, 2), (32, 2), (33, 2), (42, 4)], pkT 32 [(4, 16)]],
      ∀ i, 1 ≤ i → i ≤ 10 → PacketPass featT 0 y none i)
    ∧ pkFlag (pkT 48 [(4, 4)]) 2 = true ∧ pkFlag (pkT 32 [(4, 16)]) 2 = false
    ∧ (pkParse (pkT 48 [(4, 4), (16, 2), (32, 2), (33, 2), (40, 1)])).grprec % 64 ≠ 0
    ∧ (pkParse (pkT 48 [(4, 4), (16, 2), (32, 2), (33, 2), (42, 4)])).grprec = 0x40000
    ∧ featT.devWaits 0 0 .write 0x40000 64 = false ∧ (featT.devSegs 0 0 .write 0x40000 64).2.isSome = true
    ∧ (featT.devSegs 0 0 .write 0x4000000000 64).2.isSome = false
    ∧ (featT.modDie 0 fun D => { D with frozen := true }).devWaits 0 0 .write 0x40000 64 = true
    ∧ ¬ PacketPass featT 0 (pkT 32 [(4, 16)]) none 12 := by
  refine ⟨?_, by decide +kernel, by decide +kernel, by decide +kernel, by decide +kernel, by decide +kernel, by decide +kernel,
    by decide +kernel, by decide +kernel, by simp only [PacketPass]; decide +kernel⟩
  intro y hy
  fin_cases hy <;> intro i h1 h2 <;> interval_cases i <;> simp only [PacketPass] <;> decide +kernel
/-- A PREF of a sector whose home runs, and of one whose home is frozen. -/
theorem test_wit_CacheControls_frozen : (pageT id).readLive 0 false [⟨.paged 0x30000 1 0, 1⟩] = true
    ∧ ((pageT id).modDie 1 fun D => { D with frozen := true }).readLive 0 false [⟨.paged 0x30000 1 0, 1⟩] = false := by decide +kernel

end Sys2Proof.Tests
end

section
/-! PROOFS. The scalar instructions of 06_scalar_instructions.md: what the integer functions compute, how a plain result completes,
how control is transferred, and what TRAP and BRK take. -/

/-! # The integer functions against the operations on words -/
namespace Sys2Proof.Claims
open Sys2Proof Sys2Proof.Machine Sys2Proof.Machine.State

/-! ## High halves of the products (R125) -/

/-- Bits 127 to 64 of an integer, as its quotient by 2^64. -/
theorem extractLsb'_ofInt_high (z : Int) : (BitVec.ofInt 128 z).extractLsb' 64 64 = BitVec.ofInt 64 (z / 2 ^ 64) := by
  apply BitVec.eq_of_toNat_eq
  simp only [BitVec.extractLsb'_toNat, BitVec.toNat_ofInt, Nat.shiftRight_eq_div_pow]
  omega

theorem mulHi_eq (a b : Word) : mulHi a b = (a.signExtend 128 * b.signExtend 128).extractLsb' 64 64 := by
  rw [BitVec.signExtend, BitVec.signExtend, ← BitVec.ofInt_mul, extractLsb'_ofInt_high, mulHi]

theorem mulHiU_eq (a b : Word) : mulHiU a b = (a.setWidth 128 * b.setWidth 128).extractLsb' 64 64 := by
  have hlt : a.toNat * b.toNat < 2 ^ 128 := by
    calc a.toNat * b.toNat < 2 ^ 64 * 2 ^ 64 := Nat.mul_lt_mul'' a.isLt b.isLt
      _ = 2 ^ 128 := by norm_num
  apply BitVec.eq_of_toNat_eq
  have ha : a.toNat % 2 ^ 128 = a.toNat := Nat.mod_eq_of_lt (a.isLt.trans (by norm_num))
  have hb : b.toNat % 2 ^ 128 = b.toNat := Nat.mod_eq_of_lt (b.isLt.trans (by norm_num))
  simp only [mulHiU, BitVec.toNat_ofNat, BitVec.extractLsb'_toNat, BitVec.toNat_mul, BitVec.toNat_setWidth, ha, hb,
    Nat.mod_eq_of_lt hlt, Nat.shiftRight_eq_div_pow]

/-! ## Quotients and remainders (R126) -/

/-- The quotient toward zero wraps only for the least word by -1, as it does in two's complement. -/
theorem divS_eq (a b : Word) : divS a b = if b = 0 then -1 else a.sdiv b := by
  unfold divS
  split
  · rfl
  · apply BitVec.eq_of_toInt_eq
    rw [BitVec.toInt_ofInt, BitVec.toInt_sdiv]

theorem remS_eq (a b : Word) : remS a b = if b = 0 then a else a.srem b := by
  unfold remS
  rw [← BitVec.toInt_srem, BitVec.ofInt_toInt]

theorem divU_eq (a b : Word) : divU a b = if b = 0 then -1 else a / b := by
  unfold divU
  rw [← BitVec.toNat_udiv, BitVec.ofNat_toNat, BitVec.setWidth_eq]
  rfl

theorem remU_eq (a b : Word) : remU a b = if b = 0 then a else a % b := by
  unfold remU
  rw [← BitVec.toNat_umod, BitVec.ofNat_toNat, BitVec.setWidth_eq]

/-! ## Shift counts (R125): the low six bits of B -/

theorem shiftCount_toNat (b : Word) : (b % 64).toNat = b.toNat % 64 := BitVec.toNat_umod

/-! ## Comparisons, minimum and maximum (R128) -/

theorem b2w_decide (p : Prop) [Decidable p] : b2w (decide p) = if p then 1 else 0 := by
  by_cases h : p <;> simp [b2w, h]

theorem b2w_bne (a b : Word) : b2w (a != b) = if a = b then 0 else 1 := by
  by_cases h : a = b <;> simp [b2w, h]

/-- A choice by `<` is the choice by `≤` where equal keys choose the same. -/
theorem ite_lt_eq_ite_le {α β : Type} [LinearOrder β] (x y : β) (u v : α) (h : x = y → u = v) :
    (if x < y then u else v) = if x ≤ y then u else v := by
  rcases lt_trichotomy x y with hlt | heq | hgt
  · rw [if_pos hlt, if_pos hlt.le]
  · rw [h heq, ite_self, ite_self]
  · rw [if_neg hgt.not_gt, if_neg hgt.not_ge]

theorem slt_iff (a b : Word) : a.slt b = true ↔ a.toInt < b.toInt := by simp [BitVec.slt]
theorem ult_iff (a b : Word) : a.ult b = true ↔ a.toNat < b.toNat := by simp [BitVec.ult]

theorem slt_min (a b : Word) : (if a.slt b then a else b) = if a.toInt ≤ b.toInt then a else b := by
  simp only [slt_iff]
  exact ite_lt_eq_ite_le _ _ _ _ BitVec.eq_of_toInt_eq
theorem slt_max (a b : Word) : (if a.slt b then b else a) = if a.toInt ≤ b.toInt then b else a := by
  simp only [slt_iff]
  exact ite_lt_eq_ite_le _ _ _ _ fun h => (BitVec.eq_of_toInt_eq h).symm
theorem ult_min (a b : Word) : (if a.ult b then a else b) = if a.toNat ≤ b.toNat then a else b := by
  simp only [ult_iff]
  exact ite_lt_eq_ite_le _ _ _ _ BitVec.eq_of_toNat_eq
theorem ult_max (a b : Word) : (if a.ult b then b else a) = if a.toNat ≤ b.toNat then b else a := by
  simp only [ult_iff]
  exact ite_lt_eq_ite_le _ _ _ _ fun h => (BitVec.eq_of_toNat_eq h).symm

/-! ## Counting bits (R128) -/

theorem clz64_eq (a : Word) : BitVec.ofNat 64 (clz64 a) = a.clz := by
  unfold clz64
  split
  · next h => exact (BitVec.clz_eq_iff_eq_zero.2 h).symm
  · next h =>
    have hlt : a.clz.toNat < 64 := BitVec.lt_def.1 (BitVec.clz_lt_iff_ne_zero.2 h)
    have hne : a.toNat ≠ 0 := fun h0 => h (BitVec.eq_of_toNat_eq h0)
    have hlog : a.toNat.log2 = 63 - a.clz.toNat := (Nat.log2_eq_iff hne).2
      ⟨BitVec.two_pow_sub_clz_le_toNat_of_ne_zero (by decide) h, by
        have := BitVec.toNat_lt_two_pow_sub_clz (x := a)
        rwa [show 63 - a.clz.toNat + 1 = 64 - a.clz.toNat by omega]⟩
    rw [hlog, show 64 - (63 - a.clz.toNat + 1) = a.clz.toNat by omega, BitVec.ofNat_toNat, BitVec.setWidth_eq]

theorem ctz64_eq (a : Word) : BitVec.ofNat 64 (ctz64 a) = a.reverse.clz := by
  rw [← BitVec.ctz_eq_reverse_clz, ctz64]
  by_cases h : a = 0
  · have hnone : (List.range 64).find? (fun i => a.getLsbD i) = none := by simp [h]
    have hclz : a.reverse.clz = 64 := BitVec.clz_eq_iff_eq_zero.2 (BitVec.reverse_eq_zero_iff.2 h)
    rw [hnone, BitVec.ctz_eq_reverse_clz, hclz]
    rfl
  · have hlt : a.ctz.toNat < 64 := BitVec.lt_def.1 (BitVec.ctz_lt_iff_ne_zero.2 h)
    have hfind : (List.range 64).find? (fun i => a.getLsbD i) = some a.ctz.toNat := List.find?_range_eq_some.2
      ⟨BitVec.getLsbD_true_ctz_of_ne_zero h, List.mem_range.2 hlt, fun j hj => by simp [BitVec.getLsbD_false_of_lt_ctz hj]⟩
    rw [hfind, Option.getD_some, BitVec.ofNat_toNat, BitVec.setWidth_eq]

theorem popcount64_eq (a : Word) :
    BitVec.ofNat 64 (popcount 64 a) = BitVec.ofNat 64 ((List.range 64).countP fun i => a.getLsbD i) := by
  rw [popcount, countTo, List.countP_eq_length_filter]

/-! ## Extension of a field (R128) -/

theorem signedVal_eq_toInt (n x : Nat) : signedVal n x = (BitVec.ofNat n x).toInt := by
  have hhalf : ∀ m, m < 2 ^ n → (m < 2 ^ (n - 1) ↔ 2 * m < 2 ^ n) := by
    cases n with
    | zero => intro m hm; omega
    | succ k => intro m _; rw [Nat.add_sub_cancel, pow_succ]; omega
  simp only [signedVal, BitVec.toInt_eq_toNat_cond, BitVec.toNat_ofNat, hhalf _ (Nat.mod_lt x (Nat.two_pow_pos n)),
    Nat.cast_pow, Nat.cast_ofNat]

theorem sextW_eq (a : Word) (w : Nat) : sextW a w = (a.setWidth w).signExtend 64 := by
  rw [sextW, sext64, signedVal_eq_toInt, BitVec.ofNat_toNat, BitVec.signExtend]

theorem zextW_eq (a : Word) (w : Nat) : zextW a w = (a.setWidth w).setWidth 64 := by
  apply BitVec.eq_of_toNat_eq
  simp [zextW]

end Sys2Proof.Claims
end

section
/-! # The scalar integer instructions complete with their results -/
namespace Sys2Proof.Claims
open Sys2Proof Sys2Proof.Machine Sys2Proof.Machine.State

/-- Without sources an Active slot is enough. -/
theorem canIssue_nil {s : State} (hr : s.here.run = .active) : CanIssue [] s := ⟨hr, fun _ h => absurd h List.not_mem_nil⟩

/-- The length and the interval do not matter before retiring. -/
theorem Before.timed {e : Effect} {s u : State} (h : Before e s u) (n len : Nat) : Before { e with n := n, len := len } s u :=
  ⟨h.cur, h.scalars, h.vectors, h.masks, h.parities, h.unseen, h.slot, h.others, h.shares, h.rest⟩

/-- A NOP of a length completes (R108). -/
theorem does_nop {i : Instr} {s : State} {len : Nat} (hi : exec i s = .next (s.nop len)) (hc : CanIssue [] s) :
    Does i s { len := len } := by
  refine ⟨_, hi, ?_⟩
  rw [nop, issue_acts hc]
  exact ((before_consume [] hc.1).timed 8 len).retire rfl 8 len rfl rfl rfl ⟨rfl, rfl, rfl, rfl⟩

/-- An instruction that issues, writes a function of its sources to a scalar register and retires. -/
theorem does_wr {i : Instr} {s : State} {xs : List Src} {d : SField} {g : State → Word} {v : Word} {n len : Nat}
    (hi : exec i s = .next (s.issue xs fun u => (u.wr d (g u)).retire n len)) (hc : CanIssue xs s) (hv : g (s.consume xs) = v) :
    Does i s { srcs := xs, ws := some (d, v), n := n, len := len } := by
  refine ⟨_, hi, ?_⟩
  rw [issue_acts hc, hv]
  exact completes_wr hc d v n len

section
variable {i : Instr} {s : State} {v : Word}

theorem does_rrr {o : RRR} {n : Nat} {f : Word → Word → Word} (hc : CanIssue [.s o.a o.am, .s o.b o.bm] s)
    (hi : exec i s = .next (s.aluRRR o n f)) (hv : f (s.rd o.a) (s.rd o.b) = v) : Does i s (rrr o n v) :=
  does_wr hi hc (by simpa only [consume_rd] using hv)
theorem does_rri {o : RRI} {f : Word → Word → Word} (hc : CanIssue [.s o.a o.am] s)
    (hi : exec i s = .next (s.aluRRI o f)) (hv : f (s.rd o.a) (imm24s o.imm) = v) : Does i s (rri o v) :=
  does_wr hi hc (by simpa only [consume_rd] using hv)
theorem does_rrsh {o : RRSh} {f : Word → Nat → Word} (hc : CanIssue [.s o.a o.am] s)
    (hi : exec i s = .next (s.aluRRSh o f)) (hv : f (s.rd o.a) o.sh.toNat = v) : Does i s (rrsh o v) :=
  does_wr hi hc (by simpa only [consume_rd] using hv)
theorem does_rrw {o : RRW} {f : Word → Nat → Word} (hc : CanIssue [.s o.a o.am] s)
    (hi : exec i s = .next (s.aluRRW o f)) (hv : f (s.rd o.a) o.w.toNat = v) : Does i s (rrw o v) :=
  does_wr hi hc (by simpa only [consume_rd] using hv)
theorem does_rr {o : RRO} {f : Word → Word} (hc : CanIssue [.s o.a o.am] s)
    (hi : exec i s = .next (s.aluRR o f)) (hv : f (s.rd o.a) = v) : Does i s (rr o v) :=
  does_wr hi hc (by simpa only [consume_rd] using hv)
theorem does_rrrr {o : RRRR} {f : Word → Word → Word → Word} (hc : CanIssue [.s o.a o.am, .s o.b o.bm, .s o.c o.cm] s)
    (hi : exec i s = .next (s.aluRRRR o f)) (hv : f (s.rd o.a) (s.rd o.b) (s.rd o.c) = v) : Does i s (rrrr o v) :=
  does_wr hi hc (by simpa only [consume_rd] using hv)

end

/-- The two-source forms (R125, R126, R128), in the order of `intRegs`. -/
theorem intRegs_does {s : State} {i : Instr} {e : Effect} (h : intRegs s i = some e) (hc : CanIssue e.srcs s) : Does i s e := by
  unfold intRegs at h
  split at h <;> cases h
  · exact does_rrr hc rfl rfl -- ADD
  · exact does_rrr hc rfl rfl -- SUB
  · exact does_rrr hc rfl rfl -- AND
  · exact does_rrr hc rfl rfl -- OR
  · exact does_rrr hc rfl rfl -- XOR
  · exact does_rrr hc rfl rfl -- ANDN
  · exact does_rrr hc rfl (by rw [← shiftCount_toNat, ← BitVec.shiftLeft_eq']) -- SHL
  · exact does_rrr hc rfl (by rw [← shiftCount_toNat, ← BitVec.ushiftRight_eq']) -- SHR
  · exact does_rrr hc rfl (by rw [← shiftCount_toNat, BitVec.sshiftRight_eq']) -- SRA
  · exact does_rrr hc rfl rfl -- MUL
  · exact does_rrr hc rfl (mulHi_eq ..) -- MULH
  · exact does_rrr hc rfl (mulHiU_eq ..) -- MULHN
  · exact does_rrr hc rfl (divS_eq ..) -- DIV
  · exact does_rrr hc rfl (divU_eq ..) -- DIVN
  · exact does_rrr hc rfl (remS_eq ..) -- REM
  · exact does_rrr hc rfl (remU_eq ..) -- REMN
  · exact does_rrr hc rfl (b2w_decide ..) -- SLT
  · exact does_rrr hc rfl (b2w_decide ..) -- SLTN
  · exact does_rrr hc rfl (b2w_decide ..) -- SEQ
  · exact does_rrr hc rfl (b2w_bne ..) -- SNE
  · exact does_rrr hc rfl (slt_min ..) -- MIN
  · exact does_rrr hc rfl (slt_max ..) -- MAX
  · exact does_rrr hc rfl (ult_min ..) -- MINN
  · exact does_rrr hc rfl (ult_max ..) -- MAXN

/-- The other forms (R108, R127 to R130), in the order of `intOthers`. -/
theorem intOthers_does {s : State} {i : Instr} {e : Effect} (h : intOthers s i = some e) (hc : CanIssue e.srcs s) : Does i s e := by
  unfold intOthers at h
  split at h <;> cases h
  · exact does_rri hc rfl rfl -- ADDI
  · exact does_rri hc rfl rfl -- ANDI
  · exact does_rri hc rfl rfl -- ORI
  · exact does_rri hc rfl rfl -- XORI
  · exact does_rri hc rfl rfl -- MULI
  · exact does_rrsh hc rfl BitVec.shiftLeft_eq'.symm -- SHLI
  · exact does_rrsh hc rfl (BitVec.ushiftRight_eq' ..).symm -- SHRI
  · exact does_rrsh hc rfl (BitVec.sshiftRight_eq' _).symm -- SRAI
  · exact does_rr hc rfl (clz64_eq _) -- CLZ
  · exact does_rr hc rfl (ctz64_eq _) -- CTZ
  · exact does_rr hc rfl (popcount64_eq _) -- POPC
  · exact does_rrw hc rfl (sextW_eq ..) -- SEXT
  · exact does_rrw hc rfl (zextW_eq ..) -- ZEXT
  · exact does_rrrr hc rfl (ite_not ..) -- SEL
  · exact does_rrrr hc rfl rfl -- MADD
  · exact does_wr rfl hc rfl -- MOVI
  · exact does_wr rfl hc rfl -- MOVL
  · exact does_nop rfl hc -- NOP8
  · exact does_nop rfl hc -- NOP12
  · exact does_nop rfl hc -- NOP16

/-- Settles O14, form by form: each issues by its sources, writes its word function of them, which is the operation on words that
the statement gives, and retires. -/
theorem integerResults : Obligations.IntegerResults := by
  intro s i e h hc
  rcases h with h | h
  · exact intRegs_does h hc
  · exact intOthers_does h hc

end Sys2Proof.Claims
end

section
/-! # Jumps -/
namespace Sys2Proof.Machine.State

/-- A scalar register reads the same where neither its slot's registers nor the cores' shares nor the partitions differ. -/
theorem sreg_congr {t u : State} {r : SlotRef} (hs : (t.slotAt r).sregs = (u.slotAt r).sregs) (hc : t.coreParts = u.coreParts)
    (hp : t.parts = u.parts) (f : Nat) : t.sreg r f = u.sreg r f := by
  have hpart : t.partOf r = u.partOf r := by simp only [State.partOf, State.ownerOf, part?, hp]
  simp only [sreg, hs, cpAt, hc, hpart]

/-! ## What a use of the turn, a cancellation point and a jump do to the state -/

theorem used_slotAt_other (s : State) (n : Nat) {r : SlotRef} (h : slotKey r ≠ slotKey s.cur) :
    (s.used n).slotAt r = s.slotAt r := by
  rw [used, modDie_slotAt, modHere_eq, modSlot_slotAt, if_neg h]
theorem used_dieAt (s : State) (n d : Nat) : (s.used n).dieAt d =
    if d = coreDie s.cur.core then { s.dieAt d with lastIssue := s.cycleOf s.cur.core } else s.dieAt d := by
  rw [used, modDie_dieAt, modHere_eq, modSlot_dieAt, modSlot_dieAt]
  split
  · next hd => rw [hd]
  · rfl

/-- In user mode with a cancellation pending it is due at the point, else nothing happens (R321, R322). -/
theorem cancelPoint_here (s : State) (epc : Word) : (s.cancelPoint epc).here = { s.here with
    run := if s.here.mode.cpend = true ∧ s.here.mode.priv = false then .cancelDue epc else s.here.run } := by
  unfold cancelPoint
  by_cases h : s.here.mode.cpend = true ∧ s.here.mode.priv = false
  · rw [if_pos (by simp [h]), if_pos h, modHere_here]
  · rw [if_neg (by simpa using h), if_neg h]
theorem cancelPoint_slotAt_other (s : State) (epc : Word) {r : SlotRef} (h : slotKey r ≠ slotKey s.cur) :
    (s.cancelPoint epc).slotAt r = s.slotAt r := by
  unfold cancelPoint
  split
  · rw [modHere_eq, modSlot_slotAt, if_neg h]
  · rfl
theorem cancelPoint_rest (s : State) (epc : Word) : s.cancelPoint epc = { s with slots := (s.cancelPoint epc).slots } := by
  unfold cancelPoint
  split <;> rfl

/-- A jump before its cancellation point: the turn used, PC and penalty set (R104, R109). -/
def moved (s : State) (target : Word) (penalty : Nat) : State :=
  (s.used 8).modHere fun sl => { sl with
    pc := target, penalty := if penalty = 0 then sl.penalty else some (s.cycleOf s.cur.core + 8 + penalty) }
theorem jumpTo_eq (s : State) (target : Word) (penalty : Nat) : s.jumpTo target penalty =
    if target.toNat ≤ s.here.pc.toNat then (s.moved target penalty).cancelPoint target else s.moved target penalty := by
  simp only [jumpTo, moved, decide_eq_true_eq]
theorem moved_here (s : State) (target : Word) (penalty : Nat) : (s.moved target penalty).here = { s.here with
    turns := s.here.turns + 1, interval := some (s.cycleOf s.cur.core + 8), walkFault := none, walked := []
    penalty := if penalty = 0 then s.here.penalty else some (s.cycleOf s.cur.core + 8 + penalty)
    pc := target } := by
  rw [moved, modHere_here, Claims.used_here]
theorem moved_slotAt_other (s : State) (target : Word) (penalty : Nat) {r : SlotRef} (h : slotKey r ≠ slotKey s.cur) :
    (s.moved target penalty).slotAt r = s.slotAt r := by
  rw [moved, modHere_eq, modSlot_slotAt, if_neg (by exact h), used_slotAt_other s 8 h]

/-- The running slot after a jump (R104, R109 to R112). -/
theorem jumpTo_here (s : State) (target : Word) (penalty : Nat) : (s.jumpTo target penalty).here = { s.here with
    turns := s.here.turns + 1, interval := some (s.cycleOf s.cur.core + 8), walkFault := none, walked := []
    penalty := if penalty = 0 then s.here.penalty else some (s.cycleOf s.cur.core + 8 + penalty)
    pc := target
    run := if target.toNat ≤ s.here.pc.toNat ∧ s.here.mode.cpend = true ∧ s.here.mode.priv = false then .cancelDue target
      else s.here.run } := by
  rw [jumpTo_eq]
  split
  · next hback => simp only [hback, true_and, cancelPoint_here, moved_here]
  · next hback => simp only [hback, false_and, if_false, moved_here]
theorem jumpTo_slotAt_other (s : State) (target : Word) (penalty : Nat) {r : SlotRef} (h : slotKey r ≠ slotKey s.cur) :
    (s.jumpTo target penalty).slotAt r = s.slotAt r := by
  rw [jumpTo_eq]
  split
  · rw [cancelPoint_slotAt_other _ _ (by exact h), moved_slotAt_other s target penalty h]
  · exact moved_slotAt_other s target penalty h
theorem jumpTo_rest (s : State) (target : Word) (penalty : Nat) :
    s.jumpTo target penalty = { s with slots := (s.jumpTo target penalty).slots, dies := (s.used 8).dies } := by
  rw [jumpTo_eq]
  split
  · rw [cancelPoint_rest]; rfl
  · rfl

/-! ## What consuming and writing scalar registers leaves of the running slot -/

/-- Scalar sources consume in the scalar registers alone. -/
theorem consume_here {xs : List Src} (hx : ∀ x ∈ xs, ∃ f m, x = .s f m) (s : State) :
    (s.consume xs).here = { s.here with sregs := (s.consume xs).here.sregs } := by
  induction xs generalizing s with
  | nil => rfl
  | cons x t ih =>
    obtain ⟨⟨f, m, rfl⟩, ht⟩ := List.forall_mem_cons.1 hx
    have hone : (s.consume [.s f m]).here = { s.here with sregs := (s.consume [.s f m]).here.sregs } := by
      rw [here, (Claims.consumed_one s _).regs.cur]
      cases m
      case consume => exact modS_slotAt ..
      all_goals rfl
    rw [Claims.consume_cons, ih ht, hone]
theorem wr_here (s : State) (d : SField) (v : Word) : (s.wr d v).here = { s.here with sregs := (s.wr d v).here.sregs } := by
  have hcur : (s.wr d v).cur = s.cur := (putReg_regsOnly ..).cur
  rw [here, hcur]
  exact putReg_slotAt ..

end Sys2Proof.Machine.State

namespace Sys2Proof.Claims
open Sys2Proof Sys2Proof.Machine Sys2Proof.Machine.State

/-- What holds before a jump, with only scalar registers changed in the running slot, the jump carries on to its end. -/
theorem Before.jumpsTo {srcs : List Src} {ws : Option (SField × Word)} {s u : State} (h : Before { srcs := srcs, ws := ws } s u)
    (hhere : u.here = { s.here with sregs := u.here.sregs }) (hrun : s.here.run = .active) (target : Word) (penalty : Nat) :
    JumpsTo srcs ws target penalty s (u.jumpTo target penalty) := by
  have hcur := h.cur
  have hrest := jumpTo_rest u target penalty
  have hjump := jumpTo_here u target penalty
  have hcp : (u.jumpTo target penalty).coreParts = u.coreParts := by rw [hrest]
  have hparts : (u.jumpTo target penalty).parts = u.parts := by rw [hrest]
  have hcycle : u.cycleOf u.cur.core = s.cycleOf s.cur.core := by simp only [State.cycleOf, dieAt, h.dies, hcur]
  have hother {r : SlotRef} (hr : slotKey r ≠ slotKey s.cur) : (u.jumpTo target penalty).slotAt r = u.slotAt r :=
    jumpTo_slotAt_other u target penalty (by rw [hcur]; exact hr)
  have hregs : ((u.jumpTo target penalty).slotAt s.cur).sregs = (u.slotAt s.cur).sregs := by
    have hc : (u.jumpTo target penalty).cur = s.cur := by rw [hrest]; exact hcur
    rw [here, hc, here, hcur] at hjump
    rw [hjump]
  refine ⟨fun f => ?_, ?_, fun r f h1 h2 h3 => ?_, fun r h1 h2 => ?_, fun c p hp => ?_, fun d => ?_, ?_⟩
  · rw [sreg_congr hregs hcp hparts]
    exact h.scalars f
  · rw [hjump, hhere, hcycle, hrun]
  · rw [sreg_congr (by rw [hother h2]) hcp hparts]
    exact h.unseen r f h1 h2 h3 rfl
  · rw [hother h2]
    exact h.others r h1 h2
  · rw [cpAt, hcp]
    exact h.shares c p hp
  · have hdie : (u.jumpTo target penalty).dieAt d = (u.used 8).dieAt d := by rw [hrest]; rfl
    rw [hdie, used_dieAt, hcycle, hcur, dieAt, dieAt, h.dies]
  · rw [hrest, h.rest]
    rfl

/-- A jump without a link. -/
theorem jumpsTo_consume {xs : List Src} {s : State} (hr : s.here.run = .active) (hx : ∀ x ∈ xs, ∃ f m, x = .s f m) (target : Word)
    (penalty : Nat) : JumpsTo xs none target penalty s ((s.consume xs).jumpTo target penalty) :=
  (before_consume xs hr).jumpsTo (consume_here hx s) hr target penalty

/-- A jump with its link written (R109, R110). -/
theorem jumpsTo_link {xs : List Src} {s : State} (hr : s.here.run = .active) (hx : ∀ x ∈ xs, ∃ f m, x = .s f m) (d : SField)
    (link target : Word) (penalty : Nat) :
    JumpsTo xs (some (d, link)) target penalty s (((s.consume xs).wr d link).jumpTo target penalty) :=
  ((before_consume xs hr).put d link rfl rfl rfl rfl).jumpsTo (by rw [wr_here, consume_here hx s]) hr target penalty

/-- A register jump to a multiple of 4 (R110). -/
theorem jumpReg_jumps {s : State} {a : SField} {am : Md} {imm : BitVec 24} (d : Option SField) (hc : CanIssue [.s a am] s)
    (h4 : (s.rd a + imm.signExtend 64).toNat % 4 = 0) :
    JumpsTo [.s a am] (d.map fun d => (d, s.here.pc + 8)) (s.rd a + imm.signExtend 64) 6 s (s.jumpReg a am imm d) := by
  have hx : ∀ x ∈ [Src.s a am], ∃ f m, x = .s f m := by simp
  have hpc : (s.consume [.s a am]).here.pc = s.here.pc := by rw [consume_here hx]
  rw [jumpReg, issueP_acts hc (.inl rfl) (if_neg (not_not.2 h4)), consume_rd, hpc]
  cases d with
  | none => exact jumpsTo_consume hc.1 hx _ 6
  | some d => exact jumpsTo_link hc.1 hx d _ _ 6
/-- Any other register target traps before the link is written (R110). -/
theorem jumpReg_traps {s : State} {a : SField} {am : Md} {imm : BitVec 24} (d : Option SField) (hc : CanIssue [.s a am] s)
    (h4 : (s.rd a + imm.signExtend 64).toNat % 4 ≠ 0) : s.jumpReg a am imm d = s.trap 4 (s.rd a + imm.signExtend 64) := by
  rw [jumpReg]
  exact issueP_traps hc (.inl rfl) (if_pos h4) _

/-- Settles O22: the relative jumps have no check; of the register jumps the target is checked first, and the link is written on the
way to a good one. -/
theorem jumps : Obligations.Jumps := by
  refine ⟨fun s o hr => ⟨_, rfl, ?_⟩, fun s o hr => ⟨_, rfl, ?_⟩, fun s o hc => ⟨fun h4 => ⟨_, rfl, ?_⟩, fun h4 => ?_⟩,
    fun s o hc => ⟨fun h4 => ⟨_, rfl, ?_⟩, fun h4 => ?_⟩⟩
  · rw [issue_acts (canIssue_nil hr)] -- BR
    exact jumpsTo_consume hr (by simp) _ 0
  · rw [issue_acts (canIssue_nil hr)] -- JAL
    exact jumpsTo_link hr (by simp) o.d _ _ 0
  · exact jumpReg_jumps none hc h4 -- JR
  · exact congrArg Host.Outcome.next (jumpReg_traps none hc h4)
  · exact jumpReg_jumps (some o.d) hc h4 -- JALR
  · exact congrArg Host.Outcome.next (jumpReg_traps (some o.d) hc h4)

end Sys2Proof.Claims
end

section
/-! # TRAP and BRK -/
namespace Sys2Proof.Claims
open Sys2Proof Sys2Proof.Machine Sys2Proof.Machine.State

/-- The running slot after a trap that is no double trap (R307). -/
theorem trap_here {s : State} (hn : s.here.mode.nest = false) (cause : BitVec 8) (tval : Word) :
    (s.trap cause tval).here = { s.here with
      run := .active, epc := s.here.pc, cause := cause, tval := tval
      mode := { s.here.mode with pp := s.here.mode.priv, priv := true, nest := true }
      pc := s.pcsr s.herePart s.cur.core .tvec, ahead := [], walkFault := none, walked := [], cwait := none } := by
  rw [trap, trapAt, if_neg (by rw [← here, hn]; exact Bool.false_ne_true), ← modHere_eq, modHere_here]
  rfl

theorem exec_trap {s : State} (hr : s.here.run = .active) (o : TrapO) : exec (.trap o) s = .next (s.trap 13 (o.code.setWidth 64)) :=
  congrArg Host.Outcome.next (issue_acts (canIssue_nil hr) _)
theorem exec_brk {s : State} (hr : s.here.run = .active) : exec .brk s = .next (s.trap 14 0) :=
  congrArg Host.Outcome.next (issue_acts (canIssue_nil hr) _)

/-- Settles O11: neither has a source, so both issue on an Active slot and trap. -/
theorem trapInstructions : Obligations.TrapInstructions := by
  refine fun s o hr => ⟨exec_trap hr o, exec_brk hr, fun hn => ⟨⟨_, exec_trap hr o, ?_⟩, ⟨_, exec_brk hr, ?_⟩⟩⟩
  · rw [trap_here hn]
    exact ⟨rfl, rfl, rfl, rfl, rfl⟩
  · rw [trap_here hn]
    exact ⟨rfl, rfl, rfl, rfl, rfl⟩

end Sys2Proof.Claims
end

section
/-! # Taking an exception -/
namespace Sys2Proof.Machine.State

/-- What taking an exception makes of its slot, the vector being v (R307). -/
def enterTrap (v : Word) (cause : BitVec 8) (tval : Word) (sl : Slot) : Slot := { sl with
  run := .active, epc := sl.pc, cause := cause, tval := tval, pc := v
  mode := { sl.mode with pp := sl.mode.priv, priv := true, nest := true }
  ahead := [], walkFault := none, walked := [], cwait := none }

/-- What stopping makes of its slot, whatever was withdrawn and discarded before (R124, R310). -/
def stopped (how : EndHow) (sl : Slot) : Slot := { sl with
  run := .ending how, ahead := [], penalty := none, cwait := none, mode := { sl.mode with cpend := false }
  pend := sl.pend.map fun q => { q with dest := .none } }

theorem trapAt_of_nest {s : State} {r : SlotRef} (hn : (s.slotAt r).mode.nest = true) (cause : BitVec 8) (tval : Word) :
    s.trapAt r cause tval = s.doubleTrap r cause tval := if_pos hn
theorem trapAt_of_not_nest {s : State} {r : SlotRef} (hn : (s.slotAt r).mode.nest = false) (cause : BitVec 8) (tval : Word) :
    s.trapAt r cause tval = s.modSlot r (enterTrap (s.pcsr (s.partOf r) r.core .tvec) cause tval) :=
  if_neg (by rw [hn]; exact Bool.false_ne_true)

/-- The withdrawals and discards of a stop come before its last update, which is the slot's own. -/
theorem stopSlot_eq_modSlot (s : State) (r : SlotRef) (how : EndHow) : ∃ u : State, s.stopSlot r how = u.modSlot r (stopped how) :=
  ⟨_, rfl⟩
theorem stopSlot_slotAt (s : State) (r : SlotRef) (how : EndHow) : ∃ sl, (s.stopSlot r how).slotAt r = stopped how sl := by
  obtain ⟨u, hu⟩ := stopSlot_eq_modSlot s r how
  exact ⟨u.slotAt r, by rw [hu, modSlot_slotAt_same]⟩
theorem stopped_pend_dest {how : EndHow} {sl : Slot} {q : Pend} (hq : q ∈ (stopped how sl).pend) : q.dest = .none := by
  obtain ⟨p, -, rfl⟩ := List.mem_map.1 hq
  rfl
theorem doubleTrap_slotAt (s : State) (r : SlotRef) (cause : BitVec 8) (tval : Word) :
    ∃ sl, (s.doubleTrap r cause tval).slotAt r = stopped .doubleTrap sl := stopSlot_slotAt ..

end Sys2Proof.Machine.State

namespace Sys2Proof.Claims
open Sys2Proof Sys2Proof.Machine Sys2Proof.Machine.State

/-- Settles O10: with NEST set the trap ends in the slot's stop; with NEST clear it is one update of the slot. -/
theorem trapEntry : Obligations.TrapEntry := by
  refine fun s r cause tval => ⟨fun hn => ?_, fun hn => ?_⟩
  · rw [trapAt_of_nest hn]
    obtain ⟨sl, hsl⟩ := doubleTrap_slotAt s r cause tval
    rw [hsl]
    exact ⟨rfl, rfl, rfl, fun q => stopped_pend_dest⟩
  · rw [trapAt_of_not_nest hn]
    exact ⟨modSlot_slotAt_same .., fun r' hr' => by rw [modSlot_slotAt, if_neg hr'], rfl⟩

end Sys2Proof.Claims
end

section
/-! # ERET -/
namespace Sys2Proof.Machine.State

/-- ERET to an aligned EPC, before its cancellation point: the turn used, the mode restored, PC and penalty set (R104, R332). -/
def returned (s : State) : State :=
  (s.used 8).modHere fun sl => { sl with
    mode := { sl.mode with priv := sl.mode.pp, nest := false }
    pc := s.here.epc, ahead := [], penalty := some (s.cycleOf s.cur.core + 14) }
theorem returned_here (s : State) : s.returned.here = { s.here with
    pc := s.here.epc, ahead := [], mode := { s.here.mode with priv := s.here.mode.pp, nest := false }
    turns := s.here.turns + 1, interval := some (s.cycleOf s.cur.core + 8), walkFault := none, walked := []
    penalty := some (s.cycleOf s.cur.core + 14) } := by
  rw [returned, modHere_here, Claims.used_here]

theorem returnFromTrap_aligned {s : State} (h4 : s.here.epc.toNat % 4 = 0) :
    s.returnFromTrap = s.returned.cancelPoint s.here.epc := if_neg (not_not.2 h4)
theorem returnFromTrap_misaligned {s : State} (h4 : s.here.epc.toNat % 4 ≠ 0) :
    s.returnFromTrap = s.trap 4 s.here.epc := if_pos h4

end Sys2Proof.Machine.State

namespace Sys2Proof.Claims
open Sys2Proof Sys2Proof.Machine Sys2Proof.Machine.State

/-- ERET has no source: on an Active slot in supervisor mode it issues. -/
theorem exec_eret {s : State} (hr : s.here.run = .active) (hp : s.here.mode.priv = true) : exec .eret s = .next s.returnFromTrap :=
  congrArg Host.Outcome.next (issueP_acts (canIssue_nil hr) (.inr hp) rfl _)

/-- Settles O12: an aligned return is one update of the slot followed by the cancellation point at EPC, which reads the restored
mode. -/
theorem returnFromTrap : Obligations.ReturnFromTrap := by
  refine fun s hr hp => ⟨fun h4 => ⟨s.returned.cancelPoint s.here.epc, ?_, ?_, ?_⟩, fun h4 => ?_⟩
  · rw [exec_eret hr hp, returnFromTrap_aligned h4]
  · rw [cancelPoint_rest]; rfl
  · rw [cancelPoint_here, returned_here, hr]
  · rw [exec_eret hr hp, returnFromTrap_misaligned h4]

end Sys2Proof.Claims
end
